-- ==== Sys2Proof/Word.lean ====
section
/-! DEFINITION. The word types of the Crespan 7420 and their plainest arithmetic. -/

namespace Sys2Proof

/-- A byte of a frame (R178). -/
abbrev Byte := BitVec 8

/-- A reading of the millisecond clock (R1): 32 bits, wrapping. -/
abbrev Time := BitVec 32

/-- An event counter (R4): 16 bits, stopping at 65535. -/
abbrev Ctr := BitVec 16

/-- A cyclic counter (R4): 0 to 255, wrapping. -/
abbrev Cyc := BitVec 8

/-- An index of the point table (R6). -/
abbrev PointIx := Fin 256

/-- A line (R14). -/
abbrev LineIx := Fin 12

/-- A zone (00, chapter on zones: 32 entries). -/
abbrev ZoneIx := Fin 32

/-- A trip (R82). -/
abbrev TripIx := Fin 64

/-- A door (R113). -/
abbrev DoorIx := Fin 24

/-- A siren group (R131). -/
abbrev GroupIx := Fin 8

/-- A cadence (R130). -/
abbrev CadenceIx := Fin 8

/-- A local input: index k stands for pin I(k+1), channel k of the own station (R20). -/
abbrev InputIx := Fin 8

/-- A local output: index k stands for pin Q(k+1), channel 8 + k of the own station (R22). -/
abbrev OutputIx := Fin 8

end Sys2Proof
end

