-- ==== Sys2Proof/Config.lean ====
section
/-! DEFINITION. What an implementation fixes and the spec leaves open (constants without a body), and the fixed
capacities and times of the part. -/

namespace Sys2Proof.Config

/-- The part code (R166: "fixed in the part"); the spec gives no value (log 8). -/
opaque partCode : Byte

/-- The revision (R166: "fixed in the part"); the spec gives no value (log 8). -/
opaque revision : Byte

/-- The channel field of the Replies and Notices the part sends; R179 gives its range, no rule its value (log 9). -/
opaque managementChannel : Fin 16

/-- The free choices of order within one step: the n-th choice (logs 5, 7, 16, 17). -/
opaque choice : Nat → Nat

/-- Which of the twelve bytes behind the state of a track record its section leaves out: the record has 23 bytes by R187 and
R188, a Reply 22 (R186; log 10). -/
opaque trackByteLeftOut : Fin 12

/-- How many of the eleven port counters Device section 2 carries, the rest standing in section 3 (R166; log 11). -/
opaque portCountersInFirstSection : Fin 12

/-- R154: the through-buffer holds 4 frames. -/
abbrev throughCapacity : Nat := 4

/-- R156: the urgent queue holds 8 frames. -/
abbrev urgentCapacity : Nat := 8

/-- R156: the routine queue holds 16 frames. -/
abbrev routineCapacity : Nat := 16

/-- R159: the return list holds 8 entries. -/
abbrev returnCapacity : Nat := 8

/-- R51: the strike list holds 32 entries. -/
abbrev strikeCapacity : Nat := 32

/-- R32: a track list holds 16 records. -/
abbrev trackCapacity : Nat := 16

/-- R33: Storm ends at 8 records or fewer. -/
abbrev stormDrain : Nat := 8

/-- R14, R25: the air-sample age limit, 2000 ms, fixed. -/
abbrev airSampleAge : Nat := 2000

/-- R157: a routine head that has waited more than 50 ms goes ahead of through traffic. -/
abbrev routinePatience : Nat := 50

/-- R148: a command in disagreement is issued again after 1000 ms. -/
abbrev repeatInterval : Nat := 1000

/-- R170: a staged half stands for 500 ms. -/
abbrev stagingLimit : Nat := 500

/-- R176: a Commit ends within 2000 ms. -/
abbrev commitLimit : Nat := 2000

/-- R177: the image is read within 250 ms. -/
abbrev loadingLimit : Nat := 250

end Sys2Proof.Config
end

