-- ==== Sys2Proof/Syntax.lean ====
section
/-! DEFINITION. The commands of the part: one constructor per row of spec/opcode_table.json. -/

namespace Sys2Proof

/-- A Request as the Frame Classifier hands it to the Management Unit (R165), less its operation code, which the command
names: the source station, the tag, offset 2 of the payload (table number, part, group size code, bit 7), the index
(offset 3) and the data (R184). -/
structure Request where
  source : Byte
  tag : Byte
  selector : Byte
  index : Byte
  data : List Byte
  deriving DecidableEq, Repr

/-- What the configuration memory does when the image is read (R177): it answers with what it holds, it does not answer, or
what it answers fails the check word. -/
inductive MemoryAnswer where
  | answered
  | silent
  | damaged
  deriving DecidableEq, Repr

/-- How the writing and reading back of an image ends (R176). -/
inductive ReadBack where
  | correct
  | unacknowledged
  | differs
  deriving DecidableEq, Repr

/-- The commands, in the order of spec/opcode_table.json. -/
inductive Instr where
  /-- POWER_ON, R177. -/
  | powerOn
  /-- RESET_PIN, R177: release of the reset pin. -/
  | resetPin
  /-- IMAGE_READ_COMPLETE, R177. -/
  | imageReadComplete (answer : MemoryAnswer)
  /-- LOADING_TIMEOUT, R177. -/
  | loadingTimeout
  /-- FRAME_ARRIVAL, R153: the bytes that arrived at the upstream port, header to check. -/
  | frameArrival (bytes : List Byte)
  /-- SAMPLE_EXPIRY, R25: of the Air sample of an airflow sensor. -/
  | sampleExpiry (sensor : PointIx)
  /-- RETIRE_DEADLINE, R32. -/
  | retireDeadline (line : LineIx)
  /-- RECORD_END_TIME, R31: of the record with this track number. -/
  | recordEndTime (line : LineIx) (track : Cyc)
  /-- STRIKE_ENTRY_FIRE_TIME, R56: of the earliest entry of the strike list. -/
  | strikeEntryFireTime
  /-- HOLD_DEADLINE, R61. -/
  | holdDeadline (valve : PointIx)
  /-- RECOVERY_DEADLINE, R61. -/
  | recoveryDeadline (valve : PointIx)
  /-- FEEDBACK_DEADLINE, R62. -/
  | feedbackDeadline (valve : PointIx)
  /-- SLOT_END, R70. -/
  | slotEnd (zone : ZoneIx)
  /-- TICK, R84: the 1 s tick. -/
  | tick
  /-- GATE_TRAVEL_DEADLINE, R100. -/
  | gateTravelDeadline (line : LineIx)
  /-- RUN_DOWN_DEADLINE, R103. -/
  | runDownDeadline (line : LineIx)
  /-- RUN_OUT_DEADLINE, R120. -/
  | runOutDeadline (door : DoorIx)
  /-- CLEARING_DEADLINE, R121. -/
  | clearingDeadline (door : DoorIx)
  /-- CLOSING_DEADLINE, R122. -/
  | closingDeadline (door : DoorIx)
  /-- CADENCE_END_DEADLINE, R138. -/
  | cadenceEndDeadline (group : GroupIx)
  /-- PHASE_DEADLINE, R137. -/
  | phaseDeadline (group : GroupIx)
  /-- REPEAT_DEADLINE, R148. -/
  | repeatDeadline (point : PointIx)
  /-- DISAGREEMENT_DEADLINE, R149. -/
  | disagreementDeadline (point : PointIx)
  /-- SUPERVISION_POLL, R150. -/
  | supervisionPoll (point : PointIx)
  /-- SUPERVISION_LIMIT, R150. -/
  | supervisionLimit (point : PointIx)
  /-- RAW_LEVEL_CHANGE, R20: the pin's new level, true for On. -/
  | rawLevelChange (input : InputIx) (on : Bool)
  /-- DEBOUNCE_DEADLINE, R20. -/
  | debounceDeadline (input : InputIx)
  /-- TRANSMISSION_COMPLETION, R157. -/
  | transmissionCompletion
  /-- RETURN_DEADLINE, R161. -/
  | returnDeadline
  /-- SILENCE_DEADLINE, R162. -/
  | silenceDeadline
  /-- PREVIOUS_STATION_DEADLINE, R169. -/
  | previousStationDeadline
  /-- STAGING_DEADLINE, R170. -/
  | stagingDeadline
  /-- READ, R167. -/
  | read (rq : Request)
  /-- READ_GROUP, R168. -/
  | readGroup (rq : Request)
  /-- WRITE, R169. -/
  | write (rq : Request)
  /-- WRITE_FIRST, R170. -/
  | writeFirst (rq : Request)
  /-- WRITE_SECOND, R171. -/
  | writeSecond (rq : Request)
  /-- RESET_ZONE, R79. -/
  | resetZone (rq : Request)
  /-- RELEASE_LINE, R107. -/
  | releaseLine (rq : Request)
  /-- RESTORE_DOOR, R125. -/
  | restoreDoor (rq : Request)
  /-- SILENCE_GROUP, R140. -/
  | silenceGroup (rq : Request)
  /-- SIREN_TEST, R141. -/
  | sirenTest (rq : Request)
  /-- CLEAR_COUNTERS, R173. -/
  | clearCounters (rq : Request)
  /-- SET_MODE, R174. -/
  | setMode (rq : Request)
  /-- RESTART, R175. -/
  | restart (rq : Request)
  /-- COMMIT, R176. -/
  | commit (rq : Request)
  /-- COMMIT_COMPLETION, R176. -/
  | commitCompletion (result : ReadBack)
  /-- COMMIT_TIMEOUT, R176. -/
  | commitTimeout
  deriving DecidableEq, Repr

end Sys2Proof
end

