-- ==== Sys2Proof/Machine/State.lean ====
section
/-! DEFINITION. The state of the Crespan 7420 as plain data: the tables (configuration and state parts), the queues and lists
of every block, the pins, the configuration memory, and the queue of waiting commands; the state after power-on; the reasons
a step can stop (none). -/

namespace Sys2Proof.Machine

/-! ## Enumerations -/

/-- The modes (00, "Stations and modes"; codes of R184). -/
inductive Mode where
  | loading | bypass | observe | protect
  deriving DecidableEq, Repr

/-- Zone levels (R5), in their order. -/
inductive Level where
  | quiet | watch | alarm | fire | evacuate
  deriving DecidableEq, Repr

/-- Point kinds, in the order of R6. -/
inductive PointKind where
  | unused | spark | flame | airflow | call | valve | gate | fan | conveyor | door | siren | input | output
  deriving DecidableEq, Repr

/-- The role of a spark detector (R7). -/
inductive Role where
  | primary | check
  deriving DecidableEq, Repr

/-- Status state codes (R181). -/
inductive Code where
  | opened | closed | normal | diverted | moving | running | stopped | sounding | quiet | ready | obscured
  deriving DecidableEq, Repr

/-- Requested states (R144, R183): what a drive record can hold as its commanded state. -/
inductive Requested where
  | opened | closed | normal | divert | stop | permit | hold | release
  | sounding (on off cycles tone : Byte)
  | quiet
  | outOn | outOff
  deriving DecidableEq, Repr

/-- A member of a stop-claim set (R145). -/
inductive Claim where
  | line (l : LineIx)
  | door (d : DoorIx)
  deriving DecidableEq, Repr

/-- Valve record states (R59). -/
inductive ValveState where
  | closed | opened | recovering
  deriving DecidableEq, Repr

/-- Speed sources (R14). -/
inductive SpeedSource where
  | sampled | calibrated | design
  deriving DecidableEq, Repr

/-- Calibration modes (R14). -/
inductive Calibration where
  | off | single | continuous
  deriving DecidableEq, Repr

/-- Strike timing (R14): the fixed strike delay is present under Fixed timing alone. -/
inductive StrikeTiming where
  | computed
  | fixed (delay : Nat)
  deriving DecidableEq, Repr

/-- Track record states (R30). -/
inductive TrackState where
  | inFlight | struck | passed
  deriving DecidableEq, Repr

/-- Line states (R94). -/
inductive LineState where
  | normal | diverting | diverted | stopping | shut
  deriving DecidableEq, Repr

/-- Door states (R114). -/
inductive DoorState where
  | unknown | opened | clearing | releasing | closed | jammed | restoring
  deriving DecidableEq, Repr

/-- Siren group phases (R132). -/
inductive Phase where
  | idle | sounding | allClear | test
  deriving DecidableEq, Repr

/-- Trip modes (R82). -/
inductive TripMode where
  | off | once | edge | every
  deriving DecidableEq, Repr

/-- Trip triggers (R82, R84). -/
inductive Trigger where
  | sparkOnLine (l : LineIx)
  | sparkInZone (z : ZoneIx)
  | escapeOnLine (l : LineIx)
  | levelChange (z : ZoneIx)
  | slotEnd (z : ZoneIx)
  | inputEdge (i : InputIx)
  | tick
  deriving DecidableEq, Repr

/-- Trip sources (R85). -/
inductive Source where
  | zoneWindow (z : ZoneIx)
  | zoneSparks (z : ZoneIx)
  | lineEscapes (l : LineIx)
  | lineConfirms (l : LineIx)
  | lineStrikes (l : LineIx)
  | lineLate (l : LineIx)
  | lineSpeed (l : LineIx)
  | openValves (l : LineIx)
  | inputCount (i : InputIx)
  | inputLevel (i : InputIx)
  deriving DecidableEq, Repr

/-- Trip actions (R82, R91). -/
inductive Action where
  | nothing
  | raiseLevel (z : ZoneIx) (level : Level)
  | shutLine (l : LineIx)
  | outputOn (q : OutputIx)
  | outputOff (q : OutputIx)
  | notice
  deriving DecidableEq, Repr

/-- Reply outcomes (R165, R186). -/
inductive ReplyCode where
  | done | busy | held | index | value | table | sequence | notPermitted
  deriving DecidableEq, Repr

/-- Notice kinds (R165, R186). -/
inductive NoticeKind where
  | started | noImage | modeChanged | zoneLevel | zoneFault | lineState | doorState | valveFault
  | storm | flood | loopCondition | commitDone | commitFailed | tripNotice
  deriving DecidableEq, Repr

/-- The last commit outcome (R176). -/
inductive CommitOutcome where
  | none | done | failed
  deriving DecidableEq, Repr

/-! ## Frames and the Loop Port -/

/-- A frame (R179). Its payload length is the payload's own length and its check is computed (R180). -/
structure Frame where
  dst : Byte
  src : Byte
  kind : Byte
  channel : Byte
  payload : List Byte
  deriving DecidableEq, Repr

/-- A frame in an insert queue and the time it joined (R156). -/
structure Queued where
  frame : Frame
  joined : Time
  deriving DecidableEq, Repr

/-- A return-list entry (R159). -/
structure Return where
  frame : Frame
  deadline : Time
  deriving DecidableEq, Repr

/-- The eleven port counters (R155), in the order of its table. -/
structure PortCounters where
  received : Ctr := 0
  repeated : Ctr := 0
  stripped : Ctr := 0
  droppedCheck : Ctr := 0
  throughOverrun : Ctr := 0
  urgentInserted : Ctr := 0
  routineInserted : Ctr := 0
  urgentLost : Ctr := 0
  routineLost : Ctr := 0
  missing : Ctr := 0
  sentUntracked : Ctr := 0
  deriving DecidableEq, Repr

/-- The Loop Port (R153 to R164). -/
structure Port where
  through : List Frame := []
  urgent : List Queued := []
  routine : List Queued := []
  sending : Option Frame := none
  returns : List Return := []
  upstreamLost : Bool := false
  downstreamOpen : Bool := false
  silenceAt : Option Time := none
  previous : Option (Byte × Time) := none
  counters : PortCounters := {}
  deriving DecidableEq, Repr

/-- The Frame Classifier's counters (R18). -/
structure Classifier where
  delivered : Ctr := 0
  unmapped : Ctr := 0
  badValue : Ctr := 0
  deriving DecidableEq, Repr

/-! ## Points -/

/-- The configuration part of a point entry (R6, R7): a field that is absent for the kind is `none`. -/
structure PointCfg where
  kind : PointKind := .unused
  station : Byte := 0
  channel : Byte := 0
  zone : Option ZoneIx := none
  line : Option LineIx := none
  position : Option Nat := none
  supervision : Option Nat := none
  feedback : Option Nat := none
  lead : Option Nat := none
  hold : Option Nat := none
  recovery : Option Nat := none
  arming : Option Nat := none
  role : Option Role := none
  debounce : Option Nat := none
  deriving DecidableEq, Repr

/-- A drive record (R143). `pollPlaced` holds the time the last poll was placed, until the point is heard;
`State.pollOutstanding` is the flag (R150, R152; log 31). -/
structure Drive where
  commanded : Option Requested := none
  reported : Option Code := none
  lastHeard : Option Time := none
  lastCommand : Option Time := none
  unsupervised : Bool := false
  disagree : Bool := false
  obscured : Bool := false
  pollPlaced : Option Time := none
  repeatAt : Option Time := none
  disagreeAt : Option Time := none
  claims : List Claim := []
  withheld : Ctr := 0
  repeats : Ctr := 0
  deriving DecidableEq, Repr

/-- A valve record (R59). -/
structure Valve where
  state : ValveState := .closed
  holdAt : Option Time := none
  recoveryAt : Option Time := none
  faulted : Bool := false
  feedbackAt : Option Time := none
  opens : Ctr := 0
  reopens : Ctr := 0
  unsolicited : Ctr := 0
  deriving DecidableEq, Repr

/-- An Air sample (R25): its freshness is held with the slot. -/
structure Sample where
  speed : Nat
  arrival : Time
  fresh : Bool
  deriving DecidableEq, Repr

/-- A point entry: its configuration part, its state part (R12), its drive record, the valve record of its index (R59) and
the Air sample slot of an airflow sensor (R25). -/
structure Point where
  cfg : PointCfg := {}
  reports : Ctr := 0
  contact : Option Bool := none
  drive : Drive := {}
  valve : Valve := {}
  sample : Option Sample := none
  deriving DecidableEq, Repr

/-! ## Lines -/

/-- The configuration part of a line entry (R14), with its defaults. The air-sample age limit is fixed
(`Config.airSampleAge`). -/
structure LineCfg where
  design : Nat := 200
  floor : Nat := 80
  source : SpeedSource := .design
  calibration : Calibration := .off
  margin : Nat := 40
  endPosition : Nat := 6000
  timing : StrikeTiming := .computed
  gateTravel : Nat := 5
  runDown : Nat := 90
  blindShut : Bool := false
  deriving DecidableEq, Repr

/-- A track record (R30): target valve and fire time are present together. -/
structure Track where
  number : Cyc
  origin : PointIx
  originPosition : Nat
  detected : Time
  speed : Nat
  state : TrackState
  target : Option (PointIx × Time)
  lastMatched : Option Nat
  endTime : Time
  deriving DecidableEq, Repr

/-- A line entry: configuration, the Spark Tracker's fields (R23), the Strike Scheduler's counters (R64) and the Line
Controller's fields (R94). -/
structure Line where
  cfg : LineCfg := {}
  speed : Nat := 200
  speedStale : Bool := false
  flood : Bool := false
  storm : Bool := false
  calibrated : Option Nat := none
  calibrationCount : Cyc := 0
  tracks : List Track := []
  nextTrack : Cyc := 0
  retireAt : Option Time := none
  sparks : Ctr := 0
  confirmations : Ctr := 0
  escapes : Ctr := 0
  untracked : Ctr := 0
  strikes : Ctr := 0
  late : Ctr := 0
  early : Ctr := 0
  state : LineState := .normal
  gateFault : Bool := false
  runDownIncomplete : Bool := false
  gateTravelAt : Option Time := none
  runDownAt : Option Time := none
  tripHeld : List TripIx := []
  diverts : Ctr := 0
  shuts : Ctr := 0
  divertSkipped : Ctr := 0
  deriving DecidableEq, Repr

/-- The member lists of a line and the zones it serves (R13), as last rebuilt from the point table. -/
structure Members where
  detectors : List PointIx := []
  valves : List PointIx := []
  sensors : List PointIx := []
  fans : List PointIx := []
  conveyors : List PointIx := []
  gates : List PointIx := []
  serves : List ZoneIx := []
  deriving DecidableEq, Repr

/-- A strike-list entry (R51). -/
structure Strike where
  fire : Time
  valve : PointIx
  line : LineIx
  track : Cyc
  detached : Bool
  deriving DecidableEq, Repr

/-! ## Zones -/

/-- The configuration part of a zone entry (R66), with its defaults. An absent divert or shut level is Never (R5). -/
structure ZoneCfg where
  slotLength : Nat := 10
  divert : Option Level := some .alarm
  shut : Option Level := some .fire
  escape : Level := .fire
  group : Option GroupIx := none
  watchCadence : Option CadenceIx := none
  alarmCadence : Option CadenceIx := none
  fireCadence : Option CadenceIx := none
  evacuateCadence : Option CadenceIx := none
  deriving DecidableEq, Repr

/-- A zone entry: configuration and state part (R67). -/
structure Zone where
  cfg : ZoneCfg := {}
  level : Level := .quiet
  changed : Option Time := none
  slots : Vector Ctr 8 := Vector.replicate 8 0
  current : Fin 8 := 0
  window : Ctr := 0
  slotEndAt : Option Time := none
  faults : Nat := 0
  sparks : Ctr := 0
  flames : Ctr := 0
  escapes : Ctr := 0
  calls : Ctr := 0
  deriving DecidableEq, Repr

/-! ## Trips -/

/-- A trip source with its use and sign flags (R82, R189). -/
structure SourceUse where
  source : Source := .zoneWindow 0
  used : Bool := false
  negated : Bool := false
  deriving DecidableEq, Repr

/-- The configuration part of a trip entry (R82), with the values it takes without an image. -/
structure TripCfg where
  mode : TripMode := .off
  trigger : Trigger := .tick
  first : SourceUse := {}
  second : SourceUse := {}
  origin : BitVec 32 := 0
  margin : BitVec 32 := 0
  strict : Bool := false
  onTrue : Action := .nothing
  onFalse : Action := .nothing
  deriving DecidableEq, Repr

/-- A trip entry: configuration and state part (R83). -/
structure Trip where
  cfg : TripCfg := {}
  spent : Bool := false
  baseline : Option Bool := none
  latch : Option (Int × Time) := none
  fired : Cyc := 0
  deriving DecidableEq, Repr

/-! ## Doors -/

/-- The configuration part of a door entry (R113), with its defaults. -/
structure DoorCfg where
  point : Option PointIx := none
  sideA : ZoneIx := 0
  sideB : Option ZoneIx := none
  release : Level := .fire
  conveyors : List PointIx := []
  clearing : Nat := 20
  runOut : Nat := 4
  closing : Nat := 30
  deriving DecidableEq, Repr

/-- A door entry: configuration and state part (R114). -/
structure Door where
  cfg : DoorCfg := {}
  state : DoorState := .unknown
  closeRequest : Bool := false
  forced : Bool := false
  wasJammed : Bool := false
  manualClosed : Bool := false
  breached : Bool := false
  clearingAt : Option Time := none
  runOutAt : Option Time := none
  closingAt : Option Time := none
  releases : Ctr := 0
  forcedCount : Ctr := 0
  jams : Ctr := 0
  breaches : Ctr := 0
  deriving DecidableEq, Repr

/-! ## Sirens -/

/-- A cadence entry (R130), with its defaults. -/
structure Cadence where
  rank : Byte := 1
  on : Byte := 50
  off : Byte := 50
  cycles : Byte := 0
  tone : Byte := 0
  deriving DecidableEq, Repr

/-- The configuration part of a siren group (R131). Bit k of `outputs` stands for Q(k+1). -/
structure GroupCfg where
  sirens : List PointIx := []
  outputs : BitVec 8 := 0
  allClear : Option CadenceIx := none
  test : Option CadenceIx := none
  deriving DecidableEq, Repr

/-- A siren group: configuration, state part (R132) and local cadence engine (R137). The request set holds at most one
cadence for each zone. -/
structure Group where
  cfg : GroupCfg := {}
  requests : Vector (Option CadenceIx) 32 := Vector.replicate 32 none
  phase : Phase := .idle
  winner : Option (ZoneIx × CadenceIx) := none
  sounding : Option CadenceIx := none
  endAt : Option Time := none
  silencedRank : Option Nat := none
  starts : Ctr := 0
  silences : Ctr := 0
  tests : Ctr := 0
  engineOn : Bool := false
  phaseAt : Option Time := none
  deriving DecidableEq, Repr

/-! ## Local inputs, management, the configuration memory -/

/-- A local input (R20): the raw level is the pin's, On while its contact is closed. -/
structure Input where
  raw : Bool := false
  level : Bool := false
  edges : Cyc := 0
  lastEdge : Option Time := none
  debounceAt : Option Time := none
  deriving DecidableEq, Repr

/-- The writable configuration of the Device record (R166, R177), with the values it has without a good image. -/
structure DeviceCfg where
  own : Byte := 125
  supervisor : Byte := 1
  silenceLimit : Nat := 100
  returnLimit : Nat := 50
  deriving DecidableEq, Repr

/-- What an image copies (10, "The configuration image"): the Device record's configuration part and the
configuration parts of the seven other tables. -/
structure Image where
  device : DeviceCfg := {}
  mode : Mode := .bypass
  points : Vector PointCfg 256 := Vector.replicate 256 {}
  lines : Vector LineCfg 12 := Vector.replicate 12 {}
  zones : Vector ZoneCfg 32 := Vector.replicate 32 {}
  trips : Vector TripCfg 64 := Vector.replicate 64 {}
  doors : Vector DoorCfg 24 := Vector.replicate 24 {}
  groups : Vector GroupCfg 8 := Vector.replicate 8 {}
  cadences : Vector Cadence 8 := Vector.replicate 8 {}
  deriving DecidableEq, Repr

/-- What the configuration memory holds (R176, R177): content that fails its check (or holds a field no configuration part
can hold), or an image with the part code it was written under. -/
inductive Memory where
  | unreadable
  | image (part : Byte) (content : Image)
  deriving DecidableEq, Repr

/-- The staging record while it is full (R170). -/
structure Staging where
  tag : Byte
  table : Nat
  index : Nat
  half : List Byte
  deadline : Time
  deriving DecidableEq, Repr

/-- A Commit while it is Running (R176): the image being written and the time it must have ended by. -/
structure Running where
  content : Image
  deadline : Time
  deriving DecidableEq, Repr

/-- The Management Unit (R170, R176, R177). The commit state is Running while `commit` is present; `loadingAt` is the time
by which the image must have been read. -/
structure Management where
  staging : Option Staging := none
  replaced : Ctr := 0
  expired : Ctr := 0
  commit : Option Running := none
  lastCommit : CommitOutcome := .none
  loadingAt : Option Time := none
  deriving DecidableEq, Repr

/-! ## The state -/

/-- The whole part, and the queue of commands that wait for it. `triggers` holds the trigger events raised and not yet taken
by the Trip Unit (R92); `draws` counts the free choices taken (log 16). -/
structure State where
  pending : List Instr
  clock : Time
  mode : Mode
  device : DeviceCfg
  points : Vector Point 256
  members : Vector Members 12
  lines : Vector Line 12
  strikes : List Strike
  zones : Vector Zone 32
  trips : Vector Trip 64
  doors : Vector Door 24
  groups : Vector Group 8
  cadences : Vector Cadence 8
  inputs : Vector Input 8
  outputs : Vector Bool 8
  port : Port
  classifier : Classifier
  mgmt : Management
  memory : Memory
  triggers : List Trigger
  draws : Nat
  deriving DecidableEq, Repr

/-- The part right after power-on (R177): Loading, the clock at 0, every block at its power-on values, the tables at the
values they hold without a good image (log 3), and the image to be read within 250 ms. What the configuration memory and the
input pins hold is outside the part (logs 4, 30). -/
def State.reset : State where
  pending := []
  clock := 0
  mode := .loading
  device := {}
  points := Vector.replicate 256 {}
  members := Vector.replicate 12 {}
  lines := Vector.replicate 12 {}
  strikes := []
  zones := Vector.replicate 32 {}
  trips := Vector.replicate 64 {}
  doors := Vector.replicate 24 {}
  groups := Vector.replicate 8 {}
  cadences := Vector.replicate 8 {}
  inputs := Vector.replicate 8 {}
  outputs := Vector.replicate 8 false
  port := {}
  classifier := {}
  mgmt := { loadingAt := some (BitVec.ofNat 32 Config.loadingLimit) }
  memory := .unreadable
  triggers := []
  draws := 0

/-! ## How a step can stop -/

/-- The faults of the part. There is none: the spec names no command that stops the part (INVENTORY.md, "Faults"), so this
type has no constructor and no meaning can raise one. -/
inductive Fault where
  deriving DecidableEq, Repr

/-- The refusals of the model. -/
inductive Refusal where
  /-- Raised by `exec` alone, for a command without a meaning in this model (safe: nothing is claimed of it). No arm raises
  it: every command has its meaning. -/
  | notModelled (mnemonic : String)
  deriving DecidableEq, Repr

end Sys2Proof.Machine
end

