-- ==== Sys2Proof/Machine/Ops.lean ====
section
/-! DEFINITION. The shared operations: clock comparisons (R1), counters (R4), reading and updating the tables, joining the
insert queues and the downstream arbiter (R156 to R159), Notices and Replies (R165, R186), and the free order of events the
spec leaves unordered (log 5). -/

namespace Sys2Proof.Machine

/-! ## Time -/

/-- `d` has been reached at `now`: it is not ahead of `now`, compared within half the wrap range (00, "Time"; log 26). -/
def reached (now d : Time) : Bool := decide ((now - d).toNat < 2 ^ 31)

/-- A deadline stands and has been reached. -/
def due (now : Time) : Option Time → Bool
  | none => false
  | some d => reached now d

/-- A deadline stands and lies before now. -/
def overdue (now : Time) : Option Time → Bool
  | none => false
  | some d => reached now d && decide (d ≠ now)

/-- The clock value `ms` milliseconds after `t`. -/
def after (t : Time) (ms : Nat) : Time := t + BitVec.ofNat 32 ms

/-- Milliseconds from `t` to `now`. -/
def elapsed (now t : Time) : Nat := (now - t).toNat

/-- The later of two clock values (R60). -/
def later (a b : Time) : Time := if reached a b then a else b

/-- R3: the transit time in ms of a distance in dm at a speed in dm/s, rounded down. -/
def transit (distance speed : Nat) : Nat := distance * 1000 / speed

/-! ## Counters -/

/-- One more event on an event counter (R4): it stops at 65535. -/
def bump (c : Ctr) : Ctr := if c = 65535#16 then c else c + 1

/-- `n` more events on an event counter. -/
def bumpBy : Nat → Ctr → Ctr
  | 0, c => c
  | n + 1, c => bumpBy n (bump c)

/-! ## Levels (R5) -/

/-- The value of a level. -/
def Level.rank : Level → Nat
  | .quiet => 0
  | .watch => 1
  | .alarm => 2
  | .fire => 3
  | .evacuate => 4

/-- `a` is at or above `b`. -/
def Level.atLeast (a b : Level) : Bool := decide (b.rank ≤ a.rank)

/-- `a` is at or above a threshold, Never being `none`: no level reaches Never. -/
def Level.reaches (a : Level) : Option Level → Bool
  | none => false
  | some b => a.atLeast b

/-! ## Reading and updating the tables -/

def State.point (s : State) (i : PointIx) : Point := s.points[i.val]
def State.line (s : State) (l : LineIx) : Line := s.lines[l.val]
def State.membersOf (s : State) (l : LineIx) : Members := s.members[l.val]
def State.zone (s : State) (z : ZoneIx) : Zone := s.zones[z.val]
def State.trip (s : State) (t : TripIx) : Trip := s.trips[t.val]
def State.door (s : State) (d : DoorIx) : Door := s.doors[d.val]
def State.group (s : State) (g : GroupIx) : Group := s.groups[g.val]
def State.cadence (s : State) (c : CadenceIx) : Cadence := s.cadences[c.val]
def State.input (s : State) (i : InputIx) : Input := s.inputs[i.val]
def State.output (s : State) (q : OutputIx) : Bool := s.outputs[q.val]

def State.modPoint (s : State) (i : PointIx) (f : Point → Point) : State :=
  { s with points := s.points.set i.val (f (s.point i)) }
def State.modLine (s : State) (l : LineIx) (f : Line → Line) : State :=
  { s with lines := s.lines.set l.val (f (s.line l)) }
def State.modZone (s : State) (z : ZoneIx) (f : Zone → Zone) : State :=
  { s with zones := s.zones.set z.val (f (s.zone z)) }
def State.modTrip (s : State) (t : TripIx) (f : Trip → Trip) : State :=
  { s with trips := s.trips.set t.val (f (s.trip t)) }
def State.modDoor (s : State) (d : DoorIx) (f : Door → Door) : State :=
  { s with doors := s.doors.set d.val (f (s.door d)) }
def State.modGroup (s : State) (g : GroupIx) (f : Group → Group) : State :=
  { s with groups := s.groups.set g.val (f (s.group g)) }
def State.modInput (s : State) (i : InputIx) (f : Input → Input) : State :=
  { s with inputs := s.inputs.set i.val (f (s.input i)) }
def State.modPort (s : State) (f : Port → Port) : State := { s with port := f s.port }
def State.modMgmt (s : State) (f : Management → Management) : State := { s with mgmt := f s.mgmt }

/-- Change a point's drive record. -/
def State.modDrive (s : State) (i : PointIx) (f : Drive → Drive) : State :=
  s.modPoint i fun p => { p with drive := f p.drive }

/-- Change a point's valve record. -/
def State.modValve (s : State) (i : PointIx) (f : Valve → Valve) : State :=
  s.modPoint i fun p => { p with valve := f p.valve }

/-- Change the port counters. -/
def Port.count (p : Port) (f : PortCounters → PortCounters) : Port := { p with counters := f p.counters }

/-- The blocks take their events: Observe or Protect. -/
def State.active (s : State) : Bool := s.mode == .observe || s.mode == .protect

/-- A used entry (R6). -/
def PointCfg.used (c : PointCfg) : Bool := c.kind != .unused

/-- A used point whose station is the own station (R6). -/
def State.isLocal (s : State) (i : PointIx) : Bool :=
  (s.point i).cfg.used && (s.point i).cfg.station == s.device.own

/-- A used point whose station is not the own station (R6). -/
def State.isLoop (s : State) (i : PointIx) : Bool :=
  (s.point i).cfg.used && (s.point i).cfg.station != s.device.own

/-- A point is a used entry of a kind. -/
def State.isKind (s : State) (i : PointIx) (k : PointKind) : Bool := (s.point i).cfg.kind == k

/-- Every index of the point table, in order. -/
def allPoints : List PointIx := List.finRange 256

/-- The used entry with a key (R8 lets one entry at most have it). -/
def State.findPoint (s : State) (station channel : Byte) : Option PointIx :=
  allPoints.find? fun i =>
    let c := (s.point i).cfg
    c.used && c.station == station && c.channel == channel

/-- The point entry of a local input's channel (R20). -/
def State.inputPoint (s : State) (i : InputIx) : Option PointIx := s.findPoint s.device.own (BitVec.ofNat 8 i.val)

/-- The point entry of a local output's channel (R22). -/
def State.outputPoint (s : State) (q : OutputIx) : Option PointIx :=
  s.findPoint s.device.own (BitVec.ofNat 8 (8 + q.val))

/-- Line L serves zone Z by the service map as it stands (R13). -/
def State.lineServes (s : State) (l : LineIx) (z : ZoneIx) : Bool := (s.membersOf l).serves.contains z

/-! ## Events the spec leaves unordered (log 5) -/

/-- Two events in either order: where both orders end alike there is nothing to choose; where they do not, the choice is
free. -/
def eitherOrder (f g : State → State) (s : State) : State :=
  let a := g (f s)
  let b := f (g s)
  if a = b then a
  else
    let n := max a.draws b.draws
    if Config.choice n % 2 = 0 then { a with draws := n + 1 } else { b with draws := n + 1 }

/-- Events in a freely chosen order: one of those left is chosen each time; the first argument bounds how many are taken. -/
def pickOrder : Nat → List (State → State) → State → State
  | 0, _, s => s
  | _ + 1, [], s => s
  | n + 1, f :: fs, s =>
    let k := Config.choice s.draws % (fs.length + 1)
    pickOrder n ((f :: fs).eraseIdx k) (((f :: fs)[k]?.getD f) { s with draws := s.draws + 1 })

/-- Events in any order. -/
def inAnyOrder (fs : List (State → State)) (s : State) : State :=
  match fs with
  | [] => s
  | [f] => f s
  | [f, g] => eitherOrder f g s
  | fs => pickOrder fs.length fs s

/-- A free choice between two outcomes (log 17). -/
def freely (f g : State → State) (s : State) : State :=
  if Config.choice s.draws % 2 = 0 then f { s with draws := s.draws + 1 } else g { s with draws := s.draws + 1 }

/-! ## The downstream port -/

/-- R157, R159: an inserted frame starts to be sent, and is entered in the return list or sent untracked. -/
def Port.startInserted (now : Time) (limit : Nat) (f : Frame) (p : Port) : Port :=
  if p.returns.length < Config.returnCapacity then
    { p with sending := some f, returns := p.returns ++ [{ frame := f, deadline := after now limit }] }
  else
    { p with sending := some f, counters := { p.counters with sentUntracked := bump p.counters.sentUntracked } }

/-- R157: the head of the urgent queue leaves it and starts. -/
def Port.startUrgent (now : Time) (limit : Nat) (q : Queued) (rest : List Queued) (p : Port) : Port :=
  ({ p with urgent := rest,
            counters := { p.counters with urgentInserted := bump p.counters.urgentInserted } } : Port).startInserted
    now limit q.frame

/-- R157: the head of the routine queue leaves it and starts. -/
def Port.startRoutine (now : Time) (limit : Nat) (q : Queued) (rest : List Queued) (p : Port) : Port :=
  ({ p with routine := rest,
            counters := { p.counters with routineInserted := bump p.counters.routineInserted } } : Port).startInserted
    now limit q.frame

/-- R157: a through frame starts. -/
def Port.startThrough (f : Frame) (rest : List Frame) (p : Port) : Port :=
  { p with through := rest, sending := some f, counters := { p.counters with repeated := bump p.counters.repeated } }

/-- R157: the arbiter's choice among what is present, the port falling idle when nothing is. -/
def Port.arbitrate (now : Time) (limit : Nat) (p : Port) : Port :=
  match p.urgent, p.routine, p.through with
  | u :: us, _, _ => p.startUrgent now limit u us
  | [], r :: rs, t :: ts =>
    if Config.routinePatience < elapsed now r.joined then p.startRoutine now limit r rs else p.startThrough t ts
  | [], r :: rs, [] => p.startRoutine now limit r rs
  | [], [], t :: ts => p.startThrough t ts
  | [], [], [] => { p with sending := none }

/-- R157: an idle port chooses at the moment a frame joins an insert queue. -/
def Port.chooseIfIdle (now : Time) (limit : Nat) (p : Port) : Port :=
  if p.sending.isNone then p.arbitrate now limit else p

/-- R156: a Drive or Sound frame is due for the urgent queue. -/
def Port.joinUrgent (now : Time) (limit : Nat) (f : Frame) (p : Port) : Port :=
  if p.urgent.length < Config.urgentCapacity then
    ({ p with urgent := p.urgent ++ [{ frame := f, joined := now }] } : Port).chooseIfIdle now limit
  else { p with counters := { p.counters with urgentLost := bump p.counters.urgentLost } }

/-- R156: a Poll, Reply or Notice is due for the routine queue. -/
def Port.joinRoutine (now : Time) (limit : Nat) (f : Frame) (p : Port) : Port :=
  if p.routine.length < Config.routineCapacity then
    ({ p with routine := p.routine ++ [{ frame := f, joined := now }] } : Port).chooseIfIdle now limit
  else { p with counters := { p.counters with routineLost := bump p.counters.routineLost } }

def joinUrgent (f : Frame) (s : State) : State := s.modPort (·.joinUrgent s.clock s.device.returnLimit f)
def joinRoutine (f : Frame) (s : State) : State := s.modPort (·.joinRoutine s.clock s.device.returnLimit f)

/-- Free places in the routine queue (R156, R167). -/
def State.routineFree (s : State) : Nat := Config.routineCapacity - s.port.routine.length

/-! ## Notices and Replies -/

/-- A field of two bytes, most significant first (R178). -/
def be16 (n : Nat) : List Byte := [BitVec.ofNat 8 (n / 256), BitVec.ofNat 8 n]

/-- A field of three bytes. -/
def be24 (n : Nat) : List Byte := [BitVec.ofNat 8 (n / 65536), BitVec.ofNat 8 (n / 256), BitVec.ofNat 8 n]

/-- A field of four bytes. -/
def be32 (w : BitVec 32) : List Byte :=
  [w.extractLsb' 24 8, w.extractLsb' 16 8, w.extractLsb' 8 8, w.extractLsb' 0 8]

/-- R186: the code of a Notice kind. -/
def NoticeKind.code : NoticeKind → Byte
  | .started => 1
  | .noImage => 2
  | .modeChanged => 3
  | .zoneLevel => 4
  | .zoneFault => 5
  | .lineState => 6
  | .doorState => 7
  | .valveFault => 8
  | .storm => 9
  | .flood => 10
  | .loopCondition => 11
  | .commitDone => 12
  | .commitFailed => 13
  | .tripNotice => 14

/-- R186: the code of a Reply outcome. -/
def ReplyCode.code : ReplyCode → Nat
  | .done => 0
  | .busy => 1
  | .held => 2
  | .index => 3
  | .value => 4
  | .table => 5
  | .sequence => 6
  | .notPermitted => 7

/-- R184: the mode codes. -/
def Mode.code : Mode → Nat
  | .loading => 0
  | .bypass => 1
  | .observe => 2
  | .protect => 3

/-- R186: line state codes. -/
def LineState.code : LineState → Nat
  | .normal => 0
  | .diverting => 1
  | .diverted => 2
  | .stopping => 3
  | .shut => 4

/-- R186: door state codes. -/
def DoorState.code : DoorState → Nat
  | .unknown => 0
  | .opened => 1
  | .clearing => 2
  | .releasing => 3
  | .closed => 4
  | .jammed => 5
  | .restoring => 6

/-- R165, R186: the frame of a Notice built now. -/
def noticeFrame (s : State) (kind : NoticeKind) (object : Nat) (value : Int) : Frame where
  dst := s.device.supervisor
  src := s.device.own
  kind := 12
  channel := BitVec.ofNat 8 Config.managementChannel.val
  payload := [kind.code, BitVec.ofNat 8 object] ++ be32 (BitVec.ofInt 32 value) ++ be32 s.clock

/-- A Notice goes to the routine queue (R165). -/
def notify (kind : NoticeKind) (object : Nat) (value : Int) (s : State) : State :=
  joinRoutine (noticeFrame s kind object value) s

/-- R165, R186: the frame of a Reply to a Request. -/
def replyFrame (s : State) (rq : Request) (code : ReplyCode) (position : Nat) (data : List Byte) : Frame where
  dst := rq.source
  src := s.device.own
  kind := 11
  channel := BitVec.ofNat 8 Config.managementChannel.val
  payload := [rq.tag, BitVec.ofNat 8 (code.code + 8 * position)] ++ data

/-- A Reply without data at position 0: every refusal, and Done of a write or command (R165). -/
def reply (rq : Request) (code : ReplyCode) (s : State) : State := joinRoutine (replyFrame s rq code 0 []) s

/-- The Done Replies of a Read or ReadGroup, built together and placed in the order of their positions (R165). -/
def replyData (rq : Request) (s : State) (parts : List (List Byte)) : State :=
  (parts.zipIdx.map fun d => replyFrame s rq .done d.2 d.1).foldl (fun t f => joinRoutine f t) s

/-- A trigger event is raised to the Trip Unit (R84, R92). -/
def raiseTrigger (t : Trigger) (s : State) : State := { s with triggers := s.triggers ++ [t] }

end Sys2Proof.Machine
end

