-- ==== Sys2Proof/Machine/Flags.lean ====
section
/-! DEFINITION. The flag computations: flags and sets as bits (R187), the fault flags of points and doors and the zone fault
counts they add up to (R77, R78, R151). -/

namespace Sys2Proof.Machine

/-! ## Flags and sets as bits (R187) -/

/-- Up to eight flags in one byte, the first in bit 0. -/
def packFlags : List Bool → Byte
  | [] => 0
  | b :: bs => (packFlags bs <<< 1) ||| (if b then 1 else 0)

/-- A set as a bitmap of `n` bytes, member 0 in bit 0 of the first byte. -/
def bitmap : Nat → List Bool → List Byte
  | 0, _ => []
  | n + 1, bs => packFlags (bs.take 8) :: bitmap n (bs.drop 8)

/-! ## Fault contributions (R77) -/

/-- A drive record carries at least one of Unsupervised, Disagree and Obscured. -/
def Drive.faulty (d : Drive) : Bool := d.unsupervised || d.disagree || d.obscured

/-- A used point's faults count in this zone: its zone field's, or, for a gate, fan or conveyor, every zone its line serves
(R77). -/
def State.countsIn (s : State) (i : PointIx) (z : ZoneIx) : Bool :=
  let c := (s.point i).cfg
  match c.kind with
  | .gate | .fan | .conveyor => match c.line with
    | some l => s.lineServes l z
    | none => false
  | .unused | .input | .output => false
  | .spark | .flame | .airflow | .call | .valve | .door | .siren => c.zone == some z

/-- The points that carry a fault flag. -/
def State.faultyPoints (s : State) : List PointIx :=
  allPoints.filter fun i => (s.point i).cfg.used && (s.point i).drive.faulty

/-- The doors in state Jammed. -/
def State.jammedDoors (s : State) : List DoorIx := (List.finRange 24).filter fun d => (s.door d).state == .jammed

/-- A door has the zone on side A or side B, counted once when both sides are the same zone (R77, R113). -/
def Door.borders (d : Door) (z : ZoneIx) : Bool := d.cfg.sideA == z || d.cfg.sideB == some z

/-- R77: the three contributions to a zone's fault count, from the faulty points and jammed doors. -/
def State.faultSum (s : State) (points : List PointIx) (doors : List DoorIx) (z : ZoneIx) : Nat :=
  (points.filter fun i => s.countsIn i z).length
    + (doors.filter fun d => (s.door d).borders z).length
    + (if s.port.upstreamLost then 1 else 0)

/-- R77: a zone's fault count. -/
def State.faultCount (s : State) (z : ZoneIx) : Nat := s.faultSum s.faultyPoints s.jammedDoors z

/-- R78: one zone's count is brought up to date, with a ZoneFault notice when it changes. -/
def updateFaults (z : ZoneIx) (n : Nat) (s : State) : State :=
  if (s.zone z).faults = n then s
  else notify .zoneFault z.val n (s.modZone z fun r => { r with faults := n })

/-- R77, R78: the Zone Unit brings every zone's fault count up to date after a contribution has changed, in ascending order
of zone number; it does so in Observe and Protect (log 22). -/
def recountFaults (s : State) : State :=
  if s.active then
    let points := s.faultyPoints
    let doors := s.jammedDoors
    (List.finRange 32).foldl (fun t z => updateFaults z (s.faultSum points doors z) t) s
  else s

end Sys2Proof.Machine
end

