-- ==== Sys2Proof/Machine/PlantMap.lean ====
section
/-! DEFINITION. The plant map: which fields each kind of point has (R6, R7), the derived member lists and service map (R13),
and the geometry later chapters read from them. -/

namespace Sys2Proof.Machine

/-! ## Fields by kind (R6) -/

def PointKind.hasZone : PointKind → Bool
  | .spark | .flame | .airflow | .call | .valve | .door | .siren => true
  | .unused | .gate | .fan | .conveyor | .input | .output => false

def PointKind.hasLine : PointKind → Bool
  | .spark | .flame | .airflow | .valve | .gate | .fan | .conveyor => true
  | .unused | .call | .door | .siren | .input | .output => false

def PointKind.hasPosition : PointKind → Bool
  | .spark | .flame | .valve => true
  | .unused | .airflow | .call | .gate | .fan | .conveyor | .door | .siren | .input | .output => false

/-- R6: every kind but the general input and output has a supervision limit on the loop. -/
def PointKind.hasSupervision : PointKind → Bool
  | .spark | .flame | .airflow | .call | .valve | .gate | .fan | .conveyor | .door | .siren => true
  | .unused | .input | .output => false

def PointKind.hasFeedback : PointKind → Bool
  | .valve | .gate | .fan | .conveyor | .siren => true
  | .unused | .spark | .flame | .airflow | .call | .door | .input | .output => false

/-- R6: a debounce time stands on local inputs alone. -/
def PointKind.hasDebounce (isLocal : Bool) : PointKind → Bool
  | .input => true
  | .flame | .call => isLocal
  | .unused | .spark | .airflow | .valve | .gate | .fan | .conveyor | .door | .siren | .output => false

/-! ## Durations in ms (R2, R7) -/

def PointCfg.supervisionMs (c : PointCfg) : Nat := c.supervision.getD 0 * 1000
def PointCfg.feedbackMs (c : PointCfg) : Nat := c.feedback.getD 0 * 100
def PointCfg.holdMs (c : PointCfg) : Nat := c.hold.getD 0 * 100
def PointCfg.recoveryMs (c : PointCfg) : Nat := c.recovery.getD 0 * 100
def PointCfg.leadMs (c : PointCfg) : Nat := c.lead.getD 0
def PointCfg.debounceMs (c : PointCfg) : Nat := c.debounce.getD 0
def PointCfg.pos (c : PointCfg) : Nat := c.position.getD 0

/-! ## Member lists (R13) -/

/-- Insert a point by position, after every point whose position is lower or equal. -/
def insertByPosition (i : PointIx) (pos : PointIx → Nat) : List PointIx → List PointIx
  | [] => [i]
  | j :: js => if pos i < pos j then i :: j :: js else j :: insertByPosition i pos js

/-- Points in order of position, equal positions in the order given. -/
def sortByPosition (pos : PointIx → Nat) (l : List PointIx) : List PointIx :=
  l.foldl (fun acc i => insertByPosition i pos acc) []

/-- The used entries that name line `l`, by index. -/
def pointsOfLine (cfg : PointIx → PointCfg) (l : LineIx) : List PointIx :=
  allPoints.filter fun i => (cfg i).used && (cfg i).line == some l

/-- R13: the member lists of a line and the zones it serves, formed from a point table. -/
def membersOf (cfg : PointIx → PointCfg) (l : LineIx) : Members :=
  let mine := pointsOfLine cfg l
  let ofKind := fun k => mine.filter fun i => (cfg i).kind == k
  let pos := fun i : PointIx => (cfg i).pos
  let detectors := sortByPosition pos (mine.filter fun i => (cfg i).kind == .spark || (cfg i).kind == .flame)
  { detectors := detectors
    valves := sortByPosition pos (ofKind .valve)
    sensors := ofKind .airflow
    fans := ofKind .fan
    conveyors := ofKind .conveyor
    gates := ofKind .gate
    serves := (List.finRange 32).filter fun z => detectors.any fun i => (cfg i).zone == some z }

/-- The configuration parts of the point table. -/
def State.pointCfg (s : State) (i : PointIx) : PointCfg := (s.point i).cfg

/-- R13: the Frame Classifier rebuilds all member lists and the service map. -/
def rebuildMaps (s : State) : State :=
  { s with members := Vector.ofFn fun l => membersOf s.pointCfg l }

/-! ## Geometry -/

/-- R13: every valve downstream of position `p`, in the order of the valves list. -/
def State.valvesBeyond (s : State) (l : LineIx) (p : Nat) : List PointIx :=
  (s.membersOf l).valves.filter fun v => decide (p < (s.point v).cfg.pos)

/-- A list from its first occurrence of an index on. -/
def fromIndex (v : PointIx) (l : List PointIx) : List PointIx := l.dropWhile (· != v)

/-- The line has a gate (R98). -/
def State.gateOf (s : State) (l : LineIx) : Option PointIx := (s.membersOf l).gates.head?

/-- R106, R64: a valve of the line is Open. -/
def State.openValves (s : State) (l : LineIx) : Nat :=
  ((s.membersOf l).valves.filter fun v => (s.point v).valve.state == .opened).length

/-- The lines that serve a zone, in order. -/
def State.linesServing (s : State) (z : ZoneIx) : List LineIx := (List.finRange 12).filter fun l => s.lineServes l z

end Sys2Proof.Machine
end

