-- ==== Sys2Proof/Machine/Drive.lean ====
section
/-! DEFINITION. The Drive Unit: commands and their frames (R144, R183), stop claims (R145), disagreement and its deadlines
(R147 to R149), points heard and supervised (R150), and the pins of the local outputs (R22). -/

namespace Sys2Proof.Machine

/-! ## Local outputs (R22) -/

/-- R22: the pin is driven in Protect while the commanded state of its output point is On. -/
def State.pinShould (s : State) (q : OutputIx) : Bool :=
  s.mode == .protect &&
    match s.outputPoint q with
    | some i => (s.point i).drive.commanded == some .outOn
    | none => false

/-- R22: every output pin takes the level its commanded state and the mode give. -/
def syncPins (s : State) : State := { s with outputs := Vector.ofFn fun q => s.pinShould q }

/-- The output pin of a local point: channels 8 to 15 of the own station are Q1 to Q8. -/
def State.pinOf (s : State) (i : PointIx) : Bool :=
  match (List.finRange 8).find? fun q : OutputIx => (s.point i).cfg.channel == BitVec.ofNat 8 (8 + q.val) with
  | some q => s.output q
  | none => false

/-! ## Frames (R183) -/

/-- R183: the code of a requested state in a Drive payload. -/
def Requested.driveCode : Requested → Byte
  | .opened => 1
  | .closed => 2
  | .normal => 3
  | .divert => 4
  | .stop => 5
  | .permit => 6
  | .hold => 7
  | .release => 8
  | .sounding .. => 0
  | .quiet => 0
  | .outOn => 0
  | .outOff => 0

/-- R183: the frame that carries a requested state to a loop point. -/
def commandFrame (s : State) (i : PointIx) (r : Requested) : Frame :=
  let c := (s.point i).cfg
  match r with
  | .sounding on off cycles tone =>
    { dst := c.station, src := s.device.own, kind := 9, channel := c.channel, payload := [1, on, off, cycles, tone] }
  | .quiet => { dst := c.station, src := s.device.own, kind := 9, channel := c.channel, payload := [0, 0, 0, 0, 0] }
  | .opened | .closed | .normal | .divert | .stop | .permit | .hold | .release | .outOn | .outOff =>
    { dst := c.station, src := s.device.own, kind := 7, channel := c.channel, payload := [r.driveCode] }

/-- R183, R150: a Poll frame. -/
def pollFrame (s : State) (i : PointIx) : Frame where
  dst := (s.point i).cfg.station
  src := s.device.own
  kind := 8
  channel := (s.point i).cfg.channel
  payload := []

/-! ## Disagreement (R147) -/

/-- The length of a cadence's fields in ms, 0 for a continuous one (R130). -/
def cadenceLength (on off cycles : Byte) : Nat := cycles.toNat * (on.toNat + off.toNat) * 10

/-- R147: a requested state is reconciled. -/
def Requested.reconciled : Requested → Bool
  | .opened | .closed | .normal | .divert | .stop | .release | .sounding .. | .quiet => true
  | .permit | .hold | .outOn | .outOff => false

/-- R147: Disagree applies to a requested state: to every reconciled one but Release. -/
def Requested.flagged : Requested → Bool
  | .opened | .closed | .normal | .divert | .stop | .sounding .. | .quiet => true
  | .permit | .hold | .release | .outOn | .outOff => false

/-- R147: a reported state matches the commanded state. -/
def Requested.matchedBy (r : Requested) (now : Time) (lastCommand : Option Time) (code : Code) : Bool :=
  match r with
  | .opened => code == .opened
  | .closed => code == .closed
  | .divert => code == .diverted
  | .normal => code == .normal
  | .stop => code == .stopped
  | .release => code == .closed
  | .sounding on off cycles _ =>
    code == .sounding ||
      (code == .quiet && cycles != 0 &&
        match lastCommand with
        | some t => decide (cadenceLength on off cycles ≤ elapsed now t)
        | none => false)
  | .quiet => code == .quiet
  | .permit | .hold | .outOn | .outOff => false

/-- R147: a drive record's commanded state is reconciled, and its reported state is absent or does not match. -/
def Drive.disagrees (d : Drive) (now : Time) : Bool :=
  match d.commanded with
  | none => false
  | some r => r.reconciled &&
    match d.reported with
    | none => true
    | some code => !r.matchedBy now d.lastCommand code

/-- R147: the record of a point is in disagreement; local points never are. -/
def State.inDisagreement (s : State) (i : PointIx) : Bool := s.isLoop i && (s.point i).drive.disagrees s.clock

/-- R147, R149: a record whose disagreement has ended loses both deadlines and its Disagree flag. -/
def endDisagreement (i : PointIx) (s : State) : State :=
  let t := s.modDrive i fun d => { d with repeatAt := none, disagreeAt := none, disagree := false }
  if (s.point i).drive.disagree then recountFaults t else t

/-- R147: disagreement begins: both deadlines are set from now, the second where Disagree applies. -/
def beginDisagreement (i : PointIx) (s : State) : State :=
  s.modDrive i fun d =>
    { d with
      repeatAt := some (after s.clock Config.repeatInterval)
      disagreeAt :=
        match d.commanded with
        | some r => if r.flagged then some (after s.clock (s.point i).cfg.feedbackMs) else none
        | none => none }

/-- R147: the Drive Unit tests a record, after a command or a change of the reported state; the test takes effect in
Protect. A record in disagreement has its repeat deadline standing. -/
def testDisagreement (newCommand : Bool) (i : PointIx) (s : State) : State :=
  if s.mode = .protect ∧ s.isLoop i = true then
    if s.inDisagreement i then
      if (s.point i).drive.repeatAt.isNone then beginDisagreement i s
      else if newCommand then
        s.modDrive i fun d => { d with repeatAt := some (after s.clock Config.repeatInterval) }
      else s
    else endDisagreement i s
  else s

/-! ## Commands (R144) -/

/-- R144: the commanded state and the last-command time of a record. -/
def recordCommand (i : PointIx) (r : Requested) (s : State) : State :=
  s.modDrive i fun d => { d with commanded := some r, lastCommand := some s.clock }

/-- One more withheld command (R144). -/
def withhold (i : PointIx) (s : State) : State := s.modDrive i fun d => { d with withheld := bump d.withheld }

/-- R144: a command is issued in full. To a loop point its frame joins the urgent queue in Protect and is withheld in
Observe; the pin of a local output follows it (R22), and Observe counts it withheld too. -/
def issue (i : PointIx) (r : Requested) (s : State) : State :=
  let t := recordCommand i r s
  if s.isLocal i then
    syncPins (if s.mode = .observe then withhold i t else t)
  else
    match s.mode with
    | .protect => testDisagreement true i (joinUrgent (commandFrame t i r) t)
    | .observe => withhold i t
    | .bypass | .loading => t

/-- R144, R138: a loop siren's commanded state is recorded as Quiet without a frame. The record moves a standing repeat deadline
as a new command does (R147, log 52). -/
def recordQuiet (i : PointIx) (s : State) : State := testDisagreement true i (recordCommand i .quiet s)

/-! ## Stop claims (R145) -/

/-- R145: a claim is added to a point's stop-claim set; Stop is issued when the set was empty. -/
def addClaim (c : Claim) (i : PointIx) (s : State) : State :=
  let old := (s.point i).drive.claims
  if c ∈ old then s
  else
    let t := s.modDrive i fun d => { d with claims := d.claims ++ [c] }
    if old.isEmpty then issue i .stop t else t

/-- R145: a claim is removed from a point's stop-claim set; Permit is issued when the set becomes empty. -/
def removeClaim (c : Claim) (i : PointIx) (s : State) : State :=
  let old := (s.point i).drive.claims
  if c ∈ old then
    let t := s.modDrive i fun d => { d with claims := d.claims.filter (· != c) }
    if (old.filter (· != c)).isEmpty then issue i .permit t else t
  else s

/-- The points whose stop-claim set holds a claim. -/
def State.claimedBy (s : State) (c : Claim) : List PointIx :=
  allPoints.filter fun i => (s.point i).drive.claims.contains c

/-! ## Heard and supervised (R150) -/

/-- R150: a point is heard at the arrival time of a report from its key. -/
def heard (i : PointIx) (arrival : Time) (s : State) : State :=
  let t := s.modDrive i fun d => { d with lastHeard := some arrival, pollPlaced := none, unsupervised := false }
  if (s.point i).drive.unsupervised then recountFaults t else t

/-- R150: a point's silence has reached `ms`; a point that carries Unsupervised counts as silent until it is heard. -/
def State.silentFor (s : State) (i : PointIx) (ms : Nat) : Bool :=
  let d := (s.point i).drive
  d.unsupervised ||
    match d.lastHeard with
    | some t => decide (ms ≤ elapsed s.clock t)
    | none => false

/-- R150: no poll is outstanding at `now`: none was placed since the point was heard, or the last one has lapsed. -/
def Point.pollLapsed (now : Time) (p : Point) : Bool :=
  match p.drive.pollPlaced with
  | none => true
  | some t => decide (p.cfg.supervisionMs / 2 ≤ elapsed now t)

/-- R150: no poll of a point is outstanding. -/
def State.pollLapsed (s : State) (i : PointIx) : Bool := (s.point i).pollLapsed s.clock

/-- R152: a record as Bypass finds it: a poll that has lapsed is outstanding no longer (log 31). -/
def Point.freezePoll (now : Time) (p : Point) : Point :=
  { p with drive := { p.drive with pollPlaced := if p.pollLapsed now then none else p.drive.pollPlaced } }

/-- R143, R152: the poll outstanding flag of a record. In Bypass no poll lapses (log 31). -/
def State.pollOutstanding (s : State) (i : PointIx) : Bool :=
  (s.point i).drive.pollPlaced.isSome && (s.mode == .bypass || !s.pollLapsed i)

/-- R150: the points that are supervised. -/
def State.supervised (s : State) (i : PointIx) : Bool := s.active && s.isLoop i && (s.point i).cfg.supervision.isSome

end Sys2Proof.Machine
end

