-- ==== Sys2Proof/Machine/Valves.lean ====
section
/-! DEFINITION. The Strike Scheduler: valve records, strikes and their feedback (R59 to R63), strike requests and the strike
list (R51 to R58), and the meanings of its events (R56, R61, R62). -/

namespace Sys2Proof.Machine

/-- R62: the disagreement the Strike Scheduler times: the commanded state is present, and the reported state is absent or
does not match it. -/
def State.valveDisagrees (s : State) (v : PointIx) : Bool :=
  let d := (s.point v).drive
  match d.commanded with
  | none => false
  | some r =>
    match d.reported with
    | none => true
    | some code => !r.matchedBy s.clock d.lastCommand code

/-- R186: values of a ValveFault notice. -/
abbrev reopenValue : Int := 0
abbrev faultedValue : Int := 1
abbrev recoveredValue : Int := 2
abbrev unsolicitedValue : Int := 3

/-- R62: the Strike Scheduler's test after a command or a change of the valve's reported state, `before` saying whether the
valve was in disagreement before it. A deadline is set in Protect alone; Faulted is cleared where disagreement ends, in
Observe too (log 19). -/
def testValve (before : Bool) (v : PointIx) (s : State) : State :=
  if s.valveDisagrees v then
    if s.mode = .protect ∧ before = false ∧ (s.point v).valve.feedbackAt = none then
      s.modValve v fun r => { r with feedbackAt := some (after s.clock (s.point v).cfg.feedbackMs) }
    else s
  else if before then
    let t := s.modValve v fun r => { r with feedbackAt := none, faulted := false }
    if (s.point v).valve.faulted then notify .valveFault v.val recoveredValue t else t
  else s

/-- R60, R61: the Strike Scheduler commands a valve through the Drive Unit and tests it (R62). Where one command ends both
disagreements of the valve, the Drive Unit's test (R147) comes before the Strike Scheduler's (log 35). -/
def commandValve (v : PointIx) (r : Requested) (s : State) : State :=
  testValve (s.valveDisagrees v) v (issue v r s)

/-- R64: the line's strikes counter adds 1. -/
def countStrike (v : PointIx) (s : State) : State :=
  match (s.point v).cfg.line with
  | some l => s.modLine l fun r => { r with strikes := bump r.strikes }
  | none => s

/-- R60: a strike on a valve, taken by the state of its record. -/
def strikeValve (v : PointIx) (s : State) : State :=
  let holdAt := after s.clock (s.point v).cfg.holdMs
  let t := countStrike v s
  match (s.point v).valve.state with
  | .closed =>
    commandValve v .opened
      (t.modValve v fun r => { r with state := .opened, holdAt := some holdAt, opens := bump r.opens })
  | .opened =>
    t.modValve v fun r =>
      { r with holdAt := some (match r.holdAt with | some h => later h holdAt | none => holdAt) }
  | .recovering =>
    notify .valveFault v.val reopenValue
      (commandValve v .opened
        (t.modValve v fun r =>
          { r with state := .opened, recoveryAt := none, holdAt := some holdAt, opens := bump r.opens,
                   reopens := bump r.reopens }))

/-- R29, R36, R37, R44, R58: immediate openings, in the order named. -/
def openNow (vs : List PointIx) (s : State) : State := vs.foldl (fun t v => strikeValve v t) s

/-- R31, R56: a strike of a line and track number has fired; a record still InFlight becomes Struck. -/
def reportFired (l : LineIx) (n : Cyc) (s : State) : State :=
  s.modLine l fun r =>
    { r with tracks := r.tracks.map fun k => if k.number = n ∧ k.state = .inFlight then { k with state := .struck } else k }

/-- R53: an entry is inserted after every entry whose fire time is equal or earlier, and before the first later one. -/
def insertStrike (e : Strike) : List Strike → List Strike
  | [] => [e]
  | x :: xs => if reached e.fire x.fire then x :: insertStrike e xs else e :: x :: xs

/-- R52: the onward fire time from valve `v` to the next valve `w` of line `l`. -/
def onwardFire (l : LineIx) (v w : PointIx) (fire : Time) (s : State) : Time :=
  let a := (s.point v).cfg
  let b := (s.point w).cfg
  fire + BitVec.ofNat 32 a.leadMs + BitVec.ofNat 32 (transit (b.pos - a.pos) (s.line l).speed) - BitVec.ofNat 32 b.leadMs

/-- R53 to R55: a strike request for the first valve of the list, the rest being the valves after it on the line's valves
list: Late, Full, Faulted or Normal, by the first that applies. -/
def requestStrike (l : LineIx) (n : Cyc) : List PointIx → Time → State → State
  | [], _, s => s
  | v :: rest, fire, s =>
    let onward : State → State := fun t =>
      match rest with
      | [] => t
      | w :: _ => requestStrike l n rest (onwardFire l v w fire t) t
    if reached s.clock fire then
      onward (reportFired l n ((strikeValve v s).modLine l fun r => { r with late := bump r.late }))
    else if Config.strikeCapacity ≤ s.strikes.length then
      reportFired l n ((strikeValve v s).modLine l fun r => { r with early := bump r.early })
    else
      let t := { s with strikes := insertStrike { fire, valve := v, line := l, track := n, detached := false } s.strikes }
      if (s.point v).valve.faulted then onward t else t

/-- R57: a withdrawal removes every entry of the line that is not detached and whose track number is in the set. -/
def withdrawStrikes (l : LineIx) (ns : List Cyc) (s : State) : State :=
  { s with strikes := s.strikes.filter fun e => !(e.line == l && !e.detached && ns.contains e.track) }

/-- R57: an accepted point write that changes or removes a valve removes every entry that names it. -/
def dropStrikesOf (v : PointIx) (s : State) : State := { s with strikes := s.strikes.filter fun e => e.valve != v }

/-- R32, R51: the entries of a retired record are marked detached. -/
def detachStrikes (l : LineIx) (n : Cyc) (s : State) : State :=
  { s with strikes := s.strikes.map fun e => if e.line = l ∧ e.track = n then { e with detached := true } else e }

/-- R63, R62: the Drive Unit passes on a change of a valve's reported state, `before` saying whether the valve was in
disagreement before the change. -/
def valveReported (before : Bool) (v : PointIx) (s : State) : State :=
  let p := s.point v
  let t :=
    if p.drive.reported = some .opened ∧ p.valve.state = .closed ∧ p.drive.commanded ≠ some .opened then
      notify .valveFault v.val unsolicitedValue (s.modValve v fun r => { r with unsolicited := bump r.unsolicited })
    else s
  testValve before v t

/-! ## Events -/

/-- STRIKE_ENTRY_FIRE_TIME (R56): the earliest entry's fire time is reached. -/
def strikeFires (s : State) : State :=
  match s.strikes with
  | [] => s
  | e :: rest =>
    if s.active && reached s.clock e.fire then
      let t := strikeValve e.valve { s with strikes := rest }
      if e.detached then t else reportFired e.line e.track t
    else s

/-- HOLD_DEADLINE (R61). -/
def holdEnds (v : PointIx) (s : State) : State :=
  let r := (s.point v).valve
  if s.active && r.state == .opened && due s.clock r.holdAt then
    let c := (s.point v).cfg
    commandValve v .closed
      (s.modValve v fun r =>
        if 0 < c.recoveryMs then
          { r with state := .recovering, holdAt := none, recoveryAt := some (after s.clock c.recoveryMs) }
        else { r with state := .closed, holdAt := none })
  else s

/-- RECOVERY_DEADLINE (R61). -/
def recoveryEnds (v : PointIx) (s : State) : State :=
  let r := (s.point v).valve
  if s.active && r.state == .recovering && due s.clock r.recoveryAt then
    s.modValve v fun r => { r with state := .closed, recoveryAt := none }
  else s

/-- FEEDBACK_DEADLINE (R62): acts in Protect, where alone the deadline stands. -/
def feedbackEnds (v : PointIx) (s : State) : State :=
  let r := (s.point v).valve
  if s.mode == .protect && due s.clock r.feedbackAt then
    let t := s.modValve v fun r => { r with feedbackAt := none }
    if s.valveDisagrees v && !r.faulted then
      notify .valveFault v.val faultedValue (t.modValve v fun r => { r with faulted := true })
    else t
  else s

end Sys2Proof.Machine

namespace Sys2Proof.Machine

/-- STRIKE_ENTRY_FIRE_TIME, R56. -/
def execStrikeEntryFireTime (s : State) : Host.Outcome State Fault Refusal := .next (strikeFires s)

/-- HOLD_DEADLINE, R61. -/
def execHoldDeadline (v : PointIx) (s : State) : Host.Outcome State Fault Refusal := .next (holdEnds v s)

/-- RECOVERY_DEADLINE, R61. -/
def execRecoveryDeadline (v : PointIx) (s : State) : Host.Outcome State Fault Refusal := .next (recoveryEnds v s)

/-- FEEDBACK_DEADLINE, R62. -/
def execFeedbackDeadline (v : PointIx) (s : State) : Host.Outcome State Fault Refusal := .next (feedbackEnds v s)

end Sys2Proof.Machine
end

