-- ==== Sys2Proof/Machine/Lines.lean ====
section
/-! DEFINITION. The Line Controller: divert and shut requests (R96 to R101), the condition for Shut (R102), its deadlines
(R100, R103), and Release Line's decision and effect (R107 to R109). -/

namespace Sys2Proof.Machine

/-- R111: a change of a line's state, with its LineState notice. -/
def enterLineState (l : LineIx) (st : LineState) (s : State) : State :=
  notify .lineState l.val st.code (s.modLine l fun r => { r with state := st })

/-- R102: every fan of the line reports Stopped, and the line is in Flood. -/
def State.shutCondition (s : State) (l : LineIx) : Bool :=
  (s.membersOf l).fans.all (fun i => (s.point i).drive.reported == some .stopped) && (s.line l).flood

/-- R102, R103: a Stopping line becomes Shut. -/
def enterShut (l : LineIx) (s : State) : State :=
  enterLineState l .shut (s.modLine l fun r => { r with runDownAt := none, shuts := bump r.shuts })

/-- R102: the test of a Stopping line. -/
def testShut (l : LineIx) (s : State) : State :=
  if (s.line l).state == .stopping && s.shutCondition l then enterShut l s else s

/-- R105: the line's stop claim goes onto its fans and then its conveyors. -/
def claimLine (l : LineIx) (s : State) : State :=
  ((s.membersOf l).fans ++ (s.membersOf l).conveyors).foldl (fun t i => addClaim (.line l) i t) s

/-- R109: the line's stop claim leaves its fans and then its conveyors. -/
def releaseClaims (l : LineIx) (s : State) : State :=
  ((s.membersOf l).fans ++ (s.membersOf l).conveyors).foldl (fun t i => removeClaim (.line l) i t) s

/-- R101: the entry into Stopping. -/
def enterStopping (l : LineIx) (s : State) : State :=
  let t := claimLine l (s.modLine l fun r => { r with gateTravelAt := none })
  testShut l (enterLineState l .stopping
    (t.modLine l fun r => { r with runDownAt := some (after s.clock ((s.line l).cfg.runDown * 1000)) }))

/-- R101: a shut request, by the line's state. -/
def shutLine (l : LineIx) (s : State) : State :=
  match (s.line l).state with
  | .normal | .diverting | .diverted => enterStopping l s
  | .stopping | .shut => s

/-- R96: a trip's shut request is recorded in the trip-held set, then taken. -/
def shutByTrip (l : LineIx) (t : TripIx) (s : State) : State :=
  shutLine l (s.modLine l fun r => if t ∈ r.tripHeld then r else { r with tripHeld := r.tripHeld ++ [t] })

/-- R99: a Diverting line whose gate reports Diverted. -/
def enterDiverted (l : LineIx) (s : State) : State :=
  enterLineState l .diverted (s.modLine l fun r => { r with gateTravelAt := none })

/-- R98: a divert request, by the line's state. -/
def divertLine (l : LineIx) (s : State) : State :=
  match (s.line l).state with
  | .normal =>
    match s.gateOf l with
    | some g =>
      let t := enterLineState l .diverting
        ((issue g .divert s).modLine l fun r =>
          { r with gateTravelAt := some (after s.clock (r.cfg.gateTravel * 1000)), diverts := bump r.diverts })
      if (s.point g).drive.reported = some .diverted then enterDiverted l t else t
    | none => s.modLine l fun r => { r with divertSkipped := bump r.divertSkipped }
  | .diverting | .diverted | .stopping | .shut => s

/-- R99: the gate's reported state has changed. -/
def gateReported (l : LineIx) (code : Code) (s : State) : State :=
  if (s.line l).state = .diverting ∧ code = .diverted then enterDiverted l s else s

/-- R74, R96: what a zone's change to level `n` hands to one line: a divert request at or above the divert level, then a
shut request at or above the shut level, as one event. -/
def respondLine (z : ZoneIx) (n : Level) (l : LineIx) (s : State) : State :=
  let c := (s.zone z).cfg
  let t := if n.reaches c.divert then divertLine l s else s
  if n.reaches c.shut then shutLine l t else t

/-- R97: UpstreamLost sends a shut request to every line with blind action Shut. -/
def blindAction (s : State) : State :=
  inAnyOrder (((List.finRange 12).filter fun l => (s.line l).cfg.blindShut).map shutLine) s

/-! ## Release Line -/

/-- R108: a zone the line serves stands at or above its level that held the line, or a valve of the line is Open. -/
def State.releaseHeld (s : State) (l : LineIx) : Bool :=
  ((s.membersOf l).serves.any fun z =>
      if (s.line l).state = .diverted then (s.zone z).level.reaches (s.zone z).cfg.divert
      else (s.zone z).level.reaches (s.zone z).cfg.shut)
    || (s.membersOf l).valves.any fun v => (s.point v).valve.state == .opened

/-- R109: an accepted Release Line. -/
def releaseLine (l : LineIx) (s : State) : State :=
  let t := releaseClaims l s
  let u := match s.gateOf l with
    | some g => issue g .normal t
    | none => t
  enterLineState l .normal
    (u.modLine l fun r =>
      { r with gateFault := false, runDownIncomplete := false, gateTravelAt := none, runDownAt := none, tripHeld := [] })

/-! ## Events -/

/-- GATE_TRAVEL_DEADLINE (R100). -/
def gateTravelEnds (l : LineIx) (s : State) : State :=
  if s.active && (s.line l).state == .diverting && due s.clock (s.line l).gateTravelAt then
    enterStopping l (s.modLine l fun r => { r with gateTravelAt := none, gateFault := true })
  else s

/-- RUN_DOWN_DEADLINE (R103). -/
def runDownEnds (l : LineIx) (s : State) : State :=
  if s.active && (s.line l).state == .stopping && due s.clock (s.line l).runDownAt then
    enterShut l (s.modLine l fun r => { r with runDownIncomplete := true })
  else s

/-- GATE_TRAVEL_DEADLINE, R100. -/
def execGateTravelDeadline (l : LineIx) (s : State) : Host.Outcome State Fault Refusal := .next (gateTravelEnds l s)

/-- RUN_DOWN_DEADLINE, R103. -/
def execRunDownDeadline (l : LineIx) (s : State) : Host.Outcome State Fault Refusal := .next (runDownEnds l s)

end Sys2Proof.Machine
end

