-- ==== Sys2Proof/Machine/Doors.lean ====
section
/-! DEFINITION. The Door Controller: the close request (R116), the door states (R118 to R126), its deadlines (R120 to R122),
Restore Door's effect (R125) and what writes do to a door (R128). -/

namespace Sys2Proof.Machine

/-- R113: a door whose door point is the index of a used point of kind door. -/
def State.doorActive (s : State) (d : DoorIx) : Bool :=
  match (s.door d).cfg.point with
  | some i => s.isKind i .door
  | none => false

/-- The reported state of a door's door point. -/
def State.doorReported (s : State) (d : DoorIx) : Option Code :=
  match (s.door d).cfg.point with
  | some i => (s.point i).drive.reported
  | none => none

/-- R127: a change of a door's state, with its DoorState notice. -/
def enterDoorState (d : DoorIx) (st : DoorState) (s : State) : State :=
  notify .doorState d.val st.code (s.modDoor d fun r => { r with state := st })

/-- The Door Controller commands the door point. -/
def commandDoor (d : DoorIx) (r : Requested) (s : State) : State :=
  match (s.door d).cfg.point with
  | some i => issue i r s
  | none => s

/-- R114: every flag of a door is cleared. -/
def Door.clearFlags (r : Door) : Door :=
  { r with forced := false, wasJammed := false, manualClosed := false, breached := false }

/-- R118, R123, R125, R126: the door enters Open, and every flag is cleared. -/
def enterOpen (d : DoorIx) (s : State) : State := enterDoorState d .opened (s.modDoor d Door.clearFlags)

/-- R122: a Releasing door reports Closed. -/
def enterClosed (d : DoorIx) (s : State) : State :=
  enterDoorState d .closed (s.modDoor d fun r => { r with closingAt := none })

/-- R122: the entry into Releasing, passing on to Closed when the door already reports Closed. The Release is issued before the
DoorState notice (log 39). -/
def enterReleasing (d : DoorIx) (s : State) : State :=
  let t := enterDoorState d .releasing
    ((commandDoor d .release s).modDoor d fun r =>
      { r with closingAt := some (after s.clock (r.cfg.closing * 1000)), releases := bump r.releases })
  if s.doorReported d = some .closed then enterClosed d t else t

/-- R120: the listed conveyor points that hold a used point entry of kind conveyor. -/
def State.doorConveyors (s : State) (d : DoorIx) : List PointIx :=
  (s.door d).cfg.conveyors.filter fun i => s.isKind i .conveyor

/-- R120: the door's stop claim goes onto its conveyors, in the order listed (log 38). -/
def claimDoor (d : DoorIx) (s : State) : State :=
  (s.doorConveyors d).foldl (fun t i => addClaim (.door d) i t) s

/-- R125, R128: the door's stop claim leaves every set that holds it. -/
def unclaimDoor (d : DoorIx) (s : State) : State :=
  inAnyOrder ((s.claimedBy (.door d)).map fun i => removeClaim (.door d) i) s

/-- R120: the clearing condition. -/
def State.clearingCondition (s : State) (d : DoorIx) : Bool :=
  (s.doorConveyors d).all fun i => (s.point i).drive.reported == some .stopped

/-- R120: the run-out is over, and the door enters Releasing without Forced. -/
def finishRunOut (d : DoorIx) (s : State) : State :=
  enterReleasing d (s.modDoor d fun r => { r with clearingAt := none, runOutAt := none })

/-- R121: the clearing limit is over, and the door enters Releasing with Forced. -/
def forceRelease (d : DoorIx) (s : State) : State :=
  enterReleasing d (s.modDoor d fun r =>
    { r with clearingAt := none, runOutAt := none, forced := true, forcedCount := bump r.forcedCount })

/-- R120: the clearing condition has become true: the run-out deadline is set, and a run-out time of 0 passes the door on
within the event. -/
def startRunOut (d : DoorIx) (s : State) : State :=
  if (s.door d).cfg.runOut = 0 then finishRunOut d s
  else s.modDoor d fun r => { r with runOutAt := some (after s.clock (r.cfg.runOut * 1000)) }

/-- R120, R121: the entry into Clearing. The Stops are issued before the DoorState notice (log 39). Where the run-out time and
the clearing limit are both 0 and the conveyors already stand, the two deadlines are reached together and either is taken first
(log 17). -/
def enterClearing (d : DoorIx) (s : State) : State :=
  let c := (s.door d).cfg
  let t := enterDoorState d .clearing
    ((claimDoor d s).modDoor d fun r => { r with clearingAt := some (after s.clock (c.clearing * 1000)) })
  if t.clearingCondition d then
    if c.runOut = 0 ∧ c.clearing = 0 then freely (finishRunOut d) (forceRelease d) t else startRunOut d t
  else t

/-- R119: a door in Open, or Unknown (R118), takes the close request. A list whose points are conveyors no longer is not empty:
the door enters Clearing, and its clearing condition holds (log 37). -/
def closeFromOpen (d : DoorIx) (s : State) : State :=
  if (s.door d).cfg.conveyors.isEmpty then enterReleasing d s else enterClearing d s

/-- R123: a Closed door takes the beginning of the close request. -/
def closeFromClosed (d : DoorIx) (s : State) : State := commandDoor d .release (claimDoor d s)

/-- R118 to R126: the close request begins, taken by the door's state. -/
def closeBegins (d : DoorIx) (s : State) : State :=
  match (s.door d).state with
  | .unknown | .opened => closeFromOpen d s
  | .closed => closeFromClosed d s
  | .restoring => enterReleasing d (claimDoor d s)
  | .clearing | .releasing | .jammed => s

/-- R116: the close request stands, from the levels of both side zones and the door's release level. -/
def State.closeStands (s : State) (d : DoorIx) : Bool :=
  let c := (s.door d).cfg
  (s.zone c.sideA).level.atLeast c.release ||
    match c.sideB with
    | some z => (s.zone z).level.atLeast c.release
    | none => false

/-- R116: the close request of an active door is decided afresh; it begins, ends, or stays as it was. -/
def decideClose (d : DoorIx) (s : State) : State :=
  if s.doorActive d then
    let stands := s.closeStands d
    if stands = (s.door d).closeRequest then s
    else
      let t := s.modDoor d fun r => { r with closeRequest := stands }
      if stands then closeBegins d t else t
  else s

/-- R124, R125: a door leaves Jammed, and its contribution to the fault counts is removed. -/
def leaveJam (before : DoorState) (s : State) : State := if before = .jammed then recountFaults s else s

/-- R118 to R126: a change of the door point's reported state, taken by the door's state. A door that leaves Jammed for Closed
(R124) sends its DoorState notice before the ZoneFault notices (log 48). -/
def doorReported (d : DoorIx) (code : Code) (s : State) : State :=
  let r := s.door d
  match r.state with
  | .unknown =>
    if code = .opened then
      let t := enterOpen d s
      if r.closeRequest then closeFromOpen d t else t
    else if code = .closed then
      let t := enterDoorState d .closed (s.modDoor d Door.clearFlags)
      if r.closeRequest then closeFromClosed d t else t
    else s
  | .opened =>
    if code = .closed then enterDoorState d .closed (s.modDoor d fun r => { r with manualClosed := true }) else s
  | .clearing => s
  | .releasing => if code = .closed then enterClosed d s else s
  | .closed =>
    if r.closeRequest then
      if code = .opened ∨ code = .moving then
        enterReleasing d (s.modDoor d fun r => { r with breached := true, breaches := bump r.breaches })
      else s
    else if code = .opened then enterOpen d s
    else s
  | .jammed =>
    if code = .closed then
      leaveJam .jammed (enterDoorState d .closed (s.modDoor d fun r => { r with wasJammed := true }))
    else s
  | .restoring => if code = .opened then enterOpen d s else s

/-- R120: a conveyor of a door in Clearing has reported: the run-out starts, is dropped, or goes on. -/
def conveyorReported (d : DoorIx) (s : State) : State :=
  if (s.door d).state = .clearing then
    if s.clearingCondition d then
      if (s.door d).runOutAt.isNone then startRunOut d s else s
    else s.modDoor d fun r => { r with runOutAt := none }
  else s

/-- R75: the doors with a zone on a side. -/
def State.doorsBordering (s : State) (z : ZoneIx) : List DoorIx :=
  (List.finRange 24).filter fun d => (s.door d).borders z

/-- R117: the active doors whose door point is this point. -/
def State.doorsOfPoint (s : State) (i : PointIx) : List DoorIx :=
  (List.finRange 24).filter fun d => s.doorActive d && (s.door d).cfg.point == some i

/-- R117: the active doors that list this conveyor. -/
def State.doorsListing (s : State) (i : PointIx) : List DoorIx :=
  (List.finRange 24).filter fun d => s.doorActive d && (s.door d).cfg.conveyors.contains i

/-! ## Restore Door -/

/-- R125: an accepted Restore Door. The door leaves Jammed before its DoorState notice; a door already Restoring stays so
without a notice (R127); one that reports Open passes on to Open. -/
def restoreDoor (d : DoorIx) (s : State) : State :=
  let before := (s.door d).state
  let t := commandDoor d .hold (unclaimDoor d s)
  let u := leaveJam before (t.modDoor d fun r => { r with state := .restoring })
  let v := if before = .restoring then u else notify .doorState d.val DoorState.restoring.code u
  if s.doorReported d = some .opened then enterOpen d v else v

/-! ## Writes (R128) -/

/-- R128: a written door loses its claims, flags, deadlines and close request, and is Unknown, without a notice. The event
counters are kept. -/
def resetDoor (d : DoorIx) (s : State) : State :=
  (unclaimDoor d s).modDoor d fun r =>
    { r.clearFlags with state := .unknown, closeRequest := false, clearingAt := none, runOutAt := none, closingAt := none }

/-- R128: after a write, an active door takes its door point's reported state as a first report, and the close request if it
stands, by R118. -/
def firstReport (d : DoorIx) (s : State) : State :=
  if s.doorActive d then
    let stands := s.closeStands d
    let t := s.modDoor d fun r => { r with closeRequest := stands }
    match s.doorReported d with
    | some .opened => doorReported d .opened t
    | some .closed => doorReported d .closed t
    | _ => if stands then closeBegins d t else t
  else s

/-! ## Events -/

/-- RUN_OUT_DEADLINE (R120). -/
def runOutEnds (d : DoorIx) (s : State) : State :=
  if s.active && s.doorActive d && (s.door d).state == .clearing && due s.clock (s.door d).runOutAt then finishRunOut d s
  else s

/-- CLEARING_DEADLINE (R121). -/
def clearingEnds (d : DoorIx) (s : State) : State :=
  if s.active && s.doorActive d && (s.door d).state == .clearing && due s.clock (s.door d).clearingAt then forceRelease d s
  else s

/-- CLOSING_DEADLINE (R122): the door enters Jammed and counts in its side zones' fault counts, the DoorState notice before the
ZoneFault notices (log 48). -/
def closingEnds (d : DoorIx) (s : State) : State :=
  if s.active && s.doorActive d && (s.door d).state == .releasing && due s.clock (s.door d).closingAt then
    recountFaults (enterDoorState d .jammed (s.modDoor d fun r => { r with closingAt := none, jams := bump r.jams }))
  else s

/-- RUN_OUT_DEADLINE, R120. -/
def execRunOutDeadline (d : DoorIx) (s : State) : Host.Outcome State Fault Refusal := .next (runOutEnds d s)

/-- CLEARING_DEADLINE, R121. -/
def execClearingDeadline (d : DoorIx) (s : State) : Host.Outcome State Fault Refusal := .next (clearingEnds d s)

/-- CLOSING_DEADLINE, R122. -/
def execClosingDeadline (d : DoorIx) (s : State) : Host.Outcome State Fault Refusal := .next (closingEnds d s)

end Sys2Proof.Machine
end

