-- ==== Sys2Proof/Machine/Sirens.lean ====
section
/-! DEFINITION. The Siren Controller: requests and arbitration (R134, R135), playing and quieting a cadence (R136 to R138),
the emptied set (R139), Silence Group and Siren Test (R140, R141), and what writes do to a group (R142). -/

namespace Sys2Proof.Machine

/-! ## The local cadence engine (R137) -/

/-- R131, R137: the output points a group's engine plays on, in order of output number. -/
def State.enginePoints (s : State) (g : GroupIx) : List PointIx :=
  ((List.finRange 8).filter fun q : OutputIx => (s.group g).cfg.outputs.getLsbD q.val).filterMap fun q =>
    match s.outputPoint q with
    | some i => if s.isKind i .siren then some i else none
    | none => none

/-- R137: the engine commands its outputs. -/
def commandOutputs (g : GroupIx) (r : Requested) (s : State) : State :=
  (s.enginePoints g).foldl (fun t i => issue i r t) s

/-- R137: the engine restarts at the on phase of a cadence. -/
def restartEngine (g : GroupIx) (c : CadenceIx) (s : State) : State :=
  let k := s.cadence c
  let deadline := if k.off = 0 ∧ k.cycles = 0 then none else some (after s.clock (k.on.toNat * 10))
  (commandOutputs g .outOn s).modGroup g fun r => { r with engineOn := true, phaseAt := deadline }

/-- R137: the engine stops. -/
def stopEngine (g : GroupIx) (s : State) : State :=
  (commandOutputs g .outOff s).modGroup g fun r => { r with engineOn := false, phaseAt := none }

/-! ## Playing and quieting (R136) -/

/-- R136, R131: the listed points that hold a used loop siren entry, in list order. A listed point rewritten as a local siren is
passed over (log 40). -/
def State.loopSirens (s : State) (g : GroupIx) : List PointIx :=
  (s.group g).cfg.sirens.filter fun i => s.isKind i .siren && s.isLoop i

/-- R130: the length of a cadence in ms. -/
def Cadence.length (k : Cadence) : Nat := cadenceLength k.on k.off k.cycles

/-- R136: a group starts a cadence. -/
def startCadence (g : GroupIx) (c : CadenceIx) (s : State) : State :=
  let k := s.cadence c
  let t := (s.loopSirens g).foldl (fun t i => issue i (.sounding k.on k.off k.cycles k.tone) t) s
  restartEngine g c
    (t.modGroup g fun r =>
      { r with sounding := some c, endAt := if k.cycles = 0 then none else some (after s.clock k.length) })

/-- R136: a start for a winner counts. -/
def startWinner (g : GroupIx) (c : CadenceIx) (s : State) : State :=
  (startCadence g c s).modGroup g fun r => { r with starts := bump r.starts }

/-- R136: a group is quieted, its loop sirens in list order (log 41). -/
def quietGroup (g : GroupIx) (s : State) : State :=
  stopEngine g
    (((s.loopSirens g).foldl (fun t i => issue i .quiet t) s).modGroup g fun r =>
      { r with sounding := none, endAt := none })

/-! ## Arbitration (R135) -/

/-- The rank of a cadence as the table stands (R135). -/
def State.rankOf (s : State) (c : CadenceIx) : Nat := (s.cadence c).rank.toNat

/-- R135: the request of highest rank, the lowest zone winning a tie. -/
def State.bestRequest (s : State) (g : GroupIx) : Option (ZoneIx × CadenceIx) :=
  (List.finRange 32).foldl
    (fun best z =>
      match (s.group g).requests[z.val], best with
      | none, b => b
      | some c, none => some (z, c)
      | some c, some (w, d) => if s.rankOf d < s.rankOf c then some (z, c) else some (w, d))
    none

/-- R135: a change of winner is recorded, and its cadence starts unless the group is silenced at or above its rank. -/
def takeWinner (g : GroupIx) (w : ZoneIx × CadenceIx) (s : State) : State :=
  match (s.group g).silencedRank with
  | some n =>
    if n < s.rankOf w.2 then
      startWinner g w.2 (s.modGroup g fun r => { r with silencedRank := none, winner := some w })
    else s.modGroup g fun r => { r with winner := some w }
  | none => startWinner g w.2 (s.modGroup g fun r => { r with winner := some w })

/-- R135: arbitration of a group whose request set is not empty. -/
def arbitrateGroup (g : GroupIx) (s : State) : State :=
  match s.bestRequest g with
  | none => s
  | some w => if (s.group g).winner = some w then s else takeWinner g w s

/-- R139: the request set has emptied. -/
def emptiedGroup (g : GroupIx) (s : State) : State :=
  let t := s.modGroup g fun r => { r with winner := none, silencedRank := none }
  match (s.group g).cfg.allClear with
  | some c => startCadence g c (t.modGroup g fun r => { r with phase := .allClear })
  | none => (quietGroup g t).modGroup g fun r => { r with phase := .idle }

/-- The request set is empty. -/
def Group.noRequests (r : Group) : Bool := r.requests.toList.all (·.isNone)

/-- R134: a change has altered the request set, and the group takes it by its phase. -/
def requestsChanged (g : GroupIx) (s : State) : State :=
  match (s.group g).phase, (s.group g).noRequests with
  | .idle, false => arbitrateGroup g (s.modGroup g fun r => { r with phase := .sounding })
  | .sounding, false => arbitrateGroup g s
  | .sounding, true => emptiedGroup g s
  | .allClear, false | .test, false =>
    arbitrateGroup g (s.modGroup g fun r => { r with phase := .sounding, endAt := none })
  | .idle, true | .allClear, true | .test, true => s

/-- R134: the Zone Unit sets (`some c`) or removes (`none`) a zone's request in a group. -/
def changeRequest (g : GroupIx) (z : ZoneIx) (c : Option CadenceIx) (s : State) : State :=
  if (s.group g).requests[z.val] = c then s
  else requestsChanged g (s.modGroup g fun r => { r with requests := r.requests.set z.val c })

/-- R66: the cadence a zone's configuration holds for a level; Quiet has none. -/
def ZoneCfg.cadenceFor (c : ZoneCfg) : Level → Option CadenceIx
  | .quiet => none
  | .watch => c.watchCadence
  | .alarm => c.alarmCadence
  | .fire => c.fireCadence
  | .evacuate => c.evacuateCadence

/-- R76: the siren part of a zone response. -/
def respondSirens (z : ZoneIx) (n : Level) (s : State) : State :=
  match (s.zone z).cfg.group with
  | some g => changeRequest g z ((s.zone z).cfg.cadenceFor n) s
  | none => s

/-! ## Commands -/

/-- R140: a finite cadence of the group has played out. -/
def State.playedOut (s : State) (g : GroupIx) : Bool :=
  match (s.group g).sounding with
  | some c => (s.group g).endAt.isNone && (s.cadence c).cycles != 0
  | none => false

/-- R140: Silence Group in this state is refused. -/
def State.silenceBusy (s : State) (g : GroupIx) : Bool :=
  match (s.group g).phase with
  | .idle => true
  | .sounding => (s.group g).silencedRank.isSome || s.playedOut g
  | .allClear | .test => false

/-- R140: an accepted Silence Group. -/
def silenceGroup (g : GroupIx) (s : State) : State :=
  let t := quietGroup g s
  match (s.group g).phase with
  | .sounding =>
    t.modGroup g fun r =>
      { r with silencedRank := r.winner.map fun w => s.rankOf w.2, silences := bump r.silences }
  | .idle | .allClear | .test => t.modGroup g fun r => { r with phase := .idle, silences := bump r.silences }

/-- R141: an accepted Siren Test. -/
def testGroup (g : GroupIx) (s : State) : State :=
  let t := s.modGroup g fun r => { r with phase := .test, tests := bump r.tests }
  match (s.group g).cfg.test with
  | some c => startCadence g c t
  | none => t

/-! ## Writes (R142) -/

/-- R142: the group is playing the cadence under the fields it had before a write. -/
def State.playing (s : State) (c : CadenceIx) (old : Cadence) (g : GroupIx) : Bool :=
  (s.group g).sounding == some c && ((s.group g).endAt.isSome || old.cycles == 0)

/-- R142: a playing group starts the written cadence again. -/
def restartPlaying (g : GroupIx) (c : CadenceIx) (s : State) : State :=
  if (s.group g).phase = .sounding then startWinner g c s else startCadence g c s

/-- R142: the effects of an accepted cadence write, `old` being the entry before it. -/
def cadenceWritten (c : CadenceIx) (old : Cadence) (s : State) : State :=
  if s.active then
    let t := inAnyOrder (((List.finRange 8).filter (s.playing c old)).map fun g => restartPlaying g c) s
    inAnyOrder (((List.finRange 8).filter fun g => (t.group g).phase == .sounding).map arbitrateGroup) t
  else s

/-- R142: an accepted group write: the group as it stood is quieted, the configuration part applied, and the request set
arbitrated afresh. In Bypass the configuration part alone is applied. -/
def writeGroup (g : GroupIx) (c : GroupCfg) (s : State) : State :=
  if s.active then
    let t := (quietGroup g s).modGroup g fun r =>
      { r with cfg := c, silencedRank := none, winner := none, sounding := none, endAt := none }
    if (s.group g).noRequests then t.modGroup g fun r => { r with phase := .idle }
    else arbitrateGroup g (t.modGroup g fun r => { r with phase := .sounding })
  else s.modGroup g fun r => { r with cfg := c }

/-! ## Events -/

/-- R137: the engine commands, where it does, and its next phase and deadline at a phase deadline that stood at `d`. -/
def enginePhase (g : GroupIx) (k : Cadence) (d : Time) (s : State) : State :=
  if (s.group g).engineOn then
    if k.off = 0 then s.modGroup g fun r => { r with phaseAt := some (after d (k.on.toNat * 10)) }
    else
      (commandOutputs g .outOff s).modGroup g fun r =>
        { r with engineOn := false, phaseAt := some (after d (k.off.toNat * 10)) }
  else
    (commandOutputs g .outOn s).modGroup g fun r =>
      { r with engineOn := true, phaseAt := some (after d (k.on.toNat * 10)) }

/-- PHASE_DEADLINE (R137): the deadline moves on from its own previous value. -/
def phaseEnds (g : GroupIx) (s : State) : State :=
  match (s.group g).phaseAt, (s.group g).sounding with
  | some d, some c => if s.active && reached s.clock d then enginePhase g (s.cadence c) d s else s
  | _, _ => s

/-- CADENCE_END_DEADLINE (R138). The loop sirens are recorded as Quiet in list order (log 41), one whose entry has been
rewritten since the start among them (log 49). -/
def cadenceEnds (g : GroupIx) (s : State) : State :=
  if s.active && due s.clock (s.group g).endAt then
    let t := stopEngine g (s.modGroup g fun r => { r with endAt := none })
    let u := (s.loopSirens g).foldl (fun t i => recordQuiet i t) t
    match (s.group g).phase with
    | .sounding | .idle => u
    | .allClear | .test => u.modGroup g fun r => { r with sounding := none, phase := .idle }
  else s

/-- CADENCE_END_DEADLINE, R138. -/
def execCadenceEndDeadline (g : GroupIx) (s : State) : Host.Outcome State Fault Refusal := .next (cadenceEnds g s)

/-- PHASE_DEADLINE, R137. -/
def execPhaseDeadline (g : GroupIx) (s : State) : Host.Outcome State Fault Refusal := .next (phaseEnds g s)

end Sys2Proof.Machine
end

