-- ==== Sys2Proof/Machine/Zones.lean ====
section
/-! DEFINITION. The Zone Unit: the spark window (R69, R70), raises and changes of level with the zone response (R71 to R76),
Reset Zone (R79, R80) and what a zone write does (R81). -/

namespace Sys2Proof.Machine

/-! ## The spark window -/

/-- R69: the lesser of 65535 and the sum of the eight slot counts. -/
def windowOf (slots : Vector Ctr 8) : Ctr := BitVec.ofNat 16 (min 65535 (slots.toList.map (·.toNat)).sum)

/-- R69: a delivered Spark report is counted in its zone, and SparkInZone is raised. -/
def countSpark (z : ZoneIx) (s : State) : State :=
  raiseTrigger (.sparkInZone z)
    (s.modZone z fun r =>
      { r with slots := r.slots.set r.current.val (bump r.slots[r.current.val]), window := bump r.window,
               sparks := bump r.sparks })

/-- R70: the slot that follows becomes the current one, empty. -/
def Zone.turnSlot (r : Zone) : Zone :=
  let slots := r.slots.set (r.current + 1).val 0
  { r with slots := slots, current := r.current + 1, window := windowOf slots,
           slotEndAt := r.slotEndAt.map fun d => after d (r.cfg.slotLength * 1000) }

/-- SLOT_END (R70): the slot end, and its trigger. -/
def slotEnds (z : ZoneIx) (s : State) : State :=
  if s.active && due s.clock (s.zone z).slotEndAt then raiseTrigger (.slotEnd z) (s.modZone z Zone.turnSlot) else s

/-- R80, R81: the window is emptied. -/
def Zone.clearWindow (r : Zone) : Zone := { r with slots := Vector.replicate 8 0, window := 0 }

/-! ## Levels -/

/-- R74: the line part of the zone response. -/
def respondLines (z : ZoneIx) (n : Level) (s : State) : State :=
  inAnyOrder ((s.linesServing z).map fun l => respondLine z n l) s

/-- R75: the door part of the zone response. -/
def respondDoors (z : ZoneIx) (s : State) : State :=
  inAnyOrder ((s.doorsBordering z).map decideClose) s

/-- R73: the zone response reaches the lines, the doors and the sirens in any order (log 5). -/
def respond (z : ZoneIx) (n : Level) (s : State) : State :=
  inAnyOrder [respondLines z n, respondDoors z, respondSirens z n] s

/-- R73: a change of level takes effect: the time, the notice, the trigger and the response (log 27). -/
def changeLevel (z : ZoneIx) (n : Level) (s : State) : State :=
  respond z n
    (raiseTrigger (.levelChange z)
      (notify .zoneLevel z.val n.rank (s.modZone z fun r => { r with level := n, changed := some s.clock })))

/-- R71: a raise. -/
def raiseZone (z : ZoneIx) (n : Level) (s : State) : State :=
  if (s.zone z).level.rank < n.rank then changeLevel z n s else s

/-- R72: an escape handed over by the Spark Tracker. -/
def zoneEscape (z : ZoneIx) (s : State) : State :=
  raiseZone z (s.zone z).cfg.escape (s.modZone z fun r => { r with escapes := bump r.escapes })

/-- R72: a Flame report taken by the Zone Unit; Clear raises and counts nothing. -/
def zoneFlame (z : ZoneIx) (isActive : Bool) (s : State) : State :=
  if isActive then raiseZone z .fire (s.modZone z fun r => { r with flames := bump r.flames }) else s

/-- R72: a Call report taken by the Zone Unit; Clear raises and counts nothing. -/
def zoneCall (z : ZoneIx) (isActive : Bool) (s : State) : State :=
  if isActive then raiseZone z .evacuate (s.modZone z fun r => { r with calls := bump r.calls }) else s

/-! ## Reset Zone -/

/-- R79: a flame detector or call point of the zone has contact state Active. -/
def State.contactActive (s : State) (z : ZoneIx) : Bool :=
  allPoints.any fun i =>
    let p := s.point i
    (p.cfg.kind == .flame || p.cfg.kind == .call) && p.cfg.zone == some z && p.contact == some true

/-- R79: what holds a zone up. -/
def State.resetHeld (s : State) (z : ZoneIx) : Bool :=
  s.contactActive z || (s.linesServing z).any fun l => decide (0 < s.openValves l) || !(s.line l).tracks.isEmpty

/-- R80: an accepted Reset Zone. -/
def resetZone (z : ZoneIx) (s : State) : State :=
  let t := s.modZone z Zone.clearWindow
  if (s.zone z).level = .quiet then t else changeLevel z .quiet t

/-! ## Writes -/

/-- R81: the zone's request leaves the group the old configuration named, and is set by R76 under the new one. -/
def moveRequest (z : ZoneIx) (old : Option GroupIx) (s : State) : State :=
  respondSirens z (s.zone z).level
    (match old with
     | some g => changeRequest g z none s
     | none => s)

/-- R81: an accepted zone write. -/
def writeZone (z : ZoneIx) (c : ZoneCfg) (s : State) : State :=
  let old := (s.zone z).cfg
  let t := s.modZone z fun r =>
    if old.slotLength = c.slotLength then { r with cfg := c }
    else { r.clearWindow with cfg := c, current := 0, slotEndAt := some (after s.clock (c.slotLength * 1000)) }
  if s.active then moveRequest z old.group t else t

end Sys2Proof.Machine
end

