-- ==== Sys2Proof/Machine/Trips.lean ====
section
/-! DEFINITION. The Trip Unit: sources and the condition (R85, R86), modes and actions (R87 to R91), the taking of trigger
events (R84, R92), and the meanings of SLOT_END and TICK. -/

namespace Sys2Proof.Machine

/-- R85: the number a source reads. -/
def State.readSource (s : State) : Source → Nat
  | .zoneWindow z => (s.zone z).window.toNat
  | .zoneSparks z => (s.zone z).sparks.toNat
  | .lineEscapes l => (s.line l).escapes.toNat
  | .lineConfirms l => (s.line l).confirmations.toNat
  | .lineStrikes l => (s.line l).strikes.toNat
  | .lineLate l => (s.line l).late.toNat
  | .lineSpeed l => (s.line l).speed
  | .openValves l => s.openValves l
  | .inputCount i => (s.input i).edges.toNat
  | .inputLevel i => if (s.input i).level then 1 else 0

/-- R85: what a source adds to a trip's value. -/
def State.contribution (s : State) (u : SourceUse) : Int :=
  if u.used then (if u.negated then -(s.readSource u.source : Int) else s.readSource u.source) else 0

/-- R85: the value of a trip. -/
def State.tripValue (s : State) (c : TripCfg) : Int := s.contribution c.first + s.contribution c.second

/-- R86: the condition of a trip at a value. -/
def TripCfg.holdsAt (c : TripCfg) (v : Int) : Bool :=
  let top := c.origin.toInt + c.margin.toNat
  decide (c.origin.toInt ≤ v) && (if c.strict then decide (v < top) else decide (v ≤ top))

/-- R91: an output action commands the output when its point is a general output. -/
def tripOutput (q : OutputIx) (r : Requested) (s : State) : State :=
  match s.outputPoint q with
  | some i => if s.isKind i .output then issue i r s else s
  | none => s

/-- R91: an action of trip `t` at an evaluation whose value is `v`. -/
def executeAction (t : TripIx) (v : Int) (a : Action) (s : State) : State :=
  match a with
  | .nothing => s
  | .raiseLevel z n => raiseZone z n s
  | .shutLine l => shutByTrip l t s
  | .outputOn q => tripOutput q .outOn s
  | .outputOff q => tripOutput q .outOff s
  | .notice => notify .tripNotice t.val v s

/-- R90: the execution of the true action. -/
def executeTrue (t : TripIx) (v : Int) (s : State) : State :=
  executeAction t v (s.trip t).cfg.onTrue
    (s.modTrip t fun r => { r with latch := some (v, s.clock), fired := r.fired + 1 })

/-- R90: the execution of the false action. -/
def executeFalse (t : TripIx) (v : Int) (s : State) : State := executeAction t v (s.trip t).cfg.onFalse s

/-- R87: a Once trip that has fired is Off and spent. -/
def Trip.spend (r : Trip) : Trip := { r with cfg := { r.cfg with mode := .off }, spent := true }

/-- R87 to R89: the evaluation of a trip, by its mode. -/
def evaluateTrip (t : TripIx) (s : State) : State :=
  let c := (s.trip t).cfg
  let v := s.tripValue c
  let condition := c.holdsAt v
  match c.mode with
  | .off => s
  | .once => if condition then (executeTrue t v s).modTrip t Trip.spend else s
  | .edge =>
    let set := fun u : State => u.modTrip t fun r => { r with baseline := some condition }
    match (s.trip t).baseline with
    | none => set s
    | some b => if b = condition then s else set (if condition then executeTrue t v s else executeFalse t v s)
  | .every => if condition then executeTrue t v s else executeFalse t v s

/-- R84: a trigger event is taken: every matching trip that is not Off is evaluated, in order of trip number. -/
def takeTrigger (e : Trigger) (s : State) : State :=
  (List.finRange 64).foldl (fun u t => if (u.trip t).cfg.trigger = e then evaluateTrip t u else u) s

/-- R92: trigger events are taken one after another; the first argument bounds how many. -/
def settleTriggers : Nat → State → State
  | 0, s => s
  | n + 1, s =>
    match s.triggers with
    | [] => s
    | e :: rest => settleTriggers n (takeTrigger e { s with triggers := rest })

/-- R92: every trigger event that stands is taken; beyond those that stand, at most 128 can be raised. -/
def settle (s : State) : State := settleTriggers (s.triggers.length + 128) s

/-! ## Writes and clearings -/

/-- R83: a trip with its state part cleared. -/
def Trip.cleared (r : Trip) : Trip := { cfg := r.cfg }

/-- R82: an accepted trip write. -/
def writeTrip (t : TripIx) (c : TripCfg) (s : State) : State := s.modTrip t fun _ => { cfg := c }

/-! ## Events -/

/-- TICK (R84; log 24): the Tick trigger, at a multiple of 1000 ms. -/
def tickTaken (s : State) : State :=
  if s.active && s.clock.toNat % 1000 == 0 then settle (raiseTrigger .tick s) else s

/-- SLOT_END, R70. -/
def execSlotEnd (z : ZoneIx) (s : State) : Host.Outcome State Fault Refusal := .next (settle (slotEnds z s))

/-- TICK, R84. -/
def execTick (s : State) : Host.Outcome State Fault Refusal := .next (tickTaken s)

end Sys2Proof.Machine
end

