-- ==== Sys2Proof/Machine/Sparks.lean ====
section
/-! DEFINITION. The Spark Tracker: Air samples and the effective speed (R25 to R29), track records and their retirement (R30 to
R33), primary and check detections (R34 to R43), Flame reports (R44), and the meanings of its events. -/

namespace Sys2Proof.Machine

/-! ## Removal of records -/

/-- R33: Storm ends when a removal has left 8 records or fewer. -/
def testStormEnd (l : LineIx) (s : State) : State :=
  if (s.line l).storm && decide ((s.line l).tracks.length ≤ Config.stormDrain) then
    notify .storm l.val 0 (s.modLine l fun r => { r with storm := false })
  else s

/-- R32: the retire deadline stands at the head's end time. -/
def Line.setRetire (r : Line) : Line := { r with retireAt := r.tracks.head?.map (·.endTime) }

/-- R32: the head and the following records whose end times have been reached are retired, and their entries detached. -/
def retireReached (l : LineIx) (s : State) : State :=
  let ended := (s.line l).tracks.takeWhile fun k => reached s.clock k.endTime
  let left := (s.line l).tracks.dropWhile fun k => reached s.clock k.endTime
  testStormEnd l
    (ended.foldl (fun t k => detachStrikes l k.number t) (s.modLine l fun r => { r with tracks := left }.setRetire))

/-- The least origin position among records (R29). -/
def leastOrigin : List Track → Option Nat
  | [] => none
  | k :: ks => some (ks.foldl (fun m j => min m j.originPosition) k.originPosition)

/-- R29: Flood is entered with tracks present. The Passed records that are left are retired behind the withdrawal and the
openings (log 46). -/
def clearForFlood (l : LineIx) (s : State) : State :=
  let gone := (s.line l).tracks.filter fun k => k.state != .passed
  let left := (s.line l).tracks.filter fun k => k.state == .passed
  match leastOrigin gone with
  | none => retireReached l s
  | some p =>
    let t := testStormEnd l (s.modLine l fun r => { r with tracks := left }.setRetire)
    let u := withdrawStrikes l (gone.map (·.number)) t
    retireReached l (openNow (u.valvesBeyond l p) u)

/-! ## Speed -/

/-- R26: the speeds of a line's fresh samples. -/
def State.freshSpeeds (s : State) (l : LineIx) : List Nat :=
  (s.membersOf l).sensors.filterMap fun i =>
    match (s.point i).sample with
    | some a => if a.fresh then some a.speed else none
    | none => none

/-- R26: a line's effective speed. -/
def State.effectiveSpeed (s : State) (l : LineIx) : Nat :=
  let c := (s.line l).cfg
  match c.source with
  | .design => c.design
  | .calibrated => (s.line l).calibrated.getD c.design
  | .sampled =>
    match s.freshSpeeds l with
    | [] => c.design
    | vs => max 1 (vs.sum / vs.length)

/-- R26: SpeedStale. -/
def State.staleSpeed (s : State) (l : LineIx) : Bool :=
  (s.line l).cfg.source == .sampled && (s.freshSpeeds l).isEmpty

/-- R28: the line enters Flood, and the Line Controller is handed the entry (R102). -/
def enterFlood (l : LineIx) (s : State) : State :=
  testShut l (notify .flood l.val 1 (clearForFlood l (s.modLine l fun r => { r with flood := true })))

/-- R28: the line leaves Flood; the Line Controller does nothing with the exit (R102). -/
def leaveFlood (l : LineIx) (s : State) : State := notify .flood l.val 0 (s.modLine l fun r => { r with flood := false })

/-- R27, R28: the effective speed is computed and stored, and compared with the floor speed. -/
def recomputeSpeed (l : LineIx) (s : State) : State :=
  let v := s.effectiveSpeed l
  let t := s.modLine l fun r => { r with speed := v, speedStale := s.staleSpeed l }
  let below := decide (v < (s.line l).cfg.floor)
  if below = (s.line l).flood then t else if below then enterFlood l t else leaveFlood l t

/-- R25, R27: an Air report is delivered for a sensor. -/
def airReport (i : PointIx) (l : LineIx) (v : Nat) (arrival : Time) (s : State) : State :=
  recomputeSpeed l (s.modPoint i fun p => { p with sample := some { speed := v, arrival := arrival, fresh := true } })

/-! ## Detections -/

/-- R36: the target valve of a detection at position `p`. -/
def State.targetValve (s : State) (l : LineIx) (p : Nat) : Option PointIx :=
  (s.membersOf l).valves.find? fun v =>
    decide (p ≤ (s.point v).cfg.pos) && decide ((s.point v).cfg.arming.getD 0 ≤ (s.point v).cfg.pos - p)

/-- R38: the fire time of a record aimed at a valve. -/
def State.fireTime (s : State) (l : LineIx) (p : Nat) (t : Time) (v : PointIx) : Time :=
  match (s.line l).cfg.timing with
  | .computed =>
    t + BitVec.ofNat 32 (transit ((s.point v).cfg.pos - p) (s.line l).speed) - BitVec.ofNat 32 (s.point v).cfg.leadMs
  | .fixed delay => after t delay

/-- R30, R36: the record of a detection. -/
def State.newTrack (s : State) (l : LineIx) (i : PointIx) (p : Nat) (t : Time) : Track :=
  let r := s.line l
  { number := r.nextTrack, origin := i, originPosition := p, detected := t, speed := r.speed, state := .inFlight,
    target := (s.targetValve l p).map fun v => (v, s.fireTime l p t v), lastMatched := none,
    endTime := after t (transit (r.cfg.endPosition - p) r.speed) }

/-- R36, R32: a record joins the tail of the track list. -/
def Line.join (r : Line) (k : Track) : Line :=
  { r with tracks := r.tracks ++ [k], nextTrack := r.nextTrack + 1,
           retireAt := if r.tracks.isEmpty then some k.endTime else r.retireAt }

/-- R36, R38: the Tracked case. -/
def trackedCase (l : LineIx) (i : PointIx) (p : Nat) (t : Time) (s : State) : State :=
  let k := s.newTrack l i p t
  let u := s.modLine l fun r => r.join k
  match k.target with
  | some (v, fire) => requestStrike l k.number (fromIndex v (s.membersOf l).valves) fire u
  | none => u

/-- R35: the untracked counter adds 1. -/
def countUntracked (l : LineIx) (s : State) : State := s.modLine l fun r => { r with untracked := bump r.untracked }

/-- R36: the line enters Storm, unless it is in it. -/
def enterStorm (l : LineIx) (s : State) : State :=
  if (s.line l).storm then s else notify .storm l.val 1 (s.modLine l fun r => { r with storm := true })

/-- R36: the Storm case. -/
def stormCase (l : LineIx) (s : State) : State :=
  countUntracked l (openNow (s.membersOf l).valves (enterStorm l s))

/-- R37: the Flood case. -/
def floodCase (l : LineIx) (p : Nat) (s : State) : State := countUntracked l (openNow (s.valvesBeyond l p) s)

/-- R35: the three cases of a detection. -/
def detectionCases (l : LineIx) (i : PointIx) (p : Nat) (t : Time) (s : State) : State :=
  let r := s.line l
  if Config.trackCapacity ≤ r.tracks.length ∨ r.storm = true then stormCase l s
  else if r.flood then floodCase l p s
  else trackedCase l i p t s

/-- R39: a record matches a check detection. -/
def Track.matchesCheck (k : Track) (p margin : Nat) (t : Time) : Bool :=
  let expected := after k.detected (transit (p - k.originPosition) k.speed)
  k.state != .passed && decide (k.originPosition < p) &&
    (match k.lastMatched with
     | none => true
     | some q => decide (q < p)) &&
    (decide ((t - expected).toNat ≤ margin) || decide ((expected - t).toNat ≤ margin))

/-- R39: the matched record: the first from the head that matches. -/
def State.findTrack (s : State) (l : LineIx) (p : Nat) (t : Time) : Option Track :=
  (s.line l).tracks.find? fun k => k.matchesCheck p (s.line l).cfg.margin t

/-- R40: a matched detection is an escape. -/
def State.isEscape (s : State) (k : Track) (p : Nat) : Bool :=
  k.state == .struck &&
    match k.target with
    | some (v, _) => decide ((s.point v).cfg.pos < p)
    | none => false

/-- R40, R43: an escape is counted, and handed to the check detector's zone. -/
def countEscape (l : LineIx) (z : Option ZoneIx) (s : State) : State :=
  let t := s.modLine l fun r => { r with escapes := bump r.escapes }
  match z with
  | some z => zoneEscape z t
  | none => t

/-- R42: a speed measurement. -/
def measureSpeed (l : LineIx) (k : Track) (p : Nat) (t : Time) (s : State) : State :=
  let spent := elapsed t k.detected
  let v := transit (p - k.originPosition) spent
  if spent ≠ 0 ∧ 20 ≤ v ∧ v ≤ 600 then
    recomputeSpeed l (s.modLine l fun r =>
      { r with calibrated := some v, calibrationCount := r.calibrationCount + 1,
               cfg := if r.cfg.calibration = .single then { r.cfg with calibration := .off } else r.cfg })
  else s

/-- R41: a confirmation. -/
def confirmTrack (l : LineIx) (k : Track) (p : Nat) (t : Time) (s : State) : State :=
  let u := s.modLine l fun r => { r with confirmations := bump r.confirmations }
  if (s.line l).cfg.calibration = .off then u else measureSpeed l k p t u

/-- R39: the matched record takes the check position. -/
def markMatched (l : LineIx) (n : Cyc) (p : Nat) (s : State) : State :=
  s.modLine l fun r =>
    { r with tracks := r.tracks.map fun k => if k.number = n then { k with lastMatched := some p } else k }

/-- R34: the triggers of a detection, raised when all of its handling is done. -/
def raiseEscapeAndSpark (l : LineIx) (s : State) : State :=
  raiseTrigger (.sparkOnLine l) (raiseTrigger (.escapeOnLine l) s)

/-- R39 to R43: a check detection of detector `i`, and its triggers. -/
def checkDetection (l : LineIx) (i : PointIx) (p : Nat) (t : Time) (z : Option ZoneIx) (s : State) : State :=
  match s.findTrack l p t with
  | some k =>
    let u := markMatched l k.number p s
    if s.isEscape k p then raiseEscapeAndSpark l (countEscape l z u)
    else raiseTrigger (.sparkOnLine l) (confirmTrack l k p t u)
  | none =>
    if (s.line l).storm || (s.line l).flood then raiseTrigger (.sparkOnLine l) (detectionCases l i p t s)
    else raiseEscapeAndSpark l (detectionCases l i p t (countEscape l z s))

/-- R34: the Spark Tracker takes a Spark report. -/
def sparkReport (i : PointIx) (l : LineIx) (t : Time) (s : State) : State :=
  let c := (s.point i).cfg
  let u := s.modLine l fun r => { r with sparks := bump r.sparks }
  match c.role with
  | some .check => checkDetection l i c.pos t c.zone u
  | some .primary | none => raiseTrigger (.sparkOnLine l) (detectionCases l i c.pos t u)

/-- R44: the Spark Tracker takes a Flame report. -/
def flameReport (i : PointIx) (l : LineIx) (isActive : Bool) (s : State) : State :=
  if isActive then openNow (s.valvesBeyond l (s.point i).cfg.pos) s else s

/-! ## Events -/

/-- SAMPLE_EXPIRY (R25, R27). -/
def sampleExpires (i : PointIx) (s : State) : State :=
  match (s.point i).sample, (s.point i).cfg.line with
  | some a, some l =>
    if s.active && a.fresh && decide (Config.airSampleAge ≤ elapsed s.clock a.arrival) then
      recomputeSpeed l (s.modPoint i fun p => { p with sample := some { a with fresh := false } })
    else s
  | _, _ => s

/-- RETIRE_DEADLINE (R32). -/
def retireEnds (l : LineIx) (s : State) : State :=
  if s.active && due s.clock (s.line l).retireAt then retireReached l s else s

/-- RECORD_END_TIME (R31): of a record that is not the head. -/
def recordEnds (l : LineIx) (n : Cyc) (s : State) : State :=
  match (s.line l).tracks with
  | [] => s
  | head :: rest =>
    if s.active then
      s.modLine l fun r =>
        { r with tracks := head :: rest.map fun k =>
            if k.number = n ∧ reached s.clock k.endTime = true then { k with state := .passed } else k }
    else s

/-- SAMPLE_EXPIRY, R25. -/
def execSampleExpiry (i : PointIx) (s : State) : Host.Outcome State Fault Refusal := .next (settle (sampleExpires i s))

/-- RETIRE_DEADLINE, R32. -/
def execRetireDeadline (l : LineIx) (s : State) : Host.Outcome State Fault Refusal := .next (retireEnds l s)

/-- RECORD_END_TIME, R31. -/
def execRecordEndTime (l : LineIx) (n : Cyc) (s : State) : Host.Outcome State Fault Refusal := .next (recordEnds l n s)

end Sys2Proof.Machine
end

