-- ==== Sys2Proof/Machine/Inputs.lean ====
section
/-! DEFINITION. Local Lines: the debounced inputs and their edges (R20, R21). The pins of the outputs are the Drive Unit's
(`syncPins`, R22). -/

namespace Sys2Proof.Machine

/-- R20: an input's debounce time, 0 where its channel has no used entry. -/
def State.debounceOf (s : State) (i : InputIx) : Nat :=
  match s.inputPoint i with
  | some p => (s.point p).cfg.debounceMs
  | none => 0

/-- R21, R12: an edge of a local call point or flame detector counts a report and sets the contact state. -/
def contactEdge (p : PointIx) (on : Bool) (s : State) : State :=
  s.modPoint p fun r => { r with reports := bump r.reports, contact := some on }

/-- The Zone Unit takes a Call report of a point (R19). -/
def deliverCall (p : PointIx) (on : Bool) (s : State) : State :=
  match (s.point p).cfg.zone with
  | some z => zoneCall z on s
  | none => s

/-- The Zone Unit takes a Flame report of a point (R19). -/
def deliverFlame (p : PointIx) (on : Bool) (s : State) : State :=
  match (s.point p).cfg.zone with
  | some z => zoneFlame z on s
  | none => s

/-- The Spark Tracker takes a Flame report of a point (R19, R44). -/
def trackFlame (p : PointIx) (on : Bool) (s : State) : State :=
  match (s.point p).cfg.line with
  | some l => flameReport p l on s
  | none => s

/-- R21: what an edge does in Observe and Protect, by the kind of the input's point entry. The Trip Unit, the Zone Unit and
the Spark Tracker take their parts in any order (log 5). -/
def edgeActs (i : InputIx) (on : Bool) (s : State) : State :=
  let trip := fun t : State => settle (raiseTrigger (.inputEdge i) t)
  match s.inputPoint i with
  | none => trip s
  | some p =>
    match (s.point p).cfg.kind with
    | .call => eitherOrder trip (fun t => settle (deliverCall p on t)) (contactEdge p on s)
    | .flame =>
      inAnyOrder [trip, fun t => settle (deliverFlame p on t), trackFlame p on] (contactEdge p on s)
    | .input | .unused | .spark | .airflow | .valve | .gate | .fan | .conveyor | .door | .siren | .output => trip s

/-- R20, R21: the debounced level takes the raw level, which makes an edge. -/
def inputEdge (i : InputIx) (s : State) : State :=
  let on := (s.input i).raw
  let t := s.modInput i fun r =>
    { r with level := on, edges := r.edges + 1, lastEdge := some s.clock, debounceAt := none }
  if s.active then edgeActs i on t else t

/-- R20: the debounce deadline of a raw level that differs from the debounced level; with a debounce time of 0 the edge
follows at once. -/
def startDebounce (i : InputIx) (s : State) : State :=
  if s.debounceOf i = 0 then inputEdge i s
  else s.modInput i fun r => { r with debounceAt := some (after s.clock (s.debounceOf i)) }

/-- RAW_LEVEL_CHANGE (R20): the pin shows a new level; sampling is stopped in Loading. -/
def rawLevelChanges (i : InputIx) (on : Bool) (s : State) : State :=
  if (s.input i).raw = on then s
  else
    let t := s.modInput i fun r => { r with raw := on }
    if s.mode = .loading then t
    else if (s.input i).level = on then t.modInput i fun r => { r with debounceAt := none }
    else startDebounce i t

/-- DEBOUNCE_DEADLINE (R20). -/
def debounceEnds (i : InputIx) (s : State) : State :=
  if s.mode != .loading && due s.clock (s.input i).debounceAt then inputEdge i s else s

/-- R20: sampling starts: every level Off, no count, and a closed contact begins its debounce time (log 18). -/
def startSampling (s : State) : State :=
  { s with inputs := Vector.ofFn fun i =>
      { raw := (s.input i).raw
        debounceAt := if (s.input i).raw then some (after s.clock (s.debounceOf i)) else none } }

/-- R21: a point write has made a local input channel a call point or flame detector: in Observe and Protect its contact
state is set from the debounced level, without an edge. -/
def contactFromLevel (p : PointIx) (s : State) : State :=
  let c := (s.point p).cfg
  if s.active && s.isLocal p && (c.kind == .call || c.kind == .flame) then
    match (List.finRange 8).find? fun i : InputIx => c.channel == BitVec.ofNat 8 i.val with
    | some i => s.modPoint p fun r => { r with contact := some (s.input i).level }
    | none => s
  else s

/-- RAW_LEVEL_CHANGE, R20. -/
def execRawLevelChange (i : InputIx) (on : Bool) (s : State) : Host.Outcome State Fault Refusal :=
  .next (rawLevelChanges i on s)

/-- DEBOUNCE_DEADLINE, R20. -/
def execDebounceDeadline (i : InputIx) (s : State) : Host.Outcome State Fault Refusal := .next (debounceEnds i s)

end Sys2Proof.Machine
end

