-- ==== Sys2Proof/Machine/Operands.lean ====
section
/-! DEFINITION. The operand forms: frames on the loop (R178 to R180), the fields of a Request (R184), markers (R188), and
the configuration parts as they are written and read (R187, R189; logs 13, 14, 36, 43, 45). -/

namespace Sys2Proof.Machine

/-! ## Frames -/

/-- R180: one bit of the check, generator x^16 + x^12 + x^5 + 1. -/
def crcBit (c : BitVec 16) (b : Bool) : BitVec 16 := if c.msb != b then (c <<< 1) ^^^ 0x1021#16 else c <<< 1

/-- R180: one byte of the check, its most significant bit first. -/
def crcByte (c : BitVec 16) (b : Byte) : BitVec 16 :=
  (List.range 8).foldl (fun c k => crcBit c (b.getMsbD k)) c

/-- R180: the check over a run of bytes, from all ones. -/
def crc (bytes : List Byte) : BitVec 16 := bytes.foldl crcByte 0xFFFF#16

/-- R179: the bytes of a frame before its check. -/
def Frame.body (f : Frame) : List Byte :=
  [f.dst, f.src, f.kind, f.channel, BitVec.ofNat 8 f.payload.length] ++ f.payload

/-- R179, R180: a frame as the part sends it, its check high byte first. -/
def Frame.bytes (f : Frame) : List Byte := f.body ++ [(crc f.body).extractLsb' 8 8, (crc f.body).extractLsb' 0 8]

/-- R153, R180: the good frame a run of bytes makes, `none` where the frame is bad. A run shorter than a frame is bad
(log 32). -/
def readFrame (bytes : List Byte) : Option Frame :=
  match bytes with
  | dst :: src :: kind :: channel :: len :: rest =>
    let payload := rest.take (rest.length - 2)
    let f : Frame := { dst, src, kind, channel, payload }
    if 2 ≤ rest.length ∧ len.toNat ≤ 24 ∧ payload.length = len.toNat ∧ f.bytes = bytes ∧ src ≠ 0 ∧ src ≠ 127 then some f
    else none
  | _ => none

/-- R179: the kind code of a Request. -/
abbrev requestKind : Byte := 10

/-! ## Requests (R184) -/

/-- R184: the mode codes. -/
def modeOf : Nat → Option Mode
  | 0 => some .loading
  | 1 => some .bypass
  | 2 => some .observe
  | 3 => some .protect
  | _ => none

/-- R166: the number of entries of a table. -/
def tableSize : Nat → Nat
  | 0 => 1
  | 1 => 256
  | 2 => 12
  | 3 => 32
  | 4 => 64
  | 5 => 24
  | 6 => 8
  | 7 => 8
  | _ => 0

end Sys2Proof.Machine

namespace Sys2Proof

open Sys2Proof.Machine

/-- Bits 0 to 3 of offset 2: the table number. -/
def Request.table (rq : Request) : Nat := rq.selector.toNat % 16

/-- Bit 4 of offset 2: the state part is meant. -/
def Request.namesState (rq : Request) : Bool := rq.selector.getLsbD 4

/-- Bits 5 and 6 of offset 2: the group size 1, 2, 4 or 8. -/
def Request.groupSize (rq : Request) : Nat := 2 ^ (rq.selector.toNat / 32 % 4)

/-- Bit 7 of offset 2, which must be 0 (R185). -/
def Request.reservedSet (rq : Request) : Bool := rq.selector.getLsbD 7

/-- The index of a Request. -/
def Request.ix (rq : Request) : Nat := rq.index.toNat

/-- R165, check 3: the index lies outside the table. -/
def Request.outside (rq : Request) : Bool := decide (tableSize rq.table ≤ rq.ix)

/-- R187: the section a Read names; a Read without a section byte names none. -/
def Request.section? (rq : Request) : Option Nat := rq.data.head?.map (·.toNat)

/-- R170: the tables written in two halves. -/
def Request.twoHalves (rq : Request) : Bool := [2, 3, 4, 5].contains rq.table

/-- R184, R174: the mode a Set Mode names; Loading is refused. -/
def Request.mode? (rq : Request) : Option Mode :=
  match rq.data with
  | [] => none
  | b :: _ =>
    match modeOf b.toNat with
    | some .loading => none
    | m => m

end Sys2Proof

namespace Sys2Proof.Machine

/-- R184, R185: the operation code and the Request of a payload, `none` where it is shorter than 4 bytes. -/
def readRequest (source : Byte) (payload : List Byte) : Option (Byte × Request) :=
  match payload with
  | tag :: op :: selector :: index :: data => some (op, { source, tag, selector, index, data })
  | _ => none

/-! ## Fields -/

/-- The byte at an offset. -/
def at1 (d : List Byte) (k : Nat) : Nat := (d.getD k 0).toNat

/-- The two-byte field at an offset, most significant byte first (R178). -/
def at2 (d : List Byte) (k : Nat) : Nat := at1 d k * 256 + at1 d (k + 1)

/-- The four-byte field at an offset. -/
def at4 (d : List Byte) (k : Nat) : BitVec 32 :=
  d.getD k 0 ++ d.getD (k + 1) 0 ++ d.getD (k + 2) 0 ++ d.getD (k + 3) 0

/-- R188: all ones in one byte, and in two. -/
abbrev ones1 : Nat := 255
abbrev ones2 : Nat := 65535

/-- R188: a field that may stand absent: the absent marker, the default marker where the field has a default, or a value. -/
def marked (ones : Nat) (fallback : Option Nat) (v : Nat) : Option Nat :=
  if v = ones then none else if v + 1 = ones then some (fallback.getD v) else some v

/-- R188: a field that must stand: the absent marker is out of range, the default marker takes the default. -/
def needed (ones fallback v : Nat) (lo hi : Nat) : Option Nat :=
  match marked ones (some fallback) v with
  | some x => if lo ≤ x ∧ x ≤ hi then some x else none
  | none => none

/-- R188: an optional index below `n` whose default is absent: `none` where the value is out of range. -/
def optionalIndex (n : Nat) (v : Nat) : Option (Option (Fin n)) :=
  if v = ones1 ∨ v + 1 = ones1 then some none else if h : v < n then some (some ⟨v, h⟩) else none

/-- An index below `n`. -/
def indexBelow (n : Nat) (v : Nat) : Option (Fin n) := if h : v < n then some ⟨v, h⟩ else none

/-- R187: an optional point-table index of two bytes, absent by default. -/
def optionalPoint (v : Nat) : Option (Option PointIx) :=
  if v = ones2 ∨ v + 1 = ones2 then some none else if h : v < 256 then some (some ⟨v, h⟩) else none

/-- R188: a value, or the absent marker of its width. -/
def orOnes1 (v : Option Nat) : List Byte := [BitVec.ofNat 8 (v.getD ones1)]
def orOnes2 (v : Option Nat) : List Byte := be16 (v.getD ones2)

/-- An index as an optional number. -/
def indexNat {n : Nat} (v : Option (Fin n)) : Option Nat := v.map (·.val)

/-- R187: a list of indices: a count byte, then the indices in list order. -/
def listBytes (l : List PointIx) : List Byte := BitVec.ofNat 8 l.length :: l.map fun i => BitVec.ofNat 8 i.val

/-- A list of at most `n` indices at the head of `d`, with what follows it; the default marker as the count stands for the
empty list, the default of every such list (log 14). -/
def readList (n : Nat) (d : List Byte) : Option (List PointIx × List Byte) :=
  match d with
  | [] => none
  | c :: rest =>
    if c = 254 then some ([], rest)
    else if c.toNat ≤ n ∧ c.toNat ≤ rest.length then
      some ((rest.take c.toNat).map fun b => b.toFin, rest.drop c.toNat)
    else none

/-! ## Codes (R187, R189) -/

def PointKind.code : PointKind → Nat
  | .unused => 0
  | .spark => 1
  | .flame => 2
  | .airflow => 3
  | .call => 4
  | .valve => 5
  | .gate => 6
  | .fan => 7
  | .conveyor => 8
  | .door => 9
  | .siren => 10
  | .input => 11
  | .output => 12

def kindOf : Nat → Option PointKind
  | 0 => some .unused
  | 1 => some .spark
  | 2 => some .flame
  | 3 => some .airflow
  | 4 => some .call
  | 5 => some .valve
  | 6 => some .gate
  | 7 => some .fan
  | 8 => some .conveyor
  | 9 => some .door
  | 10 => some .siren
  | 11 => some .input
  | 12 => some .output
  | _ => none

/-- R189: a level, or Never (`none`). -/
def levelOf : Nat → Option (Option Level)
  | 0 => some (some .quiet)
  | 1 => some (some .watch)
  | 2 => some (some .alarm)
  | 3 => some (some .fire)
  | 4 => some (some .evacuate)
  | 5 => some none
  | _ => none

def levelCode : Option Level → Nat
  | some n => n.rank
  | none => 5

def SpeedSource.code : SpeedSource → Nat
  | .sampled => 0
  | .calibrated => 1
  | .design => 2

def Calibration.code : Calibration → Nat
  | .off => 0
  | .single => 1
  | .continuous => 2

def TripMode.code : TripMode → Nat
  | .off => 0
  | .once => 1
  | .edge => 2
  | .every => 3

/-! ## Point entries (R187) -/

/-- The length of a point entry. -/
abbrev pointLength : Nat := 19

/-- R187: the kind-specific word: the role or the debounce, with its default (R7). -/
def specificDefault (k : PointKind) : Option Nat := if k = .spark ∨ k.hasDebounce true = true then some 0 else none

/-- R187: the role a kind-specific word names; a spark detector's word must name one. -/
def roleOf : Option Nat → Option (Option Role)
  | some 0 => some (some .primary)
  | some 1 => some (some .check)
  | _ => none

/-- An index below `n`, or the absent marker; a default marker is out of range. -/
def presentIndex (n v : Nat) : Option (Option (Fin n)) :=
  if v = ones1 then some none else if h : v < n then some (some ⟨v, h⟩) else none

/-- R6, R7, R187, R188: the point entry that 19 bytes write, markers resolved; ranges and the fields each kind has are
`PointCfg.fits`. -/
def readPoint (d : List Byte) : Option PointCfg :=
  if d.length ≠ pointLength then none
  else
    match kindOf (at1 d 0) with
    | none => none
    | some .unused => some {}
    | some k =>
      let word := marked ones2 (specificDefault k) (at2 d 17)
      match presentIndex 32 (at1 d 3), presentIndex 12 (at1 d 4),
          (if k = .spark then roleOf word else some none : Option (Option Role)) with
      | some zone, some line, some role =>
        some
          { kind := k, station := d.getD 1 0, channel := d.getD 2 0, zone := zone, line := line
            position := marked ones2 none (at2 d 5)
            supervision := marked ones1 (some 10) (at1 d 7)
            feedback := marked ones2 (some 10) (at2 d 8)
            lead := marked ones2 (some 150) (at2 d 10)
            hold := marked ones2 (some 50) (at2 d 12)
            recovery := marked ones2 (some 30) (at2 d 14)
            arming := marked ones1 (some 30) (at1 d 16)
            role := role
            debounce := if k = .spark then none else word }
      | _, _, _ => none

/-- R187: the kind-specific word of an entry. -/
def PointCfg.word (c : PointCfg) : Option Nat :=
  match c.role with
  | some .primary => some 0
  | some .check => some 1
  | none => c.debounce

/-- R188, R7: a point entry as a Read returns it; an unused entry is its kind alone (log 15). -/
def PointCfg.write (c : PointCfg) : List Byte :=
  if c.kind = .unused then [0]
  else
    [BitVec.ofNat 8 c.kind.code, c.station, c.channel] ++ orOnes1 (indexNat c.zone) ++ orOnes1 (indexNat c.line)
      ++ orOnes2 c.position ++ orOnes1 c.supervision ++ orOnes2 c.feedback ++ orOnes2 c.lead ++ orOnes2 c.hold
      ++ orOnes2 c.recovery ++ orOnes1 c.arming ++ orOnes2 c.word

/-! ## Line entries -/

abbrev lineFirstLength : Nat := 10
abbrev lineSecondLength : Nat := 9

/-- R189: strike timing with the fixed strike delay, present under Fixed timing alone (R14). -/
def timingOf (timing : Nat) (delay : Nat) : Option StrikeTiming :=
  match needed ones1 0 timing 0 1 with
  | some 0 => if delay = ones2 then some .computed else none
  | some _ => if delay ≤ 5000 then some (.fixed delay) else none
  | none => none

/-- R14, R187: the line entry that its two halves write. -/
def readLine (a b : List Byte) : Option LineCfg :=
  if a.length ≠ lineFirstLength ∨ b.length ≠ lineSecondLength then none
  else
    match needed ones2 200 (at2 a 0) 1 600, needed ones2 80 (at2 a 2) 0 600, needed ones1 2 (at1 a 4) 0 2,
        needed ones1 0 (at1 a 5) 0 2, needed ones2 40 (at2 a 6) 5 500, needed ones2 6000 (at2 a 8) 0 6000,
        timingOf (at1 b 0) (at2 b 1), needed ones1 5 (at1 b 3) 1 30, needed ones2 90 (at2 b 4) 5 300,
        needed ones1 0 (at1 b 6) 0 1, needed ones2 2000 (at2 b 7) 2000 2000 with
    | some design, some floor, some source, some calibration, some margin, some endPosition, some timing,
        some gateTravel, some runDown, some blind, some _ =>
      some
        { design := design, floor := floor
          source := if source = 0 then .sampled else if source = 1 then .calibrated else .design
          calibration := if calibration = 0 then .off else if calibration = 1 then .single else .continuous
          margin := margin, endPosition := endPosition, timing := timing, gateTravel := gateTravel
          runDown := runDown, blindShut := blind == 1 }
    | _, _, _, _, _, _, _, _, _, _, _ => none

/-- The halves of a line entry as a Read returns them. -/
def LineCfg.write (c : LineCfg) : List (List Byte) :=
  [ be16 c.design ++ be16 c.floor ++ [BitVec.ofNat 8 c.source.code, BitVec.ofNat 8 c.calibration.code] ++ be16 c.margin
      ++ be16 c.endPosition,
    (match c.timing with
      | .computed => [0] ++ be16 ones2
      | .fixed delay => [1] ++ be16 delay)
      ++ [BitVec.ofNat 8 c.gateTravel] ++ be16 c.runDown ++ [if c.blindShut then 1 else 0] ++ be16 Config.airSampleAge ]

/-! ## Zone entries -/

abbrev zoneFirstLength : Nat := 4
abbrev zoneSecondLength : Nat := 5

/-- R66: a divert or shut level: Alarm to Evacuate, or Never. -/
def thresholdOf (fallback v : Nat) : Option (Option Level) :=
  match needed ones1 fallback v 2 5 with
  | some n => levelOf n
  | none => none

/-- A level in a range. -/
def levelIn (fallback v lo : Nat) : Option Level :=
  match needed ones1 fallback v lo 4 with
  | some n => (levelOf n).join
  | none => none

/-- R66, R187: the zone entry that its two halves write. -/
def readZone (a b : List Byte) : Option ZoneCfg :=
  if a.length ≠ zoneFirstLength ∨ b.length ≠ zoneSecondLength then none
  else
    match needed ones1 10 (at1 a 0) 1 60, thresholdOf 2 (at1 a 1), thresholdOf 3 (at1 a 2), levelIn 3 (at1 a 3) 1,
        optionalIndex 8 (at1 b 0), optionalIndex 8 (at1 b 1), optionalIndex 8 (at1 b 2), optionalIndex 8 (at1 b 3),
        optionalIndex 8 (at1 b 4) with
    | some slotLength, some divert, some shut, some escape, some group, some watch, some alarm, some fire,
        some evacuate =>
      some
        { slotLength := slotLength, divert := divert, shut := shut, escape := escape, group := group
          watchCadence := watch, alarmCadence := alarm, fireCadence := fire, evacuateCadence := evacuate }
    | _, _, _, _, _, _, _, _, _ => none

/-- The halves of a zone entry as a Read returns them. -/
def ZoneCfg.write (c : ZoneCfg) : List (List Byte) :=
  [ [BitVec.ofNat 8 c.slotLength, BitVec.ofNat 8 (levelCode c.divert), BitVec.ofNat 8 (levelCode c.shut),
      BitVec.ofNat 8 c.escape.rank],
    orOnes1 (indexNat c.group) ++ orOnes1 (indexNat c.watchCadence) ++ orOnes1 (indexNat c.alarmCadence)
      ++ orOnes1 (indexNat c.fireCadence) ++ orOnes1 (indexNat c.evacuateCadence) ]

/-! ## Trip entries -/

abbrev tripFirstLength : Nat := 9
abbrev tripSecondLength : Nat := 15

/-- R82, R189: an input or output number 1 to 8. -/
def pinOfNumber (v : Nat) : Option (Fin 8) := if h : 1 ≤ v ∧ v ≤ 8 then some ⟨v - 1, by omega⟩ else none

/-- R189: a trigger from its kind and parameter bytes. -/
def triggerOf (kind parameter : Nat) : Option Trigger :=
  match kind with
  | 0 => (indexBelow 12 parameter).map .sparkOnLine
  | 1 => (indexBelow 32 parameter).map .sparkInZone
  | 2 => (indexBelow 12 parameter).map .escapeOnLine
  | 3 => (indexBelow 32 parameter).map .levelChange
  | 4 => (indexBelow 32 parameter).map .slotEnd
  | 5 => (pinOfNumber parameter).map .inputEdge
  | 6 => if parameter = 0 then some .tick else none
  | _ => none

/-- R189: the bytes of a trigger. -/
def Trigger.bytes : Trigger → List Byte
  | .sparkOnLine l => [0, BitVec.ofNat 8 l.val]
  | .sparkInZone z => [1, BitVec.ofNat 8 z.val]
  | .escapeOnLine l => [2, BitVec.ofNat 8 l.val]
  | .levelChange z => [3, BitVec.ofNat 8 z.val]
  | .slotEnd z => [4, BitVec.ofNat 8 z.val]
  | .inputEdge i => [5, BitVec.ofNat 8 (i.val + 1)]
  | .tick => [6, 0]

/-- R189: a source from its kind and parameter bytes. -/
def sourceOf (kind parameter : Nat) : Option Source :=
  match kind with
  | 0 => (indexBelow 32 parameter).map .zoneWindow
  | 1 => (indexBelow 32 parameter).map .zoneSparks
  | 2 => (indexBelow 12 parameter).map .lineEscapes
  | 3 => (indexBelow 12 parameter).map .lineConfirms
  | 4 => (indexBelow 12 parameter).map .lineStrikes
  | 5 => (indexBelow 12 parameter).map .lineLate
  | 6 => (indexBelow 12 parameter).map .lineSpeed
  | 7 => (indexBelow 12 parameter).map .openValves
  | 8 => (pinOfNumber parameter).map .inputCount
  | 9 => (pinOfNumber parameter).map .inputLevel
  | _ => none

/-- R189: the kind and parameter bytes of a source. -/
def Source.bytes : Source → List Byte
  | .zoneWindow z => [0, BitVec.ofNat 8 z.val]
  | .zoneSparks z => [1, BitVec.ofNat 8 z.val]
  | .lineEscapes l => [2, BitVec.ofNat 8 l.val]
  | .lineConfirms l => [3, BitVec.ofNat 8 l.val]
  | .lineStrikes l => [4, BitVec.ofNat 8 l.val]
  | .lineLate l => [5, BitVec.ofNat 8 l.val]
  | .lineSpeed l => [6, BitVec.ofNat 8 l.val]
  | .openValves l => [7, BitVec.ofNat 8 l.val]
  | .inputCount i => [8, BitVec.ofNat 8 (i.val + 1)]
  | .inputLevel i => [9, BitVec.ofNat 8 (i.val + 1)]

/-- R189: a source with its flags byte, the use flag in bit 0 and the sign flag in bit 1; a byte with another bit set is out of
range (log 36). -/
def sourceUseOf (kind parameter flags : Nat) : Option SourceUse :=
  match sourceOf kind parameter with
  | some s => if flags < 4 then some { source := s, used := flags % 2 == 1, negated := flags / 2 == 1 } else none
  | none => none

/-- R189: the bytes of a source with its flags. -/
def SourceUse.bytes (u : SourceUse) : List Byte :=
  u.source.bytes ++ [BitVec.ofNat 8 ((if u.used then 1 else 0) + (if u.negated then 2 else 0))]

/-- R189: an action from its three bytes; a parameter byte the action has no use for is 0. -/
def actionOf (kind a b : Nat) : Option Action :=
  match kind with
  | 0 => if a = 0 ∧ b = 0 then some .nothing else none
  | 1 =>
    match indexBelow 32 a, (if 1 ≤ b ∧ b ≤ 4 then (levelOf b).join else none) with
    | some z, some n => some (.raiseLevel z n)
    | _, _ => none
  | 2 => if b = 0 then (indexBelow 12 a).map .shutLine else none
  | 3 => if b = 0 then (pinOfNumber a).map .outputOn else none
  | 4 => if b = 0 then (pinOfNumber a).map .outputOff else none
  | 5 => if a = 0 ∧ b = 0 then some .notice else none
  | _ => none

/-- R189: the bytes of an action. -/
def Action.bytes : Action → List Byte
  | .nothing => [0, 0, 0]
  | .raiseLevel z n => [1, BitVec.ofNat 8 z.val, BitVec.ofNat 8 n.rank]
  | .shutLine l => [2, BitVec.ofNat 8 l.val, 0]
  | .outputOn q => [3, BitVec.ofNat 8 (q.val + 1), 0]
  | .outputOff q => [4, BitVec.ofNat 8 (q.val + 1), 0]
  | .notice => [5, 0, 0]

/-- R189: a trip mode. -/
def tripModeOf : Nat → Option TripMode
  | 0 => some .off
  | 1 => some .once
  | 2 => some .edge
  | 3 => some .every
  | _ => none

/-- R82, R187, R188: the trip entry that its two halves write. The mode and strict take the default marker; a trigger, a source
and an action, of more than one value each, take none (log 45). -/
def readTrip (a b : List Byte) : Option TripCfg :=
  if a.length ≠ tripFirstLength ∨ b.length ≠ tripSecondLength then none
  else
    match (needed ones1 0 (at1 a 0) 0 3).bind tripModeOf, triggerOf (at1 a 1) (at1 a 2),
        sourceUseOf (at1 a 3) (at1 a 4) (at1 a 5), sourceUseOf (at1 a 6) (at1 a 7) (at1 a 8), needed ones1 0 (at1 b 8) 0 1,
        actionOf (at1 b 9) (at1 b 10) (at1 b 11), actionOf (at1 b 12) (at1 b 13) (at1 b 14) with
    | some mode, some trigger, some first, some second, some strict, some onTrue, some onFalse =>
      some
        { mode := mode, trigger := trigger, first := first, second := second, origin := at4 b 0, margin := at4 b 4
          strict := strict == 1, onTrue := onTrue, onFalse := onFalse }
    | _, _, _, _, _, _, _ => none

/-- The halves of a trip entry as a Read returns them. -/
def TripCfg.write (c : TripCfg) : List (List Byte) :=
  [ [BitVec.ofNat 8 c.mode.code] ++ c.trigger.bytes ++ c.first.bytes ++ c.second.bytes,
    be32 c.origin ++ be32 c.margin ++ [if c.strict then 1 else 0] ++ c.onTrue.bytes ++ c.onFalse.bytes ]

/-! ## Door entries -/

abbrev doorSecondLength : Nat := 3

/-- R113, R187: the door entry that its two halves write. -/
def readDoor (a b : List Byte) : Option DoorCfg :=
  if a.length < 6 ∨ b.length ≠ doorSecondLength then none
  else
    match optionalPoint (at2 a 0), needed ones1 0 (at1 a 2) 0 31, optionalIndex 32 (at1 a 3), levelIn 3 (at1 a 4) 2,
        readList 2 (a.drop 5), needed ones1 20 (at1 b 0) 0 60, needed ones1 4 (at1 b 1) 0 30,
        needed ones1 30 (at1 b 2) 5 120 with
    | some point, some sideA, some sideB, some release, some (conveyors, []), some clearing, some runOut,
        some closing =>
      match indexBelow 32 sideA with
      | some sideA =>
        some
          { point := point, sideA := sideA, sideB := sideB, release := release, conveyors := conveyors
            clearing := clearing, runOut := runOut, closing := closing }
      | none => none
    | _, _, _, _, _, _, _, _ => none

/-- The halves of a door entry as a Read returns them. -/
def DoorCfg.write (c : DoorCfg) : List (List Byte) :=
  [ orOnes2 (indexNat c.point) ++ [BitVec.ofNat 8 c.sideA.val] ++ orOnes1 (indexNat c.sideB)
      ++ [BitVec.ofNat 8 c.release.rank] ++ listBytes c.conveyors,
    [BitVec.ofNat 8 c.clearing, BitVec.ofNat 8 c.runOut, BitVec.ofNat 8 c.closing] ]

/-! ## Siren groups and cadences -/

/-- The output set of a group: member q in bit q of a bitmap of two bytes (log 13); the default marker is the empty set. -/
def outputsOf (a b : Byte) : Option (BitVec 8) :=
  if a = 255 ∧ b = 254 then some 0
  else if a.getLsbD 0 = false ∧ b.toNat < 2 then some (((b ++ a : BitVec 16) >>> 1).setWidth 8)
  else none

/-- The two bytes of an output set. -/
def outputBytes (q : BitVec 8) : List Byte :=
  let w : BitVec 16 := q.setWidth 16 <<< 1
  [w.extractLsb' 0 8, w.extractLsb' 8 8]

/-- R131, R187: the siren group that a Write carries. -/
def readGroupCfg (d : List Byte) : Option GroupCfg :=
  match readList 4 d with
  | some (sirens, [a, b, c, e]) =>
    match outputsOf a b, optionalIndex 8 c.toNat, optionalIndex 8 e.toNat with
    | some outputs, some allClear, some test =>
      some { sirens := sirens, outputs := outputs, allClear := allClear, test := test }
    | _, _, _ => none
  | _ => none

/-- A siren group as a Read returns it. -/
def GroupCfg.write (c : GroupCfg) : List Byte :=
  listBytes c.sirens ++ outputBytes c.outputs ++ orOnes1 (indexNat c.allClear) ++ orOnes1 (indexNat c.test)

/-- R130, R187, R188: the cadence that a Write carries; on time, off time and cycles take no markers. -/
def readCadence (d : List Byte) : Option Cadence :=
  match d with
  | [r, on, off, cycles, t] =>
    match needed ones1 1 r.toNat 1 15, needed ones1 0 t.toNat 0 3 with
    | some rank, some tone =>
      if on = 0 then none
      else some { rank := BitVec.ofNat 8 rank, on := on, off := off, cycles := cycles, tone := BitVec.ofNat 8 tone }
    | _, _ => none
  | _ => none

/-- A cadence as a Read returns it. -/
def Cadence.write (c : Cadence) : List Byte := [c.rank, c.on, c.off, c.cycles, c.tone]

/-! ## The Device record (R166, R169) -/

abbrev deviceLength : Nat := 9

/-- R169, R187: the Device record that a Write carries; the part code, revision and mode bytes are ignored. The default marker
of a station takes the value R177 gives it (log 43). -/
def readDevice (d : List Byte) : Option DeviceCfg :=
  if d.length ≠ deviceLength then none
  else
    match needed ones1 125 (at1 d 2) 0 255, needed ones1 1 (at1 d 3) 0 255, needed ones2 100 (at2 d 5) 10 2000,
        needed ones2 50 (at2 d 7) 5 500 with
    | some own, some supervisor, some silence, some returning =>
      some
        { own := BitVec.ofNat 8 own, supervisor := BitVec.ofNat 8 supervisor, silenceLimit := silence
          returnLimit := returning }
    | _, _, _, _ => none

/-- The Device record as a Read returns it. -/
def DeviceCfg.write (c : DeviceCfg) (mode : Mode) : List Byte :=
  [Config.partCode, Config.revision, c.own, c.supervisor, BitVec.ofNat 8 mode.code] ++ be16 c.silenceLimit
    ++ be16 c.returnLimit

end Sys2Proof.Machine
end

