-- ==== Sys2Proof/Machine/Validate.lean ====
section
/-! DEFINITION. The validation of configuration parts against the tables as they stand (R8, R9, R11, R14, R66, R82, R113, R130,
R131, R169), and of a whole image (R177). Fields whose types bound them are in range by their types. -/

namespace Sys2Proof.Machine

/-! ## Point entries (R8, R9) -/

/-- A value lies in a range. -/
def within (lo hi v : Nat) : Bool := decide (lo ≤ v) && decide (v ≤ hi)

/-- An optional field is in range where it stands. -/
def rangeOk (lo hi : Nat) (v : Option Nat) : Bool :=
  match v with
  | none => true
  | some v => within lo hi v

/-- R6: the fields of an entry are those its kind has. -/
def PointCfg.presenceOk (c : PointCfg) (isLocal : Bool) : Bool :=
  c.zone.isSome == c.kind.hasZone && c.line.isSome == c.kind.hasLine && c.position.isSome == c.kind.hasPosition
    && c.supervision.isSome == (c.kind.hasSupervision && !isLocal)
    && c.feedback.isSome == (c.kind.hasFeedback && !isLocal)
    && c.lead.isSome == (c.kind == .valve) && c.hold.isSome == (c.kind == .valve)
    && c.recovery.isSome == (c.kind == .valve) && c.arming.isSome == (c.kind == .valve)
    && c.role.isSome == (c.kind == .spark) && c.debounce.isSome == c.kind.hasDebounce isLocal

/-- R7: every field of an entry is in range. -/
def PointCfg.rangesOk (c : PointCfg) : Bool :=
  within 1 126 c.station.toNat && within 0 15 c.channel.toNat && rangeOk 0 6000 c.position
    && rangeOk 1 60 c.supervision && rangeOk 1 300 c.feedback && rangeOk 0 1000 c.lead && rangeOk 5 600 c.hold
    && rangeOk 0 300 c.recovery && rangeOk 0 200 c.arming && rangeOk 0 255 c.debounce

/-- R8, checks 3 and 4: the kind fits the station and channel. -/
def PointCfg.placeOk (c : PointCfg) (isLocal : Bool) : Bool :=
  if isLocal then
    if c.channel.toNat < 8 then c.kind == .input || c.kind == .call || c.kind == .flame
    else c.kind == .output || c.kind == .siren
  else c.kind != .input && c.kind != .output

/-- R8, checks 1, 3 and 4, of a used entry under an own station. -/
def PointCfg.fits (c : PointCfg) (own : Byte) : Bool :=
  let isLocal := c.station == own
  c.presenceOk isLocal && c.rangesOk && c.placeOk isLocal

/-- R8, check 2: no other used entry has the key. -/
def keyFree (cfg : PointIx → PointCfg) (i : PointIx) (c : PointCfg) : Bool :=
  allPoints.all fun j => j == i || !(cfg j).used || (cfg j).station != c.station || (cfg j).channel != c.channel

/-- No two neighbours of a list sorted by position share one. -/
def distinctPositions (pos : PointIx → Nat) : List PointIx → Bool
  | [] => true
  | [_] => true
  | i :: j :: rest => pos i != pos j && distinctPositions pos (j :: rest)

/-- R9: the member lists of a line keep its maximums, and no detector or valve stands beyond its end position. -/
def membersOk (cfg : PointIx → PointCfg) (m : Members) (endPosition : Nat) : Bool :=
  decide (m.detectors.length ≤ 16) && decide (m.valves.length ≤ 8) && decide (m.sensors.length ≤ 2)
    && decide (m.fans.length ≤ 2) && decide (m.conveyors.length ≤ 4) && decide (m.gates.length ≤ 1)
    && distinctPositions (fun i => (cfg i).pos) m.valves
    && (m.detectors ++ m.valves).all fun i => decide ((cfg i).pos ≤ endPosition)

/-- The point table as it would stand after a write of entry `i`. -/
def State.trialCfg (s : State) (i : PointIx) (c : PointCfg) : PointIx → PointCfg :=
  fun j => if j = i then c else s.pointCfg j

/-- R8: a point write is accepted; one that makes the entry unused always is. -/
def State.pointOk (s : State) (i : PointIx) (c : PointCfg) : Bool :=
  !c.used ||
    (c.fits s.device.own && keyFree s.pointCfg i c &&
      match c.line with
      | some l =>
        let trial := s.trialCfg i c
        membersOk trial (Sys2Proof.Machine.membersOf trial l) (s.line l).cfg.endPosition
      | none => true)

/-! ## Device (R169, R11) -/

/-- R169: the fields of a Device record are in range. -/
def DeviceCfg.rangesOk (c : DeviceCfg) : Bool :=
  within 1 126 c.own.toNat && within 1 126 c.supervisor.toNat && c.own != c.supervisor
    && within 10 2000 c.silenceLimit && within 5 500 c.returnLimit

/-- R11: no used point entry has the old or the new own station. -/
def State.ownChangeOk (s : State) (c : DeviceCfg) : Bool :=
  c.own == s.device.own ||
    allPoints.all fun i =>
      let p := s.pointCfg i
      !p.used || (p.station != s.device.own && p.station != c.own)

/-- R169: a Device write is accepted. -/
def State.deviceOk (s : State) (c : DeviceCfg) : Bool := c.rangesOk && s.ownChangeOk c

/-! ## Lines, zones, doors, groups, cadences -/

/-- R14: the fields of a line entry are in range and agree. -/
def LineCfg.rangesOk (c : LineCfg) : Bool :=
  within 1 600 c.design && within 0 600 c.floor && decide (c.floor < c.design) && within 5 500 c.margin
    && within 0 6000 c.endPosition && within 1 30 c.gateTravel && within 5 300 c.runDown &&
    match c.timing with
    | .computed => true
    | .fixed delay => within 0 5000 delay

/-- R14: a line entry is accepted beside its detectors and valves. -/
def lineOk (cfg : PointIx → PointCfg) (m : Members) (c : LineCfg) : Bool :=
  c.rangesOk && (m.detectors ++ m.valves).all fun i => decide ((cfg i).pos ≤ c.endPosition)

/-- R66: a level in a range of values. -/
def Level.between (lo hi : Nat) (n : Level) : Bool := within lo hi n.rank

/-- R66: the fields of a zone entry are in range. -/
def ZoneCfg.rangesOk (c : ZoneCfg) : Bool :=
  within 1 60 c.slotLength && (match c.divert with | some n => n.between 2 4 | none => true)
    && (match c.shut with | some n => n.between 2 4 | none => true) && c.escape.between 1 4

/-- R82: an action's level is in range. -/
def Action.levelOk : Action → Bool
  | .raiseLevel _ n => n.between 1 4
  | .nothing | .shutLine _ | .outputOn _ | .outputOff _ | .notice => true

/-- R82: the fields of a trip entry are in range. -/
def TripCfg.rangesOk (c : TripCfg) : Bool := c.onTrue.levelOk && c.onFalse.levelOk

/-- R113: the ranges of a door entry. -/
def DoorCfg.rangesOk (c : DoorCfg) : Bool :=
  c.release.between 2 4 && within 0 60 c.clearing && within 0 30 c.runOut && within 5 120 c.closing
    && decide (c.conveyors.length ≤ 2) && decide c.conveyors.Nodup

/-- R113: a door entry is accepted beside the point table and the other doors. -/
def doorOk (cfg : PointIx → PointCfg) (doors : DoorIx → DoorCfg) (d : DoorIx) (c : DoorCfg) : Bool :=
  c.rangesOk && (c.conveyors.all fun i => (cfg i).kind == .conveyor) &&
    match c.point with
    | none => true
    | some i => (cfg i).kind == .door && (List.finRange 24).all fun e => e == d || (doors e).point != some i

/-- R131: a group is accepted beside the point table and the other groups. -/
def groupOk (own : Byte) (cfg : PointIx → PointCfg) (groups : GroupIx → GroupCfg) (g : GroupIx) (c : GroupCfg) : Bool :=
  decide (c.sirens.length ≤ 4) && decide c.sirens.Nodup
    && (c.sirens.all fun i => (cfg i).kind == .siren && (cfg i).station != own)
    && (List.finRange 8).all fun h =>
        h == g || ((groups h).outputs &&& c.outputs == 0 && c.sirens.all fun i => !(groups h).sirens.contains i)

/-- R130: the fields of a cadence are in range. -/
def Cadence.rangesOk (c : Cadence) : Bool := within 1 15 c.rank.toNat && decide (c.on ≠ 0) && within 0 3 c.tone.toNat

/-- The configuration parts of the door and group tables. -/
def State.doorCfg (s : State) (d : DoorIx) : DoorCfg := (s.door d).cfg
def State.groupCfg (s : State) (g : GroupIx) : GroupCfg := (s.group g).cfg

/-! ## Images (R177) -/

/-- R177: every entry of an image passes the validation its write would apply, and it names a mode the part can enter. -/
def Image.valid (m : Image) : Bool :=
  let cfg : PointIx → PointCfg := fun i => m.points[i.val]
  m.mode != .loading && m.device.rangesOk
    && (allPoints.all fun i => !(cfg i).used || ((cfg i).fits m.device.own && keyFree cfg i (cfg i)))
    && (List.finRange 12).all (fun l : LineIx =>
        let c := m.lines[l.val]
        let members := membersOf cfg l
        membersOk cfg members c.endPosition && lineOk cfg members c)
    && (List.finRange 32).all (fun z : ZoneIx => m.zones[z.val].rangesOk)
    && (List.finRange 64).all (fun t : TripIx => m.trips[t.val].rangesOk)
    && (List.finRange 24).all (fun d : DoorIx => doorOk cfg (fun e => m.doors[e.val]) d m.doors[d.val])
    && (List.finRange 8).all (fun g : GroupIx => groupOk m.device.own cfg (fun h => m.groups[h.val]) g m.groups[g.val])
    && (List.finRange 8).all (fun c : CadenceIx => m.cadences[c.val].rangesOk)

end Sys2Proof.Machine
end

