-- ==== Sys2Proof/Machine/Modes.lean ====
section
/-! DEFINITION. Modes and start-up: the clearing of dynamic state (R164, R175), the start of processing (R24, R68, R143),
mode changes (R174, R152), the image (R176, R177), and the meanings of the start-up and commit events. -/

namespace Sys2Proof.Machine

/-! ## Clearing and starting -/

/-- A point entry with its state cleared (R12, R143, R59, R25). -/
def Point.cleared (p : Point) : Point := { cfg := p.cfg }

/-- A line entry with its state cleared (R23, R64, R94): the effective speed is the design speed, stale on Sampled lines. -/
def Line.cleared (r : Line) : Line :=
  { cfg := r.cfg, speed := r.cfg.design, speedStale := r.cfg.source == .sampled }

/-- A zone, door or siren group with its state cleared (R67, R114, R132). -/
def Zone.cleared (r : Zone) : Zone := { cfg := r.cfg }
def Door.cleared (r : Door) : Door := { cfg := r.cfg }
def Group.cleared (r : Group) : Group := { cfg := r.cfg }

/-- R164: the Loop Port at a Restart or on leaving Bypass: the frame in transmission and the previous own station are kept. -/
def Port.cleared (now : Time) (silence : Nat) (p : Port) : Port :=
  { sending := p.sending, previous := p.previous, silenceAt := some (after now silence) }

/-- R175: the dynamic state of every block is cleared, the tables, the mode, the clock and a running Commit kept. -/
def clearDynamic (s : State) : State :=
  startSampling
    (syncPins
      { s with
        points := s.points.map Point.cleared
        lines := s.lines.map Line.cleared
        strikes := []
        zones := s.zones.map Zone.cleared
        trips := s.trips.map Trip.cleared
        doors := s.doors.map Door.cleared
        groups := s.groups.map Group.cleared
        port := s.port.cleared s.clock s.device.silenceLimit
        classifier := {}
        mgmt := { s.mgmt with staging := none, replaced := 0, expired := 0 }
        triggers := [] })

/-- R24, R68, R143: processing starts: slot-end deadlines and last-heard times are set. The effective speeds stand as the
clearing left them, at the design speeds. -/
def startProcessing (s : State) : State :=
  { s with
    zones := s.zones.map fun r => { r with slotEndAt := some (after s.clock (r.cfg.slotLength * 1000)) }
    points := s.points.map fun p =>
      if p.cfg.used then { p with drive := { p.drive with lastHeard := some s.clock } } else p }

/-- Processing starts when the mode entered is Observe or Protect. -/
def startIfActive (s : State) : State := if s.active then startProcessing s else s

/-! ## Mode changes (R174) -/

/-- R152, R62, R164: the part leaves Protect. -/
def leaveProtect (s : State) : State :=
  { s with
    points := s.points.map fun p =>
      { p with drive := { p.drive with repeatAt := none, disagreeAt := none }, valve := { p.valve with feedbackAt := none } }
    port := { s.port with urgent := [] } }

/-- R152: the records stand frozen from the entry to Bypass on. -/
def freezeRecords (m : Mode) (s : State) : State :=
  { s with points := if m = .bypass then s.points.map (Point.freezePoll s.clock) else s.points }

/-- R62: a valve found in disagreement on entry to Protect is timed from that moment. -/
def timeValve (i : PointIx) (s : State) : State :=
  if s.isKind i .valve && s.valveDisagrees i then
    s.modValve i fun r => { r with feedbackAt := some (after s.clock (s.point i).cfg.feedbackMs) }
  else s

/-- R152: on entry to Protect a loop record in disagreement has its command issued, and one that is not loses its Disagree
flag. -/
def testOnEntry (i : PointIx) (s : State) : State :=
  match (s.point i).drive.commanded with
  | some r => if s.inDisagreement i then issue i r s else testDisagreement false i s
  | none => testDisagreement false i s

/-- R152: the loop records that the entry to Protect changes. -/
def State.entryRecords (s : State) : List PointIx :=
  allPoints.filter fun i => s.isLoop i && (s.inDisagreement i || (s.point i).drive.disagree)

/-- R174, R152, R22: the part enters Protect from Observe. The records are taken in any order (log 5). -/
def enterProtect (s : State) : State :=
  let t := syncPins { s with mode := .protect }
  let u := inAnyOrder (t.entryRecords.map testOnEntry) t
  allPoints.foldl (fun v i => timeValve i v) u

/-- R174: an accepted change of mode, to a mode other than the one the part is in. -/
def changeMode (m : Mode) (s : State) : State :=
  match s.mode with
  | .bypass => startIfActive { clearDynamic s with mode := m }
  | .protect => syncPins { freezeRecords m (leaveProtect s) with mode := m }
  | .observe => if m = .protect then enterProtect s else syncPins { freezeRecords m s with mode := m }
  | .loading => s

/-- A line is not Normal, for some line. -/
def State.anyLineBusy (s : State) : Bool := s.lines.toList.any fun r => r.state != .normal

/-- Some zone is at or above a level. -/
def State.anyZoneAt (s : State) (n : Level) : Bool := s.zones.toList.any fun r => r.level.atLeast n

/-- R174: a change of mode is held. -/
def State.modeHeld (s : State) (m : Mode) : Bool :=
  match s.mode, m with
  | .protect, .observe | .protect, .bypass => s.anyZoneAt .alarm || s.anyLineBusy
  | .observe, .protect =>
    s.anyZoneAt .alarm || s.anyLineBusy || s.points.toList.any fun p => p.valve.state != .closed
  | _, _ => false

/-- R175: a Restart is held. -/
def State.restartHeld (s : State) : Bool := s.mode == .protect && (s.anyZoneAt .alarm || s.anyLineBusy)

/-- R175: an accepted Restart. -/
def restartPart (s : State) : State := startIfActive (clearDynamic s)

/-! ## The image (R176, R177) -/

/-- R176: the image content, from the configuration parts as they stand. -/
def State.snapshot (s : State) : Image where
  device := s.device
  mode := s.mode
  points := s.points.map (·.cfg)
  lines := s.lines.map (·.cfg)
  zones := s.zones.map (·.cfg)
  trips := s.trips.map (·.cfg)
  doors := s.doors.map (·.cfg)
  groups := s.groups.map (·.cfg)
  cadences := s.cadences

/-- R177: the image read from the memory is good: the check word agrees, the part code is the part's own, and every entry
passes its validation. -/
def State.goodImage (s : State) : Option Image :=
  match s.memory with
  | .unreadable => none
  | .image part m => if part = Config.partCode ∧ m.valid = true then some m else none

/-- R177: the tables and the Device record take an image's configuration parts, and the maps are built. -/
def loadImage (m : Image) (s : State) : State :=
  rebuildMaps
    { s with
      device := m.device
      mode := m.mode
      points := m.points.map fun c => { cfg := c }
      lines := m.lines.map fun c => ({ cfg := c } : Line).cleared
      zones := m.zones.map fun c => { cfg := c }
      trips := m.trips.map fun c => { cfg := c }
      doors := m.doors.map fun c => { cfg := c }
      groups := m.groups.map fun c => { cfg := c }
      cadences := m.cadences }

/-- R177, R162, R20: the part leaves Loading in the mode it now has. -/
def leaveLoading (s : State) : State :=
  startIfActive
    (startSampling
      { s with
        port := { s.port with silenceAt := some (after s.clock s.device.silenceLimit) }
        mgmt := { s.mgmt with loadingAt := none } })

/-- R177: start-up with a good image ends. -/
def startGood (m : Image) (s : State) : State := notify .started 0 m.mode.code (leaveLoading (loadImage m s))

/-- R177: start-up with a bad image ends: the tables hold their defaults, and the part enters Bypass. -/
def startBad (s : State) : State := notify .noImage 0 Mode.bypass.code (leaveLoading { loadImage {} s with mode := .bypass })

/-- IMAGE_READ_COMPLETE (R177). A read that completes after its 250 ms is bad (log 25). -/
def imageRead (answer : MemoryAnswer) (s : State) : State :=
  if s.mode = .loading then
    match answer, s.goodImage with
    | .answered, some m => if overdue s.clock s.mgmt.loadingAt then startBad s else startGood m s
    | _, _ => startBad s
  else s

/-- LOADING_TIMEOUT (R177). -/
def loadingEnds (s : State) : State := if s.mode == .loading && due s.clock s.mgmt.loadingAt then startBad s else s

/-- POWER_ON and RESET_PIN (R177): every block is at its power-on values. What is outside the part stands: the input pins
(log 30), and the configuration memory, whose image fails its check when a Commit was Running (R176). -/
def powerUp (s : State) : State :=
  { State.reset with
    pending := s.pending
    inputs := Vector.ofFn fun i => { raw := (s.input i).raw }
    memory := if s.mgmt.commit.isSome then .unreadable else s.memory
    draws := s.draws }

/-! ## Commit (R176) -/

/-- R176: an accepted Commit. -/
def startCommit (s : State) : State :=
  s.modMgmt fun m =>
    { m with commit := some { content := s.snapshot, deadline := after s.clock Config.commitLimit } }

/-- R176: a Commit ends as Failed, and the image it leaves fails its check. -/
def failCommit (s : State) : State :=
  notify .commitFailed 0 0
    { s with memory := .unreadable, mgmt := { s.mgmt with commit := none, lastCommit := .failed } }

/-- COMMIT_COMPLETION (R176): the writing and reading back has ended. One that comes after its 2000 ms is a failure
(log 25). -/
def commitEnds (result : ReadBack) (s : State) : State :=
  match s.mgmt.commit with
  | none => s
  | some c =>
    if result = .correct ∧ overdue s.clock (some c.deadline) = false then
      notify .commitDone 0 0
        { s with
          memory := .image Config.partCode c.content
          mgmt := { s.mgmt with commit := none, lastCommit := .done } }
    else failCommit s

/-- COMMIT_TIMEOUT (R176). -/
def commitLapses (s : State) : State :=
  match s.mgmt.commit with
  | none => s
  | some c => if reached s.clock c.deadline then failCommit s else s

/-! ## Events -/

/-- POWER_ON, R177. -/
def execPowerOn (s : State) : Host.Outcome State Fault Refusal := .next (powerUp s)

/-- RESET_PIN, R177. -/
def execResetPin (s : State) : Host.Outcome State Fault Refusal := .next (powerUp s)

/-- IMAGE_READ_COMPLETE, R177. -/
def execImageReadComplete (answer : MemoryAnswer) (s : State) : Host.Outcome State Fault Refusal :=
  .next (imageRead answer s)

/-- LOADING_TIMEOUT, R177. -/
def execLoadingTimeout (s : State) : Host.Outcome State Fault Refusal := .next (loadingEnds s)

/-- COMMIT_COMPLETION, R176. -/
def execCommitCompletion (result : ReadBack) (s : State) : Host.Outcome State Fault Refusal := .next (commitEnds result s)

/-- COMMIT_TIMEOUT, R176. -/
def execCommitTimeout (s : State) : Host.Outcome State Fault Refusal := .next (commitLapses s)

end Sys2Proof.Machine
end

