-- ==== Sys2Proof/Machine/Sections.lean ====
section
/-! DEFINITION. What a Read returns: the configuration parts and the state sections of every table (R166, R187 to R189; logs
10, 11, 12, 44). A section is `none` where its number lies beyond the table's. -/

namespace Sys2Proof.Machine

/-! ## Fields of a state section (R187, R188) -/

/-- R188: a deadline: the milliseconds that remain, 0 once reached, all ones when absent. -/
def remaining (now : Time) (d : Option Time) : List Byte :=
  match d with
  | none => [255, 255, 255]
  | some d => if reached now d then be24 0 else be24 (d - now).toNat

/-- An optional clock value or other field of four bytes. -/
def optional4 (v : Option (BitVec 32)) : List Byte := be32 (v.getD (BitVec.allOnes 32))

/-- An event counter or other 16-bit field. -/
def count2 (c : Ctr) : List Byte := be16 c.toNat

def TrackState.code : TrackState → Nat
  | .inFlight => 0
  | .struck => 1
  | .passed => 2

def ValveState.code : ValveState → Nat
  | .closed => 0
  | .opened => 1
  | .recovering => 2

def Phase.code : Phase → Nat
  | .idle => 0
  | .sounding => 1
  | .allClear => 2
  | .test => 3

def CommitOutcome.code : CommitOutcome → Nat
  | .none => 0
  | .done => 1
  | .failed => 2

/-- R181: the code of a Status state. -/
def Code.number : Code → Nat
  | .opened => 1
  | .closed => 2
  | .normal => 3
  | .diverted => 4
  | .moving => 5
  | .running => 6
  | .stopped => 7
  | .sounding => 8
  | .quiet => 9
  | .ready => 10
  | .obscured => 11

/-! ## Device -/

/-- R155: the eleven port counters, in order. -/
def PortCounters.list (c : PortCounters) : List Ctr :=
  [c.received, c.repeated, c.stripped, c.droppedCheck, c.throughOverrun, c.urgentInserted, c.routineInserted,
    c.urgentLost, c.routineLost, c.missing, c.sentUntracked]

/-- R51: a strike-list entry. -/
def Strike.bytes (e : Strike) : List Byte :=
  be32 e.fire ++ [BitVec.ofNat 8 e.valve.val, BitVec.ofNat 8 e.line.val, e.track, packFlags [e.detached]]

/-- R166: the sections of the Device record. -/
def State.deviceSection (s : State) (n : Nat) : Option (List Byte) :=
  let p := s.port
  let k := Config.portCountersInFirstSection.val
  if n = 0 then
    some ([BitVec.ofNat 8 s.mode.code, packFlags [p.upstreamLost, p.downstreamOpen],
        if s.mgmt.commit.isSome then 1 else 0, BitVec.ofNat 8 s.mgmt.lastCommit.code,
        if s.mgmt.staging.isSome then 1 else 0] ++ count2 s.mgmt.replaced ++ count2 s.mgmt.expired)
  else if n = 1 then
    some (count2 s.classifier.delivered ++ count2 s.classifier.unmapped ++ count2 s.classifier.badValue)
  else if n = 2 then some ((p.counters.list.take k).flatMap count2)
  else if n = 3 then some ((p.counters.list.drop k).flatMap count2)
  else if n < 36 then
    match s.strikes[n - 4]? with
    | some e => some e.bytes
    | none => some []
  else none

/-! ## Points -/

/-- R183, R189: a commanded state, five bytes for a loop siren and one for every other point. -/
def commandedBytes (isLoopSiren : Bool) (r : Option Requested) : List Byte :=
  match r with
  | none => if isLoopSiren then [255, 255, 255, 255, 255] else [255]
  | some (.sounding on off cycles tone) => [1, on, off, cycles, tone]
  | some .quiet => [0, 0, 0, 0, 0]
  | some .outOn => [1]
  | some .outOff => [0]
  | some .opened => [1]
  | some .closed => [2]
  | some .normal => [3]
  | some .divert => [4]
  | some .stop => [5]
  | some .permit => [6]
  | some .hold => [7]
  | some .release => [8]

/-- R143, R189: a reported state; a local output reports its own pin. -/
def State.reportedBytes (s : State) (i : PointIx) : List Byte :=
  let c := (s.point i).cfg
  if s.isLocal i && (c.kind == .output || c.kind == .siren) then [if s.pinOf i then 1 else 0]
  else orOnes1 ((s.point i).drive.reported.map (·.number))

/-- R187: a stop-claim set as a bitmap: lines 0 to 11, then doors 0 to 23 (log 12). -/
def claimBytes (c : List Claim) : List Byte :=
  bitmap 5 ((List.finRange 12).map (fun l => c.contains (.line l))
    ++ (List.finRange 24).map fun d => c.contains (.door d))

/-- R166, R12, R143: the sections of a point entry; an unused entry has no data. A point that is no fan or conveyor has the
empty stop-claim set (log 50). -/
def State.pointSection (s : State) (i : PointIx) (n : Nat) : Option (List Byte) :=
  let p := s.point i
  let d := p.drive
  if 3 ≤ n then none
  else if !p.cfg.used then some []
  else if n = 0 then some (count2 p.reports ++ orOnes1 (p.contact.map fun b => if b then 1 else 0))
  else if n = 1 then
    some (commandedBytes (s.isLoop i && p.cfg.kind == .siren) d.commanded ++ s.reportedBytes i
      ++ optional4 d.lastHeard ++ optional4 d.lastCommand
      ++ [packFlags [d.unsupervised, d.disagree, d.obscured, s.pollOutstanding i]]
      ++ remaining s.clock d.repeatAt ++ remaining s.clock d.disagreeAt)
  else some (claimBytes d.claims ++ count2 d.withheld ++ count2 d.repeats)

/-! ## Lines -/

/-- R25: an Air sample slot. -/
def sampleBytes (a : Option Sample) : List Byte := orOnes2 (a.map (·.speed)) ++ optional4 (a.map (·.arrival))

/-- R30: a track record: 23 bytes by R187 and R188, one more than its section carries (log 10). -/
def Track.bytes (k : Track) : List Byte :=
  [k.number, BitVec.ofNat 8 k.origin.val] ++ be16 k.originPosition ++ be32 k.detected ++ be16 k.speed
    ++ [BitVec.ofNat 8 k.state.code] ++ orOnes2 (k.target.map (·.1.val)) ++ optional4 (k.target.map (·.2))
    ++ orOnes2 k.lastMatched ++ be32 k.endTime

/-- R59: a valve record. -/
def Valve.bytes (now : Time) (v : Valve) : List Byte :=
  [BitVec.ofNat 8 v.state.code] ++ remaining now v.holdAt ++ remaining now v.recoveryAt ++ [packFlags [v.faulted]]
    ++ remaining now v.feedbackAt ++ count2 v.opens ++ count2 v.reopens ++ count2 v.unsolicited

/-- R166: the sections of a line entry. -/
def State.lineSection (s : State) (l : LineIx) (n : Nat) : Option (List Byte) :=
  let r := s.line l
  let m := s.membersOf l
  if n = 0 then
    some ([BitVec.ofNat 8 r.state.code, packFlags [r.gateFault, r.runDownIncomplete]]
      ++ remaining s.clock r.gateTravelAt ++ remaining s.clock r.runDownAt
      ++ bitmap 8 ((List.finRange 64).map fun t => r.tripHeld.contains t))
  else if n = 1 then
    some (be16 r.speed ++ [packFlags [r.speedStale, r.flood, r.storm]]
      ++ (m.sensors.flatMap fun i => sampleBytes (s.point i).sample) ++ orOnes2 r.calibrated ++ [r.calibrationCount])
  else if n = 2 then
    some ([r.sparks, r.confirmations, r.escapes, r.untracked, r.strikes, r.late, r.early, r.diverts, r.shuts,
      r.divertSkipped].flatMap count2)
  else if n < 19 then
    match r.tracks[n - 3]? with
    | some k => some (k.bytes.eraseIdx (11 + Config.trackByteLeftOut.val))
    | none => some []
  else if n < 27 then
    match m.valves[n - 19]? with
    | some v => some ((s.point v).valve.bytes s.clock)
    | none => some []
  else if n = 27 then some (listBytes m.detectors)
  else if n = 28 then some ([m.valves, m.sensors, m.fans, m.conveyors, m.gates].flatMap listBytes)
  else if n = 29 then some (bitmap 4 ((List.finRange 32).map fun z => m.serves.contains z))
  else none

/-! ## Zones, trips, doors, groups -/

/-- R166, R67: the sections of a zone entry. -/
def State.zoneSection (s : State) (z : ZoneIx) (n : Nat) : Option (List Byte) :=
  let r := s.zone z
  if n = 0 then
    some ([BitVec.ofNat 8 r.level.rank] ++ optional4 r.changed ++ be16 r.faults
      ++ [r.sparks, r.flames, r.escapes, r.calls].flatMap count2)
  else if n = 1 then
    some (r.slots.toList.flatMap count2 ++ [BitVec.ofNat 8 r.current.val] ++ count2 r.window
      ++ remaining s.clock r.slotEndAt)
  else none

/-- R83, R166: the section of a trip entry. The baseline is 1 for true and 0 for false (log 44). -/
def State.tripSection (s : State) (t : TripIx) (n : Nat) : Option (List Byte) :=
  let r := s.trip t
  if n = 0 then
    some ([packFlags [r.spent]] ++ orOnes1 (r.baseline.map fun b => if b then 1 else 0)
      ++ optional4 (r.latch.map fun v => BitVec.ofInt 32 v.1) ++ optional4 (r.latch.map (·.2)) ++ [r.fired])
  else none

/-- R114, R166: the section of a door entry. -/
def State.doorSection (s : State) (d : DoorIx) (n : Nat) : Option (List Byte) :=
  let r := s.door d
  if n = 0 then
    some ([BitVec.ofNat 8 r.state.code, if r.closeRequest then 1 else 0,
        packFlags [r.forced, r.wasJammed, r.manualClosed, r.breached]]
      ++ remaining s.clock r.clearingAt ++ remaining s.clock r.runOutAt ++ remaining s.clock r.closingAt
      ++ [r.releases, r.forcedCount, r.jams, r.breaches].flatMap count2)
  else none

/-- R132, R166: the sections of a siren group. -/
def State.groupSection (s : State) (g : GroupIx) (n : Nat) : Option (List Byte) :=
  let r := s.group g
  let requests := r.requests.toList.flatMap fun c => orOnes1 (indexNat c)
  if n = 0 then
    some ([BitVec.ofNat 8 r.phase.code] ++ orOnes1 (r.winner.map (·.1.val)) ++ orOnes1 (r.winner.map (·.2.val))
      ++ orOnes1 (indexNat r.sounding) ++ remaining s.clock r.endAt ++ orOnes1 r.silencedRank
      ++ [r.starts, r.silences, r.tests].flatMap count2)
  else if n = 1 then some (requests.take 16)
  else if n = 2 then some (requests.drop 16)
  else none

/-! ## Tables (R166) -/

/-- R167: the configuration part of an entry, in the Replies a Read of it needs. -/
def State.configParts (s : State) (table index : Nat) : List (List Byte) :=
  match table with
  | 0 => [s.device.write s.mode]
  | 1 => match indexBelow 256 index with
    | some i => [(s.point i).cfg.write]
    | none => []
  | 2 => match indexBelow 12 index with
    | some l => (s.line l).cfg.write
    | none => []
  | 3 => match indexBelow 32 index with
    | some z => (s.zone z).cfg.write
    | none => []
  | 4 => match indexBelow 64 index with
    | some t => (s.trip t).cfg.write
    | none => []
  | 5 => match indexBelow 24 index with
    | some d => (s.door d).cfg.write
    | none => []
  | 6 => match indexBelow 8 index with
    | some g => [(s.group g).cfg.write]
    | none => []
  | 7 => match indexBelow 8 index with
    | some c => [(s.cadence c).write]
    | none => []
  | _ => []

/-- R166: a state section of an entry; the cadence table has none. -/
def State.section? (s : State) (table index n : Nat) : Option (List Byte) :=
  match table with
  | 0 => s.deviceSection n
  | 1 => match indexBelow 256 index with
    | some i => s.pointSection i n
    | none => none
  | 2 => match indexBelow 12 index with
    | some l => s.lineSection l n
    | none => none
  | 3 => match indexBelow 32 index with
    | some z => s.zoneSection z n
    | none => none
  | 4 => match indexBelow 64 index with
    | some t => s.tripSection t n
    | none => none
  | 5 => match indexBelow 24 index with
    | some d => s.doorSection d n
    | none => none
  | 6 => match indexBelow 8 index with
    | some g => s.groupSection g n
    | none => none
  | _ => none

end Sys2Proof.Machine
end

