-- ==== Sys2Proof/Machine/Manage.lean ====
section
/-! DEFINITION. The Management Unit: the checks of a Request (R165), reading (R167, R168), writing (R169 to R172, with what an
accepted write does: R10, R50, R81, R128, R142), the commands (R173 to R176), and the meanings of the Requests and of the
staging and previous-station deadlines. -/

namespace Sys2Proof.Machine

/-! ## Checks (R165) -/

/-- The outcome of the first check that fails, in order. -/
def firstFailed : List (Bool × ReplyCode) → Option ReplyCode
  | [] => none
  | (bad, code) :: rest => if bad then some code else firstFailed rest

/-- R165, checks 1 to 3, of a Request from the supervisor station alone that names one of these tables. -/
def State.entryChecks (s : State) (rq : Request) (tables : List Nat) : List (Bool × ReplyCode) :=
  [(rq.source != s.device.supervisor, .notPermitted), (!tables.contains rq.table, .table), (rq.outside, .index)]

/-- Every table. -/
abbrev everyTable : List Nat := [0, 1, 2, 3, 4, 5, 6, 7]

/-- R165: a Request is answered: a refusal in one Reply, an acceptance by what it does. In Loading it is discarded. -/
def answer (rq : Request) (checks : List (Bool × ReplyCode)) (accepted : State → State) (s : State) : State :=
  if s.mode = .loading then s
  else
    match firstFailed checks with
    | some code => reply rq code s
    | none => accepted s

/-- A Done Reply beside the effect of an accepted Request; the notices of the effect and the Reply are placed in either order
(log 7). -/
def doneWith (rq : Request) (effect : State → State) (s : State) : State := eitherOrder effect (reply rq .done) s

/-! ## Reading (R167, R168) -/

/-- What a Read of one entry returns, `none` where it is refused with Refused-Value. -/
def State.readEntry (s : State) (rq : Request) (index : Nat) : Option (List (List Byte)) :=
  if rq.namesState then
    match rq.section? with
    | some n => (s.section? rq.table index n).map fun d => [d]
    | none => none
  else some (s.configParts rq.table index)

/-- R167: the Replies a Read of one entry needs. -/
def State.repliesNeeded (s : State) (rq : Request) (index : Nat) : Nat :=
  if rq.namesState then 1 else (s.configParts rq.table index).length

/-- R167: a Read. -/
def takeRead (rq : Request) (s : State) : State :=
  let found := s.readEntry rq rq.ix
  answer rq
    [(!everyTable.contains rq.table, .table), (rq.outside, .index),
      (decide (s.routineFree < s.repliesNeeded rq rq.ix), .busy), (rq.reservedSet || found.isNone, .value)]
    (fun t => replyData rq t (found.getD [])) s

/-- R168: the indices of an aligned group, from the start index and wrapping. -/
def groupOrder (start size : Nat) : List Nat :=
  let base := start / size * size
  (List.range size).map fun k => base + (start - base + k) % size

/-- Every entry's data, `none` where one is refused. -/
def State.readEntries (s : State) (rq : Request) : List Nat → Option (List (List Byte))
  | [] => some []
  | i :: is =>
    match s.readEntry rq i, s.readEntries rq is with
    | some d, some ds => some (d ++ ds)
    | _, _ => none

/-- R168: a ReadGroup. -/
def takeReadGroup (rq : Request) (s : State) : State :=
  let order := groupOrder rq.ix rq.groupSize
  let found := s.readEntries rq order
  answer rq
    [(!everyTable.contains rq.table, .table), (order.any fun i => decide (tableSize rq.table ≤ i), .index),
      (decide (s.routineFree < (order.map (s.repliesNeeded rq)).sum), .busy),
      (rq.groupSize == 1 || rq.reservedSet || found.isNone, .value)]
    (fun t => replyData rq t (found.getD [])) s

/-! ## Busy conditions of writes (R172) -/

/-- A line has tracks or is not Normal. -/
def State.lineBusy (s : State) (l : LineIx) : Bool := (s.line l).state != .normal || !(s.line l).tracks.isEmpty

/-- The line the data of a point write names, read before its values are checked. Data too short to hold the line byte, and a
byte that is no line, name none (log 33). -/
def newLine (data : List Byte) : Option LineIx :=
  match kindOf (at1 data 0), data[4]? with
  | some k, some b => if k.hasLine then indexBelow 12 b.toNat else none
  | _, _ => none

/-- R172: a point write is busy. -/
def State.pointBusy (s : State) (i : PointIx) (data : List Byte) : Bool :=
  let p := s.point i
  let busyLine := fun l : Option LineIx => match l with
    | some l => s.lineBusy l
    | none => false
  busyLine p.cfg.line || busyLine (newLine data)
    || ((p.cfg.kind == .fan || p.cfg.kind == .conveyor) && !p.drive.claims.isEmpty)
    || (p.cfg.kind == .valve && p.valve.state != .closed)
    || (s.doorsOfPoint i).any fun d => (s.door d).state != .opened && (s.door d).state != .unknown

/-! ## What accepted writes do -/

/-- R10: the written entry, its state part and drive record cleared, the counters of the record kept. A valve's record goes
to its reset values (R59), and an Air sample is discarded. -/
def Point.written (now : Time) (c : PointCfg) (p : Point) : Point :=
  { cfg := c
    drive := { lastHeard := some now, withheld := p.drive.withheld, repeats := p.drive.repeats } }

/-- R50: the lines whose airflow sensors list a point write changed compute their speed again. A list with the same indexes, as
where a sensor's entry is rewritten in place, is one that has not changed (log 51). -/
def recomputeChanged (before : State) (s : State) : State :=
  inAnyOrder
    (((List.finRange 12).filter fun l => (before.membersOf l).sensors != (s.membersOf l).sensors).map recomputeSpeed) s

/-- R128: the doors whose door point a point write has rewritten. -/
def rewriteDoors (before : State) (i : PointIx) (s : State) : State :=
  let doors := (List.finRange 24).filter fun d =>
    (s.door d).cfg.point == some i && (before.doorActive d || s.doorActive d)
  inAnyOrder (doors.map fun d => fun t => firstReport d (resetDoor d t)) s

/-- R10, R57, R22, R13: the tables, maps, strike list and pins after an accepted point write. -/
def replacePoint (i : PointIx) (c : PointCfg) (s : State) : State :=
  let t := rebuildMaps (s.modPoint i (Point.written s.clock c))
  syncPins (if s.isKind i .valve then dropStrikesOf i t else t)

/-- R10: an accepted point write. What follows in other blocks is theirs in Observe and Protect (logs 5, 22). -/
def writePoint (i : PointIx) (c : PointCfg) (s : State) : State :=
  let t := contactFromLevel i (replacePoint i c s)
  if s.active then inAnyOrder [recomputeChanged s, rewriteDoors s i, recountFaults] t else t

/-- R169: an accepted Device write. -/
def writeDevice (c : DeviceCfg) (s : State) : State :=
  { s with
    device := c
    port :=
      if c.own = s.device.own then s.port
      else { s.port with previous := some (s.device.own, after s.clock c.returnLimit) } }

/-- R142: an accepted cadence write. -/
def writeCadence (c : CadenceIx) (k : Cadence) (s : State) : State :=
  cadenceWritten c (s.cadence c) { s with cadences := s.cadences.set c.val k }

/-- R14, R50: an accepted line write. -/
def writeLine (l : LineIx) (c : LineCfg) (s : State) : State :=
  let t := s.modLine l fun r => { r with cfg := c }
  if s.active then recomputeSpeed l t else t

/-- R128, R77: an accepted door write. In Bypass it applies the configuration alone. -/
def writeDoor (d : DoorIx) (c : DoorCfg) (s : State) : State :=
  if s.active then
    recountFaults (firstReport d ((resetDoor d s).modDoor d fun r => { r with cfg := c }))
  else s.modDoor d fun r => { r with cfg := c }

/-- What a Write's data does when it is accepted, `none` where it is refused with Refused-Value. -/
def State.writeEffect (s : State) (rq : Request) : Option (State → State) :=
  match rq.table with
  | 0 => match readDevice rq.data with
    | some c => if s.deviceOk c then some (writeDevice c) else none
    | none => none
  | 1 => match indexBelow 256 rq.ix, readPoint rq.data with
    | some i, some c => if s.pointOk i c then some (writePoint i c) else none
    | _, _ => none
  | 6 => match indexBelow 8 rq.ix, readGroupCfg rq.data with
    | some g, some c => if groupOk s.device.own s.pointCfg s.groupCfg g c then some (writeGroup g c) else none
    | _, _ => none
  | 7 => match indexBelow 8 rq.ix, readCadence rq.data with
    | some c, some k => if k.rangesOk then some (writeCadence c k) else none
    | _, _ => none
  | _ => none

/-- R172: a Write meets work in progress. -/
def State.writeBusy (s : State) (rq : Request) : Bool :=
  match rq.table with
  | 1 => match indexBelow 256 rq.ix with
    | some i => s.pointBusy i rq.data
    | none => false
  | _ => false

/-- R169: a Write. The Reply to a Device write is built after it, under the new own station. -/
def takeWrite (rq : Request) (s : State) : State :=
  let effect := s.writeEffect rq
  answer rq
    (s.entryChecks rq everyTable ++
      [(rq.twoHalves, .sequence), (s.mgmt.commit.isSome || s.writeBusy rq, .busy),
        (rq.reservedSet || rq.namesState || effect.isNone, .value)])
    (fun t =>
      let f := effect.getD id
      if rq.table = 0 then reply rq .done (f t) else doneWith rq f t) s

/-! ## Two-half writes (R170, R171) -/

/-- R170: a first half is staged. -/
def stage (rq : Request) (s : State) : State :=
  s.modMgmt fun m =>
    { m with
      replaced := if m.staging.isSome then bump m.replaced else m.replaced
      staging := some
        { tag := rq.tag, table := rq.table, index := rq.ix, half := rq.data,
          deadline := after s.clock Config.stagingLimit } }

/-- R170: a WriteFirst. -/
def takeWriteFirst (rq : Request) (s : State) : State :=
  answer rq
    (s.entryChecks rq everyTable ++
      [(!rq.twoHalves, .sequence), (s.mgmt.commit.isSome, .busy), (rq.reservedSet || rq.namesState, .value)])
    (fun t => reply rq .done (stage rq t)) s

/-- R171: the staged half a WriteSecond completes. -/
def State.stagedFor (s : State) (rq : Request) : Option (List Byte) :=
  match s.mgmt.staging with
  | some h => if h.tag = rq.tag ∧ h.table = rq.table ∧ h.index = rq.ix then some h.half else none
  | none => none

/-- R172: the completed write meets work in progress. -/
def State.secondBusy (s : State) (rq : Request) : Bool :=
  match rq.table with
  | 2 => match indexBelow 12 rq.ix with
    | some l => s.lineBusy l
    | none => false
  | 3 => match indexBelow 32 rq.ix with
    | some z => (s.zone z).level.atLeast .alarm
    | none => false
  | 5 => match indexBelow 24 rq.ix with
    | some d => (s.door d).state != .opened && (s.door d).state != .unknown
    | none => false
  | _ => false

/-- What a completed two-half write does when it is accepted, `none` where it is refused with Refused-Value. -/
def State.secondEffect (s : State) (rq : Request) (a : List Byte) : Option (State → State) :=
  match rq.table with
  | 2 => match indexBelow 12 rq.ix, readLine a rq.data with
    | some l, some c => if lineOk s.pointCfg (s.membersOf l) c then some (writeLine l c) else none
    | _, _ => none
  | 3 => match indexBelow 32 rq.ix, readZone a rq.data with
    | some z, some c => if c.rangesOk then some (writeZone z c) else none
    | _, _ => none
  | 4 => match indexBelow 64 rq.ix, readTrip a rq.data with
    | some t, some c => if c.rangesOk then some (writeTrip t c) else none
    | _, _ => none
  | 5 => match indexBelow 24 rq.ix, readDoor a rq.data with
    | some d, some c => if doorOk s.pointCfg s.doorCfg d c then some (writeDoor d c) else none
    | _, _ => none
  | _ => none

/-- The staging record becomes empty. -/
def emptyStaging (s : State) : State := s.modMgmt fun m => { m with staging := none }

/-- R171: a WriteSecond. One that reaches the sequence check empties the staging record. -/
def takeWriteSecond (rq : Request) (s : State) : State :=
  answer rq (s.entryChecks rq everyTable)
    (fun t =>
      match t.stagedFor rq with
      | none => reply rq .sequence (emptyStaging t)
      | some a =>
        let u := emptyStaging t
        let effect := u.secondEffect rq a
        answer rq
          [(u.mgmt.commit.isSome || u.secondBusy rq, .busy),
            (rq.reservedSet || rq.namesState || effect.isNone, .value)]
          (doneWith rq (effect.getD id)) u) s

/-! ## Commands (R173) -/

/-- R79, R80: Reset Zone. -/
def takeResetZone (rq : Request) (s : State) : State :=
  match indexBelow 32 rq.ix with
  | some z =>
    answer rq
      (s.entryChecks rq [3] ++ [(!s.active, .busy), (rq.reservedSet, .value), (s.resetHeld z, .held)])
      (doneWith rq fun t => settle (resetZone z t)) s
  | none => answer rq (s.entryChecks rq [3]) id s

/-- R107 to R109: Release Line. -/
def takeReleaseLine (rq : Request) (s : State) : State :=
  match indexBelow 12 rq.ix with
  | some l =>
    let st := (s.line l).state
    answer rq
      (s.entryChecks rq [2] ++
        [(!s.active || st == .diverting || st == .stopping, .busy), (rq.reservedSet, .value),
          (st != .normal && s.releaseHeld l, .held)])
      (doneWith rq fun t => if st = .normal then t else releaseLine l t) s
  | none => answer rq (s.entryChecks rq [2]) id s

/-- R125: Restore Door. -/
def takeRestoreDoor (rq : Request) (s : State) : State :=
  match indexBelow 24 rq.ix with
  | some d =>
    let st := (s.door d).state
    answer rq
      (s.entryChecks rq [5] ++
        [(!s.doorActive d, .index), (!s.active || st == .clearing || st == .releasing, .busy),
          (rq.reservedSet, .value), ((s.door d).closeRequest, .held)])
      (doneWith rq (restoreDoor d)) s
  | none => answer rq (s.entryChecks rq [5]) id s

/-- R140: Silence Group. -/
def takeSilenceGroup (rq : Request) (s : State) : State :=
  match indexBelow 8 rq.ix with
  | some g =>
    answer rq
      (s.entryChecks rq [6] ++ [(!s.active || s.silenceBusy g, .busy), (rq.reservedSet, .value)])
      (doneWith rq (silenceGroup g)) s
  | none => answer rq (s.entryChecks rq [6]) id s

/-- R141: Siren Test. -/
def takeSirenTest (rq : Request) (s : State) : State :=
  match indexBelow 8 rq.ix with
  | some g =>
    answer rq
      (s.entryChecks rq [6] ++
        [(!s.active || (s.group g).phase != .idle, .busy), (rq.reservedSet || (s.group g).cfg.test.isNone, .value)])
      (doneWith rq (testGroup g)) s
  | none => answer rq (s.entryChecks rq [6]) id s

/-! ### Clear Counters -/

/-- R155, R173: the Device record's counters. The received counter takes the count of the through-buffer. -/
def clearDevice (s : State) : State :=
  { s with
    port := { s.port with counters := { received := BitVec.ofNat 16 s.port.through.length } }
    classifier := {}
    mgmt := { s.mgmt with replaced := 0, expired := 0 } }

/-- R12, R143: a used point entry's counters. -/
def Point.clearCounters (p : Point) : Point :=
  if p.cfg.used then { p with reports := 0, drive := { p.drive with withheld := 0, repeats := 0 } } else p

/-- R23, R64, R94: a line entry's counters. -/
def Line.clearCounters (r : Line) : Line :=
  { r with sparks := 0, confirmations := 0, escapes := 0, untracked := 0, strikes := 0, late := 0, early := 0,
           diverts := 0, shuts := 0, divertSkipped := 0 }

/-- R59: a valve record's counters. -/
def Valve.clearCounters (v : Valve) : Valve := { v with opens := 0, reopens := 0, unsolicited := 0 }

/-- R23, R59: the counters of a line entry and of its valves' records. -/
def clearLine (l : LineIx) (s : State) : State :=
  (s.membersOf l).valves.foldl (fun t v => t.modValve v Valve.clearCounters) (s.modLine l Line.clearCounters)

/-- R67: a zone entry's counters. -/
def Zone.clearCounters (r : Zone) : Zone := { r with sparks := 0, flames := 0, escapes := 0, calls := 0 }

/-- R114: a door entry's counters. -/
def Door.clearCounters (r : Door) : Door := { r with releases := 0, forcedCount := 0, jams := 0, breaches := 0 }

/-- R132: a siren group's counters. -/
def Group.clearCounters (r : Group) : Group := { r with starts := 0, silences := 0, tests := 0 }

/-- R173: the event counters of an entry are set to 0; trips (R82) and cadences (R130) have none. -/
def clearEntry (table index : Nat) (s : State) : State :=
  match table with
  | 0 => clearDevice s
  | 1 => match indexBelow 256 index with
    | some i => s.modPoint i Point.clearCounters
    | none => s
  | 2 => match indexBelow 12 index with
    | some l => clearLine l s
    | none => s
  | 3 => match indexBelow 32 index with
    | some z => s.modZone z Zone.clearCounters
    | none => s
  | 5 => match indexBelow 24 index with
    | some d => s.modDoor d Door.clearCounters
    | none => s
  | 6 => match indexBelow 8 index with
    | some g => s.modGroup g Group.clearCounters
    | none => s
  | _ => s

/-- R173: Clear Counters. -/
def takeClearCounters (rq : Request) (s : State) : State :=
  answer rq (s.entryChecks rq everyTable ++ [(rq.reservedSet, .value)])
    (doneWith rq (clearEntry rq.table rq.ix)) s

/-! ### Mode, Restart, Commit -/

/-- R174: Set Mode. The Reply and then the ModeChanged notice are placed after the change. -/
def takeSetMode (rq : Request) (s : State) : State :=
  match rq.mode? with
  | some m =>
    answer rq (s.entryChecks rq [0] ++ [(rq.reservedSet, .value), (s.modeHeld m, .held)])
      (fun t =>
        if t.mode = m then reply rq .done t
        else notify .modeChanged 0 m.code (reply rq .done (changeMode m t))) s
  | none => answer rq (s.entryChecks rq [0] ++ [(true, .value)]) id s

/-- R175: Restart. The Reply is placed after the clearing. -/
def takeRestart (rq : Request) (s : State) : State :=
  answer rq (s.entryChecks rq [0] ++ [(rq.reservedSet, .value), (s.restartHeld, .held)])
    (fun t => reply rq .done (restartPart t)) s

/-- R176: Commit. -/
def takeCommit (rq : Request) (s : State) : State :=
  answer rq (s.entryChecks rq [0] ++ [(s.mgmt.commit.isSome, .busy), (rq.reservedSet, .value)])
    (fun t => reply rq .done (startCommit t)) s

/-! ## Requests as frames carry them -/

/-- R185: an operation code R184 does not give: refused at check 1 from another station, at check 2 from the supervisor. -/
def takeUnknown (rq : Request) (s : State) : State :=
  answer rq (s.entryChecks rq []) id s

/-- R184: a Request is taken by its operation code. -/
def takeRequest (op : Byte) (rq : Request) (s : State) : State :=
  match op.toNat with
  | 1 => takeRead rq s
  | 2 => takeReadGroup rq s
  | 3 => takeWrite rq s
  | 4 => takeWriteFirst rq s
  | 5 => takeWriteSecond rq s
  | 16 => takeResetZone rq s
  | 17 => takeReleaseLine rq s
  | 18 => takeRestoreDoor rq s
  | 19 => takeSilenceGroup rq s
  | 20 => takeSirenTest rq s
  | 21 => takeClearCounters rq s
  | 22 => takeSetMode rq s
  | 23 => takeRestart rq s
  | 24 => takeCommit rq s
  | _ => takeUnknown rq s

/-! ## Deadlines -/

/-- STAGING_DEADLINE (R170). It acts in every mode: the Management Unit works in Bypass too. -/
def stagingEnds (s : State) : State :=
  match s.mgmt.staging with
  | some h =>
    if reached s.clock h.deadline then s.modMgmt fun m => { m with staging := none, expired := bump m.expired } else s
  | none => s

/-- PREVIOUS_STATION_DEADLINE (R169). -/
def previousEnds (s : State) : State :=
  match s.port.previous with
  | some p => if reached s.clock p.2 then s.modPort fun q => { q with previous := none } else s
  | none => s

/-! ## Meanings -/

/-- READ, R167. -/
def execRead (rq : Request) (s : State) : Host.Outcome State Fault Refusal := .next (takeRead rq s)

/-- READ_GROUP, R168. -/
def execReadGroup (rq : Request) (s : State) : Host.Outcome State Fault Refusal := .next (takeReadGroup rq s)

/-- WRITE, R169. -/
def execWrite (rq : Request) (s : State) : Host.Outcome State Fault Refusal := .next (takeWrite rq s)

/-- WRITE_FIRST, R170. -/
def execWriteFirst (rq : Request) (s : State) : Host.Outcome State Fault Refusal := .next (takeWriteFirst rq s)

/-- WRITE_SECOND, R171. -/
def execWriteSecond (rq : Request) (s : State) : Host.Outcome State Fault Refusal := .next (takeWriteSecond rq s)

/-- RESET_ZONE, R79. -/
def execResetZone (rq : Request) (s : State) : Host.Outcome State Fault Refusal := .next (takeResetZone rq s)

/-- RELEASE_LINE, R107. -/
def execReleaseLine (rq : Request) (s : State) : Host.Outcome State Fault Refusal := .next (takeReleaseLine rq s)

/-- RESTORE_DOOR, R125. -/
def execRestoreDoor (rq : Request) (s : State) : Host.Outcome State Fault Refusal := .next (takeRestoreDoor rq s)

/-- SILENCE_GROUP, R140. -/
def execSilenceGroup (rq : Request) (s : State) : Host.Outcome State Fault Refusal := .next (takeSilenceGroup rq s)

/-- SIREN_TEST, R141. -/
def execSirenTest (rq : Request) (s : State) : Host.Outcome State Fault Refusal := .next (takeSirenTest rq s)

/-- CLEAR_COUNTERS, R173. -/
def execClearCounters (rq : Request) (s : State) : Host.Outcome State Fault Refusal := .next (takeClearCounters rq s)

/-- SET_MODE, R174. -/
def execSetMode (rq : Request) (s : State) : Host.Outcome State Fault Refusal := .next (takeSetMode rq s)

/-- RESTART, R175. -/
def execRestart (rq : Request) (s : State) : Host.Outcome State Fault Refusal := .next (takeRestart rq s)

/-- COMMIT, R176. -/
def execCommit (rq : Request) (s : State) : Host.Outcome State Fault Refusal := .next (takeCommit rq s)

/-- STAGING_DEADLINE, R170. -/
def execStagingDeadline (s : State) : Host.Outcome State Fault Refusal := .next (stagingEnds s)

/-- PREVIOUS_STATION_DEADLINE, R169. -/
def execPreviousStationDeadline (s : State) : Host.Outcome State Fault Refusal := .next (previousEnds s)

end Sys2Proof.Machine
end

