-- ==== Sys2Proof/Machine/Reports.lean ====
section
/-! DEFINITION. The Frame Classifier's reports: values and fit (R17, R181, R182), bad values (R18), delivery (R19) and the
Drive Unit's taking of a Status report (R146). -/

namespace Sys2Proof.Machine

/-- What a report carries (R181). -/
inductive Report where
  | spark (intensity : Byte)
  | flame (isActive : Bool)
  | air (speed : Nat)
  | call (isActive : Bool)
  | status (code : Code) (nodeFault : Bool)
  deriving DecidableEq, Repr

/-- R181: the Status codes. -/
def codeOf : Nat → Option Code
  | 1 => some .opened
  | 2 => some .closed
  | 3 => some .normal
  | 4 => some .diverted
  | 5 => some .moving
  | 6 => some .running
  | 7 => some .stopped
  | 8 => some .sounding
  | 9 => some .quiet
  | 10 => some .ready
  | 11 => some .obscured
  | _ => none

/-- R17: the Status state codes of a point kind. -/
def PointKind.codes : PointKind → List Code
  | .valve => [.opened, .closed]
  | .gate => [.normal, .diverted, .moving]
  | .fan | .conveyor => [.running, .stopped]
  | .door => [.opened, .moving, .closed]
  | .siren => [.sounding, .quiet]
  | .spark | .flame | .airflow | .call => [.ready, .obscured]
  | .unused | .input | .output => []

/-- A byte that is 1 or 0. -/
def flagByte (b : Byte) : Option Bool := if b = 1 then some true else if b = 0 then some false else none

/-- R17, R182: the value of a report from a point of this kind, `none` where the report does not fit the kind or its value is
out of range. -/
def readReport (kind : PointKind) (frameKind : Byte) (payload : List Byte) : Option Report :=
  match frameKind.toNat, kind, payload with
  | 2, .spark, [v] => if v = 0 then none else some (.spark v)
  | 3, .flame, [b] => (flagByte b).map .flame
  | 4, .airflow, [hi, lo] =>
    let v := hi.toNat * 256 + lo.toNat
    if v ≤ 600 then some (.air v) else none
  | 5, .call, [b] => (flagByte b).map .call
  | 6, k, [c, f] =>
    match codeOf c.toNat, flagByte f with
    | some code, some fault => if k.codes.contains code then some (.status code fault) else none
    | _, _ => none
  | _, _, _ => none

/-! ## Status reports (R146) -/

/-- R146: a change of reported state is passed on to the block that owns the point's kind; `before` says whether a valve was
in disagreement before the change. -/
def passOn (before : Bool) (i : PointIx) (code : Code) (s : State) : State :=
  let c := (s.point i).cfg
  match c.kind with
  | .valve => valveReported before i s
  | .gate =>
    match c.line with
    | some l => gateReported l code s
    | none => s
  | .fan =>
    match c.line with
    | some l => testShut l s
    | none => s
  | .conveyor => inAnyOrder ((s.doorsListing i).map conveyorReported) s
  | .door => inAnyOrder ((s.doorsOfPoint i).map fun d => doorReported d code) s
  | .siren | .spark | .flame | .airflow | .call | .unused | .input | .output => s

/-- R146: the reported state takes the code, and a change is passed on. -/
def takeCode (i : PointIx) (code : Code) (s : State) : State :=
  if (s.point i).drive.reported = some code then s
  else passOn (s.valveDisagrees i) i code (s.modDrive i fun d => { d with reported := some code })

/-- R146: the Obscured flag follows a Status report. -/
def setObscured (i : PointIx) (b : Bool) (s : State) : State :=
  if (s.point i).drive.obscured = b then s else recountFaults (s.modDrive i fun d => { d with obscured := b })

/-- R146: the Drive Unit takes a Status report of a point it has heard. The disagreement is tested before the Obscured flag
follows (log 47). -/
def statusReport (i : PointIx) (code : Code) (nodeFault : Bool) (s : State) : State :=
  setObscured i (nodeFault || code == .obscured) (testDisagreement false i (takeCode i code s))

/-! ## Delivery -/

/-- R19: the contact state of a flame detector or call point takes the value its report carries. -/
def Report.contact : Report → Option Bool → Option Bool
  | .flame b, _ | .call b, _ => some b
  | .spark _, old | .air _, old | .status _ _, old => old

/-- R19: the Spark Tracker takes a Spark report of a point. -/
def trackSpark (i : PointIx) (arrival : Time) (s : State) : State :=
  match (s.point i).cfg.line with
  | some l => sparkReport i l arrival s
  | none => s

/-- R19: the Zone Unit takes a Spark report of a point. -/
def deliverSpark (i : PointIx) (s : State) : State :=
  match (s.point i).cfg.zone with
  | some z => countSpark z s
  | none => s

/-- R19: the Spark Tracker takes an Air report of a sensor. -/
def deliverAir (i : PointIx) (v : Nat) (arrival : Time) (s : State) : State :=
  match (s.point i).cfg.line with
  | some l => airReport i l v arrival s
  | none => s

/-- R19: a report is handed to the blocks that own it, in either order where there are two (log 5). -/
def handOn (i : PointIx) (r : Report) (arrival : Time) (s : State) : State :=
  match r with
  | .spark _ => eitherOrder (fun t => settle (trackSpark i arrival t)) (fun t => settle (deliverSpark i t)) s
  | .flame b => eitherOrder (fun t => settle (deliverFlame i b t)) (trackFlame i b) s
  | .air v => settle (deliverAir i v arrival s)
  | .call b => settle (deliverCall i b s)
  | .status code fault => settle (statusReport i code fault s)

/-- R19: a report of a point is delivered. -/
def deliver (i : PointIx) (r : Report) (arrival : Time) (s : State) : State :=
  let t := { s with classifier := { s.classifier with delivered := bump s.classifier.delivered } }
  let u := t.modPoint i fun p => { p with reports := bump p.reports, contact := r.contact p.contact }
  handOn i r arrival (heard i arrival u)

/-- R18: a bad value is counted, and the point is heard. -/
def badValue (i : PointIx) (arrival : Time) (s : State) : State :=
  heard i arrival { s with classifier := { s.classifier with badValue := bump s.classifier.badValue } }

/-- R17: an unmapped report is counted. -/
def unmapped (s : State) : State :=
  { s with classifier := { s.classifier with unmapped := bump s.classifier.unmapped } }

/-- R17 to R19: a report is looked up by its key. -/
def takeReport (f : Frame) (s : State) : State :=
  match s.findPoint f.src f.channel with
  | none => unmapped s
  | some i =>
    match readReport (s.point i).cfg.kind f.kind f.payload with
    | none => badValue i s.clock s
    | some r => deliver i r s.clock s

/-- The frame kinds that are reports (R179). -/
def Frame.isReport (f : Frame) : Bool := decide (2 ≤ f.kind.toNat ∧ f.kind.toNat ≤ 6)

/-- R16: reports are looked up in Observe and Protect alone. -/
def classify (f : Frame) (s : State) : State := if s.active && f.isReport then takeReport f s else s

end Sys2Proof.Machine
end

