-- ==== Sys2Proof/Machine/Loop.lean ====
section
/-! DEFINITION. The Loop Port: reception (R153), stripping and the through-buffer (R154, R158), the return list (R160, R161),
silence (R162, R163), and the meanings of its events. -/

namespace Sys2Proof.Machine

/-! ## Loop conditions (R163) -/

/-- R163, R97, R77: a change of UpstreamLost reaches the Zone Unit and, when it was set, the Line Controller, in either order;
both take it in Observe and Protect. Its LoopCondition notice is placed before theirs (log 42). -/
def upstreamChanged (lost : Bool) (s : State) : State :=
  let t := notify .loopCondition 0 (if lost then 1 else 0) (s.modPort fun p => { p with upstreamLost := lost })
  if t.active then (if lost then eitherOrder recountFaults blindAction t else recountFaults t) else t

/-- R162: a good frame restarts the silence deadline and clears UpstreamLost; in Loading there is no silence deadline. -/
def restartSilence (s : State) : State :=
  if s.mode = .loading then s
  else
    let t := s.modPort fun p => { p with silenceAt := some (after s.clock s.device.silenceLimit) }
    if s.port.upstreamLost then upstreamChanged false t else t

/-- R160, R161: DownstreamOpen changes, with its notice. -/
def setDownstream (isOpen : Bool) (s : State) : State :=
  if s.port.downstreamOpen = isOpen then s
  else notify .loopCondition 1 (if isOpen then 1 else 0) (s.modPort fun p => { p with downstreamOpen := isOpen })

/-! ## Stripping and passing on (R154) -/

/-- R160: a returning frame matches a return-list entry. -/
def Return.matchedBy (r : Return) (f : Frame) : Bool :=
  r.frame.dst == f.dst && r.frame.kind == f.kind && r.frame.channel == f.channel && r.frame.payload == f.payload

/-- R160: the matched entry and those before it leave the list, those before it counted in missing. -/
def Port.takeReturn (f : Frame) (p : Port) : Option Port :=
  (p.returns.findIdx? fun r => r.matchedBy f).map fun k =>
    { p with returns := p.returns.drop (k + 1), counters := { p.counters with missing := bumpBy k p.counters.missing } }

/-- R160: an own frame is compared with the return list. -/
def matchReturn (f : Frame) (s : State) : State :=
  match s.port.takeReturn f with
  | some p => setDownstream false { s with port := p }
  | none => s

/-- R154: a stripped frame is counted. -/
def strip (s : State) : State :=
  s.modPort fun p => { p with counters := { p.counters with stripped := bump p.counters.stripped } }

/-- R154, R158: a frame that is passed on joins the through-buffer, or overruns it; while the port is idle it starts at
once. -/
def Port.joinThrough (f : Frame) (p : Port) : Port :=
  if p.through.length < Config.throughCapacity then
    match p.sending, p.through ++ [f] with
    | none, t :: ts => p.startThrough t ts
    | _, buffer => { p with through := buffer }
  else { p with counters := { p.counters with throughOverrun := bump p.counters.throughOverrun } }

/-- R154, R169: the frame's source is the own station, or the previous one while that stands. -/
def State.ownFrame (s : State) (f : Frame) : Bool :=
  f.src == s.device.own ||
    match s.port.previous with
    | some p => f.src == p.1
    | none => false

/-- R154, R16: a Request to the own station, from any other source. -/
def State.ownRequest (s : State) (f : Frame) : Bool :=
  f.kind == requestKind && f.dst == s.device.own && f.src != s.device.own

/-- R154: a good frame is stripped or passed on. -/
def route (f : Frame) (s : State) : State :=
  if s.ownFrame f then matchReturn f (strip s)
  else if s.ownRequest f then strip s
  else s.modPort (·.joinThrough f)

/-! ## Arrival (R153) -/

/-- R16: a report of another station is classified. -/
def classifyFrame (f : Frame) (s : State) : State := if f.src = s.device.own then s else classify f s

/-- R165, R185: the Management Unit takes the Request a frame carries; one that is too short is discarded. -/
def takeFrameRequest (f : Frame) (s : State) : State :=
  match readRequest f.src f.payload with
  | some (op, rq) => takeRequest op rq s
  | none => s

/-- R153: what a good frame does. The Loop Port restarts its silence deadline, the classifier acts, and the frame is stripped
or passed on, each on its own state and in any order (log 5). A Request is taken by the Management Unit after the Loop Port's
own parts (log 6). -/
def goodFrame (f : Frame) (s : State) : State :=
  if s.ownRequest f then takeFrameRequest f (inAnyOrder [restartSilence, route f] s)
  else if s.port.upstreamLost then inAnyOrder [restartSilence, classifyFrame f, route f] s
  else eitherOrder (classifyFrame f) (route f) (restartSilence s)

/-- FRAME_ARRIVAL (R153). -/
def frameArrives (bytes : List Byte) (s : State) : State :=
  let t := s.modPort fun p => { p with counters := { p.counters with received := bump p.counters.received } }
  match readFrame bytes with
  | none => t.modPort fun p => { p with counters := { p.counters with droppedCheck := bump p.counters.droppedCheck } }
  | some f => goodFrame f t

/-! ## Other events -/

/-- TRANSMISSION_COMPLETION (R157): a port that is idle has nothing to complete. -/
def transmissionEnds (s : State) : State :=
  if s.port.sending.isSome then s.modPort (·.arbitrate s.clock s.device.returnLimit) else s

/-- RETURN_DEADLINE (R161): of the oldest entry. -/
def returnEnds (s : State) : State :=
  match s.port.returns with
  | [] => s
  | r :: rest =>
    if reached s.clock r.deadline then
      setDownstream true
        (s.modPort fun p =>
          { p with returns := rest, counters := { p.counters with missing := bump p.counters.missing } })
    else s

/-- SILENCE_DEADLINE (R162). -/
def silenceEnds (s : State) : State :=
  if due s.clock s.port.silenceAt then
    let t := s.modPort fun p => { p with silenceAt := none }
    if s.port.upstreamLost then t else upstreamChanged true t
  else s

/-- FRAME_ARRIVAL, R153. -/
def execFrameArrival (bytes : List Byte) (s : State) : Host.Outcome State Fault Refusal := .next (frameArrives bytes s)

/-- TRANSMISSION_COMPLETION, R157. -/
def execTransmissionCompletion (s : State) : Host.Outcome State Fault Refusal := .next (transmissionEnds s)

/-- RETURN_DEADLINE, R161. -/
def execReturnDeadline (s : State) : Host.Outcome State Fault Refusal := .next (returnEnds s)

/-- SILENCE_DEADLINE, R162. -/
def execSilenceDeadline (s : State) : Host.Outcome State Fault Refusal := .next (silenceEnds s)

end Sys2Proof.Machine
end

