-- ==== Sys2Proof/Machine/Supervision.lean ====
section
/-! DEFINITION. The Drive Unit's own events: repeats and Disagree (R148, R149), polls and Unsupervised (R150). -/

namespace Sys2Proof.Machine

/-- R148: the commanded state of a record is issued again. -/
def repeatCommand (i : PointIx) (s : State) : State :=
  match (s.point i).drive.commanded with
  | some r => issue i r (s.modDrive i fun d => { d with repeats := bump d.repeats })
  | none => s

/-- REPEAT_DEADLINE (R148): acts in Protect, where alone the deadline stands. A disagreement that has ended by the passing of
a finite cadence's length ends here (R147; log 20). -/
def repeatEnds (i : PointIx) (s : State) : State :=
  if s.mode == .protect && due s.clock (s.point i).drive.repeatAt then
    if s.inDisagreement i then repeatCommand i s else endDisagreement i s
  else s

/-- R149: Disagree is set. -/
def setDisagree (i : PointIx) (s : State) : State :=
  recountFaults (s.modDrive i fun d => { d with disagreeAt := none, disagree := true })

/-- DISAGREEMENT_DEADLINE (R149). -/
def disagreementEnds (i : PointIx) (s : State) : State :=
  if s.mode == .protect && due s.clock (s.point i).drive.disagreeAt then
    if s.inDisagreement i then setDisagree i s else endDisagreement i s
  else s

/-- SUPERVISION_POLL (R150): a silent point without an outstanding poll is polled. -/
def pollDue (i : PointIx) (s : State) : State :=
  if s.supervised i && s.silentFor i ((s.point i).cfg.supervisionMs / 2) && s.pollLapsed i then
    (joinRoutine (pollFrame s i) s).modDrive i fun d => { d with pollPlaced := some s.clock }
  else s

/-- SUPERVISION_LIMIT (R150): the silence has reached the supervision limit. -/
def supervisionEnds (i : PointIx) (s : State) : State :=
  if s.supervised i && !(s.point i).drive.unsupervised && s.silentFor i (s.point i).cfg.supervisionMs then
    recountFaults (s.modDrive i fun d => { d with unsupervised := true })
  else s

/-- REPEAT_DEADLINE, R148. -/
def execRepeatDeadline (i : PointIx) (s : State) : Host.Outcome State Fault Refusal := .next (repeatEnds i s)

/-- DISAGREEMENT_DEADLINE, R149. -/
def execDisagreementDeadline (i : PointIx) (s : State) : Host.Outcome State Fault Refusal := .next (disagreementEnds i s)

/-- SUPERVISION_POLL, R150. -/
def execSupervisionPoll (i : PointIx) (s : State) : Host.Outcome State Fault Refusal := .next (pollDue i s)

/-- SUPERVISION_LIMIT, R150. -/
def execSupervisionLimit (i : PointIx) (s : State) : Host.Outcome State Fault Refusal := .next (supervisionEnds i s)

end Sys2Proof.Machine
end

