-- ==== Sys2Proof/Machine/Dispatch.lean ====
section
/-! DEFINITION. The meaning of each command: one arm per constructor. -/

namespace Sys2Proof.Machine

def exec (i : Instr) (s : State) : Host.Outcome State Fault Refusal :=
  match i with
  | .powerOn => Sys2Proof.Machine.execPowerOn s
  | .resetPin => Sys2Proof.Machine.execResetPin s
  | .imageReadComplete answer => Sys2Proof.Machine.execImageReadComplete answer s
  | .loadingTimeout => Sys2Proof.Machine.execLoadingTimeout s
  | .frameArrival bytes => Sys2Proof.Machine.execFrameArrival bytes s
  | .sampleExpiry sensor => Sys2Proof.Machine.execSampleExpiry sensor s
  | .retireDeadline line => Sys2Proof.Machine.execRetireDeadline line s
  | .recordEndTime line track => Sys2Proof.Machine.execRecordEndTime line track s
  | .strikeEntryFireTime => Sys2Proof.Machine.execStrikeEntryFireTime s
  | .holdDeadline valve => Sys2Proof.Machine.execHoldDeadline valve s
  | .recoveryDeadline valve => Sys2Proof.Machine.execRecoveryDeadline valve s
  | .feedbackDeadline valve => Sys2Proof.Machine.execFeedbackDeadline valve s
  | .slotEnd zone => Sys2Proof.Machine.execSlotEnd zone s
  | .tick => Sys2Proof.Machine.execTick s
  | .gateTravelDeadline line => Sys2Proof.Machine.execGateTravelDeadline line s
  | .runDownDeadline line => Sys2Proof.Machine.execRunDownDeadline line s
  | .runOutDeadline door => Sys2Proof.Machine.execRunOutDeadline door s
  | .clearingDeadline door => Sys2Proof.Machine.execClearingDeadline door s
  | .closingDeadline door => Sys2Proof.Machine.execClosingDeadline door s
  | .cadenceEndDeadline group => Sys2Proof.Machine.execCadenceEndDeadline group s
  | .phaseDeadline group => Sys2Proof.Machine.execPhaseDeadline group s
  | .repeatDeadline point => Sys2Proof.Machine.execRepeatDeadline point s
  | .disagreementDeadline point => Sys2Proof.Machine.execDisagreementDeadline point s
  | .supervisionPoll point => Sys2Proof.Machine.execSupervisionPoll point s
  | .supervisionLimit point => Sys2Proof.Machine.execSupervisionLimit point s
  | .rawLevelChange input on => Sys2Proof.Machine.execRawLevelChange input on s
  | .debounceDeadline input => Sys2Proof.Machine.execDebounceDeadline input s
  | .transmissionCompletion => Sys2Proof.Machine.execTransmissionCompletion s
  | .returnDeadline => Sys2Proof.Machine.execReturnDeadline s
  | .silenceDeadline => Sys2Proof.Machine.execSilenceDeadline s
  | .previousStationDeadline => Sys2Proof.Machine.execPreviousStationDeadline s
  | .stagingDeadline => Sys2Proof.Machine.execStagingDeadline s
  | .read rq => Sys2Proof.Machine.execRead rq s
  | .readGroup rq => Sys2Proof.Machine.execReadGroup rq s
  | .write rq => Sys2Proof.Machine.execWrite rq s
  | .writeFirst rq => Sys2Proof.Machine.execWriteFirst rq s
  | .writeSecond rq => Sys2Proof.Machine.execWriteSecond rq s
  | .resetZone rq => Sys2Proof.Machine.execResetZone rq s
  | .releaseLine rq => Sys2Proof.Machine.execReleaseLine rq s
  | .restoreDoor rq => Sys2Proof.Machine.execRestoreDoor rq s
  | .silenceGroup rq => Sys2Proof.Machine.execSilenceGroup rq s
  | .sirenTest rq => Sys2Proof.Machine.execSirenTest rq s
  | .clearCounters rq => Sys2Proof.Machine.execClearCounters rq s
  | .setMode rq => Sys2Proof.Machine.execSetMode rq s
  | .restart rq => Sys2Proof.Machine.execRestart rq s
  | .commit rq => Sys2Proof.Machine.execCommit rq s
  | .commitCompletion result => Sys2Proof.Machine.execCommitCompletion result s
  | .commitTimeout => Sys2Proof.Machine.execCommitTimeout s

end Sys2Proof.Machine
end

