-- ==== Sys2Proof/Safety.lean ====
section
/-! DEFINITION. What it is for the part to be in good order: the capacities of its queues and lists, and the facts about its
state that the rules name and every command keeps. -/

namespace Sys2Proof.Machine

/-- The queues and lists hold no more than their rules give (R51, R154, R156, R159, R32). -/
def State.withinCapacity (s : State) : Prop :=
  s.port.through.length ≤ Config.throughCapacity ∧ s.port.urgent.length ≤ Config.urgentCapacity ∧
    s.port.routine.length ≤ Config.routineCapacity ∧ s.port.returns.length ≤ Config.returnCapacity ∧
    s.strikes.length ≤ Config.strikeCapacity ∧ ∀ l, (s.line l).tracks.length ≤ Config.trackCapacity

/-- R155: the balance of the Loop Port, while the received counter has not saturated. -/
def State.balanced (s : State) : Prop :=
  let c := s.port.counters
  c.received.toNat < 65535 →
    c.received.toNat = c.repeated.toNat + c.stripped.toNat + c.droppedCheck.toNat + c.throughOverrun.toNat
      + s.port.through.length

/-- R22: each output pin is driven in Protect while the commanded state of its point is On, and is off otherwise. -/
def State.pinsFollow (s : State) : Prop := ∀ q, s.output q = s.pinShould q

/-- R13: the member lists and the service map are those of the point table. -/
def State.mapsFollow (s : State) : Prop := ∀ l, s.membersOf l = Sys2Proof.Machine.membersOf s.pointCfg l

/-- R8, R14, R66, R82, R113, R130, R169: the fields of the Device record and of every line, zone, trip, door and cadence entry
are in their ranges; every used point entry fits its kind and place, and no other has its key. -/
def State.tablesInRange (s : State) : Prop :=
  s.device.rangesOk = true ∧ (∀ l, (s.line l).cfg.rangesOk = true) ∧ (∀ z, (s.zone z).cfg.rangesOk = true) ∧
    (∀ k, (s.trip k).cfg.rangesOk = true) ∧ (∀ d, (s.door d).cfg.rangesOk = true) ∧ (∀ c, (s.cadence c).rangesOk = true) ∧
    ∀ i, (s.point i).cfg.used = true →
      (s.point i).cfg.fits s.device.own = true ∧
        ∀ j, j ≠ i → (s.point j).cfg.used = true →
          (s.point j).cfg.station ≠ (s.point i).cfg.station ∨ (s.point j).cfg.channel ≠ (s.point i).cfg.channel

/-- R113, R131: no two doors name one door point; a siren group lists at most four loop sirens, each once, and shares neither a
siren nor an output with another group. -/
def State.tablesDistinct (s : State) : Prop :=
  (∀ d e, d ≠ e → ∀ i, (s.door d).cfg.point = some i → (s.door e).cfg.point ≠ some i) ∧
    (∀ g, (s.group g).cfg.sirens.length ≤ 4 ∧ (s.group g).cfg.sirens.Nodup) ∧
    ∀ g h, g ≠ h →
      (s.group g).cfg.outputs &&& (s.group h).cfg.outputs = 0 ∧
        ∀ i ∈ (s.group g).cfg.sirens, i ∉ (s.group h).cfg.sirens

/-- R9, R14: a line's points keep its maximums, no two of its valves stand at one position, and none of its detectors and valves
stands beyond its end position. -/
def Members.Fit (cfg : PointIx → PointCfg) (m : Members) (endPosition : Nat) : Prop :=
  m.detectors.length ≤ 16 ∧ m.valves.length ≤ 8 ∧ m.sensors.length ≤ 2 ∧ m.fans.length ≤ 2 ∧ m.conveyors.length ≤ 4 ∧
    m.gates.length ≤ 1 ∧ (∀ v ∈ m.valves, ∀ w ∈ m.valves, v ≠ w → (cfg v).pos ≠ (cfg w).pos) ∧
    ∀ i, i ∈ m.detectors ∨ i ∈ m.valves → (cfg i).pos ≤ endPosition

/-- R9, R14: every line's points, as the point table stands, fit it. -/
def State.linesFit (s : State) : Prop :=
  ∀ l, (Sys2Proof.Machine.membersOf s.pointCfg l).Fit s.pointCfg (s.line l).cfg.endPosition

/-- Events taken one after another in some order, whichever is free (log 5): `InSomeOrder fs s t` says that `t` is what one of
the orders leaves of `s`, up to the count of the free choices. -/
inductive InSomeOrder : List (State → State) → State → State → Prop
  | done (s : State) (n : Nat) : InSomeOrder [] s { s with draws := n }
  | take {fs : List (State → State)} {s t : State} (k : Fin fs.length) (n : Nat) :
      InSomeOrder (fs.eraseIdx k) (fs[k] { s with draws := n }) t → InSomeOrder fs s t

/-- R144: a record with a commanded state has the time of its last command. -/
def State.commandsTimed (s : State) : Prop :=
  ∀ i, (s.point i).drive.commanded ≠ none → (s.point i).drive.lastCommand ≠ none

/-- R165: a Request that passes checks 1 to 3 and sets no reserved bit, in a mode that answers it: it comes from the
supervisor station, and names this table and an index in it. -/
def State.permits (s : State) (rq : Request) (table : Nat) : Prop :=
  s.mode ≠ .loading ∧ rq.source = s.device.supervisor ∧ rq.table = table ∧ rq.ix < tableSize table ∧
    rq.reservedSet = false

/-- R174, R175: a zone is at Alarm or above, or a line is not Normal. -/
def State.alarmed (s : State) : Prop := (∃ z, 2 ≤ (s.zone z).level.rank) ∨ ∃ l, (s.line l).state ≠ .normal

/-- R175, R164, R20: the dynamic state of `t` is cleared as at a Restart at `now`, its tables and maps being those of `s`;
sampling starts anew, a closed contact beginning its debounce time (log 18), and processing has started where the mode takes
events. -/
def State.ClearedFrom (s t : State) (now : Time) : Prop :=
  (∀ i, t.point i =
      { cfg := (s.point i).cfg
        drive := { lastHeard := if t.active ∧ (s.point i).cfg.used then some now else none } }) ∧
    (∀ l, t.line l =
      { cfg := (s.line l).cfg, speed := (s.line l).cfg.design, speedStale := (s.line l).cfg.source == .sampled }) ∧
    (∀ z, t.zone z =
      { cfg := (s.zone z).cfg
        slotEndAt := if t.active then some (after now ((s.zone z).cfg.slotLength * 1000)) else none }) ∧
    (∀ k, t.trip k = { cfg := (s.trip k).cfg }) ∧ (∀ d, t.door d = { cfg := (s.door d).cfg }) ∧
    (∀ g, t.group g = { cfg := (s.group g).cfg }) ∧ t.cadences = s.cadences ∧ t.strikes = [] ∧ t.triggers = [] ∧
    t.port =
      { sending := s.port.sending, previous := s.port.previous, silenceAt := some (after now s.device.silenceLimit) } ∧
    t.classifier = {} ∧ t.mgmt = { s.mgmt with staging := none, replaced := 0, expired := 0 } ∧ t.device = s.device ∧
    t.clock = s.clock ∧ t.memory = s.memory ∧ t.members = s.members ∧ (∀ o, t.output o = false) ∧
    ∀ i, t.input i =
      { raw := (s.input i).raw, level := false, edges := 0, lastEdge := none
        debounceAt := if (s.input i).raw then some (after now (s.debounceOf i)) else none }

/-- The commands that act on the part as a whole or on its maps: the start-up events, Set Mode and Restart, an arriving frame
(which can carry any Request), a Write of the Device record or of a point, and Clear Counters on the Device record. -/
def sweeping : Instr → Bool
  | .powerOn | .resetPin | .imageReadComplete _ | .loadingTimeout | .frameArrival _ | .setMode _ | .restart _ => true
  | .write rq => decide (rq.table ≤ 1)
  | .clearCounters rq => decide (rq.table = 0)
  | _ => false

/-- The events of the plant's blocks, which they take in Observe and Protect alone. -/
def plantEvent : Instr → Bool
  | .sampleExpiry _ | .retireDeadline _ | .recordEndTime _ _ | .strikeEntryFireTime | .holdDeadline _ | .recoveryDeadline _
  | .feedbackDeadline _ | .slotEnd _ | .tick | .gateTravelDeadline _ | .runDownDeadline _ | .runOutDeadline _
  | .clearingDeadline _ | .closingDeadline _ | .cadenceEndDeadline _ | .phaseDeadline _ | .repeatDeadline _
  | .disagreementDeadline _ | .supervisionPoll _ | .supervisionLimit _ => true
  | _ => false

end Sys2Proof.Machine
end

