-- ==== Sys2Proof/WellFormed.lean ====
section
/-! DEFINITION. Which command terms the spec's interfaces can produce. Indices are bounded by their types; what is left is
the Request a good frame can carry. `exec` is total and does not ask for it. -/

namespace Sys2Proof

/-- A good frame's source is neither 0 nor 127 (R153; R180: the upstream port makes no other test of it). -/
def Request.sourceOk (rq : Request) : Bool := decide (rq.source ≠ 0#8 ∧ rq.source ≠ 127#8)

/-- A Request carries 0 to 20 data bytes (R184). -/
def Request.lengthOk (rq : Request) : Bool := decide (rq.data.length ≤ 20)

/-- The Request a command carries, if it carries one. -/
def Instr.request? : Instr → Option Request
  | .read rq | .readGroup rq | .write rq | .writeFirst rq | .writeSecond rq | .resetZone rq | .releaseLine rq
  | .restoreDoor rq | .silenceGroup rq | .sirenTest rq | .clearCounters rq | .setMode rq | .restart rq | .commit rq => some rq
  | .powerOn | .resetPin | .imageReadComplete _ | .loadingTimeout | .frameArrival _ | .sampleExpiry _ | .retireDeadline _
  | .recordEndTime _ _ | .strikeEntryFireTime | .holdDeadline _ | .recoveryDeadline _ | .feedbackDeadline _ | .slotEnd _
  | .tick | .gateTravelDeadline _ | .runDownDeadline _ | .runOutDeadline _ | .clearingDeadline _ | .closingDeadline _
  | .cadenceEndDeadline _ | .phaseDeadline _ | .repeatDeadline _ | .disagreementDeadline _ | .supervisionPoll _
  | .supervisionLimit _ | .rawLevelChange _ _ | .debounceDeadline _ | .transmissionCompletion | .returnDeadline
  | .silenceDeadline | .previousStationDeadline | .stagingDeadline | .commitCompletion _ | .commitTimeout => none

/-- A command is well formed when the Request it carries, if any, fits a good frame. -/
def Instr.wellFormed (i : Instr) : Bool :=
  match i.request? with
  | some rq => rq.sourceOk && rq.lengthOk
  | none => true

end Sys2Proof
end

