-- ==== Sys2Proof/Certificates/Slice0/Obligations.lean ====
section
/-! DEFINITION. The statements for the provers. -/

open Sys2Proof Sys2Proof.Machine

/-! ## The machine -/

/-- A step takes the command at the front of the queue, on the part with the queue's rest; on an empty queue it lets one
millisecond pass (model's choice, log 2). -/
def Obligations.StepTakesFront : Prop :=
  ∀ s : State,
    (∀ (c : Instr) (rest : List Instr), s.pending = c :: rest → step s = exec c { s with pending := rest }) ∧
    (s.pending = [] → step s = .next { s with clock := s.clock + 1 })

/-- Every command completes from every state, and none touches the queue or, unless it starts the part, the clock. -/
def Obligations.EveryCommandCompletes : Prop :=
  ∀ (c : Instr) (s : State), ∃ t, exec c s = .next t ∧ t.pending = s.pending ∧
    (c ≠ .powerOn → c ≠ .resetPin → t.clock = s.clock)

/-- The part right after power-on (R177, R1); the table and Device values in Loading are the model's (log 3). -/
def Obligations.ResetState : Prop :=
  State.reset.pending = [] ∧ State.reset.clock = 0 ∧ State.reset.mode = .loading ∧
    State.reset.mgmt = { loadingAt := some 250#32 } ∧ State.reset.port = {} ∧ State.reset.classifier = {} ∧
    State.reset.strikes = [] ∧ State.reset.triggers = [] ∧
    State.reset.device = { own := 125, supervisor := 1, silenceLimit := 100, returnLimit := 50 } ∧
    (∀ i, State.reset.point i = { cfg := { kind := .unused } }) ∧
    (∀ l, (State.reset.line l).tracks = [] ∧ (State.reset.line l).state = .normal) ∧
    (∀ z, (State.reset.zone z).level = .quiet ∧ (State.reset.zone z).window = 0) ∧
    (∀ d, (State.reset.door d).state = .unknown) ∧ (∀ g, (State.reset.group g).phase = .idle) ∧
    ∀ o, State.reset.output o = false

/-- The invariants below hold at power-on. -/
def Obligations.ResetInGoodOrder : Prop :=
  State.reset.withinCapacity ∧ State.reset.balanced ∧ State.reset.pinsFollow ∧ State.reset.mapsFollow ∧
    State.reset.tablesInRange ∧ State.reset.tablesDistinct ∧ State.reset.linesFit ∧ State.reset.commandsTimed

/-- Every step keeps the capacities of the queues and lists, and the balance of the Loop Port (R155). -/
def Obligations.BalanceKept : Prop :=
  ∀ s t : State, s.withinCapacity → s.balanced → step s = .next t → t.withinCapacity ∧ t.balanced

/-- R22: every step keeps the output pins following their points' commanded states: the pin of an output is driven in Protect
while the commanded state of the point on its channel of the own station, a general output or a siren, is On, and is off
otherwise. -/
def Obligations.PinsFollowKept : Prop :=
  (∀ s t : State, s.pinsFollow → step s = .next t → t.pinsFollow) ∧
  ∀ (s : State) (q : Fin 8), s.pinsFollow →
    let onPin := fun i : PointIx =>
      (s.point i).cfg.kind ≠ .unused ∧ (s.point i).cfg.station = s.device.own ∧
        (s.point i).cfg.channel = BitVec.ofNat 8 (8 + q.val)
    (s.mode ≠ .protect → s.output q = false) ∧
    ((∀ i, onPin i → (s.point i).drive.commanded ≠ some .outOn) → s.output q = false) ∧
    (s.tablesInRange → ∀ i, onPin i →
      ((s.point i).cfg.kind = .output ∨ (s.point i).cfg.kind = .siren) ∧
      (s.output q = true ↔ s.mode = .protect ∧ (s.point i).drive.commanded = some .outOn))

/-- R13: every step keeps the member lists and the service map those of the point table. The lists of a line hold the used
points of their kinds that name the line, each once, the detectors and valves by position, equal positions by index, and the
others by index; the line serves the zones of its detectors. -/
def Obligations.MapsFollowKept : Prop :=
  (∀ s t : State, s.mapsFollow → step s = .next t → t.mapsFollow) ∧
  (∀ s : State, s.mapsFollow ↔ ∀ l, s.membersOf l = Sys2Proof.Machine.membersOf (fun i => (s.point i).cfg) l) ∧
  ∀ (cfg : PointIx → PointCfg) (l : LineIx),
    let m := Sys2Proof.Machine.membersOf cfg l
    let position := fun i => (cfg i).position.getD 0
    let holds := fun (list : List PointIx) (kinds : List PointKind) =>
      list.Nodup ∧ ∀ i, i ∈ list ↔ (cfg i).line = some l ∧ (cfg i).kind ∈ kinds
    let placed := fun list : List PointIx =>
      list.Pairwise fun i j => position i < position j ∨ position i = position j ∧ i < j
    let ascending := fun list : List PointIx => list.Pairwise fun i j => i < j
    (holds m.detectors [.spark, .flame] ∧ placed m.detectors) ∧ (holds m.valves [.valve] ∧ placed m.valves) ∧
    (holds m.sensors [.airflow] ∧ ascending m.sensors) ∧ (holds m.fans [.fan] ∧ ascending m.fans) ∧
    (holds m.conveyors [.conveyor] ∧ ascending m.conveyors) ∧ (holds m.gates [.gate] ∧ ascending m.gates) ∧
    (∀ z, z ∈ m.serves ↔ ∃ i ∈ m.detectors, (cfg i).zone = some z) ∧ m.serves.Pairwise (· < ·)

/-- Every step keeps the tables as their writes check them: the fields in their ranges, each used point fit for its place with a
key of its own (R8, R14, R66, R82, R113, R130, R169); no door point of two doors, and the siren groups' lists and outputs apart
(R113, R131); beside maps that follow the point table, each line within its maximums and its end position, no two of its valves
at one position (R9, R14); and the time of each commanded state (R144). -/
def Obligations.TablesKept : Prop :=
  ∀ s t : State, step s = .next t →
    (s.tablesInRange → t.tablesInRange) ∧ (s.tablesDistinct → t.tablesDistinct) ∧
      (s.mapsFollow → s.linesFit → t.linesFit) ∧ (s.commandsTimed → t.commandsTimed)

/-! ## Start-up, modes and Restart -/

/-- R177: a power-on or the release of the reset pin puts every block at its power-on values and the part in Loading. What is
outside the part stands (log 30), and a Commit that was Running leaves an image that fails its check (R176). -/
def Obligations.PowerOnRestarts : Prop :=
  ∀ s : State, ∃ t, exec .powerOn s = .next t ∧ exec .resetPin s = .next t ∧
    t = { State.reset with
          pending := s.pending
          inputs := Vector.ofFn fun i => { raw := (s.input i).raw }
          memory := if s.mgmt.commit.isSome then .unreadable else s.memory
          draws := s.draws }

/-- R177, R13, R162, R20: a good image read in time gives the tables, the Device record, the maps and the mode, and a Started
notice. -/
def Obligations.GoodImageStarts : Prop :=
  ∀ (s : State) (m : Image), s.mode = .loading → s.memory = .image Config.partCode m → m.valid = true →
    overdue s.clock s.mgmt.loadingAt = false →
    ∃ u, exec (.imageReadComplete .answered) s = .next (notify .started 0 m.mode.code u) ∧ u.mode = m.mode ∧
      u.device = m.device ∧ (∀ i, (u.point i).cfg = m.points[i.val]) ∧ (∀ l, (u.line l).cfg = m.lines[l.val]) ∧
      (∀ z, (u.zone z).cfg = m.zones[z.val]) ∧ (∀ k, (u.trip k).cfg = m.trips[k.val]) ∧
      (∀ d, (u.door d).cfg = m.doors[d.val]) ∧ (∀ g, (u.group g).cfg = m.groups[g.val]) ∧ u.cadences = m.cadences ∧
      u.mapsFollow ∧ u.mgmt.loadingAt = none ∧ u.port.silenceAt = some (after s.clock m.device.silenceLimit) ∧
      (∀ i, (u.input i).level = false ∧ (u.input i).edges = 0) ∧
      ∀ z, (u.zone z).slotEndAt =
        if m.mode = .observe ∨ m.mode = .protect then some (after s.clock ((m.zones[z.val]).slotLength * 1000)) else none

/-- R177: a bad image, or one not read in time, leaves the tables at their defaults and the part in Bypass, with a NoImage
notice; the memory stands. -/
def Obligations.BadImageStarts : Prop :=
  ∀ (s : State) (c : Instr), s.mode = .loading →
    (c = .imageReadComplete .silent ∨ c = .imageReadComplete .damaged ∨
      (c = .imageReadComplete .answered ∧ (s.goodImage = none ∨ overdue s.clock s.mgmt.loadingAt = true)) ∨
      (c = .loadingTimeout ∧ due s.clock s.mgmt.loadingAt = true)) →
    ∃ u, exec c s = .next (notify .noImage 0 1 u) ∧ u.mode = .bypass ∧
      u.device = { own := 125, supervisor := 1, silenceLimit := 100, returnLimit := 50 } ∧
      (∀ i, (u.point i).cfg = { kind := .unused }) ∧ (∀ l, (u.line l).cfg = {}) ∧ (∀ z, (u.zone z).cfg = {}) ∧
      (∀ k, (u.trip k).cfg = {}) ∧ (∀ d, (u.door d).cfg = {}) ∧ (∀ g, (u.group g).cfg = {}) ∧
      (∀ k, u.cadence k = {}) ∧ u.memory = s.memory ∧ u.mgmt.loadingAt = none

/-- R174: Set Mode. The mode named is refused where it is Loading or none, changes nothing where the part is in it, is held by
the table's conditions, and is otherwise entered. A change out of Bypass clears the blocks; one out of Protect empties the
urgent queue and ends its deadlines; one into Bypass freezes the records, a poll that has lapsed being outstanding no longer
(R152, R150; log 31); one into Protect drives the pins, issues each command in disagreement, ends each Disagree that has no
ground and times each valve in disagreement (R152, R22, R62). -/
def Obligations.SetModeChanges : Prop :=
  ∀ (s : State) (rq : Request), s.permits rq 0 →
    let frozen := fun (m : Mode) (i : PointIx) =>
      match (s.point i).drive.pollPlaced with
      | some t =>
        if m = .bypass ∧ (s.point i).cfg.supervision.getD 0 * 1000 / 2 ≤ elapsed s.clock t then none else some t
      | none => none
    let differs := fun (i : PointIx) (r : Requested) =>
      (s.point i).drive.commanded = some r ∧ r.reconciled = true ∧
        ∀ code, (s.point i).drive.reported = some code → r.matchedBy s.clock (s.point i).drive.lastCommand code = false
    (rq.mode? = none → exec (.setMode rq) s = .next (reply rq .value s)) ∧
    ∀ m, rq.mode? = some m →
      (s.mode = m → exec (.setMode rq) s = .next (reply rq .done s)) ∧
      (s.mode = .protect → m ≠ .protect → s.alarmed → exec (.setMode rq) s = .next (reply rq .held s)) ∧
      (s.mode = .observe → m = .protect → s.alarmed ∨ (∃ i, (s.point i).valve.state ≠ .closed) →
        exec (.setMode rq) s = .next (reply rq .held s)) ∧
      (s.mode = .bypass → m ≠ .bypass →
        ∃ u, exec (.setMode rq) s = .next (notify .modeChanged 0 m.code (reply rq .done u)) ∧ u.mode = m ∧
          s.ClearedFrom u s.clock) ∧
      (s.mode = .protect → m ≠ .protect → ¬s.alarmed →
        ∃ u, exec (.setMode rq) s = .next (notify .modeChanged 0 m.code (reply rq .done u)) ∧ u.mode = m ∧
          u.port = { s.port with urgent := [] } ∧ (∀ o, u.output o = false) ∧ u.lines = s.lines ∧ u.zones = s.zones ∧
          u.doors = s.doors ∧ u.groups = s.groups ∧ u.strikes = s.strikes ∧
          ∀ i, u.point i =
            { s.point i with
              drive := { (s.point i).drive with repeatAt := none, disagreeAt := none, pollPlaced := frozen m i }
              valve := { (s.point i).valve with feedbackAt := none } }) ∧
      (s.mode = .observe → m = .bypass →
        exec (.setMode rq) s =
          .next (notify .modeChanged 0 1 (reply rq .done
            { s with
              mode := .bypass, outputs := Vector.replicate 8 false
              points := Vector.ofFn fun i =>
                { s.point i with drive := { (s.point i).drive with pollPlaced := frozen .bypass i } } }))) ∧
      (s.mode = .observe → m = .protect → ¬s.alarmed → (∀ i, (s.point i).valve.state = .closed) →
        ∃ u, exec (.setMode rq) s = .next (notify .modeChanged 0 3 (reply rq .done u)) ∧ u.mode = .protect ∧
          u.lines = s.lines ∧ u.doors = s.doors ∧ u.groups = s.groups ∧ u.strikes = s.strikes ∧
          (∀ z, (u.zone z).level = (s.zone z).level) ∧ u.pinsFollow ∧
          (∀ i, (u.point i).cfg = (s.point i).cfg ∧ (u.point i).drive.commanded = (s.point i).drive.commanded) ∧
          (s.commandsTimed → ∀ i, s.isLoop i = true →
            let d := (s.point i).drive
            (∀ r, differs i r →
              (u.point i).drive =
                { d with
                  lastCommand := some s.clock, repeatAt := some (s.clock + 1000#32)
                  disagreeAt :=
                    if d.repeatAt = none then
                      (if r.flagged then some (after s.clock (s.point i).cfg.feedbackMs) else none)
                    else d.disagreeAt } ∧
              ((∀ j, j ≠ i → s.isLoop j = true → (∀ q, ¬differs j q) ∧ (s.point j).drive.disagree = false) →
                u.port = (joinUrgent (commandFrame s i r) s).port)) ∧
            ((∀ r, ¬differs i r) →
              (u.point i).drive =
                if d.disagree then { d with repeatAt := none, disagreeAt := none, disagree := false } else d)) ∧
          (∀ i, (s.point i).cfg.kind ≠ .valve → (u.point i).valve = (s.point i).valve) ∧
          ∀ i r, (s.point i).cfg.kind = .valve → (s.point i).drive.commanded = some r → r = .opened ∨ r = .closed →
            (u.point i).valve =
              { (s.point i).valve with
                feedbackAt :=
                  if (s.point i).drive.reported = some (if r = .opened then Code.opened else .closed) then
                    (s.point i).valve.feedbackAt
                  else some (after s.clock (s.point i).cfg.feedbackMs) })

/-- R175: a Restart is held in Protect alone, and otherwise clears the dynamic state and keeps the tables, the mode, the clock
and a Commit in progress; its Reply is placed after the clearing. A closed contact begins its debounce time anew (log 18). -/
def Obligations.RestartClears : Prop :=
  ∀ (s : State) (rq : Request), s.permits rq 0 →
    (s.mode = .protect → s.alarmed → exec (.restart rq) s = .next (reply rq .held s)) ∧
    ((s.mode = .protect → ¬s.alarmed) →
      ∃ u, exec (.restart rq) s = .next (reply rq .done u) ∧ u.mode = s.mode ∧ s.ClearedFrom u s.clock)

/-- R176, R15: a Commit is busy while one runs, and otherwise starts, to end within 2000 ms, with the configuration parts of the
Device record and of every table as they stand. -/
def Obligations.CommitRuns : Prop :=
  ∀ (s : State) (rq : Request), s.permits rq 0 →
    s.snapshot =
      { device := s.device, mode := s.mode, cadences := s.cadences
        points := Vector.ofFn fun i => (s.point i).cfg, lines := Vector.ofFn fun l => (s.line l).cfg
        zones := Vector.ofFn fun z => (s.zone z).cfg, trips := Vector.ofFn fun k => (s.trip k).cfg
        doors := Vector.ofFn fun d => (s.door d).cfg, groups := Vector.ofFn fun g => (s.group g).cfg } ∧
    (s.mgmt.commit.isSome = true → exec (.commit rq) s = .next (reply rq .busy s)) ∧
    (s.mgmt.commit = none →
      exec (.commit rq) s =
        .next (reply rq .done
          { s with mgmt := { s.mgmt with commit := some { content := s.snapshot, deadline := s.clock + 2000#32 } } }))

/-- R176: a Commit ends as Done with the image in the memory, or as Failed with an image that fails its check: where the reading
back is not correct, at its time limit, and where it completes past it (log 25). The two ending events do nothing while no
Commit runs (log 1). -/
def Obligations.CommitEnds : Prop :=
  ∀ s : State,
    (s.mgmt.commit = none → (∀ r, exec (.commitCompletion r) s = .next s) ∧ exec .commitTimeout s = .next s) ∧
    ∀ c, s.mgmt.commit = some c →
      (overdue s.clock (some c.deadline) = false →
        exec (.commitCompletion .correct) s =
          .next (notify .commitDone 0 0
            { s with
              memory := .image Config.partCode c.content
              mgmt := { s.mgmt with commit := none, lastCommit := .done } })) ∧
      (∀ r, r ≠ .correct ∨ overdue s.clock (some c.deadline) = true →
        exec (.commitCompletion r) s =
          .next (notify .commitFailed 0 0
            { s with memory := .unreadable, mgmt := { s.mgmt with commit := none, lastCommit := .failed } })) ∧
      (reached s.clock c.deadline = true →
        exec .commitTimeout s =
          .next (notify .commitFailed 0 0
            { s with memory := .unreadable, mgmt := { s.mgmt with commit := none, lastCommit := .failed } }))

/-! ## Requests: the checks, reading -/

/-- R165: in Loading a Request is discarded unanswered. -/
def Obligations.LoadingDiscardsRequests : Prop :=
  ∀ (s : State) (c : Instr) (rq : Request), c.request? = some rq → s.mode = .loading → exec c s = .next s

/-- R165, checks 1 to 3, for every operation: who may send it, which tables it names, and which indices. A refusal is one
Reply and changes nothing else. -/
def Obligations.RequestsChecked : Prop :=
  ∀ (s : State) (rq : Request), s.mode ≠ .loading →
    (rq.source ≠ s.device.supervisor → ∀ c : Instr, c.request? = some rq → c ≠ .read rq → c ≠ .readGroup rq →
      exec c s = .next (reply rq .notPermitted s)) ∧
    (7 < rq.table →
      exec (.read rq) s = .next (reply rq .table s) ∧ exec (.readGroup rq) s = .next (reply rq .table s)) ∧
    (rq.table ≤ 7 → tableSize rq.table ≤ rq.ix → exec (.read rq) s = .next (reply rq .index s)) ∧
    (rq.source = s.device.supervisor →
      (∀ c : Instr, c = .write rq ∨ c = .writeFirst rq ∨ c = .writeSecond rq ∨ c = .clearCounters rq →
        (7 < rq.table → exec c s = .next (reply rq .table s)) ∧
        (rq.table ≤ 7 → tableSize rq.table ≤ rq.ix → exec c s = .next (reply rq .index s))) ∧
      ∀ (c : Instr) (n : Nat),
        (c = .resetZone rq ∧ n = 3) ∨ (c = .releaseLine rq ∧ n = 2) ∨ (c = .restoreDoor rq ∧ n = 5) ∨
          (c = .silenceGroup rq ∧ n = 6) ∨ (c = .sirenTest rq ∧ n = 6) ∨ (c = .setMode rq ∧ n = 0) ∨
          (c = .restart rq ∧ n = 0) ∨ (c = .commit rq ∧ n = 0) →
        (rq.table ≠ n → exec c s = .next (reply rq .table s)) ∧
        (rq.table = n → tableSize n ≤ rq.ix → exec c s = .next (reply rq .index s)))

/-- R167, R185: a Read is answered by one Reply, or by two for the halves of a two-half entry, built together; it is busy while
the routine queue lacks the places, and a state section that is not named or is not there is refused. R166, R187 to R189: what
the state sections hold, field by field, a deadline as the milliseconds that remain (the layouts are those of logs 11 and 12,
the byte a track record leaves out that of log 10, the baseline's codes those of log 44), and that every part and section fits a
Reply. The configuration part of an entry is its fields as they stand, in the order and widths of R187 and R189, an absent one
as ones: the Device record, points (an unused one its kind alone, log 15), lines, zones, trips, doors, siren groups (outputs by
log 13) and cadences. A point's section 2 holds its claim set whatever its kind (model's choice, log 50). -/
def Obligations.ReadReplies : Prop :=
  (∀ s : State,
    (∀ rq : Request, s.mode ≠ .loading → rq.table ≤ 7 → rq.ix < tableSize rq.table → rq.reservedSet = false →
      (rq.namesState = false → rq.twoHalves = false →
        ∃ d, s.configParts rq.table rq.ix = [d] ∧
          (1 ≤ s.routineFree → exec (.read rq) s = .next (joinRoutine (replyFrame s rq .done 0 d) s)) ∧
          (s.routineFree < 1 → exec (.read rq) s = .next (reply rq .busy s))) ∧
      (rq.namesState = false → rq.twoHalves = true →
        ∃ a b, s.configParts rq.table rq.ix = [a, b] ∧
          (2 ≤ s.routineFree →
            exec (.read rq) s =
              .next (joinRoutine (replyFrame s rq .done 1 b) (joinRoutine (replyFrame s rq .done 0 a) s))) ∧
          (s.routineFree < 2 → exec (.read rq) s = .next (reply rq .busy s))) ∧
      (rq.namesState = true →
        (s.routineFree < 1 → exec (.read rq) s = .next (reply rq .busy s)) ∧
        (1 ≤ s.routineFree → rq.data = [] → exec (.read rq) s = .next (reply rq .value s)) ∧
        (1 ≤ s.routineFree → ∀ n rest, rq.data = n :: rest →
          (∀ d, s.section? rq.table rq.ix n.toNat = some d →
            exec (.read rq) s = .next (joinRoutine (replyFrame s rq .done 0 d) s)) ∧
          (s.section? rq.table rq.ix n.toNat = none → exec (.read rq) s = .next (reply rq .value s))))) ∧
    (let left := remaining s.clock
    let counts := fun cs : List Ctr => cs.flatMap fun c => be16 c.toNat
    left none = [255#8, 255, 255] ∧
    (∀ d, left (some d) =
      if reached s.clock d then [0, 0, 0]
      else [BitVec.ofNat 8 ((d - s.clock).toNat / 65536), BitVec.ofNat 8 ((d - s.clock).toNat / 256),
        BitVec.ofNat 8 (d - s.clock).toNat]) ∧
    (∀ a b c d : Bool,
      packFlags [a, b, c, d] = BitVec.ofNat 8 (a.toNat + 2 * b.toNat + 4 * c.toNat + 8 * d.toNat) ∧
        packFlags [a, b, c] = packFlags [a, b, c, false] ∧ packFlags [a, b] = packFlags [a, b, false, false] ∧
        packFlags [a] = packFlags [a, false, false, false]) ∧
    (∀ (n k : Nat) (bs : List Bool), k < 8 * n →
      (bitmap n bs).length = n ∧ ((bitmap n bs).getD (k / 8) 0).getLsbD (k % 8) = bs.getD k false) ∧
    (s.section? 0 0 0 =
        some ([BitVec.ofNat 8 s.mode.code, packFlags [s.port.upstreamLost, s.port.downstreamOpen],
          if s.mgmt.commit.isSome then 1 else 0, BitVec.ofNat 8 s.mgmt.lastCommit.code,
          if s.mgmt.staging.isSome then 1 else 0] ++ counts [s.mgmt.replaced, s.mgmt.expired]) ∧
      s.section? 0 0 1 = some (counts [s.classifier.delivered, s.classifier.unmapped, s.classifier.badValue]) ∧
      (∃ a b, s.section? 0 0 2 = some a ∧ s.section? 0 0 3 = some b ∧
        a ++ b =
          (let c := s.port.counters
          counts [c.received, c.repeated, c.stripped, c.droppedCheck, c.throughOverrun, c.urgentInserted,
            c.routineInserted, c.urgentLost, c.routineLost, c.missing, c.sentUntracked])) ∧
      (∀ k, k < 32 → s.section? 0 0 (4 + k) =
        some (match s.strikes[k]? with
          | some e =>
            be32 e.fire ++ [BitVec.ofNat 8 e.valve.val, BitVec.ofNat 8 e.line.val, e.track, packFlags [e.detached]]
          | none => [])) ∧
      ∀ n, 36 ≤ n → s.section? 0 0 n = none) ∧
    (∀ i : PointIx,
      (∀ n, 3 ≤ n → s.section? 1 i.val n = none) ∧
      ((s.point i).cfg.kind = .unused → ∀ n, n < 3 → s.section? 1 i.val n = some []) ∧
      ((s.point i).cfg.kind ≠ .unused →
        let d := (s.point i).drive
        let lapsed := ∀ t, d.pollPlaced = some t → (s.point i).cfg.supervision.getD 0 * 1000 / 2 ≤ elapsed s.clock t
        s.section? 1 i.val 0 =
            some (be16 (s.point i).reports.toNat ++
              [match (s.point i).contact with | some true => 1#8 | some false => 0#8 | none => 255#8]) ∧
          (∃ f commanded reported,
            s.section? 1 i.val 1 =
              some (commanded ++ reported ++ be32 (d.lastHeard.getD (BitVec.allOnes 32))
                ++ be32 (d.lastCommand.getD (BitVec.allOnes 32)) ++ [packFlags [d.unsupervised, d.disagree, d.obscured, f]]
                ++ left d.repeatAt ++ left d.disagreeAt) ∧
            (f = true ↔ d.pollPlaced ≠ none ∧ (s.mode = .bypass ∨ ¬lapsed)) ∧
            (∀ r, d.commanded = some r → r ≠ .outOn → r ≠ .outOff → commanded = (commandFrame s i r).payload) ∧
            (d.commanded = some .outOn → commanded = [1#8]) ∧ (d.commanded = some .outOff → commanded = [0#8]) ∧
            (d.commanded = none →
              commanded =
                if s.isLoop i = true ∧ (s.point i).cfg.kind = .siren then [255#8, 255, 255, 255, 255] else [255]) ∧
            (s.isLoop i = true →
              reported = [match d.reported with | some code => BitVec.ofNat 8 code.number | none => 255#8]) ∧
            ∀ o, s.isLoop i = false → (s.point i).cfg.kind = .output ∨ (s.point i).cfg.kind = .siren →
              (s.point i).cfg.channel = BitVec.ofNat 8 (8 + o.val) → reported = [if s.output o then 1#8 else 0]) ∧
          s.section? 1 i.val 2 =
            some (bitmap 5 ((List.finRange 12).map (fun l => d.claims.contains (.line l)) ++
              (List.finRange 24).map fun e => d.claims.contains (.door e)) ++ counts [d.withheld, d.repeats]))) ∧
    (∀ l : LineIx,
      let r := s.line l
      let m := s.membersOf l
      let list := fun is : List PointIx => BitVec.ofNat 8 is.length :: is.map fun i => BitVec.ofNat 8 i.val
      s.section? 2 l.val 0 =
          some ([BitVec.ofNat 8 r.state.code, packFlags [r.gateFault, r.runDownIncomplete]] ++ left r.gateTravelAt
            ++ left r.runDownAt ++ bitmap 8 ((List.finRange 64).map fun t => r.tripHeld.contains t)) ∧
        s.section? 2 l.val 1 =
          some (be16 r.speed ++ [packFlags [r.speedStale, r.flood, r.storm]]
            ++ (m.sensors.flatMap fun i =>
              match (s.point i).sample with
              | some a => be16 a.speed ++ be32 a.arrival
              | none => [255#8, 255, 255, 255, 255, 255])
            ++ be16 (r.calibrated.getD 65535) ++ [r.calibrationCount]) ∧
        s.section? 2 l.val 2 =
          some (counts [r.sparks, r.confirmations, r.escapes, r.untracked, r.strikes, r.late, r.early, r.diverts, r.shuts,
            r.divertSkipped]) ∧
        (∃ out : Fin 12, ∀ k, k < 16 → s.section? 2 l.val (3 + k) =
          some (match r.tracks[k]? with
            | some t =>
              [t.number, BitVec.ofNat 8 t.origin.val] ++ be16 t.originPosition ++ be32 t.detected ++ be16 t.speed
                ++ [BitVec.ofNat 8 t.state.code] ++
                (be16 ((t.target.map (·.1.val)).getD 65535) ++ be32 ((t.target.map (·.2)).getD (BitVec.allOnes 32))
                  ++ be16 (t.lastMatched.getD 65535) ++ be32 t.endTime).eraseIdx out.val
            | none => [])) ∧
        (∀ k, k < 8 → s.section? 2 l.val (19 + k) =
          some (match m.valves[k]? with
            | some i =>
              let v := (s.point i).valve
              [BitVec.ofNat 8 v.state.code] ++ left v.holdAt ++ left v.recoveryAt ++ [packFlags [v.faulted]]
                ++ left v.feedbackAt ++ counts [v.opens, v.reopens, v.unsolicited]
            | none => [])) ∧
        s.section? 2 l.val 27 = some (list m.detectors) ∧
        s.section? 2 l.val 28 = some (list m.valves ++ list m.sensors ++ list m.fans ++ list m.conveyors ++ list m.gates) ∧
        s.section? 2 l.val 29 = some (bitmap 4 ((List.finRange 32).map fun z => m.serves.contains z)) ∧
        ∀ n, 30 ≤ n → s.section? 2 l.val n = none) ∧
    (∀ z : ZoneIx,
      let r := s.zone z
      s.section? 3 z.val 0 =
          some ([BitVec.ofNat 8 r.level.rank] ++ be32 (r.changed.getD (BitVec.allOnes 32)) ++ be16 r.faults
            ++ counts [r.sparks, r.flames, r.escapes, r.calls]) ∧
        s.section? 3 z.val 1 =
          some (counts r.slots.toList ++ [BitVec.ofNat 8 r.current.val] ++ be16 r.window.toNat ++ left r.slotEndAt) ∧
        ∀ n, 2 ≤ n → s.section? 3 z.val n = none) ∧
    (∀ k : TripIx,
      let r := s.trip k
      s.section? 4 k.val 0 =
          some ([packFlags [r.spent], match r.baseline with | some true => 1#8 | some false => 0#8 | none => 255#8]
            ++ (match r.latch with
              | some v => be32 (BitVec.ofInt 32 v.1) ++ be32 v.2
              | none => [255#8, 255, 255, 255, 255, 255, 255, 255]) ++ [r.fired]) ∧
        ∀ n, 1 ≤ n → s.section? 4 k.val n = none) ∧
    (∀ d : DoorIx,
      let r := s.door d
      s.section? 5 d.val 0 =
          some ([BitVec.ofNat 8 r.state.code, if r.closeRequest then 1 else 0,
            packFlags [r.forced, r.wasJammed, r.manualClosed, r.breached]] ++ left r.clearingAt ++ left r.runOutAt
            ++ left r.closingAt ++ counts [r.releases, r.forcedCount, r.jams, r.breaches]) ∧
        ∀ n, 1 ≤ n → s.section? 5 d.val n = none) ∧
    (∀ g : GroupIx,
      let r := s.group g
      let index := fun c : Option CadenceIx => match c with | some c => BitVec.ofNat 8 c.val | none => 255#8
      s.section? 6 g.val 0 =
          some ([BitVec.ofNat 8 r.phase.code,
            (match r.winner with | some w => BitVec.ofNat 8 w.1.val | none => 255),
            index (r.winner.map (·.2)), index r.sounding] ++ left r.endAt
            ++ [BitVec.ofNat 8 (r.silencedRank.getD 255)] ++ counts [r.starts, r.silences, r.tests]) ∧
        s.section? 6 g.val 1 = some ((r.requests.toList.take 16).map index) ∧
        s.section? 6 g.val 2 = some ((r.requests.toList.drop 16).map index) ∧
        ∀ n, 3 ≤ n → s.section? 6 g.val n = none) ∧
    (∀ k n, s.section? 7 k n = none) ∧
    (s.mapsFollow → s.linesFit → ∀ table index n d, s.section? table index n = some d → d.length ≤ 22) ∧
    (s.tablesInRange → s.tablesDistinct → ∀ table index, ∀ d ∈ s.configParts table index, d.length ≤ 22))) ∧
  (∀ s : State,
    let byte := fun n : Nat => BitVec.ofNat 8 n
    let one := fun v : Option Nat => match v with | some n => [byte n] | none => [255#8]
    let two := fun v : Option Nat => match v with | some n => be16 n | none => [255#8, 255]
    let flag := fun b : Bool => if b then 1#8 else 0
    let points := fun is : List PointIx => byte is.length :: is.map fun i => byte i.val
    let number := fun (n : Nat) (v : Option (Fin n)) => v.map (·.val)
    let level := fun v : Option Level => match v with | some n => byte n.rank | none => 5
    (s.configParts 0 0 =
      [[Config.partCode, Config.revision, s.device.own, s.device.supervisor, byte s.mode.code] ++ be16 s.device.silenceLimit
        ++ be16 s.device.returnLimit]) ∧
    (∀ i : PointIx,
      let c := (s.point i).cfg
      s.configParts 1 i.val = [c.write] ∧ (c.kind = .unused → c.write = [0]) ∧
      (c.kind ≠ .unused →
        c.write =
          [byte c.kind.code, c.station, c.channel] ++ one (number 32 c.zone) ++ one (number 12 c.line) ++ two c.position
            ++ one c.supervision ++ two c.feedback ++ two c.lead ++ two c.hold ++ two c.recovery ++ one c.arming
            ++ (match c.role with | some .primary => [0, 0] | some .check => [0, 1] | none => two c.debounce) ∧
        c.write.length = 19)) ∧
    (∀ l : LineIx,
      let c := (s.line l).cfg
      s.configParts 2 l.val = c.write ∧
      c.write =
        [be16 c.design ++ be16 c.floor ++ [byte c.source.code, byte c.calibration.code] ++ be16 c.margin
            ++ be16 c.endPosition,
          (match c.timing with | .computed => [0, 255, 255] | .fixed delay => 1 :: be16 delay) ++ [byte c.gateTravel]
            ++ be16 c.runDown ++ [flag c.blindShut] ++ be16 2000]) ∧
    (∀ z : ZoneIx,
      let c := (s.zone z).cfg
      s.configParts 3 z.val = c.write ∧
      c.write =
        [[byte c.slotLength, level c.divert, level c.shut, byte c.escape.rank],
          one (number 8 c.group) ++ one (number 8 c.watchCadence) ++ one (number 8 c.alarmCadence)
            ++ one (number 8 c.fireCadence) ++ one (number 8 c.evacuateCadence)]) ∧
    (∀ k : TripIx,
      let c := (s.trip k).cfg
      s.configParts 4 k.val = c.write ∧
      c.write =
        [byte c.mode.code :: (c.trigger.bytes ++ c.first.bytes ++ c.second.bytes),
          be32 c.origin ++ be32 c.margin ++ [flag c.strict] ++ c.onTrue.bytes ++ c.onFalse.bytes]) ∧
    (∀ d : DoorIx,
      let c := (s.door d).cfg
      s.configParts 5 d.val = c.write ∧
      c.write =
        [two (number 256 c.point) ++ [byte c.sideA.val] ++ one (number 32 c.sideB) ++ [byte c.release.rank]
            ++ points c.conveyors,
          [byte c.clearing, byte c.runOut, byte c.closing]]) ∧
    (∀ g : GroupIx,
      let c := (s.group g).cfg
      s.configParts 6 g.val = [c.write] ∧
      c.write =
        points c.sirens ++ [byte (2 * c.outputs.toNat), byte (c.outputs.toNat / 128)] ++ one (number 8 c.allClear)
          ++ one (number 8 c.test)) ∧
    (∀ k : CadenceIx,
      let c := s.cadence k
      s.configParts 7 k.val = [c.write] ∧ c.write = [c.rank, c.on, c.off, c.cycles, c.tone])) ∧
  (([.unused, .spark, .flame, .airflow, .call, .valve, .gate, .fan, .conveyor, .door, .siren, .input, .output] :
      List PointKind).map PointKind.code = List.range 13 ∧
    ([.sampled, .calibrated, .design] : List SpeedSource).map SpeedSource.code = [0, 1, 2] ∧
    ([.off, .single, .continuous] : List Calibration).map Calibration.code = [0, 1, 2] ∧
    ([.quiet, .watch, .alarm, .fire, .evacuate] : List Level).map Level.rank = [0, 1, 2, 3, 4] ∧
    ([.off, .once, .edge, .every] : List TripMode).map TripMode.code = [0, 1, 2, 3]) ∧
  (∀ (l : LineIx) (z : ZoneIx) (i : InputIx) (q : OutputIx) (n : Level),
    let byte := fun n : Nat => BitVec.ofNat 8 n
    (([.sparkOnLine l, .sparkInZone z, .escapeOnLine l, .levelChange z, .slotEnd z, .inputEdge i, .tick] :
        List Trigger).map Trigger.bytes =
      [[0, byte l.val], [1, byte z.val], [2, byte l.val], [3, byte z.val], [4, byte z.val], [5, byte (i.val + 1)],
        [6, 0]]) ∧
    (([.zoneWindow z, .zoneSparks z, .lineEscapes l, .lineConfirms l, .lineStrikes l, .lineLate l, .lineSpeed l,
        .openValves l, .inputCount i, .inputLevel i] : List Source).map Source.bytes =
      [[0, byte z.val], [1, byte z.val], [2, byte l.val], [3, byte l.val], [4, byte l.val], [5, byte l.val],
        [6, byte l.val], [7, byte l.val], [8, byte (i.val + 1)], [9, byte (i.val + 1)]]) ∧
    (([.nothing, .raiseLevel z n, .shutLine l, .outputOn q, .outputOff q, .notice] : List Action).map Action.bytes =
      [[0, 0, 0], [1, byte z.val, byte n.rank], [2, byte l.val, 0], [3, byte (q.val + 1), 0], [4, byte (q.val + 1), 0],
        [5, 0, 0]])) ∧
  (∀ u : SourceUse, u.bytes = u.source.bytes ++ [BitVec.ofNat 8 (u.used.toNat + 2 * u.negated.toNat)])

/-- R168, R165: a ReadGroup answers with the configuration part, or the state section named, of every entry of the aligned
group, from the start index on and wrapping, in one run of Replies, built on one state, which join the routine queue in the
order of their positions. A section that is not named (R185), or that one of the entries lacks, is refused. -/
def Obligations.ReadGroupReplies : Prop :=
  ∀ (s : State) (rq : Request), s.mode ≠ .loading → rq.table ≤ 7 → rq.reservedSet = false →
    let n := rq.groupSize
    let base := rq.ix / n * n
    let order := (List.range n).map fun k => base + (rq.ix - base + k) % n
    let parts := order.flatMap fun i => s.configParts rq.table i
    n ∈ [1, 2, 4, 8] ∧
    (tableSize rq.table < base + n → exec (.readGroup rq) s = .next (reply rq .index s)) ∧
    (base + n ≤ tableSize rq.table → rq.namesState = false →
      (s.routineFree < parts.length → exec (.readGroup rq) s = .next (reply rq .busy s)) ∧
      (parts.length ≤ s.routineFree → n = 1 → exec (.readGroup rq) s = .next (reply rq .value s)) ∧
      (parts.length ≤ s.routineFree → n ≠ 1 → exec (.readGroup rq) s = .next (replyData rq s parts))) ∧
    (base + n ≤ tableSize rq.table → rq.namesState = true →
      (s.routineFree < n → exec (.readGroup rq) s = .next (reply rq .busy s)) ∧
      (n ≤ s.routineFree → n = 1 ∨ rq.data = [] → exec (.readGroup rq) s = .next (reply rq .value s)) ∧
      (n ≤ s.routineFree → ∀ b rest, rq.data = b :: rest →
        ((∃ i ∈ order, s.section? rq.table i b.toNat = none) → exec (.readGroup rq) s = .next (reply rq .value s)) ∧
        ∀ ds, n ≠ 1 → order.map (fun i => s.section? rq.table i b.toNat) = ds.map some →
          exec (.readGroup rq) s = .next (replyData rq s ds))) ∧
    replyData rq s [] = s ∧
    ∀ ds d, replyData rq s (ds ++ [d]) = joinRoutine (replyFrame s rq .done ds.length d) (replyData rq s ds)

/-! ## Requests: writing -/

/-- R11: a change of own station is refused while a used point entry has the old or the new own station as its station. -/
def Obligations.OwnStationKept : Prop :=
  ∀ (s : State) (rq : Request) (c : DeviceCfg) (i : PointIx), s.permits rq 0 → s.mgmt.commit = none →
    readDevice rq.data = some c → c.own ≠ s.device.own → (s.point i).cfg.kind ≠ .unused →
    (s.point i).cfg.station = s.device.own ∨ (s.point i).cfg.station = c.own →
      exec (.write rq) s = .next (reply rq .value s)

/-- R169: a Device write is refused outside its ranges, and otherwise sets the record; a new own station answers at once, and
the old one is kept for one return limit, the one that the same Write sets (model's choice, log 34). -/
def Obligations.DeviceWritten : Prop :=
  ∀ (s : State) (rq : Request) (c : DeviceCfg), s.permits rq 0 → rq.namesState = false → s.mgmt.commit = none →
    readDevice rq.data = some c →
    let ok := 1 ≤ c.own.toNat ∧ c.own.toNat ≤ 126 ∧ 1 ≤ c.supervisor.toNat ∧ c.supervisor.toNat ≤ 126 ∧
      c.own ≠ c.supervisor ∧ 10 ≤ c.silenceLimit ∧ c.silenceLimit ≤ 2000 ∧ 5 ≤ c.returnLimit ∧ c.returnLimit ≤ 500 ∧
      (c.own = s.device.own ∨ ∀ i, (s.point i).cfg.kind ≠ .unused →
        (s.point i).cfg.station ≠ s.device.own ∧ (s.point i).cfg.station ≠ c.own)
    (¬ok → exec (.write rq) s = .next (reply rq .value s)) ∧
    (ok → exec (.write rq) s =
      .next (reply rq .done
        { s with
          device := c
          port :=
            { s.port with
              previous := if c.own = s.device.own then s.port.previous
                else some (s.device.own, after s.clock c.returnLimit) } }))

/-- R169: at its deadline the previous own station is forgotten. -/
def Obligations.PreviousStationForgotten : Prop :=
  ∀ (s : State) (p : Byte × Time), s.port.previous = some p → reached s.clock p.2 = true →
    exec .previousStationDeadline s = .next { s with port := { s.port with previous := none } }

/-- R169, R170, R172: the tables each kind of write is for, the work in progress a Write meets, and the data that is no entry
of its table. The line that point data name is read before their values are checked; data without a line byte, or with one that
is no line, name none (log 33). -/
def Obligations.WritesRefused : Prop :=
  ∀ (s : State) (rq : Request) (n : Nat), s.permits rq n →
    (n ∈ [2, 3, 4, 5] → exec (.write rq) s = .next (reply rq .sequence s)) ∧
    (n ∈ [0, 1, 6, 7] → s.mgmt.commit.isSome = true → exec (.write rq) s = .next (reply rq .busy s)) ∧
    (∀ d : List Byte, (d.length ≤ 4 → newLine d = none) ∧
      ∀ l, newLine d = some l ↔ ∃ a b k, d[0]? = some a ∧ d[4]? = some b ∧ kindOf a.toNat = some k ∧ k.hasLine = true ∧
        b.toNat = l.val) ∧
    (n = 1 → ∀ i : PointIx, i.val = rq.ix →
      ((∃ l, ((s.point i).cfg.line = some l ∨ newLine rq.data = some l) ∧
            ((s.line l).state ≠ .normal ∨ (s.line l).tracks ≠ [])) ∨
          (((s.point i).cfg.kind = .fan ∨ (s.point i).cfg.kind = .conveyor) ∧ (s.point i).drive.claims ≠ []) ∨
          ((s.point i).cfg.kind = .valve ∧ (s.point i).valve.state ≠ .closed) ∨
          (∃ d, (s.door d).cfg.point = some i ∧ (s.point i).cfg.kind = .door ∧ (s.door d).state ≠ .opened ∧
            (s.door d).state ≠ .unknown) →
        exec (.write rq) s = .next (reply rq .busy s))) ∧
    (n ∈ [0, 1, 6, 7] → s.mgmt.commit = none → s.writeBusy rq = false →
      rq.namesState = true ∨ (n = 0 ∧ readDevice rq.data = none) ∨ (n = 1 ∧ readPoint rq.data = none) ∨
        (n = 6 ∧ readGroupCfg rq.data = none) ∨ (n = 7 ∧ readCadence rq.data = none) →
      exec (.write rq) s = .next (reply rq .value s))

/-- R8, R10, R13, R57, R59: a point write that fails its checks changes nothing; an accepted one replaces the entry, clears its
state part, drive record and valve record, drops the strikes that name a valve it changes, and rebuilds the maps. In Bypass that
is all it does. In Observe and Protect the contact state of a local call point or flame detector is the debounced level (R21),
and, where the point is no door's, every zone's fault count follows (R77). R128: a write to the door point of a door that is
active before it or after it resets the door, which loses its claims; an active door then decides its close request afresh, and
takes it where it stands, having heard no report, as though it were Open (R118, R119): it enters Releasing, or Clearing with its
claim on its conveyors. -/
def Obligations.PointWritten : Prop :=
  ∀ (s : State) (rq : Request) (i : PointIx) (c : PointCfg), s.permits rq 1 → rq.namesState = false →
    s.mgmt.commit = none → i.val = rq.ix → readPoint rq.data = some c → s.pointBusy i rq.data = false →
    (s.pointOk i c = false → exec (.write rq) s = .next (reply rq .value s)) ∧
    (s.pointOk i c = true → s.mode = .bypass →
      exec (.write rq) s =
        .next (reply rq .done
          { s with
            points := s.points.set i.val
              { cfg := c
                drive :=
                  { lastHeard := some s.clock, withheld := (s.point i).drive.withheld,
                    repeats := (s.point i).drive.repeats } }
            members := Vector.ofFn fun l => membersOf (fun j => if j = i then c else (s.point j).cfg) l
            strikes := if (s.point i).cfg.kind = .valve then s.strikes.filter (·.valve ≠ i) else s.strikes
            outputs := Vector.replicate 8 false })) ∧
    (s.pointOk i c = true →
      ∃ t, exec (.write rq) s = .next t ∧ (t.point i).cfg = c ∧ (∀ j, j ≠ i → (t.point j).cfg = (s.point j).cfg) ∧
        t.mapsFollow ∧ t.device = s.device ∧ t.mode = s.mode ∧ t.mgmt = s.mgmt ∧ t.memory = s.memory ∧
        t.classifier = s.classifier ∧ ∀ z, (t.zone z).level = (s.zone z).level) ∧
    (s.pointOk i c = true → s.active = true → s.mapsFollow → (∀ d, (s.door d).cfg.point ≠ some i) →
      ∃ t, exec (.write rq) s = .next t ∧ (∀ j, j ≠ i → t.point j = s.point j) ∧
        t.strikes = (if (s.point i).cfg.kind = .valve then s.strikes.filter (·.valve ≠ i) else s.strikes) ∧
        t.doors = s.doors ∧ t.groups = s.groups ∧ (∀ z, (t.zone z).faults = t.faultCount z) ∧
        (∀ l, (t.line l).tracks = (s.line l).tracks ∧ (t.line l).state = (s.line l).state) ∧
        ∃ contact,
          t.point i =
            { cfg := c, reports := 0, contact := contact, valve := {}, sample := none
              drive :=
                { lastHeard := some s.clock, withheld := (s.point i).drive.withheld
                  repeats := (s.point i).drive.repeats } } ∧
          (∀ k : InputIx, c.kind = .call ∨ c.kind = .flame → c.station = s.device.own → c.channel = BitVec.ofNat 8 k.val →
            contact = some (s.input k).level) ∧
          (c.kind ≠ .call → c.kind ≠ .flame → contact = none) ∧ (c.station ≠ s.device.own → contact = none)) ∧
    (s.pointOk i c = true → s.active = true → s.mapsFollow → s.tablesDistinct →
      let named := fun d => (s.door d).cfg.point = some i ∧ ((s.point i).cfg.kind = .door ∨ c.kind = .door)
      ∃ t, exec (.write rq) s = .next t ∧ (∀ d, ¬named d → t.door d = s.door d) ∧
        ∀ d, named d →
          let r := s.door d
          let fresh : Door :=
            { cfg := r.cfg, releases := r.releases, forcedCount := r.forcedCount, jams := r.jams, breaches := r.breaches }
          let closes := r.cfg.release.rank ≤ (s.zone r.cfg.sideA).level.rank ∨
            ∃ z, r.cfg.sideB = some z ∧ r.cfg.release.rank ≤ (s.zone z).level.rank
          let listed := fun j => j ∈ r.cfg.conveyors ∧ j ≠ i ∧ (s.point j).cfg.kind = .conveyor
          (c.kind ≠ .door ∨ ¬closes → t.door d = fresh ∧ ∀ j, Claim.door d ∉ (t.point j).drive.claims) ∧
          (c.kind = .door → closes →
            ((t.door d).closeRequest = true ∧ (t.door d).cfg = r.cfg ∧
              ((t.door d).state = .clearing ∨ (t.door d).state = .releasing)) ∧
            (r.cfg.conveyors = [] →
              t.door d =
                { fresh with
                  state := .releasing, closeRequest := true
                  closingAt := some (after s.clock (r.cfg.closing * 1000)), releases := bump r.releases } ∧
              (t.point i).drive.commanded = some .release ∧ ∀ j, Claim.door d ∉ (t.point j).drive.claims) ∧
            (∀ j, listed j → Claim.door d ∈ (t.point j).drive.claims) ∧
            ((∃ j, listed j ∧ (s.point j).drive.reported ≠ some .stopped) →
              t.door d =
                { fresh with
                  state := .clearing, closeRequest := true
                  clearingAt := some (after s.clock (r.cfg.clearing * 1000)) })))

/-- R8, R9: what an accepted point write has been checked for: the key is its own, the kind fits the place, and the line named
keeps its maximums, has no two valves at one position, and has no detector or valve beyond its end position. -/
def Obligations.PointChecked : Prop :=
  ∀ (s : State) (i : PointIx) (c : PointCfg), s.pointOk i c = true → c.kind ≠ .unused →
    (∀ j, j ≠ i → (s.point j).cfg.kind ≠ .unused →
      (s.point j).cfg.station ≠ c.station ∨ (s.point j).cfg.channel ≠ c.channel) ∧
    (c.station = s.device.own → c.channel.toNat < 8 → c.kind = .input ∨ c.kind = .call ∨ c.kind = .flame) ∧
    (c.station = s.device.own → 8 ≤ c.channel.toNat → c.kind = .output ∨ c.kind = .siren) ∧
    (c.station ≠ s.device.own → c.kind ≠ .input ∧ c.kind ≠ .output) ∧ c.channel.toNat ≤ 15 ∧
    ∀ l, c.line = some l →
      let cfg := fun j => if j = i then c else (s.point j).cfg
      let m := membersOf cfg l
      m.detectors.length ≤ 16 ∧ m.valves.length ≤ 8 ∧ m.sensors.length ≤ 2 ∧ m.fans.length ≤ 2 ∧
        m.conveyors.length ≤ 4 ∧ m.gates.length ≤ 1 ∧
        (∀ v w, v ≠ w → (cfg v).kind = .valve → (cfg w).kind = .valve → (cfg v).line = some l → (cfg w).line = some l →
          (cfg v).position.getD 0 ≠ (cfg w).position.getD 0) ∧
        ∀ v, (cfg v).kind = .valve ∨ (cfg v).kind = .spark ∨ (cfg v).kind = .flame → (cfg v).line = some l →
          (cfg v).position.getD 0 ≤ (s.line l).cfg.endPosition

/-- R131, R142, R136: a siren group write that fails its checks changes nothing. An accepted one sets the configuration part; in
Observe and Protect it quiets the group as it stood, keeps the requests and the counters, lifts a silence, and starts the
winner's cadence on the new sirens and outputs exactly when requests stand. -/
def Obligations.GroupWritten : Prop :=
  ∀ (s : State) (rq : Request) (g : GroupIx) (c : GroupCfg), s.permits rq 6 → rq.namesState = false →
    s.mgmt.commit = none → g.val = rq.ix → readGroupCfg rq.data = some c →
    let ok := groupOk s.device.own s.pointCfg s.groupCfg g c
    (ok = false → exec (.write rq) s = .next (reply rq .value s)) ∧
    (ok = true → s.mode = .bypass →
      exec (.write rq) s = .next (reply rq .done (s.modGroup g fun r => { r with cfg := c }))) ∧
    (ok = true → s.active = true →
      ∃ t, exec (.write rq) s = .next t ∧ (t.group g).cfg = c ∧ (t.group g).requests = (s.group g).requests ∧
        (t.group g).silencedRank = none ∧ (t.group g).silences = (s.group g).silences ∧
        (t.group g).tests = (s.group g).tests ∧
        ((∀ z : ZoneIx, (s.group g).requests[z.val] = none) →
          (t.group g).phase = .idle ∧ (t.group g).winner = none ∧ (t.group g).sounding = none ∧
            (t.group g).endAt = none ∧ (t.group g).engineOn = false ∧ (t.group g).phaseAt = none ∧
            (t.group g).starts = (s.group g).starts ∧
            (∀ i ∈ s.loopSirens g, (t.point i).drive.commanded = some .quiet) ∧
            ∀ i ∈ s.enginePoints g, (t.point i).drive.commanded = some .outOff) ∧
        ((∃ z : ZoneIx, (s.group g).requests[z.val] ≠ none) →
          (t.group g).phase = .sounding ∧ (t.group g).winner = s.bestRequest g ∧
            ∃ z k, s.bestRequest g = some (z, k) ∧
              (let f := s.cadence k
              let u := s.modGroup g fun r => { r with cfg := c }
              (t.group g).sounding = some k ∧ (t.group g).starts = bump (s.group g).starts ∧ (t.group g).engineOn = true ∧
                (t.group g).endAt =
                  (if f.cycles = 0 then none
                  else some (after s.clock (f.cycles.toNat * (f.on.toNat + f.off.toNat) * 10))) ∧
                (t.group g).phaseAt =
                  (if f.off = 0 ∧ f.cycles = 0 then none else some (after s.clock (f.on.toNat * 10))) ∧
                (∀ i ∈ u.loopSirens g, (t.point i).drive.commanded = some (.sounding f.on f.off f.cycles f.tone)) ∧
                (∀ i ∈ s.loopSirens g, i ∉ u.loopSirens g → (t.point i).drive.commanded = some .quiet) ∧
                (∀ i ∈ u.enginePoints g, (t.point i).drive.commanded = some .outOn) ∧
                ∀ i ∈ s.enginePoints g, i ∉ u.enginePoints g → (t.point i).drive.commanded = some .outOff)) ∧
        ∀ h, h ≠ g → t.group h = s.group h)

/-- R130, R142: a cadence write in range sets the entry; in Bypass nothing else. In Observe and Protect a group that plays it
starts it again, counting a start while it sounds for a winner, and a sounding group whose best request is another one now takes
it. -/
def Obligations.CadenceWritten : Prop :=
  ∀ (s : State) (rq : Request) (k : CadenceIx) (c : Cadence), s.permits rq 7 → rq.namesState = false →
    s.mgmt.commit = none → k.val = rq.ix → readCadence rq.data = some c →
    1 ≤ c.rank.toNat ∧ c.rank.toNat ≤ 15 ∧ 1 ≤ c.on.toNat ∧ c.tone.toNat ≤ 3 ∧
    (s.mode = .bypass →
      exec (.write rq) s = .next (reply rq .done { s with cadences := s.cadences.set k.val c })) ∧
    ∃ t, exec (.write rq) s = .next t ∧ t.cadences = s.cadences.set k.val c ∧ (∀ g, (t.group g).cfg = (s.group g).cfg) ∧
      (s.active = true → ∀ g,
        let r := s.group g
        let plays := r.sounding = some k ∧ (r.endAt ≠ none ∨ (s.cadence k).cycles = 0)
        let best := ({ s with cadences := s.cadences.set k.val c } : State).bestRequest g
        (r.phase ≠ .sounding ∨ best = none ∨ best = r.winner →
          (¬plays → t.group g = r) ∧
            (plays →
              t.group g =
                { r with
                  starts := if r.phase = .sounding then bump r.starts else r.starts
                  endAt :=
                    if c.cycles = 0 then none
                    else some (after s.clock (c.cycles.toNat * (c.on.toNat + c.off.toNat) * 10))
                  engineOn := true
                  phaseAt :=
                    if c.off = 0 ∧ c.cycles = 0 then none else some (after s.clock (c.on.toNat * 10)) })) ∧
          (r.phase = .sounding → best ≠ none → (t.group g).winner = best))

/-! ## Two-half writes -/

/-- R170: the first half is staged for 500 ms, replacing what was staged. -/
def Obligations.FirstHalfStaged : Prop :=
  ∀ (s : State) (rq : Request) (n : Nat), s.permits rq n →
    (n ∈ [0, 1, 6, 7] → exec (.writeFirst rq) s = .next (reply rq .sequence s)) ∧
    (n ∈ [2, 3, 4, 5] → s.mgmt.commit.isSome = true → exec (.writeFirst rq) s = .next (reply rq .busy s)) ∧
    (n ∈ [2, 3, 4, 5] → s.mgmt.commit = none → rq.namesState = false →
      exec (.writeFirst rq) s =
        .next (reply rq .done
          { s with
            mgmt :=
              { s.mgmt with
                replaced := if s.mgmt.staging.isSome then bump s.mgmt.replaced else s.mgmt.replaced
                staging := some
                  { tag := rq.tag, table := n, index := rq.ix, half := rq.data, deadline := s.clock + 500#32 } } })) ∧
    ∀ h, s.mgmt.staging = some h → reached s.clock h.deadline = true →
      exec .stagingDeadline s =
        .next { s with mgmt := { s.mgmt with staging := none, expired := bump s.mgmt.expired } }

/-- R171, R172: a second half that does not match what is staged is refused, and one that does empties the staging record and
meets the busy conditions of its table; two halves that are no entry of it are refused, and a half that names a state part with
them (model's choice, log 23). -/
def Obligations.SecondHalfMatched : Prop :=
  ∀ (s : State) (rq : Request) (n : Nat), s.permits rq n →
    let u : State := { s with mgmt := { s.mgmt with staging := none } }
    ((∀ h, s.mgmt.staging = some h → h.tag ≠ rq.tag ∨ h.table ≠ n ∨ h.index ≠ rq.ix) →
      exec (.writeSecond rq) s = .next (reply rq .sequence u)) ∧
    ∀ h, s.mgmt.staging = some h → h.tag = rq.tag → h.table = n → h.index = rq.ix →
      (s.mgmt.commit.isSome = true → exec (.writeSecond rq) s = .next (reply rq .busy u)) ∧
      (∀ l : LineIx, n = 2 → l.val = rq.ix → (s.line l).state ≠ .normal ∨ (s.line l).tracks ≠ [] →
        exec (.writeSecond rq) s = .next (reply rq .busy u)) ∧
      (∀ z : ZoneIx, n = 3 → z.val = rq.ix → 2 ≤ (s.zone z).level.rank →
        exec (.writeSecond rq) s = .next (reply rq .busy u)) ∧
      (∀ d : DoorIx, n = 5 → d.val = rq.ix → (s.door d).state ≠ .opened → (s.door d).state ≠ .unknown →
        exec (.writeSecond rq) s = .next (reply rq .busy u)) ∧
      (s.mgmt.commit = none → s.secondBusy rq = false →
        rq.namesState = true ∨ (n = 2 ∧ readLine h.half rq.data = none) ∨ (n = 3 ∧ readZone h.half rq.data = none) ∨
          (n = 4 ∧ readTrip h.half rq.data = none) ∨ (n = 5 ∧ readDoor h.half rq.data = none) →
        exec (.writeSecond rq) s = .next (reply rq .value u))

/-- R14, R50: a whole line entry is refused out of range or before its points, and otherwise applied at once; in Observe and
Protect the effective speed and Flood follow from it. -/
def Obligations.LineWritten : Prop :=
  ∀ (s : State) (rq : Request) (h : Staging) (l : LineIx) (c : LineCfg), s.permits rq 2 → rq.namesState = false →
    s.mgmt.commit = none → s.mgmt.staging = some h → h.tag = rq.tag → h.table = 2 → h.index = rq.ix → l.val = rq.ix →
    (s.line l).state = .normal → (s.line l).tracks = [] → readLine h.half rq.data = some c →
    let u : State := { s with mgmt := { s.mgmt with staging := none } }
    (lineOk s.pointCfg (s.membersOf l) c = false → exec (.writeSecond rq) s = .next (reply rq .value u)) ∧
    (lineOk s.pointCfg (s.membersOf l) c = true → s.mode = .bypass →
      exec (.writeSecond rq) s = .next (reply rq .done (u.modLine l fun r => { r with cfg := c }))) ∧
    (lineOk s.pointCfg (s.membersOf l) c = true → s.active = true →
      ∃ t, exec (.writeSecond rq) s = .next t ∧ (t.line l).cfg = c ∧ (t.line l).state = .normal ∧
        (t.line l).tracks = [] ∧ (∀ k, k ≠ l → t.line k = s.line k) ∧ (∀ i, t.point i = s.point i) ∧
        (t.line l).speed =
          (match c.source with
            | .design => c.design
            | .calibrated => (s.line l).calibrated.getD c.design
            | .sampled => if s.freshSpeeds l = [] then c.design
              else max 1 ((s.freshSpeeds l).sum / (s.freshSpeeds l).length)) ∧
        (t.line l).flood = decide ((t.line l).speed < c.floor))

/-- R66, R81: a whole zone entry in range is applied at once: the level stands, a new slot length starts the window afresh, and
in Observe and Protect the zone's siren request leaves the old group and stands in the new one as its level asks (R76). -/
def Obligations.ZoneWritten : Prop :=
  ∀ (s : State) (rq : Request) (h : Staging) (z : ZoneIx) (c : ZoneCfg), s.permits rq 3 → rq.namesState = false →
    s.mgmt.commit = none → s.mgmt.staging = some h → h.tag = rq.tag → h.table = 3 → h.index = rq.ix → z.val = rq.ix →
    (s.zone z).level.rank < 2 → readZone h.half rq.data = some c →
    1 ≤ c.slotLength ∧ c.slotLength ≤ 60 ∧ (∀ n, c.divert = some n ∨ c.shut = some n → 2 ≤ n.rank) ∧ 1 ≤ c.escape.rank ∧
    ∃ t, exec (.writeSecond rq) s = .next t ∧ (t.zone z).cfg = c ∧ (∀ w, (t.zone w).level = (s.zone w).level) ∧
      (∀ w, w ≠ z → (t.zone w).cfg = (s.zone w).cfg) ∧
      (s.active = false → t.groups = s.groups) ∧
      (s.active = true →
        (∀ g, c.group = some g →
          (t.group g).requests[z.val] =
            (match (s.zone z).level with
              | .quiet => none
              | .watch => c.watchCadence
              | .alarm => c.alarmCadence
              | .fire => c.fireCadence
              | .evacuate => c.evacuateCadence)) ∧
          (∀ g, (s.zone z).cfg.group = some g → c.group ≠ some g → (t.group g).requests[z.val] = none) ∧
          (∀ g, (s.zone z).cfg.group ≠ some g → c.group ≠ some g → t.group g = s.group g) ∧
          ∀ g (w : ZoneIx), w ≠ z → (t.group g).requests[w.val] = (s.group g).requests[w.val]) ∧
      ((s.zone z).cfg.slotLength = c.slotLength →
        (t.zone z).slots = (s.zone z).slots ∧ (t.zone z).window = (s.zone z).window ∧
          (t.zone z).current = (s.zone z).current ∧ (t.zone z).slotEndAt = (s.zone z).slotEndAt) ∧
      ((s.zone z).cfg.slotLength ≠ c.slotLength →
        (t.zone z).slots = Vector.replicate 8 0 ∧ (t.zone z).window = 0 ∧ (t.zone z).current = 0 ∧
          (t.zone z).slotEndAt = some (after s.clock (c.slotLength * 1000)))

/-- R82, R83: a whole trip entry in range is applied at once with its state part cleared. -/
def Obligations.TripWritten : Prop :=
  ∀ (s : State) (rq : Request) (h : Staging) (k : TripIx) (c : TripCfg), s.permits rq 4 → rq.namesState = false →
    s.mgmt.commit = none → s.mgmt.staging = some h → h.tag = rq.tag → h.table = 4 → h.index = rq.ix → k.val = rq.ix →
    readTrip h.half rq.data = some c →
    exec (.writeSecond rq) s = .next (reply rq .done
      { s with
        mgmt := { s.mgmt with staging := none }
        trips := s.trips.set k.val { cfg := c, spent := false, baseline := none, latch := none, fired := 0 } })

/-- R113, R128: a whole door entry is refused by its checks, and otherwise applied at once. In Observe and Protect the door
loses its claims, flags and deadlines and is Unknown, or, if it is active, where its point's reported state or the close
request takes it. -/
def Obligations.DoorWritten : Prop :=
  ∀ (s : State) (rq : Request) (h : Staging) (d : DoorIx) (c : DoorCfg), s.permits rq 5 → rq.namesState = false →
    s.mgmt.commit = none → s.mgmt.staging = some h → h.tag = rq.tag → h.table = 5 → h.index = rq.ix → d.val = rq.ix →
    (s.door d).state = .opened ∨ (s.door d).state = .unknown → readDoor h.half rq.data = some c →
    let u : State := { s with mgmt := { s.mgmt with staging := none } }
    let v := s.modDoor d fun r => { r with cfg := c }
    (doorOk s.pointCfg s.doorCfg d c = false → exec (.writeSecond rq) s = .next (reply rq .value u)) ∧
    (doorOk s.pointCfg s.doorCfg d c = true → s.mode = .bypass →
      exec (.writeSecond rq) s = .next (reply rq .done (u.modDoor d fun r => { r with cfg := c }))) ∧
    (doorOk s.pointCfg s.doorCfg d c = true → s.active = true →
      ∃ t, exec (.writeSecond rq) s = .next t ∧ (t.door d).cfg = c ∧ (∀ e, e ≠ d → t.door e = s.door e) ∧
        (v.doorActive d = false ∨ v.closeStands d = false →
          (∀ i, Claim.door d ∉ (t.point i).drive.claims) ∧
          t.door d =
            { cfg := c
              state :=
                if v.doorActive d = true ∧ v.doorReported d = some .opened then .opened
                else if v.doorActive d = true ∧ v.doorReported d = some .closed then .closed
                else .unknown
              releases := (s.door d).releases, forcedCount := (s.door d).forcedCount, jams := (s.door d).jams
              breaches := (s.door d).breaches }) ∧
        (v.doorActive d = true → v.closeStands d = true →
          (t.door d).closeRequest = true ∧
            ((t.door d).state = .clearing ∨ (t.door d).state = .releasing ∨ (t.door d).state = .closed)))

/-! ## What commands leave alone -/

/-- R92: when a command is done, every trigger event it raised has been taken. -/
def Obligations.TriggersTaken : Prop := ∀ s t : State, s.triggers = [] → step s = .next t → t.triggers = []

/-- The model's choice of log 1: an event command that names a deadline that does not stand, or is not reached, changes
nothing; nor does any event of the plant outside Observe and Protect. -/
def Obligations.NotDueChangesNothing : Prop :=
  ∀ s : State, s.triggers = [] →
    (s.mode = .bypass ∨ s.mode = .loading → ∀ c, plantEvent c = true → exec c s = .next s) ∧
    (s.mode ≠ .loading → ∀ a, exec (.imageReadComplete a) s = .next s ∧ exec .loadingTimeout s = .next s) ∧
    (due s.clock s.mgmt.loadingAt = false → exec .loadingTimeout s = .next s) ∧
    (∀ i, (∀ a, (s.point i).sample = some a → a.fresh = false ∨ elapsed s.clock a.arrival < 2000) →
      exec (.sampleExpiry i) s = .next s) ∧
    (∀ l, (due s.clock (s.line l).retireAt = false → exec (.retireDeadline l) s = .next s) ∧
      (due s.clock (s.line l).gateTravelAt = false → exec (.gateTravelDeadline l) s = .next s) ∧
      (due s.clock (s.line l).runDownAt = false → exec (.runDownDeadline l) s = .next s)) ∧
    ((∀ e, s.strikes.head? = some e → reached s.clock e.fire = false) → exec .strikeEntryFireTime s = .next s) ∧
    (∀ v, (due s.clock (s.point v).valve.holdAt = false → exec (.holdDeadline v) s = .next s) ∧
      (due s.clock (s.point v).valve.recoveryAt = false → exec (.recoveryDeadline v) s = .next s) ∧
      (due s.clock (s.point v).valve.feedbackAt = false → exec (.feedbackDeadline v) s = .next s) ∧
      (due s.clock (s.point v).drive.repeatAt = false → exec (.repeatDeadline v) s = .next s) ∧
      (due s.clock (s.point v).drive.disagreeAt = false → exec (.disagreementDeadline v) s = .next s)) ∧
    (∀ z, due s.clock (s.zone z).slotEndAt = false → exec (.slotEnd z) s = .next s) ∧
    (s.clock.toNat % 1000 ≠ 0 → exec .tick s = .next s) ∧
    (∀ d, (due s.clock (s.door d).runOutAt = false → exec (.runOutDeadline d) s = .next s) ∧
      (due s.clock (s.door d).clearingAt = false → exec (.clearingDeadline d) s = .next s) ∧
      (due s.clock (s.door d).closingAt = false → exec (.closingDeadline d) s = .next s)) ∧
    (∀ g, (due s.clock (s.group g).endAt = false → exec (.cadenceEndDeadline g) s = .next s) ∧
      (due s.clock (s.group g).phaseAt = false → exec (.phaseDeadline g) s = .next s)) ∧
    (∀ i, (∀ on, (s.input i).raw = on → exec (.rawLevelChange i on) s = .next s) ∧
      (due s.clock (s.input i).debounceAt = false → exec (.debounceDeadline i) s = .next s)) ∧
    (s.port.sending = none → exec .transmissionCompletion s = .next s) ∧
    ((∀ r, s.port.returns.head? = some r → reached s.clock r.deadline = false) → exec .returnDeadline s = .next s) ∧
    (due s.clock s.port.silenceAt = false → exec .silenceDeadline s = .next s) ∧
    ((∀ p, s.port.previous = some p → reached s.clock p.2 = false) → exec .previousStationDeadline s = .next s) ∧
    ((∀ h, s.mgmt.staging = some h → reached s.clock h.deadline = false) → exec .stagingDeadline s = .next s) ∧
    ((∀ c, s.mgmt.commit = some c → reached s.clock c.deadline = false) → exec .commitTimeout s = .next s)

/-- The frame of every command that is not sweeping: the mode, the Device record, the maps, the points' configuration parts,
the counters of arrivals and of the classifier stand, and each other kind of state stands but for the commands named beside
it. A zone's level falls by Reset Zone alone (R71). -/
def Obligations.RestUntouched : Prop :=
  ∀ (c : Instr) (s t : State), sweeping c = false → exec c s = .next t →
    (t.mode = s.mode ∧ t.device = s.device ∧ t.members = s.members ∧ t.classifier = s.classifier ∧
      ∀ i, (t.point i).cfg = (s.point i).cfg) ∧
    ((∀ rq, c ≠ .write rq ∧ c ≠ .writeSecond rq) →
      (∀ l, (t.line l).cfg = { (s.line l).cfg with calibration := (t.line l).cfg.calibration }) ∧
        (∀ z, (t.zone z).cfg = (s.zone z).cfg) ∧
        (∀ k, (t.trip k).cfg = { (s.trip k).cfg with mode := (t.trip k).cfg.mode }) ∧
        (∀ d, (t.door d).cfg = (s.door d).cfg) ∧ ∀ g, (t.group g).cfg = (s.group g).cfg) ∧
    ((∀ rq, c ≠ .write rq) → t.cadences = s.cadences) ∧
    ((∀ rq, c ≠ .resetZone rq) → ∀ z, (s.zone z).level.rank ≤ (t.zone z).level.rank) ∧
    ((∀ rq, c ≠ .resetZone rq ∧ c ≠ .writeSecond rq) → (∀ z, c ≠ .slotEnd z) →
      ∀ z, (t.zone z).slots = (s.zone z).slots ∧ (t.zone z).current = (s.zone z).current ∧
        (t.zone z).window = (s.zone z).window ∧ (t.zone z).slotEndAt = (s.zone z).slotEndAt) ∧
    ((∀ i on, c ≠ .rawLevelChange i on ∧ c ≠ .debounceDeadline i) → t.inputs = s.inputs) ∧
    ((∀ rq, c ≠ .writeFirst rq ∧ c ≠ .writeSecond rq ∧ c ≠ .commit rq) → c ≠ .stagingDeadline → c ≠ .commitTimeout →
      (∀ r, c ≠ .commitCompletion r) → t.mgmt = s.mgmt ∧ t.memory = s.memory) ∧
    (c ≠ .returnDeadline → c ≠ .silenceDeadline → c ≠ .previousStationDeadline →
      t.port.upstreamLost = s.port.upstreamLost ∧ t.port.downstreamOpen = s.port.downstreamOpen ∧
        t.port.silenceAt = s.port.silenceAt ∧ t.port.previous = s.port.previous ∧
        t.port.counters.received = s.port.counters.received ∧ t.port.counters.stripped = s.port.counters.stripped ∧
        t.port.counters.droppedCheck = s.port.counters.droppedCheck ∧
        t.port.counters.throughOverrun = s.port.counters.throughOverrun ∧
        t.port.counters.missing = s.port.counters.missing)

/-! ## The Loop Port -/

/-- R157, R159, R156: what the arbiter starts at a completion, and what becomes of a frame due for an insert queue while the
port is busy, and while it is idle with nothing waiting. -/
def Obligations.PortChooses : Prop :=
  ∀ s : State,
    let tracked : Frame → Port → Port := fun f p =>
      if p.returns.length < 8 then
        { p with
          sending := some f
          returns := p.returns ++ [{ frame := f, deadline := after s.clock s.device.returnLimit }] }
      else
        { p with sending := some f, counters := { p.counters with sentUntracked := bump p.counters.sentUntracked } }
    let urgentOut : Port → Port := fun p =>
      { p with counters := { p.counters with urgentInserted := bump p.counters.urgentInserted } }
    let routineOut : Port → Port := fun p =>
      { p with counters := { p.counters with routineInserted := bump p.counters.routineInserted } }
    (s.port.sending ≠ none →
      (∀ u us, s.port.urgent = u :: us →
        exec .transmissionCompletion s =
          .next { s with port := tracked u.frame (urgentOut { s.port with urgent := us }) }) ∧
      (s.port.urgent = [] → ∀ r rs, s.port.routine = r :: rs →
        50 < elapsed s.clock r.joined ∨ s.port.through = [] →
        exec .transmissionCompletion s =
          .next { s with port := tracked r.frame (routineOut { s.port with routine := rs }) }) ∧
      (s.port.urgent = [] → ∀ f fs, s.port.through = f :: fs →
        (∀ r rs, s.port.routine = r :: rs → elapsed s.clock r.joined ≤ 50) →
        exec .transmissionCompletion s =
          .next { s with
            port :=
              { s.port with
                through := fs, sending := some f
                counters := { s.port.counters with repeated := bump s.port.counters.repeated } } }) ∧
      (s.port.urgent = [] → s.port.routine = [] → s.port.through = [] →
        exec .transmissionCompletion s = .next { s with port := { s.port with sending := none } }) ∧
      ∀ f,
        joinUrgent f s =
          { s with
            port :=
              if s.port.urgent.length < 8 then { s.port with urgent := s.port.urgent ++ [{ frame := f, joined := s.clock }] }
              else { s.port with counters := { s.port.counters with urgentLost := bump s.port.counters.urgentLost } } } ∧
        joinRoutine f s =
          { s with
            port :=
              if s.port.routine.length < 16 then
                { s.port with routine := s.port.routine ++ [{ frame := f, joined := s.clock }] }
              else { s.port with counters := { s.port.counters with routineLost := bump s.port.counters.routineLost } } }) ∧
    (s.port.sending = none → s.port.urgent = [] → s.port.routine = [] → ∀ f,
      joinUrgent f s = { s with port := tracked f (urgentOut s.port) } ∧
        (s.port.through = [] → joinRoutine f s = { s with port := tracked f (routineOut s.port) }))

/-- R161, R162, R163, R97: at the return deadline of the oldest entry it leaves the list and counts as missing, and
DownstreamOpen is set with a notice, unless it was set. At the silence deadline UpstreamLost is set with a notice, unless it was
set, and the deadline is absent. In Bypass no other block takes the change; in Observe and Protect the zones' fault counts are
taken again and every line with blind action Shut takes a shut request, in either order. -/
def Obligations.LoopDeadlines : Prop :=
  ∀ s : State,
    (∀ r rest, s.port.returns = r :: rest → reached s.clock r.deadline = true →
      let p : Port :=
        { s.port with
          returns := rest, counters := { s.port.counters with missing := bump s.port.counters.missing } }
      (s.port.downstreamOpen = true → exec .returnDeadline s = .next { s with port := p }) ∧
        (s.port.downstreamOpen = false →
          exec .returnDeadline s =
            .next (notify .loopCondition 1 1 { s with port := { p with downstreamOpen := true } }))) ∧
    (due s.clock s.port.silenceAt = true →
      let silent := { s with port := { s.port with silenceAt := none, upstreamLost := true } }
      (s.port.upstreamLost = true → exec .silenceDeadline s = .next silent) ∧
      (s.port.upstreamLost = false → s.mode = .bypass →
        exec .silenceDeadline s = .next (notify .loopCondition 0 1 silent)) ∧
      (s.port.upstreamLost = false → s.active = true →
        ∃ t, exec .silenceDeadline s = .next t ∧
          InSomeOrder [recountFaults, blindAction] (notify .loopCondition 0 1 silent) t ∧
          t.port.upstreamLost = true ∧ t.port.silenceAt = none ∧
          (∀ l, (s.line l).cfg.blindShut = true → (t.line l).state = .stopping ∨ (t.line l).state = .shut) ∧
          (∀ l, (s.line l).cfg.blindShut = false → t.line l = s.line l) ∧
          (∀ z, (t.zone z).level = (s.zone z).level) ∧ t.doors = s.doors ∧ t.groups = s.groups ∧
          ∀ i, (t.point i).drive.reported = (s.point i).drive.reported)) ∧
    ∀ u : State, InSomeOrder ((((List.finRange 12).filter fun l => (u.line l).cfg.blindShut)).map shutLine) u (blindAction u)

/-- R153, R154, R158, R160, R162, R163, R169, R185: a bad frame, a run of fewer than 7 bytes included (model's choice, log 32),
is dropped and counted. A good frame restarts the silence deadline and clears UpstreamLost, it is classified, and it is stripped
or passed on, in any order (log 5). A frame of the own station, or of the previous one, is stripped and compared with the return
list; a Request to the part is stripped and, once the port has done its part (log 6), taken by its operation code; every other
frame joins the through-buffer. -/
def Obligations.FramesSorted : Prop :=
  ∀ (s : State) (bytes : List Byte),
    let c := s.port.counters
    (readFrame bytes = none →
      exec (.frameArrival bytes) s =
        .next { s with
          port :=
            { s.port with
              counters := { c with received := bump c.received, droppedCheck := bump c.droppedCheck } } }) ∧
    (∀ f, readFrame bytes = some f → s.mode ≠ .loading → s.port.upstreamLost = false →
      let p : Port :=
        { s.port with
          silenceAt := some (after s.clock s.device.silenceLimit), counters := { c with received := bump c.received } }
      (f.src = s.device.own →
        let stripped : Port := { p with counters := { p.counters with stripped := bump c.stripped } }
        ((∀ r ∈ s.port.returns, r.matchedBy f = false) →
          exec (.frameArrival bytes) s = .next { s with port := stripped }) ∧
        ∀ before r rest, s.port.returns = before ++ r :: rest → r.matchedBy f = true →
          (∀ b ∈ before, b.matchedBy f = false) →
          let matched : Port :=
            { stripped with
              returns := rest, counters := { stripped.counters with missing := bumpBy before.length c.missing } }
          exec (.frameArrival bytes) s =
            .next (if s.port.downstreamOpen then
                notify .loopCondition 1 0 { s with port := { matched with downstreamOpen := false } }
              else { s with port := matched })) ∧
      (f.src ≠ s.device.own → (∀ q, s.port.previous = some q → f.src ≠ q.1) →
        ¬(f.kind = 10 ∧ f.dst = s.device.own) → f.isReport = false ∨ s.active = false →
        exec (.frameArrival bytes) s =
          .next { s with
            port :=
              if 4 ≤ s.port.through.length then
                { p with counters := { p.counters with throughOverrun := bump c.throughOverrun } }
              else
                match s.port.sending, s.port.through ++ [f] with
                | none, h :: rest =>
                  { p with
                    through := rest, sending := some h, counters := { p.counters with repeated := bump c.repeated } }
                | _, buffer => { p with through := buffer } })) ∧
    (∀ u : State,
      let restarted : Port := { u.port with silenceAt := some (after u.clock u.device.silenceLimit) }
      let cleared := notify .loopCondition 0 0 { u with port := { restarted with upstreamLost := false } }
      (u.mode = .loading → restartSilence u = u) ∧
      (u.mode ≠ .loading → u.port.upstreamLost = false → restartSilence u = { u with port := restarted }) ∧
      (u.mode ≠ .loading → u.port.upstreamLost = true →
        restartSilence u = if u.active then recountFaults cleared else cleared)) ∧
    (∀ (f : Frame) (u : State),
      let p := u.port
      let own := f.src = u.device.own ∨ ∃ q, p.previous = some q ∧ f.src = q.1
      let request := f.kind = 10 ∧ f.dst = u.device.own ∧ f.src ≠ u.device.own
      let stripped : Port := { p with counters := { p.counters with stripped := bump p.counters.stripped } }
      (own → (∀ r ∈ p.returns, r.matchedBy f = false) → route f u = { u with port := stripped }) ∧
      (own → ∀ before r rest, p.returns = before ++ r :: rest → r.matchedBy f = true →
        (∀ b ∈ before, b.matchedBy f = false) →
        let matched : Port :=
          { stripped with
            returns := rest, counters := { stripped.counters with missing := bumpBy before.length p.counters.missing } }
        route f u =
          if p.downstreamOpen then notify .loopCondition 1 0 { u with port := { matched with downstreamOpen := false } }
          else { u with port := matched }) ∧
      (¬own → request → route f u = { u with port := stripped }) ∧
      (¬own → ¬request →
        route f u =
          { u with
            port :=
              if 4 ≤ p.through.length then
                { p with counters := { p.counters with throughOverrun := bump p.counters.throughOverrun } }
              else
                match p.sending, p.through ++ [f] with
                | none, h :: rest =>
                  { p with
                    through := rest, sending := some h
                    counters := { p.counters with repeated := bump p.counters.repeated } }
                | _, buffer => { p with through := buffer } })) ∧
    ∀ f, readFrame bytes = some f →
      let counted := { s with port := { s.port with counters := { c with received := bump c.received } } }
      let request := f.kind = 10 ∧ f.dst = s.device.own ∧ f.src ≠ s.device.own
      let reports := f.src ≠ s.device.own ∧ f.isReport = true ∧ s.active = true
      (¬request →
        ∃ t, exec (.frameArrival bytes) s = .next t ∧
          InSomeOrder [restartSilence, classifyFrame f, route f] counted t ∧
          (s.port.upstreamLost = false →
            InSomeOrder [classifyFrame f, route f] (restartSilence counted) t ∧
              (¬reports → t = route f (restartSilence counted)))) ∧
      (request →
        ∃ u, InSomeOrder [restartSilence, route f] counted u ∧ u.mode = s.mode ∧ u.device = s.device ∧
          (s.port.upstreamLost = false → (∀ q, s.port.previous = some q → f.src ≠ q.1) →
            u = route f (restartSilence counted)) ∧
          (f.payload.length < 4 → exec (.frameArrival bytes) s = .next u) ∧
          ∀ tag op selector index data, f.payload = tag :: op :: selector :: index :: data →
            let rq : Request := { source := f.src, tag := tag, selector := selector, index := index, data := data }
            let rows : List (Byte × Instr) :=
              [(1, .read rq), (2, .readGroup rq), (3, .write rq), (4, .writeFirst rq), (5, .writeSecond rq),
                (16, .resetZone rq), (17, .releaseLine rq), (18, .restoreDoor rq), (19, .silenceGroup rq),
                (20, .sirenTest rq), (21, .clearCounters rq), (22, .setMode rq), (23, .restart rq), (24, .commit rq)]
            (∀ row ∈ rows, op = row.1 → exec (.frameArrival bytes) s = exec row.2 u) ∧
            ((∀ row ∈ rows, op ≠ row.1) →
              exec (.frameArrival bytes) s =
                .next (if s.mode = .loading then u
                  else reply rq (if f.src = s.device.supervisor then .table else .notPermitted) u)))

/-- R16 to R19, R146, R150, R181, R182: in Observe and Protect a report of another station counts as unmapped, as a bad value of
the point it names, or as delivered. A point is heard by either of the last two; a delivered report counts at its point, leaves
its contact state, and is handed to the blocks that own it, in either order where there are two (log 5). At one Status report
the disagreement is tested before the Obscured flag follows (model's choice, log 47). -/
def Obligations.ReportsCounted : Prop :=
  (∀ (s : State) (bytes : List Byte) (f : Frame), readFrame bytes = some f → s.active = true →
    s.port.upstreamLost = false → f.src ≠ s.device.own → f.isReport = true →
    ∃ t, exec (.frameArrival bytes) s = .next t ∧
      (s.findPoint f.src f.channel = none →
        t.classifier = { s.classifier with unmapped := bump s.classifier.unmapped } ∧ t.points = s.points) ∧
      ∀ i, s.findPoint f.src f.channel = some i →
        (readReport (s.point i).cfg.kind f.kind f.payload = none →
          t.classifier = { s.classifier with badValue := bump s.classifier.badValue } ∧
            (t.point i).drive.lastHeard = some s.clock ∧ (t.point i).drive.unsupervised = false ∧
            (t.point i).drive.pollPlaced = none ∧ ∀ j, j ≠ i → t.point j = s.point j) ∧
        (readReport (s.point i).cfg.kind f.kind f.payload ≠ none →
          t.classifier = { s.classifier with delivered := bump s.classifier.delivered })) ∧
  (∀ (f : Frame) (s : State),
    (f.isReport = true ↔ f.kind ∈ [2#8, 3, 4, 5, 6]) ∧
    (f.src = s.device.own ∨ f.isReport = false ∨ s.active = false → classifyFrame f s = s) ∧
    (f.src ≠ s.device.own → f.isReport = true → s.active = true →
      ((∀ i, (s.point i).cfg.kind = .unused ∨ (s.point i).cfg.station ≠ f.src ∨ (s.point i).cfg.channel ≠ f.channel) →
        classifyFrame f s = { s with classifier := { s.classifier with unmapped := bump s.classifier.unmapped } }) ∧
      ∀ i, s.findPoint f.src f.channel = some i →
        let c := (s.point i).cfg
        c.kind ≠ .unused ∧ c.station = f.src ∧ c.channel = f.channel ∧
        (readReport c.kind f.kind f.payload = none →
          classifyFrame f s =
            heard i s.clock { s with classifier := { s.classifier with badValue := bump s.classifier.badValue } }) ∧
        ∀ r, readReport c.kind f.kind f.payload = some r →
          let contact := match r with
            | .flame b | .call b => some b
            | _ => (s.point i).contact
          let counted := s.modPoint i fun p => { p with reports := bump p.reports, contact := contact }
          classifyFrame f s =
            handOn i r s.clock
              (heard i s.clock
                { counted with classifier := { s.classifier with delivered := bump s.classifier.delivered } }))) ∧
  (∀ (kind : PointKind) (k : Byte) (payload : List Byte) (r : Report),
    readReport kind k payload = some r ↔
      match r with
      | .spark v => k = 2 ∧ kind = .spark ∧ payload = [v] ∧ v ≠ 0
      | .flame b => k = 3 ∧ kind = .flame ∧ payload = [if b then 1 else 0]
      | .air v => k = 4 ∧ kind = .airflow ∧ payload = be16 v ∧ v ≤ 600
      | .call b => k = 5 ∧ kind = .call ∧ payload = [if b then 1 else 0]
      | .status code fault =>
        k = 6 ∧ code ∈ kind.codes ∧ payload = [BitVec.ofNat 8 code.number, if fault then 1 else 0]) ∧
  (PointKind.valve.codes = [.opened, .closed] ∧ PointKind.gate.codes = [.normal, .diverted, .moving] ∧
    PointKind.fan.codes = [.running, .stopped] ∧ PointKind.conveyor.codes = [.running, .stopped] ∧
    PointKind.door.codes = [.opened, .moving, .closed] ∧ PointKind.siren.codes = [.sounding, .quiet] ∧
    (∀ k ∈ [PointKind.spark, .flame, .airflow, .call], k.codes = [.ready, .obscured]) ∧
    ∀ k ∈ [PointKind.unused, .input, .output], k.codes = []) ∧
  ∀ (s : State) (i : PointIx) (a : Time),
    let c := (s.point i).cfg
    let told := s.modPoint i fun p =>
      { p with drive := { p.drive with lastHeard := some a, pollPlaced := none, unsupervised := false } }
    heard i a s = (if (s.point i).drive.unsupervised then recountFaults told else told) ∧
    (∀ v, InSomeOrder [fun t => settle (trackSpark i a t), fun t => settle (deliverSpark i t)] s (handOn i (.spark v) a s)) ∧
    (∀ b, InSomeOrder [fun t => settle (deliverFlame i b t), trackFlame i b] s (handOn i (.flame b) a s)) ∧
    (∀ v, handOn i (.air v) a s = settle (deliverAir i v a s)) ∧
    (∀ b, handOn i (.call b) a s = settle (deliverCall i b s)) ∧
    (∀ code fault, handOn i (.status code fault) a s = settle (statusReport i code fault s)) ∧
    (∀ l, c.line = some l →
      trackSpark i a s = sparkReport i l a s ∧
      (∀ v, deliverAir i v a s =
        recomputeSpeed l (s.modPoint i fun p => { p with sample := some { speed := v, arrival := a, fresh := true } })) ∧
      trackFlame i true s =
        openNow ((s.membersOf l).valves.filter fun v => decide (c.pos < (s.point v).cfg.pos)) s) ∧
    (c.line = none → trackSpark i a s = s ∧ (∀ v, deliverAir i v a s = s) ∧ trackFlame i true s = s) ∧
    trackFlame i false s = s ∧ deliverFlame i false s = s ∧ deliverCall i false s = s ∧
    (∀ z, c.zone = some z →
      deliverSpark i s =
        { s.modZone z fun r =>
            { r with
              slots := r.slots.set r.current.val (bump r.slots[r.current.val]), window := bump r.window
              sparks := bump r.sparks } with triggers := s.triggers ++ [.sparkInZone z] } ∧
      deliverFlame i true s = raiseZone z .fire (s.modZone z fun r => { r with flames := bump r.flames }) ∧
      deliverCall i true s = raiseZone z .evacuate (s.modZone z fun r => { r with calls := bump r.calls })) ∧
    (c.zone = none → deliverSpark i s = s ∧ deliverFlame i true s = s ∧ deliverCall i true s = s) ∧
    (∀ l, let r := s.line l
      let fresh := (s.membersOf l).sensors.filterMap fun j =>
        match (s.point j).sample with
        | some b => if b.fresh then some b.speed else none
        | none => none
      let v := match r.cfg.source with
        | .design => r.cfg.design
        | .calibrated => r.calibrated.getD r.cfg.design
        | .sampled => if fresh = [] then r.cfg.design else max 1 (fresh.sum / fresh.length)
      let stored := s.modLine l fun r =>
        { r with speed := v, speedStale := r.cfg.source == .sampled && fresh.isEmpty }
      ((v < r.cfg.floor ↔ r.flood = true) → recomputeSpeed l s = stored) ∧
      (v < r.cfg.floor → r.flood = false →
        recomputeSpeed l s =
          testShut l (notify .flood l.val 1 (clearForFlood l (stored.modLine l fun r => { r with flood := true })))) ∧
      (r.cfg.floor ≤ v → r.flood = true →
        recomputeSpeed l s = notify .flood l.val 0 (stored.modLine l fun r => { r with flood := false }))) ∧
    ∀ code fault,
      let took := takeCode i code s
      let obscured := fault || code == .obscured
      let reported := s.modPoint i fun p => { p with drive := { p.drive with reported := some code } }
      statusReport i code fault s = setObscured i obscured (testDisagreement false i took) ∧
      (∀ u b, (u.point i).drive.obscured = b → setObscured i b u = u) ∧
      (∀ u b, (u.point i).drive.obscured ≠ b →
        setObscured i b u =
          recountFaults (u.modPoint i fun p => { p with drive := { p.drive with obscured := b } })) ∧
      ((s.point i).drive.reported = some code → took = s) ∧
      ((s.point i).drive.reported ≠ some code →
        (c.kind = .valve → took = valveReported (s.valveDisagrees i) i reported) ∧
        (∀ l, c.kind = .gate → c.line = some l → took = gateReported l code reported) ∧
        (∀ l, c.kind = .fan → c.line = some l → took = testShut l reported) ∧
        (c.kind = .conveyor →
          InSomeOrder
            (((List.finRange 24).filter fun d => s.doorActive d && (s.door d).cfg.conveyors.contains i).map conveyorReported)
            reported took) ∧
        (c.kind = .door →
          InSomeOrder
            (((List.finRange 24).filter fun d => s.doorActive d && (s.door d).cfg.point == some i).map
              fun d => doorReported d code)
            reported took) ∧
        (c.kind = .siren ∨ c.kind = .spark ∨ c.kind = .flame ∨ c.kind = .airflow ∨ c.kind = .call → took = reported))

/-- R178, R179, R180, R153, R187, R188: the bytes of a frame are read as that frame, and a good frame is its bytes; a Request's
payload is read as its fields. The configuration part that a Read returns of an entry whose fields are in their ranges is read,
by a Write, as that entry. The check of a run of bytes starts from all ones and takes each byte bit by bit, its highest bit
first, with the generator x^16 + x^12 + x^5 + 1; a frame is its five header bytes, its payload and its check, high byte first. A
Request's selector holds its table, the state flag, the group size and the reserved bit (R184). -/
def Obligations.FramesRoundTrip : Prop :=
  (∀ f : Frame, f.payload.length ≤ 24 → f.src ≠ 0 → f.src ≠ 127 → readFrame f.bytes = some f) ∧
  (∀ bytes f, readFrame bytes = some f →
    f.bytes = bytes ∧ f.payload.length ≤ 24 ∧ f.src ≠ 0 ∧ f.src ≠ 127 ∧ bytes.length = 7 + f.payload.length) ∧
  (∀ (op : Byte) (rq : Request),
    readRequest rq.source ([rq.tag, op, rq.selector, rq.index] ++ rq.data) = some (op, rq)) ∧
  (∀ (c : DeviceCfg) (m : Mode), c.rangesOk = true → readDevice (c.write m) = some c) ∧
  (∀ (c : PointCfg) (own : Byte), c.kind ≠ .unused → c.fits own = true → readPoint c.write = some c) ∧
  (∀ c : LineCfg, c.rangesOk = true → ∃ a b, c.write = [a, b] ∧ readLine a b = some c) ∧
  (∀ c : ZoneCfg, c.rangesOk = true → ∃ a b, c.write = [a, b] ∧ readZone a b = some c) ∧
  (∀ c : TripCfg, c.rangesOk = true → ∃ a b, c.write = [a, b] ∧ readTrip a b = some c) ∧
  (∀ c : DoorCfg, c.rangesOk = true → ∃ a b, c.write = [a, b] ∧ readDoor a b = some c) ∧
  (∀ c : GroupCfg, c.sirens.length ≤ 4 → readGroupCfg c.write = some c) ∧
  (∀ c : Cadence, c.rangesOk = true → readCadence c.write = some c) ∧
  (∀ n : Nat, be16 n = [BitVec.ofNat 8 (n / 256), BitVec.ofNat 8 n]) ∧
  (∀ w : BitVec 32, be32 w =
    [BitVec.ofNat 8 (w.toNat / 16777216), BitVec.ofNat 8 (w.toNat / 65536), BitVec.ofNat 8 (w.toNat / 256),
      BitVec.ofNat 8 w.toNat]) ∧
  crc [] = BitVec.allOnes 16 ∧
  (let bit := fun (c : BitVec 16) (b : Bool) =>
      if c.getMsbD 0 ≠ b then (c <<< 1) ^^^ (1#16 <<< 12 ||| 1#16 <<< 5 ||| 1#16) else c <<< 1
    ∀ (bytes : List Byte) (b : Byte),
      crc (bytes ++ [b]) = (List.range 8).foldl (fun c k => bit c (b.getMsbD k)) (crc bytes)) ∧
  (∀ f : Frame,
    let body := [f.dst, f.src, f.kind, f.channel, BitVec.ofNat 8 f.payload.length] ++ f.payload
    f.bytes = body ++ [BitVec.ofNat 8 ((crc body).toNat / 256), BitVec.ofNat 8 (crc body).toNat]) ∧
  (∀ rq : Request,
    rq.table = rq.selector.toNat % 16 ∧ rq.namesState = rq.selector.getLsbD 4 ∧
      rq.groupSize = 2 ^ (rq.selector.toNat / 32 % 4) ∧ rq.reservedSet = rq.selector.getLsbD 7 ∧ rq.ix = rq.index.toNat ∧
      (rq.twoHalves = true ↔ rq.table ∈ [2, 3, 4, 5]))

/-! ## The management commands -/

/-- R173, R155, R12, R23, R59, R67, R114, R132, R143: Clear Counters sets the event counters of the entry to 0, the received
counter to the frames held in the through-buffer, and leaves the rest; trips, cadences and unused points have none. The Reply
joins the routine queue before or after the clearing (model's choice, log 7), so on an idle port its own insertion may be
counted. -/
def Obligations.CountersCleared : Prop :=
  ∀ (s : State) (rq : Request) (n : Nat), s.permits rq n →
    (n = 0 →
      let cleared := fun u : State =>
        { u with
          classifier := { delivered := 0, unmapped := 0, badValue := 0 }
          mgmt := { u.mgmt with replaced := 0, expired := 0 }
          port :=
            { u.port with
              counters :=
                { received := BitVec.ofNat 16 u.port.through.length, repeated := 0, stripped := 0, droppedCheck := 0
                  throughOverrun := 0, urgentInserted := 0, routineInserted := 0, urgentLost := 0, routineLost := 0
                  missing := 0, sentUntracked := 0 } } }
      ∃ t, exec (.clearCounters rq) s = .next t ∧ InSomeOrder [cleared, reply rq .done] s t ∧
        t.classifier = {} ∧ t.mgmt = { s.mgmt with replaced := 0, expired := 0 } ∧
        (s.port.sending ≠ none →
          t.port.through = s.port.through ∧
            t.port.counters.received = BitVec.ofNat 16 s.port.through.length ∧ t.port.counters.repeated = 0 ∧
            t.port.counters.stripped = 0 ∧ t.port.counters.droppedCheck = 0 ∧ t.port.counters.throughOverrun = 0 ∧
            t.port.counters.urgentInserted = 0 ∧ t.port.counters.routineInserted = 0 ∧
            t.port.counters.urgentLost = 0 ∧ t.port.counters.missing = 0 ∧ t.port.counters.sentUntracked = 0)) ∧
    (∀ i : PointIx, n = 1 → i.val = rq.ix →
      exec (.clearCounters rq) s =
        .next (reply rq .done
          (if (s.point i).cfg.kind = .unused then s
          else s.modPoint i fun p =>
            { p with reports := 0, drive := { p.drive with withheld := 0, repeats := 0 } }))) ∧
    (∀ l : LineIx, n = 2 → l.val = rq.ix →
      ∃ u, exec (.clearCounters rq) s = .next (reply rq .done u) ∧
        u.line l =
          { s.line l with
            sparks := 0, confirmations := 0, escapes := 0, untracked := 0, strikes := 0, late := 0, early := 0
            diverts := 0, shuts := 0, divertSkipped := 0 } ∧
        (∀ k, k ≠ l → u.line k = s.line k) ∧
        ∀ v, u.point v =
          if v ∈ (s.membersOf l).valves then
            { s.point v with valve := { (s.point v).valve with opens := 0, reopens := 0, unsolicited := 0 } }
          else s.point v) ∧
    (∀ z : ZoneIx, n = 3 → z.val = rq.ix →
      exec (.clearCounters rq) s =
        .next (reply rq .done (s.modZone z fun r => { r with sparks := 0, flames := 0, escapes := 0, calls := 0 }))) ∧
    (∀ d : DoorIx, n = 5 → d.val = rq.ix →
      exec (.clearCounters rq) s =
        .next (reply rq .done
          (s.modDoor d fun r => { r with releases := 0, forcedCount := 0, jams := 0, breaches := 0 }))) ∧
    (∀ g : GroupIx, n = 6 → g.val = rq.ix →
      exec (.clearCounters rq) s =
        .next (reply rq .done (s.modGroup g fun r => { r with starts := 0, silences := 0, tests := 0 }))) ∧
    (n = 4 ∨ n = 7 → exec (.clearCounters rq) s = .next (reply rq .done s))

/-- R71 to R76, R79, R80: Reset Zone is busy in Bypass, held by an Active contact, an Open valve or a track, and otherwise
empties the window and brings the zone to Quiet with its response; where no trip waits for the change of level, nothing else
changes the zone again. A raise above the zone's level takes effect: the time, the notice (placed first, model's choice, log
27), the trigger, and the response of the lines the zone's map names, the doors it borders and its siren group, in any order
(log 5). -/
def Obligations.ZoneReset : Prop :=
  (∀ (s : State) (rq : Request) (z : ZoneIx), s.permits rq 3 → z.val = rq.ix → s.triggers = [] →
    let held :=
      (∃ i, ((s.point i).cfg.kind = .flame ∨ (s.point i).cfg.kind = .call) ∧ (s.point i).cfg.zone = some z ∧
          (s.point i).contact = some true) ∨
        ∃ l, z ∈ (s.membersOf l).serves ∧
          ((∃ v ∈ (s.membersOf l).valves, (s.point v).valve.state = .opened) ∨ (s.line l).tracks ≠ [])
    (s.mode = .bypass → exec (.resetZone rq) s = .next (reply rq .busy s)) ∧
    (s.active = true → held → exec (.resetZone rq) s = .next (reply rq .held s)) ∧
    (s.active = true → ¬held → (s.zone z).level = .quiet →
      exec (.resetZone rq) s =
        .next (reply rq .done (s.modZone z fun r => { r with slots := Vector.replicate 8 0, window := 0 }))) ∧
    (s.active = true → ¬held → (s.zone z).level ≠ .quiet → s.tablesInRange →
      (∀ k, (s.trip k).cfg.trigger = .levelChange z → (s.trip k).cfg.mode = .off) →
      ∃ t, exec (.resetZone rq) s = .next t ∧
        (∃ n, t.zone z =
          { s.zone z with
            level := .quiet, changed := some s.clock, slots := Vector.replicate 8 0, window := 0, faults := n }) ∧
        (∀ w, w ≠ z → (t.zone w).level = (s.zone w).level) ∧ t.lines = s.lines ∧ t.trips = s.trips ∧
        t.strikes = s.strikes ∧ t.triggers = [] ∧
        ∀ g, (s.zone z).cfg.group = some g → (t.group g).requests[z.val] = none)) ∧
  ∀ (s : State) (z : ZoneIx) (n : Level),
    let c := (s.zone z).cfg
    let entered := notify .zoneLevel z.val n.rank (s.modZone z fun r => { r with level := n, changed := some s.clock })
    [Level.quiet, .watch, .alarm, .fire, .evacuate].map Level.rank = [0, 1, 2, 3, 4] ∧
    ((s.zone z).level.rank < n.rank → raiseZone z n s = changeLevel z n s) ∧
    (n.rank ≤ (s.zone z).level.rank → raiseZone z n s = s) ∧
    zoneEscape z s = raiseZone z c.escape (s.modZone z fun r => { r with escapes := bump r.escapes }) ∧
    InSomeOrder [respondLines z n, respondDoors z, respondSirens z n]
      { entered with triggers := s.triggers ++ [.levelChange z] } (changeLevel z n s) ∧
    InSomeOrder (((List.finRange 12).filter fun l => (s.membersOf l).serves.contains z).map fun l => respondLine z n l) s
      (respondLines z n s) ∧
    InSomeOrder
      (((List.finRange 24).filter fun d => (s.door d).cfg.sideA == z || (s.door d).cfg.sideB == some z).map decideClose) s
      (respondDoors z s) ∧
    (c.group = none → respondSirens z n s = s) ∧
    (∀ g, c.group = some g →
      respondSirens z n s =
        changeRequest g z
          (match n with
            | .quiet => none
            | .watch => c.watchCadence
            | .alarm => c.alarmCadence
            | .fire => c.fireCadence
            | .evacuate => c.evacuateCadence) s) ∧
    ∀ l : LineIx,
      let diverts := ∃ m, c.divert = some m ∧ m.rank ≤ n.rank
      let shuts := ∃ m, c.shut = some m ∧ m.rank ≤ n.rank
      (diverts → shuts → respondLine z n l s = shutLine l (divertLine l s)) ∧
      (diverts → ¬shuts → respondLine z n l s = divertLine l s) ∧
      (¬diverts → shuts → respondLine z n l s = shutLine l s) ∧
      (¬diverts → ¬shuts → respondLine z n l s = s)

/-- R107 to R109: Release Line is busy in Bypass and while the line is Diverting or Stopping, does nothing to a line in
Normal, is held by a zone at its level or an Open valve, and otherwise brings the line to Normal: its claims gone, its gate
commanded Normal, its flags, deadlines and trip-held set cleared. -/
def Obligations.LineReleased : Prop :=
  ∀ (s : State) (rq : Request) (l : LineIx), s.permits rq 2 → l.val = rq.ix →
    let held :=
      (∃ z ∈ (s.membersOf l).serves,
          (s.zone z).level.reaches
            (if (s.line l).state = .diverted then (s.zone z).cfg.divert else (s.zone z).cfg.shut) = true) ∨
        ∃ v ∈ (s.membersOf l).valves, (s.point v).valve.state = .opened
    (s.mode = .bypass → exec (.releaseLine rq) s = .next (reply rq .busy s)) ∧
    ((s.line l).state = .diverting ∨ (s.line l).state = .stopping → exec (.releaseLine rq) s = .next (reply rq .busy s)) ∧
    (s.active = true → (s.line l).state = .normal → exec (.releaseLine rq) s = .next (reply rq .done s)) ∧
    (s.active = true → (s.line l).state = .diverted ∨ (s.line l).state = .shut → held →
      exec (.releaseLine rq) s = .next (reply rq .held s)) ∧
    (s.active = true → (s.line l).state = .diverted ∨ (s.line l).state = .shut → ¬held →
      ∃ t, exec (.releaseLine rq) s = .next t ∧
        t.line l =
          { s.line l with
            state := .normal, gateFault := false, runDownIncomplete := false, gateTravelAt := none, runDownAt := none
            tripHeld := [] } ∧
        (∀ k, k ≠ l → t.line k = s.line k) ∧ t.doors = s.doors ∧ t.groups = s.groups ∧
        (∀ i, i ∈ (s.membersOf l).fans ∨ i ∈ (s.membersOf l).conveyors → Claim.line l ∉ (t.point i).drive.claims) ∧
        ∀ g, (s.membersOf l).gates.head? = some g → (t.point g).drive.commanded = some .normal)

/-- R125: Restore Door is refused for an inactive door, busy in Bypass, in Clearing and in Releasing, held while the close
request stands, and otherwise takes the door's claims away, commands Hold and leaves the door Restoring, or Open where it
already reports Open. -/
def Obligations.DoorRestored : Prop :=
  ∀ (s : State) (rq : Request) (d : DoorIx), s.permits rq 5 → d.val = rq.ix →
    (s.doorActive d = false → exec (.restoreDoor rq) s = .next (reply rq .index s)) ∧
    (s.doorActive d = true → s.mode = .bypass ∨ (s.door d).state = .clearing ∨ (s.door d).state = .releasing →
      exec (.restoreDoor rq) s = .next (reply rq .busy s)) ∧
    (s.doorActive d = true → s.active = true → (s.door d).state ≠ .clearing → (s.door d).state ≠ .releasing →
      ((s.door d).closeRequest = true → exec (.restoreDoor rq) s = .next (reply rq .held s)) ∧
      ((s.door d).closeRequest = false →
        ∃ t, exec (.restoreDoor rq) s = .next t ∧
          t.door d =
            (if s.doorReported d = some .opened then
              { s.door d with
                state := .opened, forced := false, wasJammed := false, manualClosed := false, breached := false }
            else { s.door d with state := .restoring }) ∧
          (∀ e, e ≠ d → t.door e = s.door e) ∧ t.lines = s.lines ∧ t.groups = s.groups ∧
          (∀ i, Claim.door d ∉ (t.point i).drive.claims) ∧
          ∀ i, (s.door d).cfg.point = some i → (t.point i).drive.commanded = some .hold))

/-- R130 to R132, R134 to R137, R139 to R141: Silence Group and Siren Test are busy in Bypass and where the group's phase does
not take them. An accepted Silence Group quiets the group, its loop sirens and outputs commanded, and counts; a sounding one is
then held silent at its winner's rank, and an all-clear or test is over. Siren Test plays the test cadence, and is refused where
there is none. A change of a zone's request is taken by the group's phase; the request of highest rank wins, the lowest zone
among equals, and its cadence starts unless the group is silenced at or above its rank. The order of the Quiet commands (log 41)
and the passing over of a listed point that is a local siren (log 40) are the model's choices. -/
def Obligations.SirensCommanded : Prop :=
  (∀ (s : State) (rq : Request) (g : GroupIx), s.permits rq 6 → g.val = rq.ix →
    let r := s.group g
    let playedOut := ∃ c, r.sounding = some c ∧ r.endAt = none ∧ (s.cadence c).cycles ≠ 0
    let quieted := fun t : State =>
      (∀ i ∈ s.loopSirens g, (t.point i).drive.commanded = some .quiet) ∧
        ∀ i ∈ s.enginePoints g, (t.point i).drive.commanded = some .outOff
    (s.mode = .bypass →
      exec (.silenceGroup rq) s = .next (reply rq .busy s) ∧ exec (.sirenTest rq) s = .next (reply rq .busy s)) ∧
    (r.phase = .idle ∨ (r.phase = .sounding ∧ (r.silencedRank ≠ none ∨ playedOut)) →
      exec (.silenceGroup rq) s = .next (reply rq .busy s)) ∧
    (s.active = true → r.phase = .sounding → r.silencedRank = none → ¬playedOut →
      ∃ t, exec (.silenceGroup rq) s = .next t ∧ (∀ h, h ≠ g → t.group h = s.group h) ∧
        t.group g =
          { r with
            silencedRank := r.winner.map fun w => s.rankOf w.2
            silences := bump r.silences, sounding := none, endAt := none, engineOn := false, phaseAt := none } ∧ quieted t) ∧
    (s.active = true → r.phase = .allClear ∨ r.phase = .test →
      ∃ t, exec (.silenceGroup rq) s = .next t ∧ (∀ h, h ≠ g → t.group h = s.group h) ∧
        t.group g =
          { r with
            phase := .idle
            silences := bump r.silences, sounding := none, endAt := none, engineOn := false, phaseAt := none } ∧ quieted t) ∧
    (r.phase ≠ .idle → exec (.sirenTest rq) s = .next (reply rq .busy s)) ∧
    (s.active = true → r.phase = .idle →
      (r.cfg.test = none → exec (.sirenTest rq) s = .next (reply rq .value s)) ∧
      ∀ c, r.cfg.test = some c →
        ∃ t, exec (.sirenTest rq) s = .next t ∧ (∀ h, h ≠ g → t.group h = s.group h) ∧
          t.group g =
            { r with
              phase := .test, tests := bump r.tests, sounding := some c, engineOn := true
              endAt :=
                if (s.cadence c).cycles = 0 then none
                else some (after s.clock
                  ((s.cadence c).cycles.toNat * ((s.cadence c).on.toNat + (s.cadence c).off.toNat) * 10))
              phaseAt :=
                if (s.cadence c).off = 0 ∧ (s.cadence c).cycles = 0 then none
                else some (after s.clock ((s.cadence c).on.toNat * 10)) } ∧
          (∀ i ∈ s.loopSirens g,
            (t.point i).drive.commanded =
              some (.sounding (s.cadence c).on (s.cadence c).off (s.cadence c).cycles (s.cadence c).tone)) ∧
          ∀ i ∈ s.enginePoints g, (t.point i).drive.commanded = some .outOn)) ∧
  ∀ (s : State) (g : GroupIx),
    let r := s.group g
    let quiet := fun u : State =>
      let t := ((u.loopSirens g).foldl (fun t i => issue i .quiet t) u).modGroup g fun r =>
        { r with sounding := none, endAt := none }
      ((t.enginePoints g).foldl (fun t i => issue i .outOff t) t).modGroup g fun r =>
        { r with engineOn := false, phaseAt := none }
    let start := fun (c : CadenceIx) (u : State) =>
      let k := u.cadence c
      let t := ((u.loopSirens g).foldl (fun t i => issue i (.sounding k.on k.off k.cycles k.tone) t) u).modGroup g fun r =>
        { r with
          sounding := some c
          endAt :=
            if k.cycles = 0 then none
            else some (after u.clock (k.cycles.toNat * (k.on.toNat + k.off.toNat) * 10)) }
      ((t.enginePoints g).foldl (fun t i => issue i .outOn t) t).modGroup g fun r =>
        { r with
          engineOn := true
          phaseAt := if k.off = 0 ∧ k.cycles = 0 then none else some (after t.clock (k.on.toNat * 10)) }
    let won := fun (w : ZoneIx × CadenceIx) (u : State) =>
      (start w.2 (u.modGroup g fun r => { r with winner := some w })).modGroup g fun r => { r with starts := bump r.starts }
    let rank := fun c : CadenceIx => (s.cadence c).rank.toNat
    let best := fun w : ZoneIx × CadenceIx =>
      r.requests[w.1.val] = some w.2 ∧
        ∀ (z : ZoneIx) (c : CadenceIx), r.requests[z.val] = some c → rank c < rank w.2 ∨ (rank c = rank w.2 ∧ w.1 ≤ z)
    (∀ i, i ∈ s.loopSirens g ↔
      i ∈ r.cfg.sirens ∧ (s.point i).cfg.kind = .siren ∧ (s.point i).cfg.station ≠ s.device.own) ∧
    (∀ i, i ∈ s.enginePoints g ↔
      ∃ q : OutputIx, r.cfg.outputs.getLsbD q.val = true ∧ s.outputPoint q = some i ∧ (s.point i).cfg.kind = .siren) ∧
    quietGroup g s = quiet s ∧ (∀ c, startCadence g c s = start c s) ∧
    (∀ (z : ZoneIx) (c : Option CadenceIx),
      (r.requests[z.val] = c → changeRequest g z c s = s) ∧
      (r.requests[z.val] ≠ c →
        changeRequest g z c s = requestsChanged g (s.modGroup g fun r => { r with requests := r.requests.set z.val c }))) ∧
    (let empty := ∀ z : ZoneIx, r.requests[z.val] = none
    (¬empty → r.phase = .idle →
      requestsChanged g s = arbitrateGroup g (s.modGroup g fun r => { r with phase := .sounding })) ∧
    (¬empty → r.phase = .sounding → requestsChanged g s = arbitrateGroup g s) ∧
    (¬empty → r.phase = .allClear ∨ r.phase = .test →
      requestsChanged g s = arbitrateGroup g (s.modGroup g fun r => { r with phase := .sounding, endAt := none })) ∧
    (empty → r.phase = .sounding →
      let freed := s.modGroup g fun r => { r with winner := none, silencedRank := none }
      (∀ c, r.cfg.allClear = some c →
        requestsChanged g s = start c (freed.modGroup g fun r => { r with phase := .allClear })) ∧
      (r.cfg.allClear = none →
        requestsChanged g s = (quiet freed).modGroup g fun r => { r with phase := .idle }))) ∧
    ((∀ z : ZoneIx, r.requests[z.val] = none) → arbitrateGroup g s = s) ∧
    ((∃ z : ZoneIx, r.requests[z.val] ≠ none) → ∃ w, best w) ∧
    ∀ w, best w →
      (r.winner = some w → arbitrateGroup g s = s) ∧
      (r.winner ≠ some w → r.silencedRank = none → arbitrateGroup g s = won w s) ∧
      (r.winner ≠ some w → ∀ n, r.silencedRank = some n →
        (n < rank w.2 → arbitrateGroup g s = won w (s.modGroup g fun r => { r with silencedRank := none })) ∧
        (rank w.2 ≤ n → arbitrateGroup g s = s.modGroup g fun r => { r with winner := some w }))

/-! ## The deadlines of the plant -/

/-- R25 to R28: a fresh sample that has reached 2000 ms is fresh no longer, and its line's effective speed is computed again.
R29, R32, R33, R57: a Flood entry takes every record that is not Passed off the list, withdraws the strikes of the line that
carry their numbers and are not detached, and opens in list order each valve beyond the least of their origin positions; the
Passed records are retired behind that (model's choice, log 46), at once where their end times are reached, so that the list is
then empty; Storm ends where a removal leaves 8 records or fewer. -/
def Obligations.SampleExpires : Prop :=
  (∀ (s : State) (i : PointIx) (l : LineIx) (a : Sample), s.active = true → s.triggers = [] →
    (s.point i).cfg.line = some l → (s.point i).sample = some a → a.fresh = true → 2000 ≤ elapsed s.clock a.arrival →
    let c := (s.line l).cfg
    let fresh := (s.membersOf l).sensors.filterMap fun j =>
      if j = i then none
      else match (s.point j).sample with
        | some b => if b.fresh then some b.speed else none
        | none => none
    ∃ t, exec (.sampleExpiry i) s = .next t ∧
      t = recomputeSpeed l (s.modPoint i fun p => { p with sample := some { a with fresh := false } }) ∧
      (t.point i).sample = some { a with fresh := false } ∧
      (∀ j, j ≠ i → (t.point j).sample = (s.point j).sample) ∧
      (t.line l).speed =
        (match c.source with
          | .design => c.design
          | .calibrated => (s.line l).calibrated.getD c.design
          | .sampled => if fresh = [] then c.design else max 1 (fresh.sum / fresh.length)) ∧
      (t.line l).speedStale = (c.source == .sampled && fresh.isEmpty) ∧
      (t.line l).flood = decide ((t.line l).speed < c.floor) ∧ (t.line l).cfg = c ∧ t.trips = s.trips ∧
      t.doors = s.doors ∧ t.groups = s.groups ∧ ∀ z, (t.zone z).level = (s.zone z).level) ∧
  ∀ (s : State) (l : LineIx),
    let gone := (s.line l).tracks.filter fun k => k.state ≠ .passed
    let kept := (s.line l).tracks.filter fun k => k.state = .passed
    let stormTest := fun u : State =>
      if (u.line l).storm = true ∧ (u.line l).tracks.length ≤ 8 then
        notify .storm l.val 0 (u.modLine l fun r => { r with storm := false })
      else u
    let retire := fun u : State =>
      let ended := (u.line l).tracks.takeWhile fun k => reached u.clock k.endTime
      let left := (u.line l).tracks.dropWhile fun k => reached u.clock k.endTime
      stormTest
        { u.modLine l fun r => { r with tracks := left, retireAt := left.head?.map (·.endTime) } with
          strikes := u.strikes.map fun e =>
            if e.line = l ∧ e.track ∈ ended.map (·.number) then { e with detached := true } else e }
    (gone = [] → clearForFlood l s = retire s) ∧
    (∀ first ∈ gone, (∀ k ∈ gone, first.originPosition ≤ k.originPosition) →
      let removed := stormTest (s.modLine l fun r =>
        { r with tracks := kept, retireAt := kept.head?.map (·.endTime) })
      let withdrawn : State :=
        { removed with
          strikes := s.strikes.filter fun e =>
            ¬(e.line = l ∧ e.detached = false ∧ e.track ∈ gone.map (·.number)) }
      let beyond := (s.membersOf l).valves.filter fun v => first.originPosition < (s.point v).cfg.position.getD 0
      clearForFlood l s = retire (beyond.foldl (fun u v => strikeValve v u) withdrawn) ∧
        ∀ v ∈ beyond, ((clearForFlood l s).point v).valve.state = .opened) ∧
    ((∀ k ∈ kept, reached s.clock k.endTime = true) →
      ((clearForFlood l s).line l).tracks = [] ∧ ((clearForFlood l s).line l).retireAt = none ∧
        ((clearForFlood l s).line l).storm = false ∧
        ((clearForFlood l s).line l).nextTrack = (s.line l).nextTrack)

/-- R31 to R33, R51: at the retire deadline the head and the records after it whose end times are reached leave the list, their
strikes are detached, and Storm ends at 8 records; the end time of another record makes it Passed. -/
def Obligations.RecordsRetire : Prop :=
  ∀ (s : State) (l : LineIx), s.active = true →
    (due s.clock (s.line l).retireAt = true →
      let ended := (s.line l).tracks.takeWhile fun k => reached s.clock k.endTime
      let left := (s.line l).tracks.dropWhile fun k => reached s.clock k.endTime
      ∃ t, exec (.retireDeadline l) s = .next t ∧
        t.line l =
          { s.line l with
            tracks := left, retireAt := left.head?.map (·.endTime)
            storm := (s.line l).storm && decide (8 < left.length) } ∧
        (∀ k, k ≠ l → t.line k = s.line k) ∧
        t.strikes = s.strikes.map (fun e =>
          if e.line = l ∧ e.track ∈ ended.map (·.number) then { e with detached := true } else e) ∧
        t.points = s.points ∧ t.zones = s.zones ∧ t.doors = s.doors ∧ t.groups = s.groups ∧ t.trips = s.trips) ∧
    ∀ (n : Cyc) (head : Track) (rest : List Track), (s.line l).tracks = head :: rest →
      exec (.recordEndTime l n) s =
        .next (s.modLine l fun r =>
          { r with
            tracks := head :: rest.map fun k =>
              if k.number = n ∧ reached s.clock k.endTime = true then { k with state := .passed } else k })

/-- R51 to R56, R60, R64: the earliest strike whose fire time is reached leaves the list, its valve takes it by its state, and,
unless it is detached, its record becomes Struck. A strike request is Late, Full, Faulted or Normal by the first that applies: a
late one strikes now, counts and goes on to the next valve, a full list strikes now and counts, a Faulted valve's request is
inserted and goes on to the next valve, and any other is inserted behind every entry that is not later. -/
def Obligations.StrikeFires : Prop :=
  (∀ (s : State) (e : Strike) (rest : List Strike), s.active = true → s.strikes = e :: rest →
    reached s.clock e.fire = true →
    let r := (s.point e.valve).valve
    let hold := after s.clock (s.point e.valve).cfg.holdMs
    ∃ t, exec .strikeEntryFireTime s = .next t ∧ t.strikes = rest ∧
      (let w := (t.point e.valve).valve;
        (r.state = .closed →
          (t.point e.valve).drive.commanded = some .opened ∧
            w = { r with
              state := .opened, holdAt := some hold, opens := bump r.opens, feedbackAt := w.feedbackAt
              faulted := w.faulted }) ∧
        (r.state = .opened →
          (t.point e.valve).drive = (s.point e.valve).drive ∧
            w = { r with holdAt := some (match r.holdAt with | some h => later h hold | none => hold) }) ∧
        (r.state = .recovering →
          (t.point e.valve).drive.commanded = some .opened ∧
            w = { r with
              state := .opened, recoveryAt := none, holdAt := some hold, opens := bump r.opens
              reopens := bump r.reopens, feedbackAt := w.feedbackAt, faulted := w.faulted })) ∧
      (∀ j, j ≠ e.valve → t.point j = s.point j) ∧
      (∀ k, t.line k =
        { s.line k with
          strikes :=
            if (s.point e.valve).cfg.line = some k then bump (s.line k).strikes else (s.line k).strikes
          tracks :=
            if k = e.line ∧ e.detached = false then
              (s.line k).tracks.map fun x =>
                if x.number = e.track ∧ x.state = .inFlight then { x with state := .struck } else x
            else (s.line k).tracks }) ∧
      t.doors = s.doors ∧ t.groups = s.groups ∧ t.trips = s.trips) ∧
  ∀ (s : State) (l : LineIx) (n : Cyc) (v : PointIx) (rest : List PointIx) (fire : Time),
    let c := (s.point v).cfg
    let r := (s.point v).valve
    let onward := fun w : PointIx =>
      fire + BitVec.ofNat 32 c.leadMs + BitVec.ofNat 32 (((s.point w).cfg.pos - c.pos) * 1000 / (s.line l).speed)
        - BitVec.ofNat 32 (s.point w).cfg.leadMs
    let fired := fun u : State => u.modLine l fun r =>
      { r with tracks := r.tracks.map fun k => if k.number = n ∧ k.state = .inFlight then { k with state := .struck } else k }
    let late := fired ((strikeValve v s).modLine l fun r => { r with late := bump r.late })
    let early := fired ((strikeValve v s).modLine l fun r => { r with early := bump r.early })
    let inserted :=
      { s with strikes := insertStrike { fire := fire, valve := v, line := l, track := n, detached := false } s.strikes }
    requestStrike l n [] fire s = s ∧
    (reached s.clock fire = true →
      requestStrike l n [v] fire s = late ∧
        ∀ w, requestStrike l n (v :: w :: rest) fire s = requestStrike l n (w :: rest) (onward w) late) ∧
    (reached s.clock fire = false → 32 ≤ s.strikes.length → requestStrike l n (v :: rest) fire s = early) ∧
    (reached s.clock fire = false → s.strikes.length < 32 → r.faulted = false →
      requestStrike l n (v :: rest) fire s = inserted) ∧
    (reached s.clock fire = false → s.strikes.length < 32 → r.faulted = true →
      requestStrike l n [v] fire s = inserted ∧
        ∀ w, requestStrike l n (v :: w :: rest) fire s = requestStrike l n (w :: rest) (onward w) inserted) ∧
    (∀ (e : Strike) (es : List Strike), ∃ before behind, es = before ++ behind ∧
      insertStrike e es = before ++ e :: behind ∧ (∀ x ∈ before, reached e.fire x.fire = true) ∧
      ∀ x, behind.head? = some x → reached e.fire x.fire = false) ∧
    let counted := match c.line with
      | some k => s.modLine k fun r => { r with strikes := bump r.strikes }
      | none => s
    let hold := after s.clock c.holdMs
    (r.state = .closed →
      strikeValve v s =
        commandValve v .opened
          (counted.modPoint v fun p =>
            { p with valve := { p.valve with state := .opened, holdAt := some hold, opens := bump p.valve.opens } })) ∧
    (r.state = .opened →
      strikeValve v s =
        counted.modPoint v fun p =>
          { p with valve := { p.valve with holdAt := some (match r.holdAt with | some h => later h hold | none => hold) } }) ∧
    (r.state = .recovering →
      strikeValve v s =
        notify .valveFault v.val 0
          (commandValve v .opened
            (counted.modPoint v fun p =>
              { p with
                valve :=
                  { p.valve with
                    state := .opened, recoveryAt := none, holdAt := some hold, opens := bump p.valve.opens
                    reopens := bump p.valve.reopens } })))

/-- R61 to R63: the hold deadline closes the valve and starts its recovery, or ends its opening where the recovery time is 0;
the recovery deadline leaves it Closed without a command; the feedback deadline in Protect sets Faulted, with one notice, on a
valve still in disagreement. A command or a change of the reported state is tested: a disagreement that begins in Protect sets
the feedback deadline, and one that ends takes the deadline away and clears Faulted, with one notice (in Observe too: model's
choice, log 19). The Drive Unit's own test of a command comes first (model's choice, log 35). An Open report of a valve that is
Closed and was not commanded Open is unsolicited. -/
def Obligations.ValveDeadlines : Prop :=
  (∀ (s : State) (v : PointIx),
    let r := (s.point v).valve
    let d := (s.point v).drive
    (s.active = true → r.state = .opened → due s.clock r.holdAt = true →
      ∃ t, exec (.holdDeadline v) s = .next t ∧ (t.point v).drive.commanded = some .closed ∧
        (let w := (t.point v).valve;
          w = (if 0 < (s.point v).cfg.recoveryMs then
              { r with
                state := .recovering, holdAt := none, recoveryAt := some (after s.clock (s.point v).cfg.recoveryMs)
                feedbackAt := w.feedbackAt, faulted := w.faulted }
            else
              { r with state := .closed, holdAt := none, feedbackAt := w.feedbackAt, faulted := w.faulted })) ∧
        (∀ j, j ≠ v → t.point j = s.point j) ∧ t.lines = s.lines ∧ t.strikes = s.strikes ∧ t.doors = s.doors ∧
        t.groups = s.groups ∧ t.trips = s.trips) ∧
    (s.active = true → r.state = .recovering → due s.clock r.recoveryAt = true →
      exec (.recoveryDeadline v) s =
        .next (s.modPoint v fun p => { p with valve := { r with state := .closed, recoveryAt := none } })) ∧
    (s.mode = .protect → due s.clock r.feedbackAt = true →
      let differs := ∃ c, d.commanded = some c ∧
        ∀ code, d.reported = some code → c.matchedBy s.clock d.lastCommand code = false
      (differs → r.faulted = false →
        exec (.feedbackDeadline v) s =
          .next (notify .valveFault v.val 1
            (s.modPoint v fun p => { p with valve := { r with feedbackAt := none, faulted := true } }))) ∧
      (¬differs ∨ r.faulted = true →
        exec (.feedbackDeadline v) s =
          .next (s.modPoint v fun p => { p with valve := { r with feedbackAt := none } })))) ∧
  ∀ (s : State) (v : PointIx) (before : Bool),
    let r := (s.point v).valve
    let d := (s.point v).drive
    let differs := ∃ c, d.commanded = some c ∧ ∀ code, d.reported = some code → c.matchedBy s.clock d.lastCommand code = false
    let settled := s.modPoint v fun p => { p with valve := { p.valve with feedbackAt := none, faulted := false } }
    let alone := d.reported = some .opened ∧ r.state = .closed ∧ d.commanded ≠ some .opened
    (s.valveDisagrees v = true ↔ differs) ∧
    (differs → s.mode = .protect → before = false → r.feedbackAt = none →
      testValve before v s =
        s.modPoint v fun p => { p with valve := { p.valve with feedbackAt := some (after s.clock p.cfg.feedbackMs) } }) ∧
    (differs → s.mode ≠ .protect ∨ before = true ∨ r.feedbackAt ≠ none → testValve before v s = s) ∧
    (¬differs → before = false → testValve before v s = s) ∧
    (¬differs → before = true →
      testValve before v s = if r.faulted then notify .valveFault v.val 2 settled else settled) ∧
    (∀ q, commandValve v q s = testValve (s.valveDisagrees v) v (issue v q s)) ∧
    (alone →
      valveReported before v s =
        testValve before v
          (notify .valveFault v.val 3
            (s.modPoint v fun p => { p with valve := { p.valve with unsolicited := bump p.valve.unsolicited } }))) ∧
    (¬alone → valveReported before v s = testValve before v s)

/-- R70, R84, R92: a slot end empties the slot that follows, makes it the current one and moves the deadline on from its old
value; then the trips waiting for it are taken, and where none waits nothing else changes. So with Tick, at a multiple of 1000
ms. The trigger events that stand are taken one after another within the one step, the first raised first, those that a taking
raises behind the others, until none stands (the model's reading, log 27: R84 and R92 give the order in their text only). -/
def Obligations.SlotTurns : Prop :=
  (∀ s : State, s.active = true → s.triggers = [] →
    (∀ (z : ZoneIx) (d : Time), (s.zone z).slotEndAt = some d → reached s.clock d = true →
      let slots := (s.zone z).slots.set ((s.zone z).current + 1).val 0
      let turned := s.modZone z fun r =>
        { r with
          slots := slots, current := r.current + 1
          window := BitVec.ofNat 16 (min 65535 (slots.toList.map (·.toNat)).sum)
          slotEndAt := some (d + BitVec.ofNat 32 (r.cfg.slotLength * 1000)) }
      exec (.slotEnd z) s = .next (settle { turned with triggers := [.slotEnd z] }) ∧
      ((∀ k, (s.trip k).cfg.trigger = .slotEnd z → (s.trip k).cfg.mode = .off) →
        exec (.slotEnd z) s = .next turned)) ∧
    (s.clock.toNat % 1000 = 0 →
      exec .tick s = .next (settle { s with triggers := [.tick] }) ∧
      ((∀ k, (s.trip k).cfg.trigger = .tick → (s.trip k).cfg.mode = .off) → exec .tick s = .next s))) ∧
  ∀ s : State,
    (s.triggers = [] → settle s = s) ∧
    (∀ e rest, s.triggers = e :: rest → settle s = settle (takeTrigger e { s with triggers := rest })) ∧
    (settle s).triggers = [] ∧ ∀ e, raiseTrigger e s = { s with triggers := s.triggers ++ [e] }

/-- R84 to R91: taking one trigger event evaluates the trips that wait for it in order of number; an evaluation follows the
trip's mode, and every true action sets the latch and counts. R85: what each of the ten sources reads. -/
def Obligations.TripEvaluated : Prop :=
  (∀ (s : State) (k : TripIx),
    let c := (s.trip k).cfg
    let part := fun u : SourceUse =>
      if u.used then (if u.negated then -(s.readSource u.source : Int) else (s.readSource u.source : Int)) else 0
    let v := part c.first + part c.second
    let top := c.origin.toInt + c.margin.toNat
    let holds := c.origin.toInt ≤ v ∧ (if c.strict then v < top else v ≤ top)
    let onTrue := executeAction k v c.onTrue (s.modTrip k fun r => { r with latch := some (v, s.clock), fired := r.fired + 1 })
    let onFalse := executeAction k v c.onFalse s
    (c.mode = .off → evaluateTrip k s = s) ∧
    (c.mode = .once → ¬holds → evaluateTrip k s = s) ∧
    (c.mode = .once → holds →
      evaluateTrip k s = onTrue.modTrip k fun r => { r with cfg := { r.cfg with mode := .off }, spent := true }) ∧
    (c.mode = .edge → (s.trip k).baseline = none →
      evaluateTrip k s = s.modTrip k fun r => { r with baseline := some (decide holds) }) ∧
    (c.mode = .edge → (s.trip k).baseline = some (decide holds) → evaluateTrip k s = s) ∧
    (c.mode = .edge → (s.trip k).baseline = some (!decide holds) →
      evaluateTrip k s =
        (if holds then onTrue else onFalse).modTrip k fun r => { r with baseline := some (decide holds) }) ∧
    (c.mode = .every → evaluateTrip k s = if holds then onTrue else onFalse) ∧
    (∀ u, executeAction k v .nothing u = u) ∧
    (∀ u, executeAction k v .notice u = notify .tripNotice k.val v u) ∧
    (∀ (z : ZoneIx) (n : Level) u, n.rank ≤ (u.zone z).level.rank → executeAction k v (.raiseLevel z n) u = u) ∧
    (∀ (z : ZoneIx) (n : Level) u, (u.zone z).level.rank < n.rank →
      ((executeAction k v (.raiseLevel z n) u).zone z).level = n) ∧
    (∀ (l : LineIx) u, k ∈ ((executeAction k v (.shutLine l) u).line l).tripHeld ∧
      (((executeAction k v (.shutLine l) u).line l).state = .stopping ∨
        ((executeAction k v (.shutLine l) u).line l).state = .shut)) ∧
    (∀ (q : OutputIx) u i, u.outputPoint q = some i → (u.point i).cfg.kind = .output →
      executeAction k v (.outputOn q) u = issue i .outOn u ∧ executeAction k v (.outputOff q) u = issue i .outOff u) ∧
    (∀ (q : OutputIx) u, (∀ i, u.outputPoint q = some i → (u.point i).cfg.kind ≠ .output) →
      executeAction k v (.outputOn q) u = u ∧ executeAction k v (.outputOff q) u = u) ∧
    ∀ e, takeTrigger e s =
      (List.finRange 64).foldl (fun u j => if (u.trip j).cfg.trigger = e then evaluateTrip j u else u) s) ∧
  ∀ (s : State) (z : ZoneIx) (l : LineIx) (i : InputIx),
    s.readSource (.zoneWindow z) = (s.zone z).window.toNat ∧ s.readSource (.zoneSparks z) = (s.zone z).sparks.toNat ∧
      s.readSource (.lineEscapes l) = (s.line l).escapes.toNat ∧
      s.readSource (.lineConfirms l) = (s.line l).confirmations.toNat ∧
      s.readSource (.lineStrikes l) = (s.line l).strikes.toNat ∧ s.readSource (.lineLate l) = (s.line l).late.toNat ∧
      s.readSource (.lineSpeed l) = (s.line l).speed ∧
      s.readSource (.openValves l) =
        ((s.membersOf l).valves.filter fun v => (s.point v).valve.state = .opened).length ∧
      s.readSource (.inputCount i) = (s.input i).edges.toNat ∧
      s.readSource (.inputLevel i) = if (s.input i).level = true then 1 else 0

/-- R34 to R43: the three cases of a detection at position `p` on a line: in Storm every valve of the line is opened, in Flood
every valve beyond it, and otherwise a record joins the list, aimed at the first valve far enough away; the records before it
stand, but for one that carries its number again. A primary detection passes through these cases; a check detection is matched
with the first record that fits it: an escape where its valve has fired and stands before the detector, and else a confirmation,
which measures the speed where the line calibrates. One that no record matches is an escape, outside Storm and Flood, and passes
through the cases. -/
def Obligations.DetectionCases : Prop :=
  (∀ (s : State) (l : LineIx) (i : PointIx) (p : Nat) (arrival : Time),
    let r := s.line l
    let t := detectionCases l i p arrival s
    (16 ≤ r.tracks.length ∨ r.storm = true →
      t.line l = { r with storm := true, untracked := bump r.untracked, strikes := (t.line l).strikes } ∧
      (∀ v ∈ (s.membersOf l).valves, (t.point v).valve.state = .opened) ∧ t.strikes = s.strikes) ∧
    (r.tracks.length < 16 → r.storm = false → r.flood = true →
      t.line l = { r with untracked := bump r.untracked, strikes := (t.line l).strikes } ∧
      (∀ v ∈ (s.membersOf l).valves, p < (s.point v).cfg.pos → (t.point v).valve.state = .opened) ∧
      t.strikes = s.strikes) ∧
    (r.tracks.length < 16 → r.storm = false → r.flood = false →
      let far := fun v : PointIx =>
        p ≤ (s.point v).cfg.pos ∧ (s.point v).cfg.arming.getD 0 ≤ (s.point v).cfg.pos - p
      (t.line l).nextTrack = r.nextTrack + 1 ∧ (t.line l).untracked = r.untracked ∧
      ∃ old k, (t.line l).tracks = old ++ [k] ∧ old.length = r.tracks.length ∧
        ((∀ x ∈ r.tracks, x.number ≠ r.nextTrack) → old = r.tracks) ∧
        k.number = r.nextTrack ∧ k.origin = i ∧ k.originPosition = p ∧
        k.detected = arrival ∧ k.speed = r.speed ∧ k.lastMatched = none ∧
        k.endTime = after arrival ((r.cfg.endPosition - p) * 1000 / r.speed) ∧
        (t.line l).retireAt = (if r.tracks = [] then some k.endTime else r.retireAt) ∧
        ((∀ v ∈ (s.membersOf l).valves, ¬far v) → k.target = none ∧ k.state = .inFlight ∧ t.strikes = s.strikes) ∧
        ∀ before v rest, (s.membersOf l).valves = before ++ v :: rest → (∀ w ∈ before, ¬far w) → far v →
          ∃ fire, k.target = some (v, fire) ∧
            fire =
              (match r.cfg.timing with
                | .computed =>
                  arrival + BitVec.ofNat 32 (((s.point v).cfg.pos - p) * 1000 / r.speed)
                    - BitVec.ofNat 32 (s.point v).cfg.leadMs
                | .fixed delay => after arrival delay) ∧
            (reached s.clock fire = true ∨ 32 ≤ s.strikes.length →
              k.state = .struck ∧ (t.point v).valve.state = .opened) ∧
            (reached s.clock fire = false → s.strikes.length < 32 → (s.point v).valve.faulted = false →
              k.state = .inFlight ∧ t.points = s.points ∧
                t.strikes =
                  insertStrike { fire := fire, valve := v, line := l, track := r.nextTrack, detached := false }
                    s.strikes))) ∧
  ∀ (s : State) (l : LineIx) (i : PointIx) (p : Nat) (t : Time) (z : Option ZoneIx),
    let r := s.line l
    let c := (s.point i).cfg
    let counted := s.modLine l fun r => { r with sparks := bump r.sparks }
    let spark := fun u : State => raiseTrigger (.sparkOnLine l) u
    let both := fun u : State => spark (raiseTrigger (.escapeOnLine l) u)
    let fits := fun k : Track =>
      let expected := k.detected + BitVec.ofNat 32 ((p - k.originPosition) * 1000 / k.speed)
      k.state ≠ .passed ∧ k.originPosition < p ∧ (∀ q, k.lastMatched = some q → q < p) ∧
        ((t - expected).toNat ≤ r.cfg.margin ∨ (expected - t).toNat ≤ r.cfg.margin)
    let escaped := fun u : State =>
      let v := u.modLine l fun r => { r with escapes := bump r.escapes }
      match z with
      | some z => zoneEscape z v
      | none => v
    (c.role ≠ some .check → sparkReport i l t s = spark (detectionCases l i c.pos t counted)) ∧
    (c.role = some .check → sparkReport i l t s = checkDetection l i c.pos t c.zone counted) ∧
    ((∀ k ∈ r.tracks, ¬fits k) →
      checkDetection l i p t z s =
        if r.storm ∨ r.flood then spark (detectionCases l i p t s) else both (detectionCases l i p t (escaped s))) ∧
    ∀ before k rest, r.tracks = before ++ k :: rest → (∀ x ∈ before, ¬fits x) → fits k →
      let matched := s.modLine l fun r =>
        { r with tracks := r.tracks.map fun x => if x.number = k.number then { x with lastMatched := some p } else x }
      let escape := k.state = .struck ∧ ∃ v fire, k.target = some (v, fire) ∧ (s.point v).cfg.pos < p
      let confirmed := matched.modLine l fun r => { r with confirmations := bump r.confirmations }
      let spent := (t - k.detected).toNat
      let speed := (p - k.originPosition) * 1000 / spent
      (escape → checkDetection l i p t z s = both (escaped matched)) ∧
      (¬escape → r.cfg.calibration = .off ∨ spent = 0 ∨ speed < 20 ∨ 600 < speed →
        checkDetection l i p t z s = spark confirmed) ∧
      (¬escape → r.cfg.calibration ≠ .off → spent ≠ 0 → 20 ≤ speed → speed ≤ 600 →
        checkDetection l i p t z s =
          spark
            (recomputeSpeed l
              (confirmed.modLine l fun r =>
                { r with
                  calibrated := some speed, calibrationCount := r.calibrationCount + 1
                  cfg :=
                    { r.cfg with
                      calibration := if r.cfg.calibration = .single then .off else r.cfg.calibration } })))

/-- R96 to R103, R111: the gate travel deadline sets GateFault and takes the line into Stopping, its claims laid, and on to Shut
where every fan stands and the line is in Flood; the run-down deadline leaves it Shut with RunDownIncomplete. A divert request
takes a Normal line into Diverting, its gate commanded, and on to Diverted where the gate reports so; a line without a gate
counts it skipped. A shut request takes a line into Stopping, its claims laid. Every change of state sends its notice. -/
def Obligations.LineDeadlines : Prop :=
  (∀ (s : State) (l : LineIx), s.active = true →
    let r := s.line l
    let stands := (∀ i ∈ (s.membersOf l).fans, (s.point i).drive.reported = some .stopped) ∧ r.flood = true
    (r.state = .diverting → due s.clock r.gateTravelAt = true →
      ∃ t, exec (.gateTravelDeadline l) s = .next t ∧
        (stands →
          t.line l =
            { r with state := .shut, gateFault := true, gateTravelAt := none, runDownAt := none, shuts := bump r.shuts }) ∧
        (¬stands →
          t.line l =
            { r with
              state := .stopping, gateFault := true, gateTravelAt := none
              runDownAt := some (after s.clock (r.cfg.runDown * 1000)) }) ∧
        (∀ k, k ≠ l → t.line k = s.line k) ∧
        (∀ i, i ∈ (s.membersOf l).fans ∨ i ∈ (s.membersOf l).conveyors → Claim.line l ∈ (t.point i).drive.claims) ∧
        t.doors = s.doors ∧ t.groups = s.groups ∧ t.strikes = s.strikes ∧
        ∀ z, (t.zone z).level = (s.zone z).level) ∧
    (r.state = .stopping → due s.clock r.runDownAt = true →
      exec (.runDownDeadline l) s =
        .next (notify .lineState l.val 4
          (s.modLine l fun r =>
            { r with state := .shut, runDownIncomplete := true, runDownAt := none, shuts := bump r.shuts })))) ∧
  ∀ (s : State) (l : LineIx),
    let r := s.line l
    let m := s.membersOf l
    let stands := (∀ i ∈ m.fans, (s.point i).drive.reported = some .stopped) ∧ r.flood = true
    let diverted := fun u : State =>
      notify .lineState l.val 2 (u.modLine l fun r => { r with state := .diverted, gateTravelAt := none })
    (r.state = .normal → ∀ g, m.gates.head? = some g →
      let t := notify .lineState l.val 1
        ((issue g .divert s).modLine l fun r =>
          { r with
            state := .diverting, gateTravelAt := some (after s.clock (r.cfg.gateTravel * 1000)), diverts := bump r.diverts })
      divertLine l s = if (s.point g).drive.reported = some .diverted then diverted t else t) ∧
    (r.state = .normal → m.gates = [] →
      divertLine l s = s.modLine l fun r => { r with divertSkipped := bump r.divertSkipped }) ∧
    (r.state ≠ .normal → divertLine l s = s) ∧
    (r.state = .stopping ∨ r.state = .shut → shutLine l s = s) ∧
    (r.state = .normal ∨ r.state = .diverting ∨ r.state = .diverted →
      let claimed := (m.fans ++ m.conveyors).foldl (fun u i => addClaim (.line l) i u)
        (s.modLine l fun r => { r with gateTravelAt := none })
      shutLine l s =
        testShut l
          (notify .lineState l.val 3
            (claimed.modLine l fun q =>
              { q with state := .stopping, runDownAt := some (after s.clock (r.cfg.runDown * 1000)) }))) ∧
    (r.state = .stopping → stands →
      testShut l s =
        notify .lineState l.val 4 (s.modLine l fun r => { r with state := .shut, runDownAt := none, shuts := bump r.shuts })) ∧
    (r.state ≠ .stopping ∨ ¬stands → testShut l s = s) ∧
    ∀ code,
      (r.state = .diverting → code = .diverted → gateReported l code s = diverted s) ∧
      (r.state ≠ .diverting ∨ code ≠ .diverted → gateReported l code s = s)

/-- R113, R116 to R124, R127: the run-out deadline brings a door in Clearing to Releasing without Forced, the clearing deadline
with Forced; a door that already reports Closed passes on to Closed. The closing deadline leaves a door in Releasing Jammed, and
it counts in the fault counts. The close request of an active door is decided from its side zones, and its beginning is taken by
the door's state, as is a report of its door point and of its conveyors. The order in which a door claims its conveyors (log
38), the place of the DoorState notice behind the frames of an entry (log 39) and before the ZoneFault notices of a door that
enters Jammed or leaves it for Closed (log 48), the passing of a door whose listed points are conveyors no longer (log 37) and
the free order where both times are 0 (log 17) are the model's choices. -/
def Obligations.DoorDeadlines : Prop :=
  (∀ (s : State) (d : DoorIx), s.active = true → s.doorActive d = true →
    let r := s.door d
    let shut := s.doorReported d = some .closed
    let releasing := fun t : State =>
      (∀ e, e ≠ d → t.door e = s.door e) ∧ t.lines = s.lines ∧ t.groups = s.groups ∧ t.trips = s.trips ∧
        (∀ z, (t.zone z).level = (s.zone z).level) ∧
        ∀ i, r.cfg.point = some i → (t.point i).drive.commanded = some .release
    (r.state = .clearing → due s.clock r.runOutAt = true →
      ∃ t, exec (.runOutDeadline d) s = .next t ∧ releasing t ∧
        t.door d =
          { r with
            state := if shut then .closed else .releasing, clearingAt := none, runOutAt := none
            closingAt := if shut then none else some (after s.clock (r.cfg.closing * 1000)), releases := bump r.releases }) ∧
    (r.state = .clearing → due s.clock r.clearingAt = true →
      ∃ t, exec (.clearingDeadline d) s = .next t ∧ releasing t ∧
        t.door d =
          { r with
            state := if shut then .closed else .releasing, clearingAt := none, runOutAt := none, forced := true
            forcedCount := bump r.forcedCount
            closingAt := if shut then none else some (after s.clock (r.cfg.closing * 1000)), releases := bump r.releases }) ∧
    (r.state = .releasing → due s.clock r.closingAt = true →
      exec (.closingDeadline d) s =
        .next (recountFaults
          (notify .doorState d.val 5
            (s.modDoor d fun r => { r with state := .jammed, closingAt := none, jams := bump r.jams }))))) ∧
  ∀ (s : State) (d : DoorIx),
    let r := s.door d
    let command := fun (q : Requested) (u : State) => match r.cfg.point with
      | some i => issue i q u
      | none => u
    let conveyors := r.cfg.conveyors.filter fun i => (s.point i).cfg.kind == .conveyor
    let claimed := conveyors.foldl (fun u i => addClaim (.door d) i u) s
    let still := ∀ i ∈ conveyors, (s.point i).drive.reported = some .stopped
    let reported := match r.cfg.point with
      | some i => (s.point i).drive.reported
      | none => none
    let stands := r.cfg.release.rank ≤ (s.zone r.cfg.sideA).level.rank ∨
      ∃ z, r.cfg.sideB = some z ∧ r.cfg.release.rank ≤ (s.zone z).level.rank
    let opens := notify .doorState d.val 1
      (s.modDoor d fun r =>
        { r with state := .opened, forced := false, wasJammed := false, manualClosed := false, breached := false })
    (s.doorActive d = true ↔ ∃ i, r.cfg.point = some i ∧ (s.point i).cfg.kind = .door) ∧
    (s.doorActive d = false ∨ (stands ↔ r.closeRequest = true) → decideClose d s = s) ∧
    (s.doorActive d = true → stands → r.closeRequest = false →
      decideClose d s = closeBegins d (s.modDoor d fun r => { r with closeRequest := true })) ∧
    (s.doorActive d = true → ¬stands → r.closeRequest = true →
      decideClose d s = s.modDoor d fun r => { r with closeRequest := false }) ∧
    (r.state = .unknown ∨ r.state = .opened →
      closeBegins d s = if r.cfg.conveyors = [] then enterReleasing d s else enterClearing d s) ∧
    (r.state = .closed → closeBegins d s = command .release claimed) ∧
    (r.state = .restoring → closeBegins d s = enterReleasing d claimed) ∧
    (r.state = .clearing ∨ r.state = .releasing ∨ r.state = .jammed → closeBegins d s = s) ∧
    (let t := notify .doorState d.val 3
      ((command .release s).modDoor d fun r =>
        { r with
          state := .releasing, closingAt := some (after s.clock (r.cfg.closing * 1000)), releases := bump r.releases })
    enterReleasing d s =
      if reported = some .closed then
        notify .doorState d.val 4 (t.modDoor d fun r => { r with state := .closed, closingAt := none })
      else t) ∧
    (let t := notify .doorState d.val 2
      (claimed.modDoor d fun q =>
        { q with state := .clearing, clearingAt := some (after s.clock (r.cfg.clearing * 1000)) })
    (¬still → enterClearing d s = t) ∧
    (still → r.cfg.runOut ≠ 0 →
      enterClearing d s = t.modDoor d fun q => { q with runOutAt := some (after s.clock (r.cfg.runOut * 1000)) }) ∧
    (still → r.cfg.runOut = 0 → r.cfg.clearing ≠ 0 → enterClearing d s = finishRunOut d t) ∧
    (still → r.cfg.runOut = 0 → r.cfg.clearing = 0 →
      ∃ n, enterClearing d s = finishRunOut d { t with draws := n } ∨
        enterClearing d s = forceRelease d { t with draws := n })) ∧
    finishRunOut d s = enterReleasing d (s.modDoor d fun r => { r with clearingAt := none, runOutAt := none }) ∧
    forceRelease d s =
      enterReleasing d
        (s.modDoor d fun r =>
          { r with clearingAt := none, runOutAt := none, forced := true, forcedCount := bump r.forcedCount }) ∧
    (r.state ≠ .clearing → conveyorReported d s = s) ∧
    (r.state = .clearing → ¬still → conveyorReported d s = s.modDoor d fun r => { r with runOutAt := none }) ∧
    (r.state = .clearing → still → r.runOutAt ≠ none → conveyorReported d s = s) ∧
    (r.state = .clearing → still → r.runOutAt = none →
      conveyorReported d s =
        if r.cfg.runOut = 0 then finishRunOut d s
        else s.modDoor d fun q => { q with runOutAt := some (after s.clock (r.cfg.runOut * 1000)) }) ∧
    ∀ code,
      (r.state = .unknown → code = .opened →
        doorReported d code s =
          if r.closeRequest then (if r.cfg.conveyors = [] then enterReleasing d opens else enterClearing d opens) else opens) ∧
      (r.state = .unknown → code = .closed →
        let t := notify .doorState d.val 4
          (s.modDoor d fun r =>
            { r with state := .closed, forced := false, wasJammed := false, manualClosed := false, breached := false })
        doorReported d code s =
          if r.closeRequest then command .release (conveyors.foldl (fun u i => addClaim (.door d) i u) t) else t) ∧
      (r.state = .unknown → code ≠ .opened → code ≠ .closed → doorReported d code s = s) ∧
      (r.state = .opened →
        doorReported d code s =
          if code = .closed then
            notify .doorState d.val 4 (s.modDoor d fun r => { r with state := .closed, manualClosed := true })
          else s) ∧
      (r.state = .clearing → doorReported d code s = s) ∧
      (r.state = .releasing →
        doorReported d code s =
          if code = .closed then
            notify .doorState d.val 4 (s.modDoor d fun r => { r with state := .closed, closingAt := none })
          else s) ∧
      (r.state = .closed → r.closeRequest = true →
        doorReported d code s =
          if code = .opened ∨ code = .moving then
            enterReleasing d (s.modDoor d fun r => { r with breached := true, breaches := bump r.breaches })
          else s) ∧
      (r.state = .closed → r.closeRequest = false → doorReported d code s = if code = .opened then opens else s) ∧
      (r.state = .jammed →
        doorReported d code s =
          if code = .closed then
            recountFaults
              (notify .doorState d.val 4 (s.modDoor d fun r => { r with state := .closed, wasJammed := true }))
          else s) ∧
      (r.state = .restoring → doorReported d code s = if code = .opened then opens else s)

/-- R137, R138: a phase deadline turns the engine's phase and moves on from its old value; the cadence end stops the engine,
records the loop sirens as Quiet without a frame, and ends the all-clear and the test. The order of the Quiet records is the
model's choice (log 41), as is that a siren rewritten since the start is among them (log 49). -/
def Obligations.SirenDeadlines : Prop :=
  ∀ (s : State) (g : GroupIx), s.active = true →
    let r := s.group g
    (∀ (c : CadenceIx) (d : Time), r.sounding = some c → r.phaseAt = some d → reached s.clock d = true →
      let k := s.cadence c
      let onAt := some (d + BitVec.ofNat 32 (k.on.toNat * 10))
      let offAt := some (d + BitVec.ofNat 32 (k.off.toNat * 10))
      (r.engineOn = true → k.off = 0 →
        exec (.phaseDeadline g) s = .next (s.modGroup g fun r => { r with phaseAt := onAt })) ∧
      (r.engineOn = true → k.off ≠ 0 →
        ∃ t, exec (.phaseDeadline g) s = .next t ∧ t.group g = { r with engineOn := false, phaseAt := offAt } ∧
          (∀ h, h ≠ g → t.group h = s.group h) ∧ t.lines = s.lines ∧ t.doors = s.doors ∧
          ∀ i ∈ s.enginePoints g, (t.point i).drive.commanded = some .outOff) ∧
      (r.engineOn = false →
        ∃ t, exec (.phaseDeadline g) s = .next t ∧ t.group g = { r with engineOn := true, phaseAt := onAt } ∧
          (∀ h, h ≠ g → t.group h = s.group h) ∧ t.lines = s.lines ∧ t.doors = s.doors ∧
          ∀ i ∈ s.enginePoints g, (t.point i).drive.commanded = some .outOn)) ∧
    (due s.clock r.endAt = true →
      let ends := r.phase = .allClear ∨ r.phase = .test
      ∃ t, exec (.cadenceEndDeadline g) s = .next t ∧
        t.group g =
          { r with
            endAt := none, engineOn := false, phaseAt := none
            sounding := if ends then none else r.sounding, phase := if ends then .idle else r.phase } ∧
        (∀ h, h ≠ g → t.group h = s.group h) ∧ t.lines = s.lines ∧ t.doors = s.doors ∧
        ∀ i ∈ s.loopSirens g,
          (t.point i).drive.commanded = some .quiet ∧ (t.point i).drive.lastCommand = some s.clock ∧
            (t.point i).drive.withheld = (s.point i).drive.withheld)

/-- R20, R21: a raw level that differs from the debounced level waits its debounce time and then makes an edge; one that equals
it ends the wait. An edge sets the level and counts. In Observe and Protect it raises its trigger; at a call point or flame
detector it also counts a report, sets the contact state to Active for On and Clear for Off, and delivers a report of that
value: one of Active counts at the zone and raises it to Evacuate or Fire, and a flame detector's opens each valve of its line
beyond it, in list order (R44, R72). The blocks take their parts in any order (log 5). -/
def Obligations.InputsDebounced : Prop :=
  ∀ (s : State) (i : InputIx), s.triggers = [] →
    let wait := match s.inputPoint i with
      | some p => (s.point p).cfg.debounce.getD 0
      | none => 0
    (∀ on, (s.input i).raw ≠ on →
      (s.mode = .loading → exec (.rawLevelChange i on) s = .next (s.modInput i fun r => { r with raw := on })) ∧
      (s.mode ≠ .loading → (s.input i).level = on →
        exec (.rawLevelChange i on) s = .next (s.modInput i fun r => { r with raw := on, debounceAt := none })) ∧
      (s.mode ≠ .loading → (s.input i).level ≠ on → wait ≠ 0 →
        exec (.rawLevelChange i on) s =
          .next (s.modInput i fun r => { r with raw := on, debounceAt := some (after s.clock wait) }))) ∧
    ∀ (c : Instr) (on : Bool), s.mode ≠ .loading →
      ((c = .rawLevelChange i on ∧ (s.input i).raw ≠ on ∧ (s.input i).level ≠ on ∧ wait = 0) ∨
        (c = .debounceDeadline i ∧ (s.input i).raw = on ∧ due s.clock (s.input i).debounceAt = true)) →
      let after :=
        { raw := on, level := on, edges := (s.input i).edges + 1, lastEdge := some s.clock, debounceAt := none : Input }
      (s.mode = .bypass → exec c s = .next (s.modInput i fun _ => after)) ∧
      (s.active = true →
        (∀ p, s.inputPoint i = some p → (s.point p).cfg.kind ≠ .call ∧ (s.point p).cfg.kind ≠ .flame) →
        (∀ k, (s.trip k).cfg.trigger = .inputEdge i → (s.trip k).cfg.mode = .off) →
        exec c s = .next (s.modInput i fun _ => after)) ∧
      (s.active = true → ∀ p, s.inputPoint i = some p →
        (s.point p).cfg.kind = .call ∨ (s.point p).cfg.kind = .flame →
        (on = false → (∀ k, (s.trip k).cfg.trigger = .inputEdge i → (s.trip k).cfg.mode = .off) →
          ∃ n, exec c s =
            .next { (s.modInput i fun _ => after).modPoint p fun r =>
              { r with reports := bump r.reports, contact := some false } with draws := n }) ∧
        (on = true →
          ∃ t, exec c s = .next t ∧ t.input i = after ∧ t.triggers = [] ∧
            ∀ z, (s.point p).cfg.zone = some z →
              (if (s.point p).cfg.kind = .call then 4 else 3) ≤ (t.zone z).level.rank)) ∧
      (s.active = true →
        let raised := fun u : State => settle (raiseTrigger (.inputEdge i) u)
        let edged := s.modInput i fun _ => after
        ((∀ p, s.inputPoint i = some p → (s.point p).cfg.kind ≠ .call ∧ (s.point p).cfg.kind ≠ .flame) →
          exec c s = .next (raised edged)) ∧
        ∀ p, s.inputPoint i = some p →
          let told := edged.modPoint p fun r => { r with reports := bump r.reports, contact := some on }
          ((s.point p).cfg.kind = .call →
            ∃ t, exec c s = .next t ∧ InSomeOrder [raised, fun u => settle (deliverCall p on u)] told t) ∧
          ((s.point p).cfg.kind = .flame →
            ∃ t, exec c s = .next t ∧
              InSomeOrder [raised, fun u => settle (deliverFlame p on u), trackFlame p on] told t) ∧
          (∀ u, deliverCall p false u = u ∧ deliverFlame p false u = u ∧ trackFlame p false u = u) ∧
          (∀ u z, (u.point p).cfg.zone = some z →
            deliverCall p true u = raiseZone z .evacuate (u.modZone z fun r => { r with calls := bump r.calls }) ∧
            deliverFlame p true u = raiseZone z .fire (u.modZone z fun r => { r with flames := bump r.flames })) ∧
          ∀ u l, (u.point p).cfg.line = some l →
            trackFlame p true u =
              ((u.membersOf l).valves.filter fun v =>
                (u.point p).cfg.position.getD 0 < (u.point v).cfg.position.getD 0).foldl (fun w v => strikeValve v w) u)

/-- R147 to R150: in Protect a record in disagreement is commanded again at its repeat deadline and carries Disagree from its
disagreement deadline; a silent loop point is polled, and carries Unsupervised once its silence has reached the limit. The test
of a record sets both deadlines where disagreement begins, and takes them and Disagree away where it has ended. A deadline
reached by a record that is out of disagreement, the clock alone having ended it, takes them away as that test would (model's
choice, log 20). -/
def Obligations.DriveDeadlines : Prop :=
  ∀ (s : State) (i : PointIx), s.isLoop i = true →
    let d := (s.point i).drive
    let half := (s.point i).cfg.supervision.getD 0 * 1000 / 2
    let differs := fun r : Requested => d.commanded = some r ∧ r.reconciled = true ∧
      ∀ code, d.reported = some code → r.matchedBy s.clock d.lastCommand code = false
    let ended := s.modPoint i fun p =>
      { p with drive := { p.drive with repeatAt := none, disagreeAt := none, disagree := false } }
    (s.mode = .protect → due s.clock d.repeatAt = true →
      (∀ r, differs r → s.commandsTimed →
        exec (.repeatDeadline i) s =
          .next ((joinUrgent (commandFrame s i r) s).modPoint i fun p =>
            { p with
              drive :=
                { p.drive with
                  repeats := bump p.drive.repeats, lastCommand := some s.clock
                  repeatAt := some (s.clock + 1000#32) } })) ∧
      ((∀ r, ¬differs r) →
        exec (.repeatDeadline i) s = .next (if d.disagree then recountFaults ended else ended))) ∧
    (s.mode = .protect → due s.clock d.disagreeAt = true →
      (∀ r, differs r →
        exec (.disagreementDeadline i) s =
          .next (recountFaults
            (s.modPoint i fun p => { p with drive := { p.drive with disagreeAt := none, disagree := true } }))) ∧
      ((∀ r, ¬differs r) →
        exec (.disagreementDeadline i) s = .next (if d.disagree then recountFaults ended else ended))) ∧
    (s.mode ≠ .protect → ∀ b, testDisagreement b i s = s) ∧
    (s.mode = .protect → (∀ r, ¬differs r) →
      ∀ b, testDisagreement b i s = if d.disagree then recountFaults ended else ended) ∧
    (s.mode = .protect → ∀ r, differs r →
      (d.repeatAt = none → ∀ b,
        testDisagreement b i s =
          s.modPoint i fun p =>
            { p with
              drive :=
                { p.drive with
                  repeatAt := some (s.clock + 1000#32)
                  disagreeAt := if r = .release then none else some (after s.clock p.cfg.feedbackMs) } }) ∧
      (d.repeatAt ≠ none →
        testDisagreement false i s = s ∧
          testDisagreement true i s =
            s.modPoint i fun p => { p with drive := { p.drive with repeatAt := some (s.clock + 1000#32) } })) ∧
    (∀ (now : Time) (sent : Option Time) (code : Code),
      (∀ r wanted, (r, wanted) ∈ [(Requested.opened, Code.opened), (.closed, .closed), (.divert, .diverted),
          (.normal, .normal), (.stop, .stopped), (.release, .closed), (.quiet, .quiet)] →
        r.reconciled = true ∧ (r.matchedBy now sent code = true ↔ code = wanted)) ∧
      (∀ on off cycles tone, (Requested.sounding on off cycles tone).reconciled = true ∧
        ((Requested.sounding on off cycles tone).matchedBy now sent code = true ↔
          code = .sounding ∨
            (code = .quiet ∧ cycles ≠ 0 ∧
              ∃ t, sent = some t ∧ cycles.toNat * (on.toNat + off.toNat) * 10 ≤ (now - t).toNat))) ∧
      ∀ r ∈ [Requested.permit, .hold, .outOn, .outOff], r.reconciled = false) ∧
    (s.active = true → (s.point i).cfg.supervision ≠ none →
      (d.unsupervised = true ∨ (∃ h, d.lastHeard = some h ∧ half ≤ elapsed s.clock h) →
        (∀ p, d.pollPlaced = some p → half ≤ elapsed s.clock p) →
        exec (.supervisionPoll i) s =
          .next ((joinRoutine
            { dst := (s.point i).cfg.station, src := s.device.own, kind := 8, channel := (s.point i).cfg.channel
              payload := [] } s).modPoint i fun p => { p with drive := { p.drive with pollPlaced := some s.clock } })) ∧
      (∀ h, d.unsupervised = false → d.lastHeard = some h →
        (s.point i).cfg.supervision.getD 0 * 1000 ≤ elapsed s.clock h →
        exec (.supervisionLimit i) s =
          .next (recountFaults (s.modPoint i fun p => { p with drive := { p.drive with unsupervised := true } }))))

/-! ## Commands, claims and fault counts -/

/-- R144, R145, R183: what issuing a command does by the mode, the frame it builds, and when a claim issues one. R165, R186: the
frames of a Reply and of a Notice and the codes they carry; both have the one header channel of log 9, which no rule gives. R22:
the pins after a command to a local point follow the commanded states. -/
def Obligations.CommandIssued : Prop :=
  (∀ (s : State) (i : PointIx) (r : Requested),
    let recorded := s.modPoint i fun p =>
      { p with drive := { p.drive with commanded := some r, lastCommand := some s.clock } }
    let withheld := recorded.modPoint i fun p => { p with drive := { p.drive with withheld := bump p.drive.withheld } }
    let c := (s.point i).cfg
    (s.isLocal i = true → issue i r s = syncPins (if s.mode = .observe then withheld else recorded)) ∧
    (s.isLocal i = false → s.mode = .bypass ∨ s.mode = .loading → issue i r s = recorded) ∧
    (s.isLocal i = false → s.mode = .observe → issue i r s = withheld) ∧
    (s.isLocal i = false → s.mode = .protect →
      issue i r s = testDisagreement true i { recorded with port := (joinUrgent (commandFrame s i r) s).port }) ∧
    (∀ code, (r, code) ∈ [(Requested.opened, 1#8), (.closed, 2), (.normal, 3), (.divert, 4), (.stop, 5), (.permit, 6),
        (.hold, 7), (.release, 8)] →
      commandFrame s i r = { dst := c.station, src := s.device.own, kind := 7, channel := c.channel, payload := [code] }) ∧
    (∀ on off cycles tone, r = .sounding on off cycles tone →
      commandFrame s i r =
        { dst := c.station, src := s.device.own, kind := 9, channel := c.channel, payload := [1, on, off, cycles, tone] }) ∧
    (r = .quiet →
      commandFrame s i r =
        { dst := c.station, src := s.device.own, kind := 9, channel := c.channel, payload := [0, 0, 0, 0, 0] }) ∧
    ∀ m : Claim,
      let held := (s.point i).drive.claims
      let added := s.modPoint i fun p => { p with drive := { p.drive with claims := held ++ [m] } }
      let left := held.filter (· != m)
      let removed := s.modPoint i fun p => { p with drive := { p.drive with claims := left } }
      (m ∈ held → addClaim m i s = s) ∧ (m ∉ held → held ≠ [] → addClaim m i s = added) ∧
      (held = [] → addClaim m i s = issue i .stop added) ∧ (m ∉ held → removeClaim m i s = s) ∧
      (m ∈ held → left ≠ [] → removeClaim m i s = removed) ∧
      (m ∈ held → left = [] → removeClaim m i s = issue i .permit removed)) ∧
  (∃ channel : Byte, channel.toNat ≤ 15 ∧
     ∀ s : State,
      (∀ (rq : Request) (code : ReplyCode) (position : Nat) (data : List Byte),
        replyFrame s rq code position data =
          { dst := rq.source, src := s.device.own, kind := 11, channel := channel
            payload := [rq.tag, BitVec.ofNat 8 (code.code + 8 * position)] ++ data } ∧
        reply rq code s = joinRoutine (replyFrame s rq code 0 []) s) ∧
      ∀ (kind : NoticeKind) (object : Nat) (value : Int),
        noticeFrame s kind object value =
          { dst := s.device.supervisor, src := s.device.own, kind := 12, channel := channel
            payload := [kind.code, BitVec.ofNat 8 object] ++ be32 (BitVec.ofInt 32 value) ++ be32 s.clock } ∧
        notify kind object value s = joinRoutine (noticeFrame s kind object value) s) ∧
  (([.done, .busy, .held, .index, .value, .table, .sequence, .notPermitted] : List ReplyCode).map ReplyCode.code =
      [0, 1, 2, 3, 4, 5, 6, 7] ∧
    ([.started, .noImage, .modeChanged, .zoneLevel, .zoneFault, .lineState, .doorState, .valveFault, .storm, .flood,
        .loopCondition, .commitDone, .commitFailed, .tripNotice] : List NoticeKind).map NoticeKind.code =
      [1, 2, 3, 4, 5, 6, 7, 8, 9, 10, 11, 12, 13, 14] ∧
    ([.loading, .bypass, .observe, .protect] : List Mode).map Mode.code = [0, 1, 2, 3] ∧
    ([.normal, .diverting, .diverted, .stopping, .shut] : List LineState).map LineState.code = [0, 1, 2, 3, 4] ∧
    ([.unknown, .opened, .clearing, .releasing, .closed, .jammed, .restoring] : List DoorState).map DoorState.code =
      [0, 1, 2, 3, 4, 5, 6]) ∧
  (∀ s : State, (syncPins s).pinsFollow ∧ syncPins s = { s with outputs := (syncPins s).outputs })

/-- R77, R78: in Observe and Protect every zone's fault count is brought to the sum of its three contributions, in ascending
order of zone, with one ZoneFault notice for each zone whose count changes; nothing is sent where no count changes. In the other
modes it stands (model's choice, log 22). -/
def Obligations.FaultsCounted : Prop :=
  ∀ s : State,
    let flagged := fun (z : ZoneIx) (i : PointIx) =>
      (s.point i).cfg.used &&
        ((s.point i).drive.unsupervised || (s.point i).drive.disagree || (s.point i).drive.obscured) &&
        (match (s.point i).cfg.kind with
          | .gate | .fan | .conveyor =>
            match (s.point i).cfg.line with
            | some l => (s.membersOf l).serves.contains z
            | none => false
          | .unused | .input | .output => false
          | _ => (s.point i).cfg.zone == some z)
    let jammed := fun (z : ZoneIx) (d : DoorIx) =>
      (s.door d).state == .jammed && ((s.door d).cfg.sideA == z || (s.door d).cfg.sideB == some z)
    let count := fun z =>
      ((List.finRange 256).filter (flagged z)).length + ((List.finRange 24).filter (jammed z)).length
        + (if s.port.upstreamLost then 1 else 0)
    (s.active = true →
      recountFaults s =
          (List.finRange 32).foldl
            (fun t z =>
              if (t.zone z).faults = count z then t
              else notify .zoneFault z.val (count z) (t.modZone z fun r => { r with faults := count z })) s ∧
        (∀ z, ((recountFaults s).zone z).faults = count z) ∧
        ((∀ z, (s.zone z).faults = count z) → recountFaults s = s)) ∧
    (s.active = false → recountFaults s = s) ∧
    (∀ z, (recountFaults s).points = s.points ∧ (recountFaults s).lines = s.lines ∧
      (recountFaults s).doors = s.doors ∧ (recountFaults s).groups = s.groups ∧
      ((recountFaults s).zone z).level = (s.zone z).level)
end

