-- ==== Sys2Proof/Laws/State.lean ====
section
/-! SUPPORT. What each table update leaves alone and what it changes: one lemma per field per update, so that no proof unfolds a
record update. -/

namespace Sys2Proof.Machine

/-! ## modPoint -/

@[simp] theorem State.modPoint_pending (s : State) (i : PointIx) (f : Point → Point) : (s.modPoint i f).pending = s.pending := rfl
@[simp] theorem State.modPoint_clock (s : State) (i : PointIx) (f : Point → Point) : (s.modPoint i f).clock = s.clock := rfl
@[simp] theorem State.modPoint_mode (s : State) (i : PointIx) (f : Point → Point) : (s.modPoint i f).mode = s.mode := rfl
@[simp] theorem State.modPoint_device (s : State) (i : PointIx) (f : Point → Point) : (s.modPoint i f).device = s.device := rfl
@[simp] theorem State.modPoint_members (s : State) (i : PointIx) (f : Point → Point) : (s.modPoint i f).members = s.members := rfl
@[simp] theorem State.modPoint_lines (s : State) (i : PointIx) (f : Point → Point) : (s.modPoint i f).lines = s.lines := rfl
@[simp] theorem State.modPoint_strikes (s : State) (i : PointIx) (f : Point → Point) : (s.modPoint i f).strikes = s.strikes := rfl
@[simp] theorem State.modPoint_zones (s : State) (i : PointIx) (f : Point → Point) : (s.modPoint i f).zones = s.zones := rfl
@[simp] theorem State.modPoint_trips (s : State) (i : PointIx) (f : Point → Point) : (s.modPoint i f).trips = s.trips := rfl
@[simp] theorem State.modPoint_doors (s : State) (i : PointIx) (f : Point → Point) : (s.modPoint i f).doors = s.doors := rfl
@[simp] theorem State.modPoint_groups (s : State) (i : PointIx) (f : Point → Point) : (s.modPoint i f).groups = s.groups := rfl
@[simp] theorem State.modPoint_cadences (s : State) (i : PointIx) (f : Point → Point) : (s.modPoint i f).cadences = s.cadences := rfl
@[simp] theorem State.modPoint_inputs (s : State) (i : PointIx) (f : Point → Point) : (s.modPoint i f).inputs = s.inputs := rfl
@[simp] theorem State.modPoint_outputs (s : State) (i : PointIx) (f : Point → Point) : (s.modPoint i f).outputs = s.outputs := rfl
@[simp] theorem State.modPoint_port (s : State) (i : PointIx) (f : Point → Point) : (s.modPoint i f).port = s.port := rfl
@[simp] theorem State.modPoint_classifier (s : State) (i : PointIx) (f : Point → Point) : (s.modPoint i f).classifier = s.classifier := rfl
@[simp] theorem State.modPoint_mgmt (s : State) (i : PointIx) (f : Point → Point) : (s.modPoint i f).mgmt = s.mgmt := rfl
@[simp] theorem State.modPoint_memory (s : State) (i : PointIx) (f : Point → Point) : (s.modPoint i f).memory = s.memory := rfl
@[simp] theorem State.modPoint_triggers (s : State) (i : PointIx) (f : Point → Point) : (s.modPoint i f).triggers = s.triggers := rfl
@[simp] theorem State.modPoint_draws (s : State) (i : PointIx) (f : Point → Point) : (s.modPoint i f).draws = s.draws := rfl
@[simp] theorem State.line_modPoint (s : State) (i : PointIx) (f : Point → Point) (k : LineIx) : (s.modPoint i f).line k = s.line k := rfl
@[simp] theorem State.membersOf_modPoint (s : State) (i : PointIx) (f : Point → Point) (k : LineIx) : (s.modPoint i f).membersOf k = s.membersOf k := rfl
@[simp] theorem State.zone_modPoint (s : State) (i : PointIx) (f : Point → Point) (k : ZoneIx) : (s.modPoint i f).zone k = s.zone k := rfl
@[simp] theorem State.trip_modPoint (s : State) (i : PointIx) (f : Point → Point) (k : TripIx) : (s.modPoint i f).trip k = s.trip k := rfl
@[simp] theorem State.door_modPoint (s : State) (i : PointIx) (f : Point → Point) (k : DoorIx) : (s.modPoint i f).door k = s.door k := rfl
@[simp] theorem State.group_modPoint (s : State) (i : PointIx) (f : Point → Point) (k : GroupIx) : (s.modPoint i f).group k = s.group k := rfl
@[simp] theorem State.cadence_modPoint (s : State) (i : PointIx) (f : Point → Point) (k : CadenceIx) : (s.modPoint i f).cadence k = s.cadence k := rfl
@[simp] theorem State.input_modPoint (s : State) (i : PointIx) (f : Point → Point) (k : InputIx) : (s.modPoint i f).input k = s.input k := rfl
@[simp] theorem State.output_modPoint (s : State) (i : PointIx) (f : Point → Point) (k : OutputIx) : (s.modPoint i f).output k = s.output k := rfl
@[simp] theorem State.point_modPoint (s : State) (i : PointIx) (f : Point → Point) : (s.modPoint i f).point i = f (s.point i) := by
  simp [State.modPoint, State.point]
theorem State.point_modPoint_ne (s : State) (i : PointIx) (f : Point → Point) (k : PointIx) (h : k ≠ i) : (s.modPoint i f).point k = s.point k := by
  have h' : i.val ≠ k.val := fun e => h (Fin.ext e.symm)
  simp [State.modPoint, State.point, Vector.getElem_set_ne, h']
theorem State.point_modPoint_if (s : State) (i : PointIx) (f : Point → Point) (k : PointIx) :
    (s.modPoint i f).point k = if k = i then f (s.point i) else s.point k := by
  by_cases h : k = i
  · subst h; simp
  · simp [h, State.point_modPoint_ne]
theorem State.modPoint_modPoint (s : State) (i : PointIx) (f : Point → Point) (g : Point → Point) : (s.modPoint i f).modPoint i g = s.modPoint i fun r => g (f r) := by
  simp [State.modPoint, State.point]

/-! ## modLine -/

@[simp] theorem State.modLine_pending (s : State) (i : LineIx) (f : Line → Line) : (s.modLine i f).pending = s.pending := rfl
@[simp] theorem State.modLine_clock (s : State) (i : LineIx) (f : Line → Line) : (s.modLine i f).clock = s.clock := rfl
@[simp] theorem State.modLine_mode (s : State) (i : LineIx) (f : Line → Line) : (s.modLine i f).mode = s.mode := rfl
@[simp] theorem State.modLine_device (s : State) (i : LineIx) (f : Line → Line) : (s.modLine i f).device = s.device := rfl
@[simp] theorem State.modLine_points (s : State) (i : LineIx) (f : Line → Line) : (s.modLine i f).points = s.points := rfl
@[simp] theorem State.modLine_members (s : State) (i : LineIx) (f : Line → Line) : (s.modLine i f).members = s.members := rfl
@[simp] theorem State.modLine_strikes (s : State) (i : LineIx) (f : Line → Line) : (s.modLine i f).strikes = s.strikes := rfl
@[simp] theorem State.modLine_zones (s : State) (i : LineIx) (f : Line → Line) : (s.modLine i f).zones = s.zones := rfl
@[simp] theorem State.modLine_trips (s : State) (i : LineIx) (f : Line → Line) : (s.modLine i f).trips = s.trips := rfl
@[simp] theorem State.modLine_doors (s : State) (i : LineIx) (f : Line → Line) : (s.modLine i f).doors = s.doors := rfl
@[simp] theorem State.modLine_groups (s : State) (i : LineIx) (f : Line → Line) : (s.modLine i f).groups = s.groups := rfl
@[simp] theorem State.modLine_cadences (s : State) (i : LineIx) (f : Line → Line) : (s.modLine i f).cadences = s.cadences := rfl
@[simp] theorem State.modLine_inputs (s : State) (i : LineIx) (f : Line → Line) : (s.modLine i f).inputs = s.inputs := rfl
@[simp] theorem State.modLine_outputs (s : State) (i : LineIx) (f : Line → Line) : (s.modLine i f).outputs = s.outputs := rfl
@[simp] theorem State.modLine_port (s : State) (i : LineIx) (f : Line → Line) : (s.modLine i f).port = s.port := rfl
@[simp] theorem State.modLine_classifier (s : State) (i : LineIx) (f : Line → Line) : (s.modLine i f).classifier = s.classifier := rfl
@[simp] theorem State.modLine_mgmt (s : State) (i : LineIx) (f : Line → Line) : (s.modLine i f).mgmt = s.mgmt := rfl
@[simp] theorem State.modLine_memory (s : State) (i : LineIx) (f : Line → Line) : (s.modLine i f).memory = s.memory := rfl
@[simp] theorem State.modLine_triggers (s : State) (i : LineIx) (f : Line → Line) : (s.modLine i f).triggers = s.triggers := rfl
@[simp] theorem State.modLine_draws (s : State) (i : LineIx) (f : Line → Line) : (s.modLine i f).draws = s.draws := rfl
@[simp] theorem State.point_modLine (s : State) (i : LineIx) (f : Line → Line) (k : PointIx) : (s.modLine i f).point k = s.point k := rfl
@[simp] theorem State.membersOf_modLine (s : State) (i : LineIx) (f : Line → Line) (k : LineIx) : (s.modLine i f).membersOf k = s.membersOf k := rfl
@[simp] theorem State.zone_modLine (s : State) (i : LineIx) (f : Line → Line) (k : ZoneIx) : (s.modLine i f).zone k = s.zone k := rfl
@[simp] theorem State.trip_modLine (s : State) (i : LineIx) (f : Line → Line) (k : TripIx) : (s.modLine i f).trip k = s.trip k := rfl
@[simp] theorem State.door_modLine (s : State) (i : LineIx) (f : Line → Line) (k : DoorIx) : (s.modLine i f).door k = s.door k := rfl
@[simp] theorem State.group_modLine (s : State) (i : LineIx) (f : Line → Line) (k : GroupIx) : (s.modLine i f).group k = s.group k := rfl
@[simp] theorem State.cadence_modLine (s : State) (i : LineIx) (f : Line → Line) (k : CadenceIx) : (s.modLine i f).cadence k = s.cadence k := rfl
@[simp] theorem State.input_modLine (s : State) (i : LineIx) (f : Line → Line) (k : InputIx) : (s.modLine i f).input k = s.input k := rfl
@[simp] theorem State.output_modLine (s : State) (i : LineIx) (f : Line → Line) (k : OutputIx) : (s.modLine i f).output k = s.output k := rfl
@[simp] theorem State.line_modLine (s : State) (i : LineIx) (f : Line → Line) : (s.modLine i f).line i = f (s.line i) := by
  simp [State.modLine, State.line]
theorem State.line_modLine_ne (s : State) (i : LineIx) (f : Line → Line) (k : LineIx) (h : k ≠ i) : (s.modLine i f).line k = s.line k := by
  have h' : i.val ≠ k.val := fun e => h (Fin.ext e.symm)
  simp [State.modLine, State.line, Vector.getElem_set_ne, h']
theorem State.line_modLine_if (s : State) (i : LineIx) (f : Line → Line) (k : LineIx) :
    (s.modLine i f).line k = if k = i then f (s.line i) else s.line k := by
  by_cases h : k = i
  · subst h; simp
  · simp [h, State.line_modLine_ne]
theorem State.modLine_modLine (s : State) (i : LineIx) (f : Line → Line) (g : Line → Line) : (s.modLine i f).modLine i g = s.modLine i fun r => g (f r) := by
  simp [State.modLine, State.line]

/-! ## modZone -/

@[simp] theorem State.modZone_pending (s : State) (i : ZoneIx) (f : Zone → Zone) : (s.modZone i f).pending = s.pending := rfl
@[simp] theorem State.modZone_clock (s : State) (i : ZoneIx) (f : Zone → Zone) : (s.modZone i f).clock = s.clock := rfl
@[simp] theorem State.modZone_mode (s : State) (i : ZoneIx) (f : Zone → Zone) : (s.modZone i f).mode = s.mode := rfl
@[simp] theorem State.modZone_device (s : State) (i : ZoneIx) (f : Zone → Zone) : (s.modZone i f).device = s.device := rfl
@[simp] theorem State.modZone_points (s : State) (i : ZoneIx) (f : Zone → Zone) : (s.modZone i f).points = s.points := rfl
@[simp] theorem State.modZone_members (s : State) (i : ZoneIx) (f : Zone → Zone) : (s.modZone i f).members = s.members := rfl
@[simp] theorem State.modZone_lines (s : State) (i : ZoneIx) (f : Zone → Zone) : (s.modZone i f).lines = s.lines := rfl
@[simp] theorem State.modZone_strikes (s : State) (i : ZoneIx) (f : Zone → Zone) : (s.modZone i f).strikes = s.strikes := rfl
@[simp] theorem State.modZone_trips (s : State) (i : ZoneIx) (f : Zone → Zone) : (s.modZone i f).trips = s.trips := rfl
@[simp] theorem State.modZone_doors (s : State) (i : ZoneIx) (f : Zone → Zone) : (s.modZone i f).doors = s.doors := rfl
@[simp] theorem State.modZone_groups (s : State) (i : ZoneIx) (f : Zone → Zone) : (s.modZone i f).groups = s.groups := rfl
@[simp] theorem State.modZone_cadences (s : State) (i : ZoneIx) (f : Zone → Zone) : (s.modZone i f).cadences = s.cadences := rfl
@[simp] theorem State.modZone_inputs (s : State) (i : ZoneIx) (f : Zone → Zone) : (s.modZone i f).inputs = s.inputs := rfl
@[simp] theorem State.modZone_outputs (s : State) (i : ZoneIx) (f : Zone → Zone) : (s.modZone i f).outputs = s.outputs := rfl
@[simp] theorem State.modZone_port (s : State) (i : ZoneIx) (f : Zone → Zone) : (s.modZone i f).port = s.port := rfl
@[simp] theorem State.modZone_classifier (s : State) (i : ZoneIx) (f : Zone → Zone) : (s.modZone i f).classifier = s.classifier := rfl
@[simp] theorem State.modZone_mgmt (s : State) (i : ZoneIx) (f : Zone → Zone) : (s.modZone i f).mgmt = s.mgmt := rfl
@[simp] theorem State.modZone_memory (s : State) (i : ZoneIx) (f : Zone → Zone) : (s.modZone i f).memory = s.memory := rfl
@[simp] theorem State.modZone_triggers (s : State) (i : ZoneIx) (f : Zone → Zone) : (s.modZone i f).triggers = s.triggers := rfl
@[simp] theorem State.modZone_draws (s : State) (i : ZoneIx) (f : Zone → Zone) : (s.modZone i f).draws = s.draws := rfl
@[simp] theorem State.point_modZone (s : State) (i : ZoneIx) (f : Zone → Zone) (k : PointIx) : (s.modZone i f).point k = s.point k := rfl
@[simp] theorem State.line_modZone (s : State) (i : ZoneIx) (f : Zone → Zone) (k : LineIx) : (s.modZone i f).line k = s.line k := rfl
@[simp] theorem State.membersOf_modZone (s : State) (i : ZoneIx) (f : Zone → Zone) (k : LineIx) : (s.modZone i f).membersOf k = s.membersOf k := rfl
@[simp] theorem State.trip_modZone (s : State) (i : ZoneIx) (f : Zone → Zone) (k : TripIx) : (s.modZone i f).trip k = s.trip k := rfl
@[simp] theorem State.door_modZone (s : State) (i : ZoneIx) (f : Zone → Zone) (k : DoorIx) : (s.modZone i f).door k = s.door k := rfl
@[simp] theorem State.group_modZone (s : State) (i : ZoneIx) (f : Zone → Zone) (k : GroupIx) : (s.modZone i f).group k = s.group k := rfl
@[simp] theorem State.cadence_modZone (s : State) (i : ZoneIx) (f : Zone → Zone) (k : CadenceIx) : (s.modZone i f).cadence k = s.cadence k := rfl
@[simp] theorem State.input_modZone (s : State) (i : ZoneIx) (f : Zone → Zone) (k : InputIx) : (s.modZone i f).input k = s.input k := rfl
@[simp] theorem State.output_modZone (s : State) (i : ZoneIx) (f : Zone → Zone) (k : OutputIx) : (s.modZone i f).output k = s.output k := rfl
@[simp] theorem State.zone_modZone (s : State) (i : ZoneIx) (f : Zone → Zone) : (s.modZone i f).zone i = f (s.zone i) := by
  simp [State.modZone, State.zone]
theorem State.zone_modZone_ne (s : State) (i : ZoneIx) (f : Zone → Zone) (k : ZoneIx) (h : k ≠ i) : (s.modZone i f).zone k = s.zone k := by
  have h' : i.val ≠ k.val := fun e => h (Fin.ext e.symm)
  simp [State.modZone, State.zone, Vector.getElem_set_ne, h']
theorem State.zone_modZone_if (s : State) (i : ZoneIx) (f : Zone → Zone) (k : ZoneIx) :
    (s.modZone i f).zone k = if k = i then f (s.zone i) else s.zone k := by
  by_cases h : k = i
  · subst h; simp
  · simp [h, State.zone_modZone_ne]
theorem State.modZone_modZone (s : State) (i : ZoneIx) (f : Zone → Zone) (g : Zone → Zone) : (s.modZone i f).modZone i g = s.modZone i fun r => g (f r) := by
  simp [State.modZone, State.zone]

/-! ## modTrip -/

@[simp] theorem State.modTrip_pending (s : State) (i : TripIx) (f : Trip → Trip) : (s.modTrip i f).pending = s.pending := rfl
@[simp] theorem State.modTrip_clock (s : State) (i : TripIx) (f : Trip → Trip) : (s.modTrip i f).clock = s.clock := rfl
@[simp] theorem State.modTrip_mode (s : State) (i : TripIx) (f : Trip → Trip) : (s.modTrip i f).mode = s.mode := rfl
@[simp] theorem State.modTrip_device (s : State) (i : TripIx) (f : Trip → Trip) : (s.modTrip i f).device = s.device := rfl
@[simp] theorem State.modTrip_points (s : State) (i : TripIx) (f : Trip → Trip) : (s.modTrip i f).points = s.points := rfl
@[simp] theorem State.modTrip_members (s : State) (i : TripIx) (f : Trip → Trip) : (s.modTrip i f).members = s.members := rfl
@[simp] theorem State.modTrip_lines (s : State) (i : TripIx) (f : Trip → Trip) : (s.modTrip i f).lines = s.lines := rfl
@[simp] theorem State.modTrip_strikes (s : State) (i : TripIx) (f : Trip → Trip) : (s.modTrip i f).strikes = s.strikes := rfl
@[simp] theorem State.modTrip_zones (s : State) (i : TripIx) (f : Trip → Trip) : (s.modTrip i f).zones = s.zones := rfl
@[simp] theorem State.modTrip_doors (s : State) (i : TripIx) (f : Trip → Trip) : (s.modTrip i f).doors = s.doors := rfl
@[simp] theorem State.modTrip_groups (s : State) (i : TripIx) (f : Trip → Trip) : (s.modTrip i f).groups = s.groups := rfl
@[simp] theorem State.modTrip_cadences (s : State) (i : TripIx) (f : Trip → Trip) : (s.modTrip i f).cadences = s.cadences := rfl
@[simp] theorem State.modTrip_inputs (s : State) (i : TripIx) (f : Trip → Trip) : (s.modTrip i f).inputs = s.inputs := rfl
@[simp] theorem State.modTrip_outputs (s : State) (i : TripIx) (f : Trip → Trip) : (s.modTrip i f).outputs = s.outputs := rfl
@[simp] theorem State.modTrip_port (s : State) (i : TripIx) (f : Trip → Trip) : (s.modTrip i f).port = s.port := rfl
@[simp] theorem State.modTrip_classifier (s : State) (i : TripIx) (f : Trip → Trip) : (s.modTrip i f).classifier = s.classifier := rfl
@[simp] theorem State.modTrip_mgmt (s : State) (i : TripIx) (f : Trip → Trip) : (s.modTrip i f).mgmt = s.mgmt := rfl
@[simp] theorem State.modTrip_memory (s : State) (i : TripIx) (f : Trip → Trip) : (s.modTrip i f).memory = s.memory := rfl
@[simp] theorem State.modTrip_triggers (s : State) (i : TripIx) (f : Trip → Trip) : (s.modTrip i f).triggers = s.triggers := rfl
@[simp] theorem State.modTrip_draws (s : State) (i : TripIx) (f : Trip → Trip) : (s.modTrip i f).draws = s.draws := rfl
@[simp] theorem State.point_modTrip (s : State) (i : TripIx) (f : Trip → Trip) (k : PointIx) : (s.modTrip i f).point k = s.point k := rfl
@[simp] theorem State.line_modTrip (s : State) (i : TripIx) (f : Trip → Trip) (k : LineIx) : (s.modTrip i f).line k = s.line k := rfl
@[simp] theorem State.membersOf_modTrip (s : State) (i : TripIx) (f : Trip → Trip) (k : LineIx) : (s.modTrip i f).membersOf k = s.membersOf k := rfl
@[simp] theorem State.zone_modTrip (s : State) (i : TripIx) (f : Trip → Trip) (k : ZoneIx) : (s.modTrip i f).zone k = s.zone k := rfl
@[simp] theorem State.door_modTrip (s : State) (i : TripIx) (f : Trip → Trip) (k : DoorIx) : (s.modTrip i f).door k = s.door k := rfl
@[simp] theorem State.group_modTrip (s : State) (i : TripIx) (f : Trip → Trip) (k : GroupIx) : (s.modTrip i f).group k = s.group k := rfl
@[simp] theorem State.cadence_modTrip (s : State) (i : TripIx) (f : Trip → Trip) (k : CadenceIx) : (s.modTrip i f).cadence k = s.cadence k := rfl
@[simp] theorem State.input_modTrip (s : State) (i : TripIx) (f : Trip → Trip) (k : InputIx) : (s.modTrip i f).input k = s.input k := rfl
@[simp] theorem State.output_modTrip (s : State) (i : TripIx) (f : Trip → Trip) (k : OutputIx) : (s.modTrip i f).output k = s.output k := rfl
@[simp] theorem State.trip_modTrip (s : State) (i : TripIx) (f : Trip → Trip) : (s.modTrip i f).trip i = f (s.trip i) := by
  simp [State.modTrip, State.trip]
theorem State.trip_modTrip_ne (s : State) (i : TripIx) (f : Trip → Trip) (k : TripIx) (h : k ≠ i) : (s.modTrip i f).trip k = s.trip k := by
  have h' : i.val ≠ k.val := fun e => h (Fin.ext e.symm)
  simp [State.modTrip, State.trip, Vector.getElem_set_ne, h']
theorem State.trip_modTrip_if (s : State) (i : TripIx) (f : Trip → Trip) (k : TripIx) :
    (s.modTrip i f).trip k = if k = i then f (s.trip i) else s.trip k := by
  by_cases h : k = i
  · subst h; simp
  · simp [h, State.trip_modTrip_ne]
theorem State.modTrip_modTrip (s : State) (i : TripIx) (f : Trip → Trip) (g : Trip → Trip) : (s.modTrip i f).modTrip i g = s.modTrip i fun r => g (f r) := by
  simp [State.modTrip, State.trip]

/-! ## modDoor -/

@[simp] theorem State.modDoor_pending (s : State) (i : DoorIx) (f : Door → Door) : (s.modDoor i f).pending = s.pending := rfl
@[simp] theorem State.modDoor_clock (s : State) (i : DoorIx) (f : Door → Door) : (s.modDoor i f).clock = s.clock := rfl
@[simp] theorem State.modDoor_mode (s : State) (i : DoorIx) (f : Door → Door) : (s.modDoor i f).mode = s.mode := rfl
@[simp] theorem State.modDoor_device (s : State) (i : DoorIx) (f : Door → Door) : (s.modDoor i f).device = s.device := rfl
@[simp] theorem State.modDoor_points (s : State) (i : DoorIx) (f : Door → Door) : (s.modDoor i f).points = s.points := rfl
@[simp] theorem State.modDoor_members (s : State) (i : DoorIx) (f : Door → Door) : (s.modDoor i f).members = s.members := rfl
@[simp] theorem State.modDoor_lines (s : State) (i : DoorIx) (f : Door → Door) : (s.modDoor i f).lines = s.lines := rfl
@[simp] theorem State.modDoor_strikes (s : State) (i : DoorIx) (f : Door → Door) : (s.modDoor i f).strikes = s.strikes := rfl
@[simp] theorem State.modDoor_zones (s : State) (i : DoorIx) (f : Door → Door) : (s.modDoor i f).zones = s.zones := rfl
@[simp] theorem State.modDoor_trips (s : State) (i : DoorIx) (f : Door → Door) : (s.modDoor i f).trips = s.trips := rfl
@[simp] theorem State.modDoor_groups (s : State) (i : DoorIx) (f : Door → Door) : (s.modDoor i f).groups = s.groups := rfl
@[simp] theorem State.modDoor_cadences (s : State) (i : DoorIx) (f : Door → Door) : (s.modDoor i f).cadences = s.cadences := rfl
@[simp] theorem State.modDoor_inputs (s : State) (i : DoorIx) (f : Door → Door) : (s.modDoor i f).inputs = s.inputs := rfl
@[simp] theorem State.modDoor_outputs (s : State) (i : DoorIx) (f : Door → Door) : (s.modDoor i f).outputs = s.outputs := rfl
@[simp] theorem State.modDoor_port (s : State) (i : DoorIx) (f : Door → Door) : (s.modDoor i f).port = s.port := rfl
@[simp] theorem State.modDoor_classifier (s : State) (i : DoorIx) (f : Door → Door) : (s.modDoor i f).classifier = s.classifier := rfl
@[simp] theorem State.modDoor_mgmt (s : State) (i : DoorIx) (f : Door → Door) : (s.modDoor i f).mgmt = s.mgmt := rfl
@[simp] theorem State.modDoor_memory (s : State) (i : DoorIx) (f : Door → Door) : (s.modDoor i f).memory = s.memory := rfl
@[simp] theorem State.modDoor_triggers (s : State) (i : DoorIx) (f : Door → Door) : (s.modDoor i f).triggers = s.triggers := rfl
@[simp] theorem State.modDoor_draws (s : State) (i : DoorIx) (f : Door → Door) : (s.modDoor i f).draws = s.draws := rfl
@[simp] theorem State.point_modDoor (s : State) (i : DoorIx) (f : Door → Door) (k : PointIx) : (s.modDoor i f).point k = s.point k := rfl
@[simp] theorem State.line_modDoor (s : State) (i : DoorIx) (f : Door → Door) (k : LineIx) : (s.modDoor i f).line k = s.line k := rfl
@[simp] theorem State.membersOf_modDoor (s : State) (i : DoorIx) (f : Door → Door) (k : LineIx) : (s.modDoor i f).membersOf k = s.membersOf k := rfl
@[simp] theorem State.zone_modDoor (s : State) (i : DoorIx) (f : Door → Door) (k : ZoneIx) : (s.modDoor i f).zone k = s.zone k := rfl
@[simp] theorem State.trip_modDoor (s : State) (i : DoorIx) (f : Door → Door) (k : TripIx) : (s.modDoor i f).trip k = s.trip k := rfl
@[simp] theorem State.group_modDoor (s : State) (i : DoorIx) (f : Door → Door) (k : GroupIx) : (s.modDoor i f).group k = s.group k := rfl
@[simp] theorem State.cadence_modDoor (s : State) (i : DoorIx) (f : Door → Door) (k : CadenceIx) : (s.modDoor i f).cadence k = s.cadence k := rfl
@[simp] theorem State.input_modDoor (s : State) (i : DoorIx) (f : Door → Door) (k : InputIx) : (s.modDoor i f).input k = s.input k := rfl
@[simp] theorem State.output_modDoor (s : State) (i : DoorIx) (f : Door → Door) (k : OutputIx) : (s.modDoor i f).output k = s.output k := rfl
@[simp] theorem State.door_modDoor (s : State) (i : DoorIx) (f : Door → Door) : (s.modDoor i f).door i = f (s.door i) := by
  simp [State.modDoor, State.door]
theorem State.door_modDoor_ne (s : State) (i : DoorIx) (f : Door → Door) (k : DoorIx) (h : k ≠ i) : (s.modDoor i f).door k = s.door k := by
  have h' : i.val ≠ k.val := fun e => h (Fin.ext e.symm)
  simp [State.modDoor, State.door, Vector.getElem_set_ne, h']
theorem State.door_modDoor_if (s : State) (i : DoorIx) (f : Door → Door) (k : DoorIx) :
    (s.modDoor i f).door k = if k = i then f (s.door i) else s.door k := by
  by_cases h : k = i
  · subst h; simp
  · simp [h, State.door_modDoor_ne]
theorem State.modDoor_modDoor (s : State) (i : DoorIx) (f : Door → Door) (g : Door → Door) : (s.modDoor i f).modDoor i g = s.modDoor i fun r => g (f r) := by
  simp [State.modDoor, State.door]

/-! ## modGroup -/

@[simp] theorem State.modGroup_pending (s : State) (i : GroupIx) (f : Group → Group) : (s.modGroup i f).pending = s.pending := rfl
@[simp] theorem State.modGroup_clock (s : State) (i : GroupIx) (f : Group → Group) : (s.modGroup i f).clock = s.clock := rfl
@[simp] theorem State.modGroup_mode (s : State) (i : GroupIx) (f : Group → Group) : (s.modGroup i f).mode = s.mode := rfl
@[simp] theorem State.modGroup_device (s : State) (i : GroupIx) (f : Group → Group) : (s.modGroup i f).device = s.device := rfl
@[simp] theorem State.modGroup_points (s : State) (i : GroupIx) (f : Group → Group) : (s.modGroup i f).points = s.points := rfl
@[simp] theorem State.modGroup_members (s : State) (i : GroupIx) (f : Group → Group) : (s.modGroup i f).members = s.members := rfl
@[simp] theorem State.modGroup_lines (s : State) (i : GroupIx) (f : Group → Group) : (s.modGroup i f).lines = s.lines := rfl
@[simp] theorem State.modGroup_strikes (s : State) (i : GroupIx) (f : Group → Group) : (s.modGroup i f).strikes = s.strikes := rfl
@[simp] theorem State.modGroup_zones (s : State) (i : GroupIx) (f : Group → Group) : (s.modGroup i f).zones = s.zones := rfl
@[simp] theorem State.modGroup_trips (s : State) (i : GroupIx) (f : Group → Group) : (s.modGroup i f).trips = s.trips := rfl
@[simp] theorem State.modGroup_doors (s : State) (i : GroupIx) (f : Group → Group) : (s.modGroup i f).doors = s.doors := rfl
@[simp] theorem State.modGroup_cadences (s : State) (i : GroupIx) (f : Group → Group) : (s.modGroup i f).cadences = s.cadences := rfl
@[simp] theorem State.modGroup_inputs (s : State) (i : GroupIx) (f : Group → Group) : (s.modGroup i f).inputs = s.inputs := rfl
@[simp] theorem State.modGroup_outputs (s : State) (i : GroupIx) (f : Group → Group) : (s.modGroup i f).outputs = s.outputs := rfl
@[simp] theorem State.modGroup_port (s : State) (i : GroupIx) (f : Group → Group) : (s.modGroup i f).port = s.port := rfl
@[simp] theorem State.modGroup_classifier (s : State) (i : GroupIx) (f : Group → Group) : (s.modGroup i f).classifier = s.classifier := rfl
@[simp] theorem State.modGroup_mgmt (s : State) (i : GroupIx) (f : Group → Group) : (s.modGroup i f).mgmt = s.mgmt := rfl
@[simp] theorem State.modGroup_memory (s : State) (i : GroupIx) (f : Group → Group) : (s.modGroup i f).memory = s.memory := rfl
@[simp] theorem State.modGroup_triggers (s : State) (i : GroupIx) (f : Group → Group) : (s.modGroup i f).triggers = s.triggers := rfl
@[simp] theorem State.modGroup_draws (s : State) (i : GroupIx) (f : Group → Group) : (s.modGroup i f).draws = s.draws := rfl
@[simp] theorem State.point_modGroup (s : State) (i : GroupIx) (f : Group → Group) (k : PointIx) : (s.modGroup i f).point k = s.point k := rfl
@[simp] theorem State.line_modGroup (s : State) (i : GroupIx) (f : Group → Group) (k : LineIx) : (s.modGroup i f).line k = s.line k := rfl
@[simp] theorem State.membersOf_modGroup (s : State) (i : GroupIx) (f : Group → Group) (k : LineIx) : (s.modGroup i f).membersOf k = s.membersOf k := rfl
@[simp] theorem State.zone_modGroup (s : State) (i : GroupIx) (f : Group → Group) (k : ZoneIx) : (s.modGroup i f).zone k = s.zone k := rfl
@[simp] theorem State.trip_modGroup (s : State) (i : GroupIx) (f : Group → Group) (k : TripIx) : (s.modGroup i f).trip k = s.trip k := rfl
@[simp] theorem State.door_modGroup (s : State) (i : GroupIx) (f : Group → Group) (k : DoorIx) : (s.modGroup i f).door k = s.door k := rfl
@[simp] theorem State.cadence_modGroup (s : State) (i : GroupIx) (f : Group → Group) (k : CadenceIx) : (s.modGroup i f).cadence k = s.cadence k := rfl
@[simp] theorem State.input_modGroup (s : State) (i : GroupIx) (f : Group → Group) (k : InputIx) : (s.modGroup i f).input k = s.input k := rfl
@[simp] theorem State.output_modGroup (s : State) (i : GroupIx) (f : Group → Group) (k : OutputIx) : (s.modGroup i f).output k = s.output k := rfl
@[simp] theorem State.group_modGroup (s : State) (i : GroupIx) (f : Group → Group) : (s.modGroup i f).group i = f (s.group i) := by
  simp [State.modGroup, State.group]
theorem State.group_modGroup_ne (s : State) (i : GroupIx) (f : Group → Group) (k : GroupIx) (h : k ≠ i) : (s.modGroup i f).group k = s.group k := by
  have h' : i.val ≠ k.val := fun e => h (Fin.ext e.symm)
  simp [State.modGroup, State.group, Vector.getElem_set_ne, h']
theorem State.group_modGroup_if (s : State) (i : GroupIx) (f : Group → Group) (k : GroupIx) :
    (s.modGroup i f).group k = if k = i then f (s.group i) else s.group k := by
  by_cases h : k = i
  · subst h; simp
  · simp [h, State.group_modGroup_ne]
theorem State.modGroup_modGroup (s : State) (i : GroupIx) (f : Group → Group) (g : Group → Group) : (s.modGroup i f).modGroup i g = s.modGroup i fun r => g (f r) := by
  simp [State.modGroup, State.group]

/-! ## modInput -/

@[simp] theorem State.modInput_pending (s : State) (i : InputIx) (f : Input → Input) : (s.modInput i f).pending = s.pending := rfl
@[simp] theorem State.modInput_clock (s : State) (i : InputIx) (f : Input → Input) : (s.modInput i f).clock = s.clock := rfl
@[simp] theorem State.modInput_mode (s : State) (i : InputIx) (f : Input → Input) : (s.modInput i f).mode = s.mode := rfl
@[simp] theorem State.modInput_device (s : State) (i : InputIx) (f : Input → Input) : (s.modInput i f).device = s.device := rfl
@[simp] theorem State.modInput_points (s : State) (i : InputIx) (f : Input → Input) : (s.modInput i f).points = s.points := rfl
@[simp] theorem State.modInput_members (s : State) (i : InputIx) (f : Input → Input) : (s.modInput i f).members = s.members := rfl
@[simp] theorem State.modInput_lines (s : State) (i : InputIx) (f : Input → Input) : (s.modInput i f).lines = s.lines := rfl
@[simp] theorem State.modInput_strikes (s : State) (i : InputIx) (f : Input → Input) : (s.modInput i f).strikes = s.strikes := rfl
@[simp] theorem State.modInput_zones (s : State) (i : InputIx) (f : Input → Input) : (s.modInput i f).zones = s.zones := rfl
@[simp] theorem State.modInput_trips (s : State) (i : InputIx) (f : Input → Input) : (s.modInput i f).trips = s.trips := rfl
@[simp] theorem State.modInput_doors (s : State) (i : InputIx) (f : Input → Input) : (s.modInput i f).doors = s.doors := rfl
@[simp] theorem State.modInput_groups (s : State) (i : InputIx) (f : Input → Input) : (s.modInput i f).groups = s.groups := rfl
@[simp] theorem State.modInput_cadences (s : State) (i : InputIx) (f : Input → Input) : (s.modInput i f).cadences = s.cadences := rfl
@[simp] theorem State.modInput_outputs (s : State) (i : InputIx) (f : Input → Input) : (s.modInput i f).outputs = s.outputs := rfl
@[simp] theorem State.modInput_port (s : State) (i : InputIx) (f : Input → Input) : (s.modInput i f).port = s.port := rfl
@[simp] theorem State.modInput_classifier (s : State) (i : InputIx) (f : Input → Input) : (s.modInput i f).classifier = s.classifier := rfl
@[simp] theorem State.modInput_mgmt (s : State) (i : InputIx) (f : Input → Input) : (s.modInput i f).mgmt = s.mgmt := rfl
@[simp] theorem State.modInput_memory (s : State) (i : InputIx) (f : Input → Input) : (s.modInput i f).memory = s.memory := rfl
@[simp] theorem State.modInput_triggers (s : State) (i : InputIx) (f : Input → Input) : (s.modInput i f).triggers = s.triggers := rfl
@[simp] theorem State.modInput_draws (s : State) (i : InputIx) (f : Input → Input) : (s.modInput i f).draws = s.draws := rfl
@[simp] theorem State.point_modInput (s : State) (i : InputIx) (f : Input → Input) (k : PointIx) : (s.modInput i f).point k = s.point k := rfl
@[simp] theorem State.line_modInput (s : State) (i : InputIx) (f : Input → Input) (k : LineIx) : (s.modInput i f).line k = s.line k := rfl
@[simp] theorem State.membersOf_modInput (s : State) (i : InputIx) (f : Input → Input) (k : LineIx) : (s.modInput i f).membersOf k = s.membersOf k := rfl
@[simp] theorem State.zone_modInput (s : State) (i : InputIx) (f : Input → Input) (k : ZoneIx) : (s.modInput i f).zone k = s.zone k := rfl
@[simp] theorem State.trip_modInput (s : State) (i : InputIx) (f : Input → Input) (k : TripIx) : (s.modInput i f).trip k = s.trip k := rfl
@[simp] theorem State.door_modInput (s : State) (i : InputIx) (f : Input → Input) (k : DoorIx) : (s.modInput i f).door k = s.door k := rfl
@[simp] theorem State.group_modInput (s : State) (i : InputIx) (f : Input → Input) (k : GroupIx) : (s.modInput i f).group k = s.group k := rfl
@[simp] theorem State.cadence_modInput (s : State) (i : InputIx) (f : Input → Input) (k : CadenceIx) : (s.modInput i f).cadence k = s.cadence k := rfl
@[simp] theorem State.output_modInput (s : State) (i : InputIx) (f : Input → Input) (k : OutputIx) : (s.modInput i f).output k = s.output k := rfl
@[simp] theorem State.input_modInput (s : State) (i : InputIx) (f : Input → Input) : (s.modInput i f).input i = f (s.input i) := by
  simp [State.modInput, State.input]
theorem State.input_modInput_ne (s : State) (i : InputIx) (f : Input → Input) (k : InputIx) (h : k ≠ i) : (s.modInput i f).input k = s.input k := by
  have h' : i.val ≠ k.val := fun e => h (Fin.ext e.symm)
  simp [State.modInput, State.input, Vector.getElem_set_ne, h']
theorem State.input_modInput_if (s : State) (i : InputIx) (f : Input → Input) (k : InputIx) :
    (s.modInput i f).input k = if k = i then f (s.input i) else s.input k := by
  by_cases h : k = i
  · subst h; simp
  · simp [h, State.input_modInput_ne]
theorem State.modInput_modInput (s : State) (i : InputIx) (f : Input → Input) (g : Input → Input) : (s.modInput i f).modInput i g = s.modInput i fun r => g (f r) := by
  simp [State.modInput, State.input]

/-! ## modPort -/

@[simp] theorem State.modPort_pending (s : State) (f : Port → Port) : (s.modPort f).pending = s.pending := rfl
@[simp] theorem State.modPort_clock (s : State) (f : Port → Port) : (s.modPort f).clock = s.clock := rfl
@[simp] theorem State.modPort_mode (s : State) (f : Port → Port) : (s.modPort f).mode = s.mode := rfl
@[simp] theorem State.modPort_device (s : State) (f : Port → Port) : (s.modPort f).device = s.device := rfl
@[simp] theorem State.modPort_points (s : State) (f : Port → Port) : (s.modPort f).points = s.points := rfl
@[simp] theorem State.modPort_members (s : State) (f : Port → Port) : (s.modPort f).members = s.members := rfl
@[simp] theorem State.modPort_lines (s : State) (f : Port → Port) : (s.modPort f).lines = s.lines := rfl
@[simp] theorem State.modPort_strikes (s : State) (f : Port → Port) : (s.modPort f).strikes = s.strikes := rfl
@[simp] theorem State.modPort_zones (s : State) (f : Port → Port) : (s.modPort f).zones = s.zones := rfl
@[simp] theorem State.modPort_trips (s : State) (f : Port → Port) : (s.modPort f).trips = s.trips := rfl
@[simp] theorem State.modPort_doors (s : State) (f : Port → Port) : (s.modPort f).doors = s.doors := rfl
@[simp] theorem State.modPort_groups (s : State) (f : Port → Port) : (s.modPort f).groups = s.groups := rfl
@[simp] theorem State.modPort_cadences (s : State) (f : Port → Port) : (s.modPort f).cadences = s.cadences := rfl
@[simp] theorem State.modPort_inputs (s : State) (f : Port → Port) : (s.modPort f).inputs = s.inputs := rfl
@[simp] theorem State.modPort_outputs (s : State) (f : Port → Port) : (s.modPort f).outputs = s.outputs := rfl
@[simp] theorem State.modPort_classifier (s : State) (f : Port → Port) : (s.modPort f).classifier = s.classifier := rfl
@[simp] theorem State.modPort_mgmt (s : State) (f : Port → Port) : (s.modPort f).mgmt = s.mgmt := rfl
@[simp] theorem State.modPort_memory (s : State) (f : Port → Port) : (s.modPort f).memory = s.memory := rfl
@[simp] theorem State.modPort_triggers (s : State) (f : Port → Port) : (s.modPort f).triggers = s.triggers := rfl
@[simp] theorem State.modPort_draws (s : State) (f : Port → Port) : (s.modPort f).draws = s.draws := rfl
@[simp] theorem State.point_modPort (s : State) (f : Port → Port) (k : PointIx) : (s.modPort f).point k = s.point k := rfl
@[simp] theorem State.line_modPort (s : State) (f : Port → Port) (k : LineIx) : (s.modPort f).line k = s.line k := rfl
@[simp] theorem State.membersOf_modPort (s : State) (f : Port → Port) (k : LineIx) : (s.modPort f).membersOf k = s.membersOf k := rfl
@[simp] theorem State.zone_modPort (s : State) (f : Port → Port) (k : ZoneIx) : (s.modPort f).zone k = s.zone k := rfl
@[simp] theorem State.trip_modPort (s : State) (f : Port → Port) (k : TripIx) : (s.modPort f).trip k = s.trip k := rfl
@[simp] theorem State.door_modPort (s : State) (f : Port → Port) (k : DoorIx) : (s.modPort f).door k = s.door k := rfl
@[simp] theorem State.group_modPort (s : State) (f : Port → Port) (k : GroupIx) : (s.modPort f).group k = s.group k := rfl
@[simp] theorem State.cadence_modPort (s : State) (f : Port → Port) (k : CadenceIx) : (s.modPort f).cadence k = s.cadence k := rfl
@[simp] theorem State.input_modPort (s : State) (f : Port → Port) (k : InputIx) : (s.modPort f).input k = s.input k := rfl
@[simp] theorem State.output_modPort (s : State) (f : Port → Port) (k : OutputIx) : (s.modPort f).output k = s.output k := rfl
@[simp] theorem State.modPort_port (s : State) (f : Port → Port) : (s.modPort f).port = f s.port := rfl

/-! ## modMgmt -/

@[simp] theorem State.modMgmt_pending (s : State) (f : Management → Management) : (s.modMgmt f).pending = s.pending := rfl
@[simp] theorem State.modMgmt_clock (s : State) (f : Management → Management) : (s.modMgmt f).clock = s.clock := rfl
@[simp] theorem State.modMgmt_mode (s : State) (f : Management → Management) : (s.modMgmt f).mode = s.mode := rfl
@[simp] theorem State.modMgmt_device (s : State) (f : Management → Management) : (s.modMgmt f).device = s.device := rfl
@[simp] theorem State.modMgmt_points (s : State) (f : Management → Management) : (s.modMgmt f).points = s.points := rfl
@[simp] theorem State.modMgmt_members (s : State) (f : Management → Management) : (s.modMgmt f).members = s.members := rfl
@[simp] theorem State.modMgmt_lines (s : State) (f : Management → Management) : (s.modMgmt f).lines = s.lines := rfl
@[simp] theorem State.modMgmt_strikes (s : State) (f : Management → Management) : (s.modMgmt f).strikes = s.strikes := rfl
@[simp] theorem State.modMgmt_zones (s : State) (f : Management → Management) : (s.modMgmt f).zones = s.zones := rfl
@[simp] theorem State.modMgmt_trips (s : State) (f : Management → Management) : (s.modMgmt f).trips = s.trips := rfl
@[simp] theorem State.modMgmt_doors (s : State) (f : Management → Management) : (s.modMgmt f).doors = s.doors := rfl
@[simp] theorem State.modMgmt_groups (s : State) (f : Management → Management) : (s.modMgmt f).groups = s.groups := rfl
@[simp] theorem State.modMgmt_cadences (s : State) (f : Management → Management) : (s.modMgmt f).cadences = s.cadences := rfl
@[simp] theorem State.modMgmt_inputs (s : State) (f : Management → Management) : (s.modMgmt f).inputs = s.inputs := rfl
@[simp] theorem State.modMgmt_outputs (s : State) (f : Management → Management) : (s.modMgmt f).outputs = s.outputs := rfl
@[simp] theorem State.modMgmt_port (s : State) (f : Management → Management) : (s.modMgmt f).port = s.port := rfl
@[simp] theorem State.modMgmt_classifier (s : State) (f : Management → Management) : (s.modMgmt f).classifier = s.classifier := rfl
@[simp] theorem State.modMgmt_memory (s : State) (f : Management → Management) : (s.modMgmt f).memory = s.memory := rfl
@[simp] theorem State.modMgmt_triggers (s : State) (f : Management → Management) : (s.modMgmt f).triggers = s.triggers := rfl
@[simp] theorem State.modMgmt_draws (s : State) (f : Management → Management) : (s.modMgmt f).draws = s.draws := rfl
@[simp] theorem State.point_modMgmt (s : State) (f : Management → Management) (k : PointIx) : (s.modMgmt f).point k = s.point k := rfl
@[simp] theorem State.line_modMgmt (s : State) (f : Management → Management) (k : LineIx) : (s.modMgmt f).line k = s.line k := rfl
@[simp] theorem State.membersOf_modMgmt (s : State) (f : Management → Management) (k : LineIx) : (s.modMgmt f).membersOf k = s.membersOf k := rfl
@[simp] theorem State.zone_modMgmt (s : State) (f : Management → Management) (k : ZoneIx) : (s.modMgmt f).zone k = s.zone k := rfl
@[simp] theorem State.trip_modMgmt (s : State) (f : Management → Management) (k : TripIx) : (s.modMgmt f).trip k = s.trip k := rfl
@[simp] theorem State.door_modMgmt (s : State) (f : Management → Management) (k : DoorIx) : (s.modMgmt f).door k = s.door k := rfl
@[simp] theorem State.group_modMgmt (s : State) (f : Management → Management) (k : GroupIx) : (s.modMgmt f).group k = s.group k := rfl
@[simp] theorem State.cadence_modMgmt (s : State) (f : Management → Management) (k : CadenceIx) : (s.modMgmt f).cadence k = s.cadence k := rfl
@[simp] theorem State.input_modMgmt (s : State) (f : Management → Management) (k : InputIx) : (s.modMgmt f).input k = s.input k := rfl
@[simp] theorem State.output_modMgmt (s : State) (f : Management → Management) (k : OutputIx) : (s.modMgmt f).output k = s.output k := rfl
@[simp] theorem State.modMgmt_mgmt (s : State) (f : Management → Management) : (s.modMgmt f).mgmt = f s.mgmt := rfl

/-! ## raiseTrigger -/

@[simp] theorem raiseTrigger_pending (e : Trigger) (s : State) : (raiseTrigger e s).pending = s.pending := rfl
@[simp] theorem raiseTrigger_clock (e : Trigger) (s : State) : (raiseTrigger e s).clock = s.clock := rfl
@[simp] theorem raiseTrigger_mode (e : Trigger) (s : State) : (raiseTrigger e s).mode = s.mode := rfl
@[simp] theorem raiseTrigger_device (e : Trigger) (s : State) : (raiseTrigger e s).device = s.device := rfl
@[simp] theorem raiseTrigger_points (e : Trigger) (s : State) : (raiseTrigger e s).points = s.points := rfl
@[simp] theorem raiseTrigger_members (e : Trigger) (s : State) : (raiseTrigger e s).members = s.members := rfl
@[simp] theorem raiseTrigger_lines (e : Trigger) (s : State) : (raiseTrigger e s).lines = s.lines := rfl
@[simp] theorem raiseTrigger_strikes (e : Trigger) (s : State) : (raiseTrigger e s).strikes = s.strikes := rfl
@[simp] theorem raiseTrigger_zones (e : Trigger) (s : State) : (raiseTrigger e s).zones = s.zones := rfl
@[simp] theorem raiseTrigger_trips (e : Trigger) (s : State) : (raiseTrigger e s).trips = s.trips := rfl
@[simp] theorem raiseTrigger_doors (e : Trigger) (s : State) : (raiseTrigger e s).doors = s.doors := rfl
@[simp] theorem raiseTrigger_groups (e : Trigger) (s : State) : (raiseTrigger e s).groups = s.groups := rfl
@[simp] theorem raiseTrigger_cadences (e : Trigger) (s : State) : (raiseTrigger e s).cadences = s.cadences := rfl
@[simp] theorem raiseTrigger_inputs (e : Trigger) (s : State) : (raiseTrigger e s).inputs = s.inputs := rfl
@[simp] theorem raiseTrigger_outputs (e : Trigger) (s : State) : (raiseTrigger e s).outputs = s.outputs := rfl
@[simp] theorem raiseTrigger_port (e : Trigger) (s : State) : (raiseTrigger e s).port = s.port := rfl
@[simp] theorem raiseTrigger_classifier (e : Trigger) (s : State) : (raiseTrigger e s).classifier = s.classifier := rfl
@[simp] theorem raiseTrigger_mgmt (e : Trigger) (s : State) : (raiseTrigger e s).mgmt = s.mgmt := rfl
@[simp] theorem raiseTrigger_memory (e : Trigger) (s : State) : (raiseTrigger e s).memory = s.memory := rfl
@[simp] theorem raiseTrigger_draws (e : Trigger) (s : State) : (raiseTrigger e s).draws = s.draws := rfl
@[simp] theorem raiseTrigger_triggers (e : Trigger) (s : State) : (raiseTrigger e s).triggers = s.triggers ++ [e] := rfl
@[simp] theorem State.point_raiseTrigger (e : Trigger) (s : State) (k : PointIx) : (raiseTrigger e s).point k = s.point k := rfl
@[simp] theorem State.line_raiseTrigger (e : Trigger) (s : State) (k : LineIx) : (raiseTrigger e s).line k = s.line k := rfl
@[simp] theorem State.membersOf_raiseTrigger (e : Trigger) (s : State) (k : LineIx) : (raiseTrigger e s).membersOf k = s.membersOf k := rfl
@[simp] theorem State.zone_raiseTrigger (e : Trigger) (s : State) (k : ZoneIx) : (raiseTrigger e s).zone k = s.zone k := rfl
@[simp] theorem State.trip_raiseTrigger (e : Trigger) (s : State) (k : TripIx) : (raiseTrigger e s).trip k = s.trip k := rfl
@[simp] theorem State.door_raiseTrigger (e : Trigger) (s : State) (k : DoorIx) : (raiseTrigger e s).door k = s.door k := rfl
@[simp] theorem State.group_raiseTrigger (e : Trigger) (s : State) (k : GroupIx) : (raiseTrigger e s).group k = s.group k := rfl
@[simp] theorem State.cadence_raiseTrigger (e : Trigger) (s : State) (k : CadenceIx) : (raiseTrigger e s).cadence k = s.cadence k := rfl
@[simp] theorem State.input_raiseTrigger (e : Trigger) (s : State) (k : InputIx) : (raiseTrigger e s).input k = s.input k := rfl
@[simp] theorem State.output_raiseTrigger (e : Trigger) (s : State) (k : OutputIx) : (raiseTrigger e s).output k = s.output k := rfl

/-! ## Parts of a point -/

theorem State.modDrive_eq (s : State) (i : PointIx) (f : Drive → Drive) :
    s.modDrive i f = s.modPoint i fun p => { p with drive := f p.drive } := rfl

theorem State.modValve_eq (s : State) (i : PointIx) (f : Valve → Valve) :
    s.modValve i f = s.modPoint i fun p => { p with valve := f p.valve } := rfl

end Sys2Proof.Machine
end

