-- ==== Sys2Proof/Laws/Ops.lean ====
section
/-! SUPPORT. What the shared operations do, said once: counters, the insert queues and the arbiter, Notices and Replies. -/

namespace Sys2Proof.Machine

/-! ## Counters (R4) -/

theorem bump_toNat (c : Ctr) : (bump c).toNat = min (c.toNat + 1) 65535 := by
  unfold bump
  split
  · subst c; decide
  · rename_i h
    have h1 : c.toNat ≠ 65535 := fun e => h (by apply BitVec.eq_of_toNat_eq; simpa using e)
    have h2 := c.isLt
    have h3 : (c + 1).toNat = (c.toNat + 1) % 65536 := by rw [BitVec.toNat_add]; rfl
    omega

theorem bump_le (c : Ctr) : c.toNat ≤ (bump c).toNat := by
  rw [bump_toNat]; have := c.isLt; omega

/-! ## Port-only operations: each is the part with another Loop Port -/

theorem joinUrgent_eq (f : Frame) (s : State) :
    joinUrgent f s = s.modPort (·.joinUrgent s.clock s.device.returnLimit f) := rfl

theorem joinRoutine_eq (f : Frame) (s : State) :
    joinRoutine f s = s.modPort (·.joinRoutine s.clock s.device.returnLimit f) := rfl

theorem notify_eq (k : NoticeKind) (o : Nat) (v : Int) (s : State) :
    notify k o v s = s.modPort (·.joinRoutine s.clock s.device.returnLimit (noticeFrame s k o v)) := rfl

theorem reply_eq (rq : Request) (c : ReplyCode) (s : State) :
    reply rq c s = s.modPort (·.joinRoutine s.clock s.device.returnLimit (replyFrame s rq c 0 [])) := rfl

/-! ## The Loop Port's capacities and balance -/

/-- R155 with `k` frames received and not yet stripped, dropped or passed on, while the received counter has not
saturated. -/
def Port.balance (k : Nat) (p : Port) : Prop :=
  p.counters.received.toNat < 65535 →
    p.counters.received.toNat = p.counters.repeated.toNat + p.counters.stripped.toNat + p.counters.droppedCheck.toNat
      + p.counters.throughOverrun.toNat + p.through.length + k

/-- What every operation on the Loop Port other than an arrival keeps. -/
structure Port.Kept (p q : Port) : Prop where
  through : p.through.length ≤ Config.throughCapacity → q.through.length ≤ Config.throughCapacity
  urgent : p.urgent.length ≤ Config.urgentCapacity → q.urgent.length ≤ Config.urgentCapacity
  routine : p.routine.length ≤ Config.routineCapacity → q.routine.length ≤ Config.routineCapacity
  returns : p.returns.length ≤ Config.returnCapacity → q.returns.length ≤ Config.returnCapacity
  balance : ∀ k, p.balance k → q.balance k

/-- What the sending side leaves alone: the loop conditions and deadlines, and what an arrival or a return counts. -/
def Port.SameLoop (p q : Port) : Prop :=
  q.upstreamLost = p.upstreamLost ∧ q.downstreamOpen = p.downstreamOpen ∧ q.silenceAt = p.silenceAt ∧
    q.previous = p.previous ∧ q.counters.received = p.counters.received ∧ q.counters.stripped = p.counters.stripped ∧
    q.counters.droppedCheck = p.counters.droppedCheck ∧ q.counters.throughOverrun = p.counters.throughOverrun ∧
    q.counters.missing = p.counters.missing

theorem Port.SameLoop.refl (p : Port) : p.SameLoop p := ⟨rfl, rfl, rfl, rfl, rfl, rfl, rfl, rfl, rfl⟩

theorem Port.SameLoop.trans {p q r : Port} (h : p.SameLoop q) (g : q.SameLoop r) : p.SameLoop r := by
  unfold Port.SameLoop at *
  simp only [h, g, and_self]

theorem Port.Kept.refl (p : Port) : p.Kept p := ⟨id, id, id, id, fun _ => id⟩

theorem Port.Kept.trans {p q r : Port} (h : p.Kept q) (g : q.Kept r) : p.Kept r :=
  ⟨g.through ∘ h.through, g.urgent ∘ h.urgent, g.routine ∘ h.routine, g.returns ∘ h.returns,
    fun k => g.balance k ∘ h.balance k⟩

theorem Port.startInserted_kept (now : Time) (limit : Nat) (f : Frame) (p : Port) : p.Kept (p.startInserted now limit f) := by
  unfold Port.startInserted
  split
  · rename_i h
    refine ⟨id, id, id, fun _ => ?_, fun _ => id⟩
    simp only [List.length_append, List.length_singleton, Config.returnCapacity] at *
    omega
  · exact ⟨id, id, id, id, fun _ => id⟩

theorem Port.startUrgent_kept (now : Time) (limit : Nat) (q : Queued) (rest : List Queued) (p : Port)
    (h : p.urgent = q :: rest) : p.Kept (p.startUrgent now limit q rest) := by
  refine Port.Kept.trans ?_ (Port.startInserted_kept now limit q.frame _)
  refine ⟨id, fun hu => ?_, id, id, fun _ => id⟩
  simp only [h, List.length_cons, Config.urgentCapacity] at *
  omega

theorem Port.startRoutine_kept (now : Time) (limit : Nat) (q : Queued) (rest : List Queued) (p : Port)
    (h : p.routine = q :: rest) : p.Kept (p.startRoutine now limit q rest) := by
  refine Port.Kept.trans ?_ (Port.startInserted_kept now limit q.frame _)
  refine ⟨id, id, fun hu => ?_, id, fun _ => id⟩
  simp only [h, List.length_cons, Config.routineCapacity] at *
  omega

theorem Port.startThrough_kept (f : Frame) (rest : List Frame) (p : Port) (h : p.through = f :: rest) :
    p.Kept (p.startThrough f rest) := by
  refine ⟨fun hu => ?_, id, id, id, fun k hk => ?_⟩
  · simp only [Port.startThrough, h, List.length_cons, Config.throughCapacity] at *
    omega
  · intro hr
    have hb := hk hr
    simp only [Port.startThrough, bump_toNat, h, List.length_cons] at *
    have := p.counters.received.isLt
    omega

theorem Port.arbitrate_kept (now : Time) (limit : Nat) (p : Port) : p.Kept (p.arbitrate now limit) := by
  unfold Port.arbitrate
  split
  next hu => exact Port.startUrgent_kept _ _ _ _ _ hu
  next hr ht =>
    split
    · exact Port.startRoutine_kept _ _ _ _ _ hr
    · exact Port.startThrough_kept _ _ _ ht
  next hr _ => exact Port.startRoutine_kept _ _ _ _ _ hr
  next ht => exact Port.startThrough_kept _ _ _ ht
  next => exact ⟨id, id, id, id, fun _ => id⟩

theorem Port.chooseIfIdle_kept (now : Time) (limit : Nat) (p : Port) : p.Kept (p.chooseIfIdle now limit) := by
  unfold Port.chooseIfIdle
  split
  · exact Port.arbitrate_kept now limit p
  · exact Port.Kept.refl p

theorem Port.joinUrgent_kept (now : Time) (limit : Nat) (f : Frame) (p : Port) : p.Kept (p.joinUrgent now limit f) := by
  unfold Port.joinUrgent
  split
  · rename_i h
    refine Port.Kept.trans ?_ (Port.chooseIfIdle_kept now limit _)
    refine ⟨id, fun _ => ?_, id, id, fun _ => id⟩
    simp only [List.length_append, List.length_singleton, Config.urgentCapacity] at *
    omega
  · exact ⟨id, id, id, id, fun _ => id⟩

theorem Port.joinRoutine_kept (now : Time) (limit : Nat) (f : Frame) (p : Port) : p.Kept (p.joinRoutine now limit f) := by
  unfold Port.joinRoutine
  split
  · rename_i h
    refine Port.Kept.trans ?_ (Port.chooseIfIdle_kept now limit _)
    refine ⟨id, id, fun _ => ?_, id, fun _ => id⟩
    simp only [List.length_append, List.length_singleton, Config.routineCapacity] at *
    omega
  · exact ⟨id, id, id, id, fun _ => id⟩

/-! ## The sending side leaves the loop conditions alone -/

theorem Port.startInserted_sameLoop (now : Time) (limit : Nat) (f : Frame) (p : Port) :
    p.SameLoop (p.startInserted now limit f) := by
  unfold Port.startInserted; split <;> exact Port.SameLoop.refl p

theorem Port.arbitrate_sameLoop (now : Time) (limit : Nat) (p : Port) : p.SameLoop (p.arbitrate now limit) := by
  unfold Port.arbitrate
  split
  · exact Port.SameLoop.trans (Port.SameLoop.refl p) (Port.startInserted_sameLoop ..)
  · split
    · exact Port.SameLoop.trans (Port.SameLoop.refl p) (Port.startInserted_sameLoop ..)
    · exact Port.SameLoop.refl p
  · exact Port.SameLoop.trans (Port.SameLoop.refl p) (Port.startInserted_sameLoop ..)
  · exact Port.SameLoop.refl p
  · exact Port.SameLoop.refl p

theorem Port.chooseIfIdle_sameLoop (now : Time) (limit : Nat) (p : Port) : p.SameLoop (p.chooseIfIdle now limit) := by
  unfold Port.chooseIfIdle; split
  · exact Port.arbitrate_sameLoop now limit p
  · exact Port.SameLoop.refl p

theorem Port.joinUrgent_sameLoop (now : Time) (limit : Nat) (f : Frame) (p : Port) :
    p.SameLoop (p.joinUrgent now limit f) := by
  unfold Port.joinUrgent; split
  · exact Port.SameLoop.trans (Port.SameLoop.refl p) (Port.chooseIfIdle_sameLoop ..)
  · exact Port.SameLoop.refl p

theorem Port.joinRoutine_sameLoop (now : Time) (limit : Nat) (f : Frame) (p : Port) :
    p.SameLoop (p.joinRoutine now limit f) := by
  unfold Port.joinRoutine; split
  · exact Port.SameLoop.trans (Port.SameLoop.refl p) (Port.chooseIfIdle_sameLoop ..)
  · exact Port.SameLoop.refl p

end Sys2Proof.Machine
end

