-- ==== Sys2Proof/Laws/Moves.lean ====
section
/-! SUPPORT. What the blocks can do to the part while they take a command, said once: every handler is a run of `Move`s, so a
fact about the part that each `Move` keeps is kept by every handler. `Moves q s t` reads: the part can go from `s` to `t` by
such changes, within what `q` allows. -/

namespace Sys2Proof.Machine

/-- What a run may change beyond what every command may: most handlers need none of these. -/
structure Allow where
  /-- A zone's level may rise (R72), and trigger events may be raised and taken (R84). -/
  raise : Prop
  /-- A zone's level may go back to Quiet (R80). -/
  quiet : Prop
  /-- A zone's spark window may change (R69, R70, R80, R81). -/
  window : Prop
  /-- The configuration part of a line, zone, trip, door or siren group may be written. -/
  tables : Prop
  /-- The loop conditions and deadlines, and the counts of arrivals and returns, may change (R155, R160 to R162). -/
  loop : Prop
  /-- The local inputs may change (R20). -/
  inputs : Prop
  /-- The Management Unit's record and the configuration memory may change (R170, R176). -/
  mgmt : Prop
  /-- The cadence table may change (R142). -/
  cadences : Prop
  /-- The classifier's counters may change (R18). -/
  classifier : Prop

/-- The fields of a zone entry that only a slot end, a Spark report, a reset or a write changes. -/
def Zone.SameWindow (r n : Zone) : Prop :=
  n.slots = r.slots ∧ n.current = r.current ∧ n.window = r.window ∧ n.slotEndAt = r.slotEndAt

/-- A line's configuration part changes at most in its calibration mode (R42). -/
def Line.SameCfg (r n : Line) : Prop := n.cfg = { r.cfg with calibration := n.cfg.calibration }

/-- A trip's configuration part changes at most in its mode (R87). -/
def Trip.SameCfg (r n : Trip) : Prop := n.cfg = { r.cfg with mode := n.cfg.mode }

/-- R144: a commanded state has the time of its command. -/
def Drive.Timed (d : Drive) : Prop := d.commanded ≠ none → d.lastCommand ≠ none

/-- One change a block makes while a command is taken. None touches the mode, the clock, the queue, the Device record, the
derived maps or the configuration part of a point. -/
inductive Move (q : Allow) (s : State) : State → Prop
  /-- A point's state; the commanded state of a local point stands. -/
  | point (i : PointIx) (f : Point → Point) (hc : (f (s.point i)).cfg = (s.point i).cfg)
      (hm : s.isLocal i = false ∨ (f (s.point i)).drive.commanded = (s.point i).drive.commanded)
      (ht : (s.point i).drive.Timed → (f (s.point i)).drive.Timed) :
      Move q s (s.modPoint i f)
  /-- A point's state, after which the pins follow (R22). -/
  | command (i : PointIx) (f : Point → Point) (hc : (f (s.point i)).cfg = (s.point i).cfg)
      (ht : (s.point i).drive.Timed → (f (s.point i)).drive.Timed) :
      Move q s (syncPins (s.modPoint i f))
  /-- A line entry; its track list keeps its capacity, and a new configuration part is one that its write would accept. -/
  | line (l : LineIx) (f : Line → Line)
      (h : (f (s.line l)).tracks.length ≤ max (s.line l).tracks.length Config.trackCapacity)
      (hc : (q.tables ∧ lineOk s.pointCfg (s.membersOf l) (f (s.line l)).cfg = true) ∨ (s.line l).SameCfg (f (s.line l))) :
      Move q s (s.modLine l f)
  /-- A zone entry; its level stands, or rises or goes to Quiet where that is allowed (R71). -/
  | zone (z : ZoneIx) (f : Zone → Zone)
      (h : (f (s.zone z)).level = (s.zone z).level ∨
        (q.raise ∧ (s.zone z).level.rank < (f (s.zone z)).level.rank) ∨ (q.quiet ∧ (f (s.zone z)).level = .quiet))
      (hw : q.window ∨ (s.zone z).SameWindow (f (s.zone z)))
      (hc : (q.tables ∧ (f (s.zone z)).cfg.rangesOk = true) ∨ (f (s.zone z)).cfg = (s.zone z).cfg) :
      Move q s (s.modZone z f)
  | trip (t : TripIx) (f : Trip → Trip)
      (hc : (q.tables ∧ (f (s.trip t)).cfg.rangesOk = true) ∨ (s.trip t).SameCfg (f (s.trip t))) : Move q s (s.modTrip t f)
  | door (d : DoorIx) (f : Door → Door)
      (hc : (q.tables ∧ doorOk s.pointCfg s.doorCfg d (f (s.door d)).cfg = true) ∨ (f (s.door d)).cfg = (s.door d).cfg) :
      Move q s (s.modDoor d f)
  | group (g : GroupIx) (f : Group → Group)
      (hc : (q.tables ∧ groupOk s.device.own s.pointCfg s.groupCfg g (f (s.group g)).cfg = true) ∨
        (f (s.group g)).cfg = (s.group g).cfg) :
      Move q s (s.modGroup g f)
  | input (i : InputIx) (f : Input → Input) (ha : q.inputs) : Move q s (s.modInput i f)
  /-- The Loop Port; its capacities and its balance are kept. -/
  | port (p : Port) (h : s.port.Kept p) (hl : q.loop ∨ s.port.SameLoop p) : Move q s { s with port := p }
  /-- The strike list keeps its capacity. -/
  | strikes (l : List Strike) (h : l.length ≤ max s.strikes.length Config.strikeCapacity) : Move q s { s with strikes := l }
  | triggers (l : List Trigger) (ha : q.raise ∨ q.quiet) : Move q s { s with triggers := l }
  | draws (n : Nat) : Move q s { s with draws := n }
  | classifier (c : Classifier) (ha : q.classifier) : Move q s { s with classifier := c }
  | cadence (c : CadenceIx) (k : Cadence) (hk : k.rangesOk = true) (ha : q.cadences) :
      Move q s { s with cadences := s.cadences.set c.val k }
  | mgmt (m : Management) (ha : q.mgmt) : Move q s { s with mgmt := m }
  | memory (m : Memory) (ha : q.mgmt) : Move q s { s with memory := m }
  | pins : Move q s (syncPins s)

/-- A run of moves. -/
inductive Moves (q : Allow) (s : State) : State → Prop
  | refl : Moves q s s
  | step {t u : State} (h : Moves q s t) (m : Move q t u) : Moves q s u

variable {q : Allow}

theorem Moves.trans {s t u : State} (h : Moves q s t) (g : Moves q t u) : Moves q s u := by
  induction g with
  | refl => exact h
  | step _ m ih => exact .step ih m

/-- A fact every move keeps is kept by a run. -/
theorem Moves.keeps {P : State → Prop} (hp : ∀ {s t}, Move q s t → P s → P t) {s t : State} (h : Moves q s t) (hs : P s) :
    P t := by
  induction h with
  | refl => exact hs
  | step _ m ih => exact hp m ih

/-! ## What a move leaves alone -/

@[simp] theorem syncPins_point (s : State) (i : PointIx) : (syncPins s).point i = s.point i := rfl
@[simp] theorem syncPins_device (s : State) : (syncPins s).device = s.device := rfl
@[simp] theorem syncPins_mode (s : State) : (syncPins s).mode = s.mode := rfl
@[simp] theorem syncPins_clock (s : State) : (syncPins s).clock = s.clock := rfl
@[simp] theorem syncPins_members (s : State) : (syncPins s).members = s.members := rfl
@[simp] theorem syncPins_pending (s : State) : (syncPins s).pending = s.pending := rfl

theorem Move.mode {s t : State} (m : Move q s t) : t.mode = s.mode := by cases m <;> rfl
theorem Move.clock {s t : State} (m : Move q s t) : t.clock = s.clock := by cases m <;> rfl
theorem Move.device {s t : State} (m : Move q s t) : t.device = s.device := by cases m <;> rfl
theorem Move.members {s t : State} (m : Move q s t) : t.members = s.members := by cases m <;> rfl
theorem Move.pending {s t : State} (m : Move q s t) : t.pending = s.pending := by cases m <;> rfl

theorem Move.cfg {s t : State} (m : Move q s t) (i : PointIx) : (t.point i).cfg = (s.point i).cfg := by
  cases m with
  | point j f hc _ _ =>
    rw [State.point_modPoint_if]; split
    · rename_i h; subst h; exact hc
    · rfl
  | command j f hc _ =>
    rw [syncPins_point, State.point_modPoint_if]; split
    · rename_i h; subst h; exact hc
    · rfl
  | _ => rfl

theorem Moves.mode {s t : State} (h : Moves q s t) : t.mode = s.mode := by
  induction h with
  | refl => rfl
  | step _ m ih => rw [m.mode, ih]

theorem Moves.clock {s t : State} (h : Moves q s t) : t.clock = s.clock := by
  induction h with
  | refl => rfl
  | step _ m ih => rw [m.clock, ih]

theorem Moves.device {s t : State} (h : Moves q s t) : t.device = s.device := by
  induction h with
  | refl => rfl
  | step _ m ih => rw [m.device, ih]

theorem Moves.members {s t : State} (h : Moves q s t) : t.members = s.members := by
  induction h with
  | refl => rfl
  | step _ m ih => rw [m.members, ih]

theorem Moves.pending {s t : State} (h : Moves q s t) : t.pending = s.pending := by
  induction h with
  | refl => rfl
  | step _ m ih => rw [m.pending, ih]

theorem Moves.cfg {s t : State} (h : Moves q s t) (i : PointIx) : (t.point i).cfg = (s.point i).cfg := by
  induction h with
  | refl => rfl
  | step _ m ih => rw [m.cfg, ih]

theorem Moves.isLocal {s t : State} (h : Moves q s t) (i : PointIx) : t.isLocal i = s.isLocal i := by
  simp [State.isLocal, h.cfg, h.device]

theorem Moves.isLoop {s t : State} (h : Moves q s t) (i : PointIx) : t.isLoop i = s.isLoop i := by
  simp [State.isLoop, h.cfg, h.device]

/-- Without the allowance of tables, a group keeps its configuration part. -/
theorem Moves.groupCfg {s t : State} (h : Moves q s t) (hq : ¬q.tables) (g : GroupIx) : (t.group g).cfg = (s.group g).cfg := by
  refine h.keeps (P := fun u => (u.group g).cfg = (s.group g).cfg) (fun m hu => ?_) rfl
  cases m with
  | group k f hc =>
    rw [State.group_modGroup_if]
    split
    · rename_i e; subst e; rw [hc.resolve_left fun h => hq h.1]; exact hu
    · exact hu
  | _ => exact hu

/-- Without the allowance of tables, a door keeps its configuration part. -/
theorem Moves.doorCfg {s t : State} (h : Moves q s t) (hq : ¬q.tables) (d : DoorIx) : (t.door d).cfg = (s.door d).cfg := by
  refine h.keeps (P := fun u => (u.door d).cfg = (s.door d).cfg) (fun m hu => ?_) rfl
  cases m with
  | door k f hc =>
    rw [State.door_modDoor_if]
    split
    · rename_i e; subst e; rw [hc.resolve_left fun h => hq h.1]; exact hu
    · exact hu
  | _ => exact hu

/-- What every command may change. -/
def plain : Allow := ⟨False, False, False, False, False, False, False, False, False⟩

/-! ## Single moves, in the form the handlers use -/

theorem Moves.modPort {s t : State} {f : Port → Port} (h : Moves q s t) (hf : t.port.Kept (f t.port))
    (hl : q.loop ∨ t.port.SameLoop (f t.port)) : Moves q s (t.modPort f) := .step h (.port _ hf hl)

@[simp] theorem Moves.modTrip {s t : State} {i : TripIx} {f : Trip → Trip} (h : Moves q s t)
    (hc : (t.trip i).SameCfg (f (t.trip i))) : Moves q s (t.modTrip i f) := .step h (.trip i f (.inr hc))
@[simp] theorem Moves.modDoor {s t : State} {i : DoorIx} {f : Door → Door} (h : Moves q s t)
    (hc : (f (t.door i)).cfg = (t.door i).cfg) : Moves q s (t.modDoor i f) := .step h (.door i f (.inr hc))
@[simp] theorem Moves.modGroup {s t : State} {i : GroupIx} {f : Group → Group} (h : Moves q s t)
    (hc : (f (t.group i)).cfg = (t.group i).cfg) : Moves q s (t.modGroup i f) := .step h (.group i f (.inr hc))
theorem Moves.modInput {s t : State} {i : InputIx} {f : Input → Input} (h : Moves q s t) (ha : q.inputs) :
    Moves q s (t.modInput i f) := .step h (.input i f ha)
theorem Moves.modMgmt {s t : State} {f : Management → Management} (h : Moves q s t) (ha : q.mgmt) :
    Moves q s (t.modMgmt f) := .step h (.mgmt _ ha)

/-- A change of a line entry that leaves its track list. -/
@[simp] theorem Moves.modLine {s t : State} {i : LineIx} {f : Line → Line} (h : Moves q s t)
    (hf : (f (t.line i)).tracks = (t.line i).tracks) (hc : (t.line i).SameCfg (f (t.line i))) :
    Moves q s (t.modLine i f) := .step h (.line i f (by rw [hf]; omega) (.inr hc))

@[simp] theorem Line.sameCfg_of {r n : Line} (h : n.cfg = r.cfg) : r.SameCfg n := by unfold Line.SameCfg; rw [h]
@[simp] theorem Trip.sameCfg_of {r n : Trip} (h : n.cfg = r.cfg) : r.SameCfg n := by unfold Trip.SameCfg; rw [h]

/-- A change of a zone entry that leaves its level and its window. -/
@[simp] theorem Moves.modZone {s t : State} {i : ZoneIx} {f : Zone → Zone} (h : Moves q s t)
    (hf : (f (t.zone i)).level = (t.zone i).level) (hw : (t.zone i).SameWindow (f (t.zone i)))
    (hc : (f (t.zone i)).cfg = (t.zone i).cfg) : Moves q s (t.modZone i f) :=
  .step h (.zone i f (.inl hf) (.inr hw) (.inr hc))

/-- A change of a zone entry that leaves its level. -/
theorem Moves.modWindow {s t : State} {i : ZoneIx} {f : Zone → Zone} (h : Moves q s t) (ha : q.window)
    (hf : (f (t.zone i)).level = (t.zone i).level)
    (hc : (q.tables ∧ (f (t.zone i)).cfg.rangesOk = true) ∨ (f (t.zone i)).cfg = (t.zone i).cfg) :
    Moves q s (t.modZone i f) := .step h (.zone i f (.inl hf) (.inl ha) hc)

@[simp] theorem Zone.sameWindow_of {r : Zone} {cfg : ZoneCfg} {level : Level} {changed : Option Time} {faults : Nat}
    {sparks flames escapes calls : Ctr} :
    r.SameWindow ⟨cfg, level, changed, r.slots, r.current, r.window, r.slotEndAt, faults, sparks, flames, escapes, calls⟩ :=
  ⟨rfl, rfl, rfl, rfl⟩

/-- A drive record that keeps its commanded state and has a last command still is timed. -/
theorem Drive.Timed.keep {d e : Drive} (hm : e.commanded = d.commanded)
    (hl : d.lastCommand.isSome = true → e.lastCommand.isSome = true) (h : d.Timed) : e.Timed := fun hn => by
  rw [hm] at hn
  have := h hn
  rw [← Option.isSome_iff_ne_none] at this ⊢
  exact hl this

/-- A change of a point that leaves its configuration part and its commanded state. -/
@[simp] theorem Moves.modPoint {s t : State} {i : PointIx} {f : Point → Point} (h : Moves q s t)
    (hc : (f (t.point i)).cfg = (t.point i).cfg)
    (hm : (f (t.point i)).drive.commanded = (t.point i).drive.commanded)
    (hl : (t.point i).drive.lastCommand.isSome = true → (f (t.point i)).drive.lastCommand.isSome = true) :
    Moves q s (t.modPoint i f) := .step h (.point i f hc (.inr hm) (.keep hm hl))

@[simp] theorem Moves.modDrive {s t : State} {i : PointIx} {f : Drive → Drive} (h : Moves q s t)
    (hm : (f (t.point i).drive).commanded = (t.point i).drive.commanded)
    (hl : (t.point i).drive.lastCommand.isSome = true → (f (t.point i).drive).lastCommand.isSome = true) :
    Moves q s (t.modDrive i f) := .step h (.point i _ rfl (.inr hm) (.keep hm hl))

@[simp] theorem Moves.modValve {s t : State} {i : PointIx} {f : Valve → Valve} (h : Moves q s t) :
    Moves q s (t.modValve i f) := .step h (.point i _ rfl (.inr rfl) id)

@[simp] theorem joinUrgent_moves {s t : State} {f : Frame} (h : Moves q s t) : Moves q s (joinUrgent f t) :=
  h.modPort (Port.joinUrgent_kept ..) (.inr (Port.joinUrgent_sameLoop ..))
@[simp] theorem joinRoutine_moves {s t : State} {f : Frame} (h : Moves q s t) : Moves q s (joinRoutine f t) :=
  h.modPort (Port.joinRoutine_kept ..) (.inr (Port.joinRoutine_sameLoop ..))
@[simp] theorem notify_moves {s t : State} {k : NoticeKind} {o : Nat} {v : Int} (h : Moves q s t) :
    Moves q s (notify k o v t) := h.modPort (Port.joinRoutine_kept ..) (.inr (Port.joinRoutine_sameLoop ..))
@[simp] theorem reply_moves {s t : State} {rq : Request} {c : ReplyCode} (h : Moves q s t) : Moves q s (reply rq c t) :=
  h.modPort (Port.joinRoutine_kept ..) (.inr (Port.joinRoutine_sameLoop ..))
@[simp] theorem raiseTrigger_moves {s t : State} {e : Trigger} (ha : q.raise ∨ q.quiet) (h : Moves q s t) : Moves q s (raiseTrigger e t) :=
  .step h (.triggers _ ha)
@[simp] theorem syncPins_moves {s t : State} (h : Moves q s t) : Moves q s (syncPins t) := .step h .pins

/-! ## Runs of handlers -/

@[simp] theorem foldl_moves {α : Type} {s t : State} {g : State → α → State} {l : List α}
    (hg : ∀ a u, Moves q s u → Moves q s (g u a)) (h : Moves q s t) : Moves q s (l.foldl g t) := by
  induction l generalizing t with
  | nil => exact h
  | cons a l ih => exact ih (hg a t h)

@[simp] theorem eitherOrder_moves {s t : State} {f g : State → State} (hf : ∀ u, Moves q s u → Moves q s (f u))
    (hg : ∀ u, Moves q s u → Moves q s (g u)) (h : Moves q s t) : Moves q s (eitherOrder f g t) := by
  unfold eitherOrder
  dsimp only
  split
  · exact hg _ (hf _ h)
  · split
    · exact .step (hg _ (hf _ h)) (.draws _)
    · exact .step (hf _ (hg _ h)) (.draws _)

theorem pickOrder_moves {s : State} (n : Nat) (fs : List (State → State)) (t : State)
    (hf : ∀ f ∈ fs, ∀ u, Moves q s u → Moves q s (f u)) (h : Moves q s t) : Moves q s (pickOrder n fs t) := by
  induction n generalizing fs t with
  | zero => cases fs <;> exact h
  | succ n ih =>
    cases fs with
    | nil => exact h
    | cons f fs =>
      unfold pickOrder
      dsimp only
      apply ih
      · intro k hk; exact hf k (List.mem_of_mem_eraseIdx hk)
      · cases hx : (f :: fs)[Config.choice t.draws % (fs.length + 1)]? with
        | none => exact hf f (by simp) _ (.step h (.draws _))
        | some k => exact hf k (List.mem_of_getElem? hx) _ (.step h (.draws _))

@[simp] theorem inAnyOrder_moves {s t : State} {fs : List (State → State)}
    (hf : ∀ f ∈ fs, ∀ u, Moves q s u → Moves q s (f u)) (h : Moves q s t) : Moves q s (inAnyOrder fs t) := by
  unfold inAnyOrder
  split
  · exact h
  · exact hf _ (by simp) _ h
  · exact eitherOrder_moves (hf _ (by simp)) (hf _ (by simp)) h
  · exact pickOrder_moves _ _ _ hf h

@[simp] theorem freely_moves {s t : State} {f g : State → State} (hf : ∀ u, Moves q s u → Moves q s (f u))
    (hg : ∀ u, Moves q s u → Moves q s (g u)) (h : Moves q s t) : Moves q s (freely f g t) := by
  unfold freely
  split
  · exact hf _ (.step h (.draws _))
  · exact hg _ (.step h (.draws _))

/-! ## The Zone Unit's fault counts and the Drive Unit -/

@[simp] theorem updateFaults_moves {s t : State} {z : ZoneIx} {n : Nat} (h : Moves q s t) : Moves q s (updateFaults z n t) := by
  unfold updateFaults; split <;> simp (maxDischargeDepth := 20) [h]

@[simp] theorem recountFaults_moves {s t : State} (h : Moves q s t) : Moves q s (recountFaults t) := by
  unfold recountFaults; dsimp only; split <;> simp (maxDischargeDepth := 20) +contextual [h]

@[simp] theorem endDisagreement_moves {s t : State} {i : PointIx} (h : Moves q s t) : Moves q s (endDisagreement i t) := by
  unfold endDisagreement; dsimp only; split <;> simp (maxDischargeDepth := 20) [h]

@[simp] theorem beginDisagreement_moves {s t : State} {i : PointIx} (h : Moves q s t) : Moves q s (beginDisagreement i t) := by
  unfold beginDisagreement; simp [h]

@[simp] theorem testDisagreement_moves {s t : State} {b : Bool} {i : PointIx} (h : Moves q s t) :
    Moves q s (testDisagreement b i t) := by
  unfold testDisagreement; split_ifs <;> simp (maxDischargeDepth := 20) [h]

@[simp] theorem withhold_moves {s t : State} {i : PointIx} (h : Moves q s t) : Moves q s (withhold i t) := by
  unfold withhold; simp [h]

/-- A command to a point that is not local. -/
theorem recordCommand_moves {s t : State} {i : PointIx} {r : Requested} (h : Moves q s t) (hl : t.isLocal i = false) :
    Moves q s (recordCommand i r t) := by
  unfold recordCommand State.modDrive
  exact .step h (.point i _ rfl (.inl hl) fun _ _ => Option.some_ne_none _)

@[simp] theorem issue_moves {s t : State} {i : PointIx} {r : Requested} (h : Moves q s t) : Moves q s (issue i r t) := by
  unfold issue
  dsimp only
  split
  · split
    · simp only [withhold, recordCommand, State.modDrive_eq, State.modPoint_modPoint]
      exact .step h (.command i _ rfl fun _ _ => Option.some_ne_none _)
    · exact .step h (.command i _ rfl fun _ _ => Option.some_ne_none _)
  · rename_i hl
    have h' : Moves q s (recordCommand i r t) := recordCommand_moves h (by simpa using hl)
    split <;> simp [h']

theorem recordQuiet_moves {s t : State} {i : PointIx} (h : Moves q s t) (hl : t.isLoop i = true) :
    Moves q s (recordQuiet i t) := by
  unfold recordQuiet
  refine testDisagreement_moves (recordCommand_moves h ?_)
  simp only [State.isLoop, State.isLocal, Bool.and_eq_true, bne_iff_ne, ne_eq, Bool.and_eq_false_iff] at *
  exact .inr (by simpa using hl.2)

@[simp] theorem addClaim_moves {s t : State} {c : Claim} {i : PointIx} (h : Moves q s t) : Moves q s (addClaim c i t) := by
  unfold addClaim; dsimp only; split_ifs <;> simp (maxDischargeDepth := 20) [h]

@[simp] theorem removeClaim_moves {s t : State} {c : Claim} {i : PointIx} (h : Moves q s t) : Moves q s (removeClaim c i t) := by
  unfold removeClaim; dsimp only; split_ifs <;> simp (maxDischargeDepth := 20) [h]

@[simp] theorem heard_moves {s t : State} {i : PointIx} {a : Time} (h : Moves q s t) : Moves q s (heard i a t) := by
  unfold heard; dsimp only; split <;> simp (maxDischargeDepth := 20) [h]

/-! ## The Strike Scheduler -/

@[simp] theorem testValve_moves {s t : State} {b : Bool} {v : PointIx} (h : Moves q s t) : Moves q s (testValve b v t) := by
  unfold testValve; dsimp only; split_ifs <;> simp (maxDischargeDepth := 20) [h]

@[simp] theorem commandValve_moves {s t : State} {v : PointIx} {r : Requested} (h : Moves q s t) :
    Moves q s (commandValve v r t) := by
  unfold commandValve; simp [h]

@[simp] theorem countStrike_moves {s t : State} {v : PointIx} (h : Moves q s t) : Moves q s (countStrike v t) := by
  unfold countStrike; split <;> simp (maxDischargeDepth := 20) [h]

@[simp] theorem strikeValve_moves {s t : State} {v : PointIx} (h : Moves q s t) : Moves q s (strikeValve v t) := by
  unfold strikeValve; dsimp only; split <;> simp (maxDischargeDepth := 20) [h]

@[simp] theorem openNow_moves {s t : State} {vs : List PointIx} (h : Moves q s t) : Moves q s (openNow vs t) := by
  unfold openNow; simp (maxDischargeDepth := 20) +contextual [h]

@[simp] theorem reportFired_moves {s t : State} {l : LineIx} {n : Cyc} (h : Moves q s t) : Moves q s (reportFired l n t) :=
  .step h (.line l _ (by simp) (.inr rfl))

theorem insertStrike_length (e : Strike) (l : List Strike) : (insertStrike e l).length = l.length + 1 := by
  induction l with
  | nil => rfl
  | cons x xs ih => unfold insertStrike; split <;> simp [ih]

@[simp] theorem requestStrike_moves {s t : State} {l : LineIx} {n : Cyc} {vs : List PointIx} {fire : Time}
    (h : Moves q s t) : Moves q s (requestStrike l n vs fire t) := by
  induction vs generalizing fire t with
  | nil => exact h
  | cons v rest ih =>
    have inserted : ¬Config.strikeCapacity ≤ t.strikes.length →
        ∀ e, Moves q s { t with strikes := insertStrike e t.strikes } := fun hf e =>
      .step h (.strikes _ (by rw [insertStrike_length]; omega))
    unfold requestStrike
    dsimp only
    cases rest with
    | nil =>
      split_ifs
      · simp (maxDischargeDepth := 20) [h]
      · simp (maxDischargeDepth := 20) [h]
      · rename_i hf _; exact inserted hf _
      · rename_i hf _; exact inserted hf _
    | cons w ws =>
      split_ifs
      · exact ih (by simp (maxDischargeDepth := 20) [h])
      · simp (maxDischargeDepth := 20) [h]
      · rename_i hf _; exact ih (inserted hf _)
      · rename_i hf _; exact inserted hf _

@[simp] theorem withdrawStrikes_moves {s t : State} {l : LineIx} {ns : List Cyc} (h : Moves q s t) :
    Moves q s (withdrawStrikes l ns t) := .step h (.strikes _ (by have := List.length_filter_le (fun e : Strike => !(e.line == l && !e.detached && ns.contains e.track)) t.strikes; omega))

@[simp] theorem dropStrikesOf_moves {s t : State} {v : PointIx} (h : Moves q s t) : Moves q s (dropStrikesOf v t) :=
  .step h (.strikes _ (by have := List.length_filter_le (fun e : Strike => e.valve != v) t.strikes; omega))

@[simp] theorem detachStrikes_moves {s t : State} {l : LineIx} {n : Cyc} (h : Moves q s t) :
    Moves q s (detachStrikes l n t) := .step h (.strikes _ (by simp))

@[simp] theorem valveReported_moves {s t : State} {b : Bool} {v : PointIx} (h : Moves q s t) :
    Moves q s (valveReported b v t) := by
  unfold valveReported; dsimp only; split_ifs <;> simp (maxDischargeDepth := 20) [h]

theorem strikeFires_moves (s : State) : Moves q s (strikeFires s) := by
  unfold strikeFires
  split
  · exact .refl
  · rename_i e rest hs
    split
    · have h : Moves q s { s with strikes := rest } := .step .refl (.strikes _ (by simp [hs]))
      split <;> simp (maxDischargeDepth := 20) [h]
    · exact .refl

theorem holdEnds_moves (v : PointIx) (s : State) : Moves q s (holdEnds v s) := by
  unfold holdEnds; dsimp only; split <;> simp (maxDischargeDepth := 20) [Moves.refl]

theorem recoveryEnds_moves (v : PointIx) (s : State) : Moves q s (recoveryEnds v s) := by
  unfold recoveryEnds; dsimp only; split <;> simp (maxDischargeDepth := 20) [Moves.refl]

theorem feedbackEnds_moves (v : PointIx) (s : State) : Moves q s (feedbackEnds v s) := by
  unfold feedbackEnds; dsimp only; split_ifs <;> simp (maxDischargeDepth := 20) [Moves.refl]

end Sys2Proof.Machine
end

