-- ==== Sys2Proof/Laws/PlantMoves.lean ====
section
/-! SUPPORT. The handlers of the lines, doors, sirens, zones, trips, sparks, inputs and reports are runs of moves. -/

namespace Sys2Proof.Machine

variable {q : Allow}

/-! ## Lines -/

@[simp] theorem enterLineState_moves {s t : State} {l : LineIx} {st : LineState} (h : Moves q s t) :
    Moves q s (enterLineState l st t) := by
  unfold enterLineState; simp (maxDischargeDepth := 20) [h]

@[simp] theorem enterShut_moves {s t : State} {l : LineIx} (h : Moves q s t) : Moves q s (enterShut l t) := by
  unfold enterShut; simp (maxDischargeDepth := 20) [h]

@[simp] theorem testShut_moves {s t : State} {l : LineIx} (h : Moves q s t) : Moves q s (testShut l t) := by
  unfold testShut; split <;> simp (maxDischargeDepth := 20) [h]

@[simp] theorem claimLine_moves {s t : State} {l : LineIx} (h : Moves q s t) : Moves q s (claimLine l t) := by
  unfold claimLine; exact foldl_moves (fun _ _ hu => addClaim_moves hu) h

@[simp] theorem releaseClaims_moves {s t : State} {l : LineIx} (h : Moves q s t) : Moves q s (releaseClaims l t) := by
  unfold releaseClaims; exact foldl_moves (fun _ _ hu => removeClaim_moves hu) h

@[simp] theorem enterStopping_moves {s t : State} {l : LineIx} (h : Moves q s t) : Moves q s (enterStopping l t) := by
  unfold enterStopping; simp (maxDischargeDepth := 20) [h]

@[simp] theorem shutLine_moves {s t : State} {l : LineIx} (h : Moves q s t) : Moves q s (shutLine l t) := by
  unfold shutLine; split <;> simp (maxDischargeDepth := 20) [h]

@[simp] theorem shutByTrip_moves {s t : State} {l : LineIx} {k : TripIx} (h : Moves q s t) : Moves q s (shutByTrip l k t) := by
  unfold shutByTrip; refine shutLine_moves (h.modLine ?_ ?_) <;> split <;> rfl

@[simp] theorem enterDiverted_moves {s t : State} {l : LineIx} (h : Moves q s t) : Moves q s (enterDiverted l t) := by
  unfold enterDiverted; simp (maxDischargeDepth := 20) [h]

@[simp] theorem divertLine_moves {s t : State} {l : LineIx} (h : Moves q s t) : Moves q s (divertLine l t) := by
  unfold divertLine
  dsimp only
  split
  · split
    · split <;> simp (maxDischargeDepth := 20) [h]
    · simp (maxDischargeDepth := 20) [h]
  all_goals exact h

@[simp] theorem gateReported_moves {s t : State} {l : LineIx} {c : Code} (h : Moves q s t) :
    Moves q s (gateReported l c t) := by
  unfold gateReported; split <;> simp (maxDischargeDepth := 20) [h]

@[simp] theorem respondLine_moves {s t : State} {z : ZoneIx} {n : Level} {l : LineIx} (h : Moves q s t) :
    Moves q s (respondLine z n l t) := by
  unfold respondLine; dsimp only; split_ifs <;> simp (maxDischargeDepth := 20) [h]

@[simp] theorem blindAction_moves {s t : State} (h : Moves q s t) : Moves q s (blindAction t) := by
  unfold blindAction
  refine inAnyOrder_moves ?_ h
  simp only [List.mem_map, forall_exists_index, and_imp, forall_apply_eq_imp_iff₂]
  exact fun _ _ _ hu => shutLine_moves hu

@[simp] theorem releaseLine_moves {s t : State} {l : LineIx} (h : Moves q s t) : Moves q s (releaseLine l t) := by
  unfold releaseLine; dsimp only; split <;> simp (maxDischargeDepth := 20) [h]

theorem gateTravelEnds_moves (l : LineIx) (s : State) : Moves q s (gateTravelEnds l s) := by
  unfold gateTravelEnds; split <;> simp (maxDischargeDepth := 20) [Moves.refl]

theorem runDownEnds_moves (l : LineIx) (s : State) : Moves q s (runDownEnds l s) := by
  unfold runDownEnds; split <;> simp (maxDischargeDepth := 20) [Moves.refl]

/-! ## Doors -/

@[simp] theorem Door.clearFlags_cfg (r : Door) : r.clearFlags.cfg = r.cfg := rfl

@[simp] theorem clearFlags_moves {s t : State} {d : DoorIx} (h : Moves q s t) : Moves q s (t.modDoor d Door.clearFlags) :=
  h.modDoor rfl

@[simp] theorem enterDoorState_moves {s t : State} {d : DoorIx} {st : DoorState} (h : Moves q s t) :
    Moves q s (enterDoorState d st t) := by
  unfold enterDoorState; simp (maxDischargeDepth := 20) [h]

@[simp] theorem commandDoor_moves {s t : State} {d : DoorIx} {r : Requested} (h : Moves q s t) :
    Moves q s (commandDoor d r t) := by
  unfold commandDoor; split <;> simp (maxDischargeDepth := 20) [h]

@[simp] theorem enterOpen_moves {s t : State} {d : DoorIx} (h : Moves q s t) : Moves q s (enterOpen d t) := by
  unfold enterOpen; exact enterDoorState_moves (h.modDoor rfl)

@[simp] theorem enterClosed_moves {s t : State} {d : DoorIx} (h : Moves q s t) : Moves q s (enterClosed d t) := by
  unfold enterClosed; simp (maxDischargeDepth := 20) [h]

@[simp] theorem enterReleasing_moves {s t : State} {d : DoorIx} (h : Moves q s t) : Moves q s (enterReleasing d t) := by
  unfold enterReleasing; dsimp only; split <;> simp (maxDischargeDepth := 20) [h]

@[simp] theorem claimDoor_moves {s t : State} {d : DoorIx} (h : Moves q s t) : Moves q s (claimDoor d t) := by
  unfold claimDoor; exact foldl_moves (fun _ _ hu => addClaim_moves hu) h

@[simp] theorem unclaimDoor_moves {s t : State} {d : DoorIx} (h : Moves q s t) : Moves q s (unclaimDoor d t) := by
  unfold unclaimDoor
  refine inAnyOrder_moves ?_ h
  simp only [List.mem_map, forall_exists_index, and_imp, forall_apply_eq_imp_iff₂]
  exact fun _ _ _ hu => removeClaim_moves hu

@[simp] theorem finishRunOut_moves {s t : State} {d : DoorIx} (h : Moves q s t) : Moves q s (finishRunOut d t) := by
  unfold finishRunOut; simp (maxDischargeDepth := 20) [h]

@[simp] theorem forceRelease_moves {s t : State} {d : DoorIx} (h : Moves q s t) : Moves q s (forceRelease d t) := by
  unfold forceRelease; simp (maxDischargeDepth := 20) [h]

@[simp] theorem startRunOut_moves {s t : State} {d : DoorIx} (h : Moves q s t) : Moves q s (startRunOut d t) := by
  unfold startRunOut; split <;> simp (maxDischargeDepth := 20) [h]

@[simp] theorem enterClearing_moves {s t : State} {d : DoorIx} (h : Moves q s t) : Moves q s (enterClearing d t) := by
  unfold enterClearing
  dsimp only
  split_ifs
  · exact freely_moves (fun _ hu => finishRunOut_moves hu) (fun _ hu => forceRelease_moves hu)
      (by simp (maxDischargeDepth := 20) [h])
  · simp (maxDischargeDepth := 20) [h]
  · simp (maxDischargeDepth := 20) [h]

@[simp] theorem closeFromOpen_moves {s t : State} {d : DoorIx} (h : Moves q s t) : Moves q s (closeFromOpen d t) := by
  unfold closeFromOpen; split <;> simp (maxDischargeDepth := 20) [h]

@[simp] theorem closeFromClosed_moves {s t : State} {d : DoorIx} (h : Moves q s t) : Moves q s (closeFromClosed d t) := by
  unfold closeFromClosed; simp (maxDischargeDepth := 20) [h]

@[simp] theorem closeBegins_moves {s t : State} {d : DoorIx} (h : Moves q s t) : Moves q s (closeBegins d t) := by
  unfold closeBegins; split <;> simp (maxDischargeDepth := 20) [h]

@[simp] theorem decideClose_moves {s t : State} {d : DoorIx} (h : Moves q s t) : Moves q s (decideClose d t) := by
  unfold decideClose; dsimp only; split_ifs <;> simp (maxDischargeDepth := 20) [h]

@[simp] theorem leaveJam_moves {s t : State} {st : DoorState} (h : Moves q s t) : Moves q s (leaveJam st t) := by
  unfold leaveJam; split <;> simp (maxDischargeDepth := 20) [h]

@[simp] theorem doorReported_moves {s t : State} {d : DoorIx} {c : Code} (h : Moves q s t) :
    Moves q s (doorReported d c t) := by
  unfold doorReported
  dsimp only
  split <;> (try split_ifs) <;> simp (maxDischargeDepth := 20) [h]

@[simp] theorem conveyorReported_moves {s t : State} {d : DoorIx} (h : Moves q s t) : Moves q s (conveyorReported d t) := by
  unfold conveyorReported; split_ifs <;> simp (maxDischargeDepth := 20) [h]

@[simp] theorem restoreDoor_moves {s t : State} {d : DoorIx} (h : Moves q s t) : Moves q s (restoreDoor d t) := by
  unfold restoreDoor; dsimp only; split_ifs <;> simp (maxDischargeDepth := 20) [h]

@[simp] theorem resetDoor_moves {s t : State} {d : DoorIx} (h : Moves q s t) : Moves q s (resetDoor d t) := by
  unfold resetDoor; simp (maxDischargeDepth := 20) [h]

@[simp] theorem firstReport_moves {s t : State} {d : DoorIx} (h : Moves q s t) : Moves q s (firstReport d t) := by
  unfold firstReport
  dsimp only
  split
  · split
    · simp (maxDischargeDepth := 20) [h]
    · simp (maxDischargeDepth := 20) [h]
    · split <;> simp (maxDischargeDepth := 20) [h]
  · exact h

theorem runOutEnds_moves (d : DoorIx) (s : State) : Moves q s (runOutEnds d s) := by
  unfold runOutEnds; split <;> simp (maxDischargeDepth := 20) [Moves.refl]

theorem clearingEnds_moves (d : DoorIx) (s : State) : Moves q s (clearingEnds d s) := by
  unfold clearingEnds; split <;> simp (maxDischargeDepth := 20) [Moves.refl]

theorem closingEnds_moves (d : DoorIx) (s : State) : Moves q s (closingEnds d s) := by
  unfold closingEnds; split <;> simp (maxDischargeDepth := 20) [Moves.refl]

/-! ## Sirens -/

@[simp] theorem commandOutputs_moves {s t : State} {g : GroupIx} {r : Requested} (h : Moves q s t) :
    Moves q s (commandOutputs g r t) := by
  unfold commandOutputs; exact foldl_moves (fun _ _ hu => issue_moves hu) h

@[simp] theorem restartEngine_moves {s t : State} {g : GroupIx} {c : CadenceIx} (h : Moves q s t) :
    Moves q s (restartEngine g c t) := by
  unfold restartEngine; simp (maxDischargeDepth := 20) [h]

@[simp] theorem stopEngine_moves {s t : State} {g : GroupIx} (h : Moves q s t) : Moves q s (stopEngine g t) := by
  unfold stopEngine; simp (maxDischargeDepth := 20) [h]

@[simp] theorem startCadence_moves {s t : State} {g : GroupIx} {c : CadenceIx} (h : Moves q s t) :
    Moves q s (startCadence g c t) := by
  unfold startCadence
  exact restartEngine_moves (Moves.modGroup (foldl_moves (fun _ _ hu => issue_moves hu) h) rfl)

@[simp] theorem startWinner_moves {s t : State} {g : GroupIx} {c : CadenceIx} (h : Moves q s t) :
    Moves q s (startWinner g c t) := by
  unfold startWinner; simp (maxDischargeDepth := 20) [h]

@[simp] theorem quietGroup_moves {s t : State} {g : GroupIx} (h : Moves q s t) : Moves q s (quietGroup g t) := by
  unfold quietGroup
  exact stopEngine_moves (Moves.modGroup (foldl_moves (fun _ _ hu => issue_moves hu) h) rfl)

@[simp] theorem takeWinner_moves {s t : State} {g : GroupIx} {w : ZoneIx × CadenceIx} (h : Moves q s t) :
    Moves q s (takeWinner g w t) := by
  unfold takeWinner; split
  · split <;> simp (maxDischargeDepth := 20) [h]
  · simp (maxDischargeDepth := 20) [h]

@[simp] theorem arbitrateGroup_moves {s t : State} {g : GroupIx} (h : Moves q s t) : Moves q s (arbitrateGroup g t) := by
  unfold arbitrateGroup; split
  · exact h
  · split <;> simp (maxDischargeDepth := 20) [h]

@[simp] theorem emptiedGroup_moves {s t : State} {g : GroupIx} (h : Moves q s t) : Moves q s (emptiedGroup g t) := by
  unfold emptiedGroup; dsimp only; split <;> simp (maxDischargeDepth := 20) [h]

@[simp] theorem requestsChanged_moves {s t : State} {g : GroupIx} (h : Moves q s t) : Moves q s (requestsChanged g t) := by
  unfold requestsChanged; split <;> simp (maxDischargeDepth := 20) [h]

@[simp] theorem changeRequest_moves {s t : State} {g : GroupIx} {z : ZoneIx} {c : Option CadenceIx} (h : Moves q s t) :
    Moves q s (changeRequest g z c t) := by
  unfold changeRequest; split <;> simp (maxDischargeDepth := 20) [h]

@[simp] theorem respondSirens_moves {s t : State} {z : ZoneIx} {n : Level} (h : Moves q s t) :
    Moves q s (respondSirens z n t) := by
  unfold respondSirens; split <;> simp (maxDischargeDepth := 20) [h]

@[simp] theorem silenceGroup_moves {s t : State} {g : GroupIx} (h : Moves q s t) : Moves q s (silenceGroup g t) := by
  unfold silenceGroup; dsimp only; split <;> simp (maxDischargeDepth := 20) [h]

@[simp] theorem testGroup_moves {s t : State} {g : GroupIx} (h : Moves q s t) : Moves q s (testGroup g t) := by
  unfold testGroup; dsimp only; split <;> simp (maxDischargeDepth := 20) [h]

@[simp] theorem restartPlaying_moves {s t : State} {g : GroupIx} {c : CadenceIx} (h : Moves q s t) :
    Moves q s (restartPlaying g c t) := by
  unfold restartPlaying; split <;> simp (maxDischargeDepth := 20) [h]

@[simp] theorem cadenceWritten_moves {s t : State} {c : CadenceIx} {k : Cadence} (h : Moves q s t) :
    Moves q s (cadenceWritten c k t) := by
  unfold cadenceWritten
  dsimp only
  split
  · refine inAnyOrder_moves ?_ (inAnyOrder_moves ?_ h)
    all_goals simp only [List.mem_map, forall_exists_index, and_imp, forall_apply_eq_imp_iff₂]
    · exact fun _ _ _ hu => arbitrateGroup_moves hu
    · exact fun _ _ _ hu => restartPlaying_moves hu
  · exact h

theorem writeGroup_moves {s t : State} {g : GroupIx} {c : GroupCfg} (ha : q.tables)
    (hc : groupOk t.device.own t.pointCfg t.groupCfg g c = true) (h : Moves q s t) : Moves q s (writeGroup g c t) := by
  have hq : Moves plain t (quietGroup g t) := quietGroup_moves .refl
  have hg : groupOk (quietGroup g t).device.own (quietGroup g t).pointCfg (quietGroup g t).groupCfg g c = true := by
    rw [hq.device, show (quietGroup g t).pointCfg = t.pointCfg from funext hq.cfg,
      show (quietGroup g t).groupCfg = t.groupCfg from funext (hq.groupCfg id)]
    exact hc
  have h' : ∀ f : Group → Group, (∀ r, (f r).cfg = c) → Moves q s ((quietGroup g t).modGroup g f) := fun f hf =>
    .step (quietGroup_moves h) (.group g f (.inl ⟨ha, by rw [hf]; exact hg⟩))
  unfold writeGroup
  dsimp only
  split_ifs
  · exact Moves.modGroup (h' _ fun _ => rfl) rfl
  · exact arbitrateGroup_moves (Moves.modGroup (h' _ fun _ => rfl) rfl)
  · exact .step h (.group g _ (.inl ⟨ha, hc⟩))

@[simp] theorem enginePhase_moves {s t : State} {g : GroupIx} {k : Cadence} {d : Time} (h : Moves q s t) :
    Moves q s (enginePhase g k d t) := by
  unfold enginePhase; split_ifs <;> simp (maxDischargeDepth := 20) [h]

theorem phaseEnds_moves (g : GroupIx) (s : State) : Moves q s (phaseEnds g s) := by
  unfold phaseEnds; split
  · split <;> simp (maxDischargeDepth := 20) [Moves.refl]
  · exact .refl

/-- The loop sirens of a group are not local. -/
theorem loopSirens_isLoop {s : State} {g : GroupIx} {i : PointIx} (h : i ∈ s.loopSirens g) : s.isLoop i = true := by
  simp only [State.loopSirens, List.mem_filter, Bool.and_eq_true] at h
  exact h.2.2

theorem recordQuiets_moves {s t : State} {l : List PointIx} (hl : ∀ i ∈ l, s.isLoop i = true) (h : Moves q s t) :
    Moves q s (l.foldl (fun u i => recordQuiet i u) t) := by
  induction l generalizing t with
  | nil => exact h
  | cons i l ih =>
    refine ih (fun j hj => hl j (List.mem_cons_of_mem _ hj)) (recordQuiet_moves h ?_)
    rw [h.isLoop]; exact hl i List.mem_cons_self

theorem cadenceEnds_moves (g : GroupIx) (s : State) : Moves q s (cadenceEnds g s) := by
  unfold cadenceEnds
  dsimp only
  split
  · have h : Moves q s ((s.loopSirens g).foldl (fun u i => recordQuiet i u)
        (stopEngine g (s.modGroup g fun r => { r with endAt := none }))) :=
      recordQuiets_moves (fun _ hi => loopSirens_isLoop hi) (by simp (maxDischargeDepth := 20) [Moves.refl])
    split <;> first | exact h | exact Moves.modGroup h rfl
  · exact .refl

/-! ## Zones -/

theorem countSpark_moves {s t : State} {z : ZoneIx} (hr : q.raise) (ha : q.window) (h : Moves q s t) : Moves q s (countSpark z t) :=
  raiseTrigger_moves (.inl hr) (h.modWindow ha rfl (.inr rfl))

theorem slotEnds_moves (hr : q.raise) (ha : q.window) (z : ZoneIx) (s : State) : Moves q s (slotEnds z s) := by
  unfold slotEnds
  split
  · exact raiseTrigger_moves (.inl hr) (Moves.modWindow .refl ha rfl (.inr rfl))
  · exact .refl

@[simp] theorem respondLines_moves {s t : State} {z : ZoneIx} {n : Level} (h : Moves q s t) :
    Moves q s (respondLines z n t) := by
  unfold respondLines
  refine inAnyOrder_moves ?_ h
  simp only [List.mem_map, forall_exists_index, and_imp, forall_apply_eq_imp_iff₂]
  exact fun _ _ _ hu => respondLine_moves hu

@[simp] theorem respondDoors_moves {s t : State} {z : ZoneIx} (h : Moves q s t) : Moves q s (respondDoors z t) := by
  unfold respondDoors
  refine inAnyOrder_moves ?_ h
  simp only [List.mem_map, forall_exists_index, and_imp, forall_apply_eq_imp_iff₂]
  exact fun _ _ _ hu => decideClose_moves hu

@[simp] theorem respond_moves {s t : State} {z : ZoneIx} {n : Level} (h : Moves q s t) : Moves q s (respond z n t) := by
  unfold respond
  refine inAnyOrder_moves ?_ h
  simp only [List.mem_cons, List.not_mem_nil, or_false, forall_eq_or_imp, forall_eq]
  exact ⟨fun _ hu => respondLines_moves hu, fun _ hu => respondDoors_moves hu, fun _ hu => respondSirens_moves hu⟩

theorem changeLevel_moves {s t : State} {z : ZoneIx} {n : Level} (h : Moves q s t)
    (hn : q.raise ∧ (t.zone z).level.rank < n.rank ∨ q.quiet ∧ n = .quiet) : Moves q s (changeLevel z n t) := by
  unfold changeLevel
  refine respond_moves (raiseTrigger_moves (hn.imp And.left And.left) (notify_moves (.step h (.zone z _ ?_ (.inr ?_) (.inr rfl)))))
  · exact .inr hn
  · exact Zone.sameWindow_of

@[simp] theorem raiseZone_moves {s t : State} {z : ZoneIx} {n : Level} (hr : q.raise) (h : Moves q s t) : Moves q s (raiseZone z n t) := by
  unfold raiseZone; split
  · rename_i hn; exact changeLevel_moves h (.inl ⟨hr, hn⟩)
  · exact h

@[simp] theorem zoneEscape_moves {s t : State} {z : ZoneIx} (hr : q.raise) (h : Moves q s t) : Moves q s (zoneEscape z t) := by
  unfold zoneEscape; simp (maxDischargeDepth := 20) [hr, h]

@[simp] theorem zoneFlame_moves {s t : State} {z : ZoneIx} {b : Bool} (hr : q.raise) (h : Moves q s t) : Moves q s (zoneFlame z b t) := by
  unfold zoneFlame; split <;> simp (maxDischargeDepth := 20) [hr, h]

@[simp] theorem zoneCall_moves {s t : State} {z : ZoneIx} {b : Bool} (hr : q.raise) (h : Moves q s t) : Moves q s (zoneCall z b t) := by
  unfold zoneCall; split <;> simp (maxDischargeDepth := 20) [hr, h]

theorem resetZone_moves {s t : State} {z : ZoneIx} (hq : q.quiet) (ha : q.window) (h : Moves q s t) :
    Moves q s (resetZone z t) := by
  have h' : Moves q s (t.modZone z Zone.clearWindow) := h.modWindow ha rfl (.inr rfl)
  unfold resetZone; dsimp only; split
  · exact h'
  · exact changeLevel_moves h' (.inr ⟨hq, rfl⟩)

@[simp] theorem moveRequest_moves {s t : State} {z : ZoneIx} {g : Option GroupIx} (h : Moves q s t) :
    Moves q s (moveRequest z g t) := by
  unfold moveRequest; split <;> simp (maxDischargeDepth := 20) [h]

theorem writeZone_moves {s t : State} {z : ZoneIx} {c : ZoneCfg} (ht : q.tables) (hc : c.rangesOk = true) (ha : q.window)
    (h : Moves q s t) : Moves q s (writeZone z c t) := by
  unfold writeZone
  dsimp only
  split
  · refine moveRequest_moves (h.modWindow ha ?_ (.inl ⟨ht, ?_⟩)) <;> split <;> first | rfl | exact hc
  · refine h.modWindow ha ?_ (.inl ⟨ht, ?_⟩) <;> split <;> first | rfl | exact hc

/-! ## Trips -/

@[simp] theorem tripOutput_moves {s t : State} {o : OutputIx} {r : Requested} (h : Moves q s t) :
    Moves q s (tripOutput o r t) := by
  unfold tripOutput; split
  · split <;> simp (maxDischargeDepth := 20) [h]
  · exact h

@[simp] theorem executeAction_moves {s t : State} {k : TripIx} {v : Int} {a : Action} (hr : q.raise) (h : Moves q s t) :
    Moves q s (executeAction k v a t) := by
  unfold executeAction; split <;> simp (maxDischargeDepth := 20) [hr, h]

@[simp] theorem executeTrue_moves {s t : State} {k : TripIx} {v : Int} (hr : q.raise) (h : Moves q s t) : Moves q s (executeTrue k v t) := by
  unfold executeTrue; simp (maxDischargeDepth := 20) [hr, h]

@[simp] theorem executeFalse_moves {s t : State} {k : TripIx} {v : Int} (hr : q.raise) (h : Moves q s t) :
    Moves q s (executeFalse k v t) := by
  unfold executeFalse; simp (maxDischargeDepth := 20) [hr, h]

@[simp] theorem Trip.sameCfg_spend (r : Trip) : r.SameCfg r.spend := rfl

@[simp] theorem evaluateTrip_moves {s t : State} {k : TripIx} (hr : q.raise) (h : Moves q s t) : Moves q s (evaluateTrip k t) := by
  unfold evaluateTrip
  dsimp only
  split
  · exact h
  · split <;> simp (maxDischargeDepth := 20) [hr, h]
  · split
    · simp (maxDischargeDepth := 20) [h]
    · split_ifs <;> simp (maxDischargeDepth := 20) [hr, h]
  · split <;> simp (maxDischargeDepth := 20) [hr, h]

@[simp] theorem takeTrigger_moves {s t : State} {e : Trigger} (hr : q.raise) (h : Moves q s t) : Moves q s (takeTrigger e t) := by
  unfold takeTrigger
  refine foldl_moves (fun _ _ hu => ?_) h
  split
  · exact evaluateTrip_moves hr hu
  · exact hu

@[simp] theorem settleTriggers_moves {s t : State} {n : Nat} (hr : q.raise) (h : Moves q s t) : Moves q s (settleTriggers n t) := by
  induction n generalizing t with
  | zero => exact h
  | succ n ih =>
    unfold settleTriggers
    split
    · exact h
    · exact ih (takeTrigger_moves hr (.step h (.triggers _ (.inl hr))))

@[simp] theorem settle_moves {s t : State} (hr : q.raise) (h : Moves q s t) : Moves q s (settle t) := by unfold settle; simp (maxDischargeDepth := 20) [hr, h]

theorem tickTaken_moves (hr : q.raise) (s : State) : Moves q s (tickTaken s) := by
  unfold tickTaken; split <;> simp (maxDischargeDepth := 20) [hr, Moves.refl]

theorem writeTrip_moves {s t : State} {k : TripIx} {c : TripCfg} (ha : q.tables) (hc : c.rangesOk = true) (h : Moves q s t) :
    Moves q s (writeTrip k c t) := .step h (.trip k _ (.inl ⟨ha, hc⟩))

/-! ## Sparks -/

@[simp] theorem testStormEnd_moves {s t : State} {l : LineIx} (h : Moves q s t) : Moves q s (testStormEnd l t) := by
  unfold testStormEnd; split <;> simp (maxDischargeDepth := 20) [h]

theorem dropWhile_length_le {α : Type} (p : α → Bool) (l : List α) : (l.dropWhile p).length ≤ l.length :=
  (List.dropWhile_suffix p).length_le

@[simp] theorem retireReached_moves {s t : State} {l : LineIx} (h : Moves q s t) : Moves q s (retireReached l t) := by
  unfold retireReached
  refine testStormEnd_moves (foldl_moves (fun _ _ hu => detachStrikes_moves hu) (.step h (.line l _ ?_ (.inr rfl))))
  have := dropWhile_length_le (fun k : Track => reached t.clock k.endTime) (t.line l).tracks
  simp only [Line.setRetire]
  omega

@[simp] theorem clearForFlood_moves {s t : State} {l : LineIx} (h : Moves q s t) : Moves q s (clearForFlood l t) := by
  unfold clearForFlood
  dsimp only
  split
  · simp (maxDischargeDepth := 20) [h]
  · refine retireReached_moves (openNow_moves (withdrawStrikes_moves (testStormEnd_moves (.step h (.line l _ ?_ (.inr rfl))))))
    have := List.length_filter_le (fun k : Track => k.state == .passed) (t.line l).tracks
    simp only [Line.setRetire]
    omega

@[simp] theorem enterFlood_moves {s t : State} {l : LineIx} (h : Moves q s t) : Moves q s (enterFlood l t) := by
  unfold enterFlood; simp (maxDischargeDepth := 20) [h]

@[simp] theorem leaveFlood_moves {s t : State} {l : LineIx} (h : Moves q s t) : Moves q s (leaveFlood l t) := by
  unfold leaveFlood; simp (maxDischargeDepth := 20) [h]

@[simp] theorem recomputeSpeed_moves {s t : State} {l : LineIx} (h : Moves q s t) : Moves q s (recomputeSpeed l t) := by
  unfold recomputeSpeed; dsimp only; split_ifs <;> simp (maxDischargeDepth := 20) [h]

@[simp] theorem airReport_moves {s t : State} {i : PointIx} {l : LineIx} {v : Nat} {a : Time} (h : Moves q s t) :
    Moves q s (airReport i l v a t) := by
  unfold airReport; simp (maxDischargeDepth := 20) [h]

theorem trackedCase_moves {s t : State} {l : LineIx} {i : PointIx} {p : Nat} {a : Time} (h : Moves q s t)
    (hl : (t.line l).tracks.length < Config.trackCapacity) : Moves q s (trackedCase l i p a t) := by
  unfold trackedCase
  dsimp only
  have h' : Moves q s (t.modLine l fun r => r.join (t.newTrack l i p a)) := by
    refine .step h (.line l _ ?_ (.inr rfl))
    simp only [Line.join, List.length_append, List.length_singleton]
    omega
  split
  · exact requestStrike_moves h'
  · exact h'

@[simp] theorem countUntracked_moves {s t : State} {l : LineIx} (h : Moves q s t) : Moves q s (countUntracked l t) := by
  unfold countUntracked; simp (maxDischargeDepth := 20) [h]

@[simp] theorem enterStorm_moves {s t : State} {l : LineIx} (h : Moves q s t) : Moves q s (enterStorm l t) := by
  unfold enterStorm; split <;> simp (maxDischargeDepth := 20) [h]

@[simp] theorem stormCase_moves {s t : State} {l : LineIx} (h : Moves q s t) : Moves q s (stormCase l t) := by
  unfold stormCase; simp (maxDischargeDepth := 20) [h]

@[simp] theorem floodCase_moves {s t : State} {l : LineIx} {p : Nat} (h : Moves q s t) : Moves q s (floodCase l p t) := by
  unfold floodCase; simp (maxDischargeDepth := 20) [h]

@[simp] theorem detectionCases_moves {s t : State} {l : LineIx} {i : PointIx} {p : Nat} {a : Time} (h : Moves q s t) :
    Moves q s (detectionCases l i p a t) := by
  unfold detectionCases
  dsimp only
  split_ifs with hs
  · simp (maxDischargeDepth := 20) [h]
  · simp (maxDischargeDepth := 20) [h]
  · exact trackedCase_moves h (by simp only [not_or, not_le] at hs; exact hs.1)

@[simp] theorem countEscape_moves {s t : State} {l : LineIx} {z : Option ZoneIx} (hr : q.raise) (h : Moves q s t) :
    Moves q s (countEscape l z t) := by
  unfold countEscape; dsimp only; split <;> simp (maxDischargeDepth := 20) [hr, h]

@[simp] theorem measureSpeed_moves {s t : State} {l : LineIx} {k : Track} {p : Nat} {a : Time} (h : Moves q s t) :
    Moves q s (measureSpeed l k p a t) := by
  unfold measureSpeed
  dsimp only
  split
  · refine recomputeSpeed_moves (h.modLine rfl ?_)
    simp only [Line.SameCfg]
    split <;> rfl
  · exact h

@[simp] theorem confirmTrack_moves {s t : State} {l : LineIx} {k : Track} {p : Nat} {a : Time} (h : Moves q s t) :
    Moves q s (confirmTrack l k p a t) := by
  unfold confirmTrack; dsimp only; split <;> simp (maxDischargeDepth := 20) [h]

@[simp] theorem markMatched_moves {s t : State} {l : LineIx} {n : Cyc} {p : Nat} (h : Moves q s t) :
    Moves q s (markMatched l n p t) := .step h (.line l _ (by simp) (.inr rfl))

@[simp] theorem raiseEscapeAndSpark_moves {s t : State} {l : LineIx} (hr : q.raise) (h : Moves q s t) :
    Moves q s (raiseEscapeAndSpark l t) := by
  unfold raiseEscapeAndSpark; simp (maxDischargeDepth := 20) [hr, h]

@[simp] theorem checkDetection_moves {s t : State} {l : LineIx} {i : PointIx} {p : Nat} {a : Time} {z : Option ZoneIx}
    (hr : q.raise) (h : Moves q s t) : Moves q s (checkDetection l i p a z t) := by
  unfold checkDetection
  dsimp only
  split
  · split <;> simp (maxDischargeDepth := 20) [hr, h]
  · split <;> simp (maxDischargeDepth := 20) [hr, h]

@[simp] theorem sparkReport_moves {s t : State} {i : PointIx} {l : LineIx} {a : Time} (hr : q.raise) (h : Moves q s t) :
    Moves q s (sparkReport i l a t) := by
  unfold sparkReport; dsimp only; split <;> simp (maxDischargeDepth := 20) [hr, h]

@[simp] theorem flameReport_moves {s t : State} {i : PointIx} {l : LineIx} {b : Bool} (h : Moves q s t) :
    Moves q s (flameReport i l b t) := by
  unfold flameReport; split <;> simp (maxDischargeDepth := 20) [h]

theorem sampleExpires_moves (i : PointIx) (s : State) : Moves q s (sampleExpires i s) := by
  unfold sampleExpires; split
  · split <;> simp (maxDischargeDepth := 20) [Moves.refl]
  · exact .refl

theorem retireEnds_moves (l : LineIx) (s : State) : Moves q s (retireEnds l s) := by
  unfold retireEnds; split <;> simp (maxDischargeDepth := 20) [Moves.refl]

theorem recordEnds_moves (l : LineIx) (n : Cyc) (s : State) : Moves q s (recordEnds l n s) := by
  unfold recordEnds; split
  · exact .refl
  · rename_i hs
    split
    · exact .step .refl (.line l _ (by simp (maxDischargeDepth := 20) [hs]) (.inr rfl))
    · exact .refl

/-! ## Inputs -/

@[simp] theorem contactEdge_moves {s t : State} {p : PointIx} {b : Bool} (h : Moves q s t) : Moves q s (contactEdge p b t) := by
  unfold contactEdge; simp (maxDischargeDepth := 20) [h]

@[simp] theorem deliverCall_moves {s t : State} {p : PointIx} {b : Bool} (hr : q.raise) (h : Moves q s t) : Moves q s (deliverCall p b t) := by
  unfold deliverCall; split <;> simp (maxDischargeDepth := 20) [hr, h]

@[simp] theorem deliverFlame_moves {s t : State} {p : PointIx} {b : Bool} (hr : q.raise) (h : Moves q s t) :
    Moves q s (deliverFlame p b t) := by
  unfold deliverFlame; split <;> simp (maxDischargeDepth := 20) [hr, h]

@[simp] theorem trackFlame_moves {s t : State} {p : PointIx} {b : Bool} (h : Moves q s t) : Moves q s (trackFlame p b t) := by
  unfold trackFlame; split <;> simp (maxDischargeDepth := 20) [h]

@[simp] theorem edgeActs_moves {s t : State} {i : InputIx} {b : Bool} (hr : q.raise) (h : Moves q s t) : Moves q s (edgeActs i b t) := by
  unfold edgeActs
  dsimp only
  split
  · simp (maxDischargeDepth := 20) [hr, h]
  · split
    · exact eitherOrder_moves (fun _ hu => by simp (maxDischargeDepth := 20) [hr, hu]) (fun _ hu => by simp (maxDischargeDepth := 20) [hr, hu]) (contactEdge_moves h)
    · refine inAnyOrder_moves ?_ (contactEdge_moves h)
      simp only [List.mem_cons, List.not_mem_nil, or_false, forall_eq_or_imp, forall_eq]
      exact ⟨fun _ hu => by simp (maxDischargeDepth := 20) [hr, hu], fun _ hu => by simp (maxDischargeDepth := 20) [hr, hu], fun _ hu => trackFlame_moves hu⟩
    all_goals simp (maxDischargeDepth := 20) [hr, h]

theorem inputEdge_moves {s t : State} {i : InputIx} (hr : q.raise) (ha : q.inputs) (h : Moves q s t) : Moves q s (inputEdge i t) := by
  have h' : ∀ f, Moves q s (t.modInput i f) := fun _ => h.modInput ha
  unfold inputEdge; dsimp only; split <;> simp (maxDischargeDepth := 20) [hr, h']

theorem startDebounce_moves {s t : State} {i : InputIx} (hr : q.raise) (ha : q.inputs) (h : Moves q s t) :
    Moves q s (startDebounce i t) := by
  unfold startDebounce; split
  · exact inputEdge_moves hr ha h
  · exact h.modInput ha

theorem rawLevelChanges_moves (hr : q.raise) (ha : q.inputs) (i : InputIx) (b : Bool) (s : State) : Moves q s (rawLevelChanges i b s) := by
  have h' : ∀ f, Moves q s (s.modInput i f) := fun _ => Moves.refl.modInput ha
  unfold rawLevelChanges; dsimp only; split_ifs
  · exact .refl
  · exact h' _
  · exact (h' _).modInput ha
  · exact startDebounce_moves hr ha (h' _)

theorem debounceEnds_moves (hr : q.raise) (ha : q.inputs) (i : InputIx) (s : State) : Moves q s (debounceEnds i s) := by
  unfold debounceEnds; split
  · exact inputEdge_moves hr ha .refl
  · exact .refl

@[simp] theorem contactFromLevel_moves {s t : State} {p : PointIx} (h : Moves q s t) : Moves q s (contactFromLevel p t) := by
  unfold contactFromLevel; dsimp only; split
  · split <;> simp (maxDischargeDepth := 20) [h]
  · exact h

/-! ## Reports -/

@[simp] theorem passOn_moves {s t : State} {b : Bool} {i : PointIx} {c : Code} (h : Moves q s t) : Moves q s (passOn b i c t) := by
  unfold passOn
  dsimp only
  split
  · simp (maxDischargeDepth := 20) [h]
  · split <;> simp (maxDischargeDepth := 20) [h]
  · split <;> simp (maxDischargeDepth := 20) [h]
  · refine inAnyOrder_moves ?_ h
    simp only [List.mem_map, forall_exists_index, and_imp, forall_apply_eq_imp_iff₂]
    exact fun _ _ _ hu => conveyorReported_moves hu
  · refine inAnyOrder_moves ?_ h
    simp only [List.mem_map, forall_exists_index, and_imp, forall_apply_eq_imp_iff₂]
    exact fun _ _ _ hu => doorReported_moves hu
  all_goals exact h

@[simp] theorem takeCode_moves {s t : State} {i : PointIx} {c : Code} (h : Moves q s t) : Moves q s (takeCode i c t) := by
  unfold takeCode; split <;> simp (maxDischargeDepth := 20) [h]

@[simp] theorem setObscured_moves {s t : State} {i : PointIx} {b : Bool} (h : Moves q s t) : Moves q s (setObscured i b t) := by
  unfold setObscured; split <;> simp (maxDischargeDepth := 20) [h]

@[simp] theorem statusReport_moves {s t : State} {i : PointIx} {c : Code} {b : Bool} (h : Moves q s t) :
    Moves q s (statusReport i c b t) := by
  unfold statusReport; simp (maxDischargeDepth := 20) [h]

@[simp] theorem trackSpark_moves {s t : State} {i : PointIx} {a : Time} (hr : q.raise) (h : Moves q s t) : Moves q s (trackSpark i a t) := by
  unfold trackSpark; split <;> simp (maxDischargeDepth := 20) [hr, h]

theorem deliverSpark_moves {s t : State} {i : PointIx} (hr : q.raise) (ha : q.window) (h : Moves q s t) :
    Moves q s (deliverSpark i t) := by
  unfold deliverSpark; split
  · exact countSpark_moves hr ha h
  · exact h

@[simp] theorem deliverAir_moves {s t : State} {i : PointIx} {v : Nat} {a : Time} (h : Moves q s t) :
    Moves q s (deliverAir i v a t) := by
  unfold deliverAir; split <;> simp (maxDischargeDepth := 20) [h]

theorem handOn_moves {s t : State} {i : PointIx} {r : Report} {a : Time} (hr : q.raise) (ha : q.window) (h : Moves q s t) :
    Moves q s (handOn i r a t) := by
  unfold handOn
  split
  · exact eitherOrder_moves (fun _ hu => settle_moves hr (trackSpark_moves hr hu))
      (fun _ hu => settle_moves hr (deliverSpark_moves hr ha hu)) h
  · exact eitherOrder_moves (fun _ hu => by simp (maxDischargeDepth := 20) [hr, hu])
      (fun _ hu => by simp (maxDischargeDepth := 20) [hu]) h
  all_goals simp (maxDischargeDepth := 20) [hr, h]

theorem deliver_moves {s t : State} {i : PointIx} {r : Report} {a : Time} (hr : q.raise) (ha : q.window) (hc : q.classifier)
    (h : Moves q s t) : Moves q s (deliver i r a t) := by
  unfold deliver
  dsimp only
  refine handOn_moves hr ha (heard_moves (Moves.modPoint (.step h (.classifier _ hc)) rfl rfl id))

theorem badValue_moves {s t : State} {i : PointIx} {a : Time} (hc : q.classifier) (h : Moves q s t) :
    Moves q s (badValue i a t) := by
  unfold badValue; exact heard_moves (.step h (.classifier _ hc))

theorem unmapped_moves {s t : State} (hc : q.classifier) (h : Moves q s t) : Moves q s (unmapped t) :=
  .step h (.classifier _ hc)

theorem takeReport_moves {s t : State} {f : Frame} (hr : q.raise) (ha : q.window) (hc : q.classifier) (h : Moves q s t) :
    Moves q s (takeReport f t) := by
  unfold takeReport; split
  · exact unmapped_moves hc h
  · split
    · exact badValue_moves hc h
    · exact deliver_moves hr ha hc h

theorem classify_moves {s t : State} {f : Frame} (hr : q.raise) (ha : q.window) (hc : q.classifier) (h : Moves q s t) :
    Moves q s (classify f t) := by
  unfold classify; split
  · exact takeReport_moves hr ha hc h
  · exact h

end Sys2Proof.Machine
end

