-- ==== Sys2Proof/Laws/CommandMoves.lean ====
section
/-! SUPPORT. What a command does as a whole, said once: every command but the start-up events, a frame's arrival, a Write, a
Set Mode and a Restart is a run of moves (`exec_moves`). -/

namespace Sys2Proof.Machine

variable {q : Allow}

/-! ## The Drive Unit's events -/

@[simp] theorem repeatCommand_moves {s t : State} {i : PointIx} (h : Moves q s t) : Moves q s (repeatCommand i t) := by
  unfold repeatCommand; split <;> simp (maxDischargeDepth := 20) [h]

@[simp] theorem setDisagree_moves {s t : State} {i : PointIx} (h : Moves q s t) : Moves q s (setDisagree i t) := by
  unfold setDisagree; simp (maxDischargeDepth := 20) [h]

theorem repeatEnds_moves (i : PointIx) (s : State) : Moves q s (repeatEnds i s) := by
  unfold repeatEnds; split_ifs <;> simp (maxDischargeDepth := 20) [Moves.refl]

theorem disagreementEnds_moves (i : PointIx) (s : State) : Moves q s (disagreementEnds i s) := by
  unfold disagreementEnds; split_ifs <;> simp (maxDischargeDepth := 20) [Moves.refl]

theorem pollDue_moves (i : PointIx) (s : State) : Moves q s (pollDue i s) := by
  unfold pollDue; split
  · exact Moves.modDrive (joinRoutine_moves .refl) rfl id
  · exact .refl

theorem supervisionEnds_moves (i : PointIx) (s : State) : Moves q s (supervisionEnds i s) := by
  unfold supervisionEnds; split
  · exact recountFaults_moves (Moves.modDrive .refl rfl id)
  · exact .refl

/-! ## Commits and the Management Unit's deadlines -/

theorem startCommit_moves {s t : State} (ha : q.mgmt) (h : Moves q s t) : Moves q s (startCommit t) := h.modMgmt ha

theorem failCommit_moves {s t : State} (ha : q.mgmt) (h : Moves q s t) : Moves q s (failCommit t) := by
  unfold failCommit
  exact notify_moves (.step (.step h (.memory .unreadable ha)) (.mgmt _ ha))

theorem commitEnds_moves (ha : q.mgmt) (r : ReadBack) (s : State) : Moves q s (commitEnds r s) := by
  unfold commitEnds
  split
  · exact .refl
  · split
    · rename_i c _ _
      exact notify_moves (.step (.step .refl (.memory (.image Config.partCode c.content) ha)) (.mgmt _ ha))
    · exact failCommit_moves ha .refl

theorem commitLapses_moves (ha : q.mgmt) (s : State) : Moves q s (commitLapses s) := by
  unfold commitLapses
  split
  · exact .refl
  · split
    · exact failCommit_moves ha .refl
    · exact .refl

theorem stagingEnds_moves (ha : q.mgmt) (s : State) : Moves q s (stagingEnds s) := by
  unfold stagingEnds; split
  · split
    · exact Moves.modMgmt .refl ha
    · exact .refl
  · exact .refl

theorem previousEnds_moves (ha : q.loop) (s : State) : Moves q s (previousEnds s) := by
  unfold previousEnds; split
  · split
    · exact Moves.modPort .refl ⟨id, id, id, id, fun _ => id⟩ (.inl ha)
    · exact .refl
  · exact .refl

/-! ## The Loop Port's events -/

theorem upstreamChanged_moves {s t : State} {b : Bool} (ha : q.loop) (h : Moves q s t) : Moves q s (upstreamChanged b t) := by
  unfold upstreamChanged
  have h' : Moves q s (notify .loopCondition 0 (if b then 1 else 0) (t.modPort fun p => { p with upstreamLost := b })) :=
    notify_moves (Moves.modPort h ⟨id, id, id, id, fun _ => id⟩ (.inl ha))
  generalize notify .loopCondition 0 (if b then 1 else 0) (t.modPort fun p => { p with upstreamLost := b }) = u at *
  dsimp only
  split_ifs
  · exact eitherOrder_moves (fun _ hu => recountFaults_moves hu) (fun _ hu => blindAction_moves hu) h'
  · exact recountFaults_moves h'
  · exact h'

theorem restartSilence_moves {s t : State} (ha : q.loop) (h : Moves q s t) : Moves q s (restartSilence t) := by
  unfold restartSilence
  have h' : Moves q s (t.modPort fun p => { p with silenceAt := some (after t.clock t.device.silenceLimit) }) :=
    Moves.modPort h ⟨id, id, id, id, fun _ => id⟩ (.inl ha)
  split
  · exact h
  · dsimp only
    split
    · exact upstreamChanged_moves ha h'
    · exact h'

theorem setDownstream_moves {s t : State} {b : Bool} (ha : q.loop) (h : Moves q s t) : Moves q s (setDownstream b t) := by
  unfold setDownstream; split
  · exact h
  · exact notify_moves (Moves.modPort h ⟨id, id, id, id, fun _ => id⟩ (.inl ha))

theorem Port.takeReturn_kept {f : Frame} {p q : Port} (h : p.takeReturn f = some q) : p.Kept q := by
  unfold Port.takeReturn at h
  rw [Option.map_eq_some_iff] at h
  obtain ⟨k, -, rfl⟩ := h
  refine ⟨id, id, id, fun hr => ?_, fun _ => id⟩
  simp only [List.length_drop]
  omega

theorem matchReturn_moves {s t : State} {f : Frame} (ha : q.loop) (h : Moves q s t) : Moves q s (matchReturn f t) := by
  unfold matchReturn; split
  · rename_i p hp
    exact setDownstream_moves ha (.step h (.port p (Port.takeReturn_kept hp) (.inl ha)))
  · exact h

theorem classifyFrame_moves {s t : State} {f : Frame} (hr : q.raise) (hw : q.window) (hc : q.classifier) (h : Moves q s t) : Moves q s (classifyFrame f t) := by
  unfold classifyFrame; split
  · exact h
  · exact classify_moves hr hw hc h

theorem transmissionEnds_moves (s : State) : Moves q s (transmissionEnds s) := by
  unfold transmissionEnds; split
  · exact Moves.modPort .refl (Port.arbitrate_kept ..) (.inr (Port.arbitrate_sameLoop ..))
  · exact .refl

theorem returnEnds_moves (ha : q.loop) (s : State) : Moves q s (returnEnds s) := by
  unfold returnEnds; split
  · exact .refl
  · rename_i r rest hr
    split
    · refine setDownstream_moves ha (Moves.modPort .refl ⟨id, id, id, fun h => ?_, fun _ => id⟩ (.inl ha))
      simp only [hr, List.length_cons] at h
      exact Nat.le_of_succ_le h
    · exact .refl

theorem silenceEnds_moves (ha : q.loop) (s : State) : Moves q s (silenceEnds s) := by
  unfold silenceEnds
  have h' : Moves q s (s.modPort fun p => { p with silenceAt := none }) :=
    Moves.modPort .refl ⟨id, id, id, id, fun _ => id⟩ (.inl ha)
  split
  · dsimp only
    split
    · exact h'
    · exact upstreamChanged_moves ha h'
  · exact .refl

/-! ## Requests -/

theorem answer_moves {s t : State} {rq : Request} {checks : List (Bool × ReplyCode)} {f : State → State} (h : Moves q s t)
    (hf : Moves q s (f t)) : Moves q s (answer rq checks f t) := by
  unfold answer; split
  · exact h
  · split
    · exact reply_moves h
    · exact hf

theorem doneWith_moves {s t : State} {rq : Request} {f : State → State} (h : Moves q s t)
    (hf : ∀ u, Moves q s u → Moves q s (f u)) : Moves q s (doneWith rq f t) :=
  eitherOrder_moves hf (fun _ hu => reply_moves hu) h

theorem replyData_moves {s t : State} {rq : Request} {parts : List (List Byte)} (h : Moves q s t) :
    Moves q s (replyData rq t parts) :=
  foldl_moves (fun _ _ hu => joinRoutine_moves hu) h

/-- A Done Reply beside an effect, from the two states the effect can start from. -/
theorem doneWith_moves_of {s t : State} {rq : Request} {f : State → State} (h1 : Moves q s (f t))
    (h2 : Moves q s (f (reply rq .done t))) : Moves q s (doneWith rq f t) := by
  unfold doneWith eitherOrder
  dsimp only
  split
  · exact reply_moves h1
  · split
    · exact .step (reply_moves h1) (.draws _)
    · exact .step h2 (.draws _)

theorem writeLine_moves {s t : State} {l : LineIx} {c : LineCfg} (ha : q.tables)
    (hc : lineOk t.pointCfg (t.membersOf l) c = true) (h : Moves q s t) : Moves q s (writeLine l c t) := by
  have h' : Moves q s (t.modLine l fun r => { r with cfg := c }) :=
    .step h (.line l _ (Nat.le_max_left _ _) (.inl ⟨ha, hc⟩))
  unfold writeLine
  dsimp only
  split
  · exact recomputeSpeed_moves h'
  · exact h'

theorem writeDoor_moves {s t : State} {d : DoorIx} {c : DoorCfg} (ha : q.tables)
    (hc : doorOk t.pointCfg t.doorCfg d c = true) (h : Moves q s t) : Moves q s (writeDoor d c t) := by
  have hr : Moves plain t (resetDoor d t) := resetDoor_moves .refl
  have hd : doorOk (resetDoor d t).pointCfg (resetDoor d t).doorCfg d c = true := by
    rw [show (resetDoor d t).pointCfg = t.pointCfg from funext hr.cfg,
      show (resetDoor d t).doorCfg = t.doorCfg from funext (hr.doorCfg id)]
    exact hc
  unfold writeDoor; split
  · exact recountFaults_moves (firstReport_moves (.step (resetDoor_moves h) (.door d _ (.inl ⟨ha, hd⟩))))
  · exact .step h (.door d _ (.inl ⟨ha, hc⟩))

theorem writeCadence_moves {s t : State} {c : CadenceIx} {k : Cadence} (ha : q.cadences) (hk : k.rangesOk = true)
    (h : Moves q s t) : Moves q s (writeCadence c k t) := cadenceWritten_moves (.step h (.cadence c k hk ha))

/-- What a completed two-half write does. -/
theorem secondEffect_moves {s t u : State} {rq : Request} {a : List Byte} (ht : q.tables) (ha : q.window)
    (hu : Moves plain u t) (h : Moves q s t) : Moves q s (((u.secondEffect rq a).getD id) t) := by
  have hp : t.pointCfg = u.pointCfg := funext hu.cfg
  have hd : t.doorCfg = u.doorCfg := funext (hu.doorCfg id)
  unfold State.secondEffect
  split
  · split
    · split
      · rename_i hc
        exact writeLine_moves ht (by rw [hp]; simp only [State.membersOf, hu.members]; exact hc) h
      · exact h
    · exact h
  · split
    · split
      · rename_i hc; exact writeZone_moves ht hc ha h
      · exact h
    · exact h
  · split
    · split
      · rename_i hc; exact writeTrip_moves ht hc h
      · exact h
    · exact h
  · split
    · split
      · rename_i hc
        exact writeDoor_moves ht (by rw [hp, hd]; exact hc) h
      · exact h
    · exact h
  · exact h

/-- What a Write does to a siren group or a cadence. -/
theorem writeEffect_moves {s t u : State} {rq : Request} (ht : q.tables) (ha : q.cadences) (hu : Moves plain u t)
    (h : Moves q s t) (h0 : rq.table ≠ 0) (h1 : rq.table ≠ 1) :
    Moves q s (((u.writeEffect rq).getD id) t) := by
  unfold State.writeEffect
  split
  · contradiction
  · contradiction
  · split
    · split
      · rename_i hc
        refine writeGroup_moves ht ?_ h
        rw [hu.device, show t.pointCfg = u.pointCfg from funext hu.cfg,
          show t.groupCfg = u.groupCfg from funext (hu.groupCfg id)]
        exact hc
      · exact h
    · exact h
  · split
    · split
      · rename_i hc; exact writeCadence_moves ha hc h
      · exact h
    · exact h
  · exact h

/-- Clear Counters of any entry but the Device record. -/
theorem clearEntry_moves {s t : State} {table index : Nat} (h : Moves q s t) (h0 : table ≠ 0) :
    Moves q s (clearEntry table index t) := by
  unfold clearEntry
  split
  · contradiction
  · split
    · exact h.modPoint (by unfold Point.clearCounters; split <;> rfl) (by unfold Point.clearCounters; split <;> rfl)
        (by unfold Point.clearCounters; split <;> exact id)
    · exact h
  · split
    · unfold clearLine
      exact foldl_moves (fun _ _ hu => hu.modValve) (h.modLine rfl (Line.sameCfg_of rfl))
    · exact h
  · split
    · exact h.modZone rfl Zone.sameWindow_of rfl
    · exact h
  · split
    · exact h.modDoor rfl
    · exact h
  · split
    · exact h.modGroup rfl
    · exact h
  · exact h

theorem takeRead_moves {s t : State} {rq : Request} (h : Moves q s t) : Moves q s (takeRead rq t) := by
  unfold takeRead; exact answer_moves h (replyData_moves h)

theorem takeReadGroup_moves {s t : State} {rq : Request} (h : Moves q s t) : Moves q s (takeReadGroup rq t) := by
  unfold takeReadGroup; exact answer_moves h (replyData_moves h)

theorem takeWriteFirst_moves {s t : State} {rq : Request} (ha : q.mgmt) (h : Moves q s t) : Moves q s (takeWriteFirst rq t) :=
  answer_moves h (reply_moves (h.modMgmt ha))

theorem takeWriteSecond_moves {s t : State} {rq : Request} (ht : q.tables) (ha : q.mgmt) (hw : q.window) (h : Moves q s t) : Moves q s (takeWriteSecond rq t) := by
  refine answer_moves h ?_
  dsimp only
  split
  · exact reply_moves (h.modMgmt ha)
  · exact answer_moves (h.modMgmt ha) (doneWith_moves_of (secondEffect_moves ht hw .refl (h.modMgmt ha))
      (secondEffect_moves ht hw (reply_moves .refl) (reply_moves (h.modMgmt ha))))

theorem takeWrite_moves {s t : State} {rq : Request} (ht : q.tables) (ha : q.cadences) (h : Moves q s t) (h0 : rq.table ≠ 0) (h1 : rq.table ≠ 1) :
    Moves q s (takeWrite rq t) := by
  unfold takeWrite
  refine answer_moves h ?_
  rw [if_neg h0]
  exact doneWith_moves_of (writeEffect_moves ht ha .refl h h0 h1)
    (writeEffect_moves ht ha (reply_moves .refl) (reply_moves h) h0 h1)

theorem takeResetZone_moves {s t : State} {rq : Request} (hr : q.raise) (hq : q.quiet) (hw : q.window) (h : Moves q s t) : Moves q s (takeResetZone rq t) := by
  unfold takeResetZone; split
  · exact answer_moves h (doneWith_moves h fun _ hu => settle_moves hr (resetZone_moves hq hw hu))
  · exact answer_moves h h

theorem takeReleaseLine_moves {s t : State} {rq : Request} (h : Moves q s t) : Moves q s (takeReleaseLine rq t) := by
  unfold takeReleaseLine; split
  · refine answer_moves h (doneWith_moves h fun _ hu => ?_)
    split
    · exact hu
    · exact releaseLine_moves hu
  · exact answer_moves h h

theorem takeRestoreDoor_moves {s t : State} {rq : Request} (h : Moves q s t) : Moves q s (takeRestoreDoor rq t) := by
  unfold takeRestoreDoor; split
  · exact answer_moves h (doneWith_moves h fun _ hu => restoreDoor_moves hu)
  · exact answer_moves h h

theorem takeSilenceGroup_moves {s t : State} {rq : Request} (h : Moves q s t) : Moves q s (takeSilenceGroup rq t) := by
  unfold takeSilenceGroup; split
  · exact answer_moves h (doneWith_moves h fun _ hu => silenceGroup_moves hu)
  · exact answer_moves h h

theorem takeSirenTest_moves {s t : State} {rq : Request} (h : Moves q s t) : Moves q s (takeSirenTest rq t) := by
  unfold takeSirenTest; split
  · exact answer_moves h (doneWith_moves h fun _ hu => testGroup_moves hu)
  · exact answer_moves h h

theorem takeClearCounters_moves {s t : State} {rq : Request} (h : Moves q s t) (h0 : rq.table ≠ 0) :
    Moves q s (takeClearCounters rq t) :=
  answer_moves h (doneWith_moves h fun _ hu => clearEntry_moves hu h0)

theorem takeCommit_moves {s t : State} {rq : Request} (ha : q.mgmt) (h : Moves q s t) : Moves q s (takeCommit rq t) :=
  answer_moves h (reply_moves (startCommit_moves ha h))

/-! ## Every ordinary command -/

/-- The commands that are runs of moves, whatever the state. -/
def ordinary : Instr → Bool
  | .powerOn | .resetPin | .imageReadComplete _ | .loadingTimeout | .frameArrival _ | .setMode _ | .restart _ => false
  | .write rq => decide (rq.table ≠ 0 ∧ rq.table ≠ 1)
  | .clearCounters rq => decide (rq.table ≠ 0)
  | _ => true

/-- What an ordinary command may change. -/
def allowOf : Instr → Allow
  | .sampleExpiry _ | .tick => { plain with raise := True }
  | .slotEnd _ => { plain with raise := True, window := True }
  | .resetZone _ => { plain with raise := True, quiet := True, window := True }
  | .returnDeadline | .silenceDeadline | .previousStationDeadline => { plain with loop := True }
  | .rawLevelChange _ _ | .debounceDeadline _ => { plain with raise := True, inputs := True }
  | .stagingDeadline | .writeFirst _ | .commit _ | .commitCompletion _ | .commitTimeout => { plain with mgmt := True }
  | .writeSecond _ => { plain with tables := True, mgmt := True, window := True }
  | .write _ => { plain with tables := True, cadences := True }
  | _ => plain

/-- What an ordinary command does: it completes, by a run of moves within its allowance. -/
theorem exec_moves (c : Instr) (s : State) (hc : ordinary c = true) :
    ∃ t, exec c s = .next t ∧ Moves (allowOf c) s t := by
  cases c with
  | powerOn | resetPin | imageReadComplete | loadingTimeout | frameArrival | setMode | restart => cases hc
  | sampleExpiry i => exact ⟨_, rfl, settle_moves trivial (sampleExpires_moves i s)⟩
  | retireDeadline l => exact ⟨_, rfl, retireEnds_moves l s⟩
  | recordEndTime l n => exact ⟨_, rfl, recordEnds_moves l n s⟩
  | strikeEntryFireTime => exact ⟨_, rfl, strikeFires_moves s⟩
  | holdDeadline v => exact ⟨_, rfl, holdEnds_moves v s⟩
  | recoveryDeadline v => exact ⟨_, rfl, recoveryEnds_moves v s⟩
  | feedbackDeadline v => exact ⟨_, rfl, feedbackEnds_moves v s⟩
  | slotEnd z => exact ⟨_, rfl, settle_moves trivial (slotEnds_moves trivial trivial z s)⟩
  | tick => exact ⟨_, rfl, tickTaken_moves trivial s⟩
  | gateTravelDeadline l => exact ⟨_, rfl, gateTravelEnds_moves l s⟩
  | runDownDeadline l => exact ⟨_, rfl, runDownEnds_moves l s⟩
  | runOutDeadline d => exact ⟨_, rfl, runOutEnds_moves d s⟩
  | clearingDeadline d => exact ⟨_, rfl, clearingEnds_moves d s⟩
  | closingDeadline d => exact ⟨_, rfl, closingEnds_moves d s⟩
  | cadenceEndDeadline g => exact ⟨_, rfl, cadenceEnds_moves g s⟩
  | phaseDeadline g => exact ⟨_, rfl, phaseEnds_moves g s⟩
  | repeatDeadline i => exact ⟨_, rfl, repeatEnds_moves i s⟩
  | disagreementDeadline i => exact ⟨_, rfl, disagreementEnds_moves i s⟩
  | supervisionPoll i => exact ⟨_, rfl, pollDue_moves i s⟩
  | supervisionLimit i => exact ⟨_, rfl, supervisionEnds_moves i s⟩
  | rawLevelChange i b => exact ⟨_, rfl, rawLevelChanges_moves trivial trivial i b s⟩
  | debounceDeadline i => exact ⟨_, rfl, debounceEnds_moves trivial trivial i s⟩
  | transmissionCompletion => exact ⟨_, rfl, transmissionEnds_moves s⟩
  | returnDeadline => exact ⟨_, rfl, returnEnds_moves trivial s⟩
  | silenceDeadline => exact ⟨_, rfl, silenceEnds_moves trivial s⟩
  | previousStationDeadline => exact ⟨_, rfl, previousEnds_moves trivial s⟩
  | stagingDeadline => exact ⟨_, rfl, stagingEnds_moves trivial s⟩
  | read rq => exact ⟨_, rfl, takeRead_moves .refl⟩
  | readGroup rq => exact ⟨_, rfl, takeReadGroup_moves .refl⟩
  | write rq =>
    have hw := of_decide_eq_true hc
    exact ⟨_, rfl, takeWrite_moves trivial trivial .refl hw.1 hw.2⟩
  | writeFirst rq => exact ⟨_, rfl, takeWriteFirst_moves trivial .refl⟩
  | writeSecond rq => exact ⟨_, rfl, takeWriteSecond_moves trivial trivial trivial .refl⟩
  | resetZone rq => exact ⟨_, rfl, takeResetZone_moves trivial trivial trivial .refl⟩
  | releaseLine rq => exact ⟨_, rfl, takeReleaseLine_moves .refl⟩
  | restoreDoor rq => exact ⟨_, rfl, takeRestoreDoor_moves .refl⟩
  | silenceGroup rq => exact ⟨_, rfl, takeSilenceGroup_moves .refl⟩
  | sirenTest rq => exact ⟨_, rfl, takeSirenTest_moves .refl⟩
  | clearCounters rq => exact ⟨_, rfl, takeClearCounters_moves .refl (of_decide_eq_true hc)⟩
  | commit rq => exact ⟨_, rfl, takeCommit_moves trivial .refl⟩
  | commitCompletion r => exact ⟨_, rfl, commitEnds_moves trivial r s⟩
  | commitTimeout => exact ⟨_, rfl, commitLapses_moves trivial s⟩

end Sys2Proof.Machine
end

