-- ==== Sys2Proof/Laws/Kept.lean ====
section
/-! SUPPORT. What a run of moves keeps: the capacities, the balance of the Loop Port, the pins and the maps in good order, and
every part of the state its allowance does not name. -/

namespace Sys2Proof.Machine

variable {q : Allow}

theorem Move.withinCapacity {s t : State} (m : Move q s t) (h : s.withinCapacity) : t.withinCapacity := by
  obtain ⟨h1, h2, h3, h4, h5, h6⟩ := h
  cases m with
  | line l f hf =>
    refine ⟨h1, h2, h3, h4, h5, fun k => ?_⟩
    rw [State.line_modLine_if]
    have hl := h6 l
    split
    · omega
    · exact h6 k
  | port p hp => exact ⟨hp.through h1, hp.urgent h2, hp.routine h3, hp.returns h4, h5, h6⟩
  | strikes l hl => exact ⟨h1, h2, h3, h4, by dsimp only; omega, h6⟩
  | _ => exact ⟨h1, h2, h3, h4, h5, h6⟩

theorem Move.balance {s t : State} {k : Nat} (m : Move q s t) (h : s.port.balance k) : t.port.balance k := by
  cases m with
  | port p hp => exact hp.balance k h
  | _ => exact h

theorem Moves.withinCapacity {s t : State} (h : Moves q s t) (hs : s.withinCapacity) : t.withinCapacity :=
  h.keeps (P := State.withinCapacity) (fun m => m.withinCapacity) hs

theorem Moves.balance {s t : State} {k : Nat} (h : Moves q s t) (hs : s.port.balance k) : t.port.balance k :=
  h.keeps (P := fun s => s.port.balance k) (fun m => m.balance) hs

/-! ## Graded facts: a fact with a number, of which each handler uses up its weight, in whatever order they run -/

/-- A run of handlers in any order, where each uses up its weight of a graded fact. -/
theorem pickOrder_graded {B : Nat → State → Prop} (hd : ∀ k u n, B k u → B k { u with draws := n }) (n : Nat)
    (fs : List ((State → State) × Nat)) (hn : fs.length = n) (hf : ∀ f ∈ fs, ∀ k u, B (k + f.2) u → B k (f.1 u)) (k : Nat)
    (s : State) (hs : B (k + (fs.map (·.2)).sum) s) : B k (pickOrder n (fs.map (·.1)) s) := by
  induction n generalizing fs s with
  | zero =>
    cases fs with
    | nil => exact hs
    | cons => cases hn
  | succ n ih =>
    cases fs with
    | nil => cases hn
    | cons f fs =>
      simp only [List.map_cons]
      unfold pickOrder
      dsimp only
      rw [List.length_map]
      generalize hj : Config.choice s.draws % (fs.length + 1) = j
      have hlt : j < (f :: fs).length := by rw [← hj]; exact Nat.mod_lt _ (Nat.succ_pos _)
      have e : f.1 :: List.map (fun x => x.1) fs = (f :: fs).map (fun x => x.1) := rfl
      have e2 : ((f :: fs).map (fun x => x.1)).eraseIdx j = ((f :: fs).eraseIdx j).map (fun x => x.1) := by
        rw [List.eraseIdx_eq_take_drop_succ, List.eraseIdx_eq_take_drop_succ, List.map_append, List.map_take, List.map_drop]
      rw [e, e2, List.getElem?_map, List.getElem?_eq_getElem hlt]
      apply ih
      · rw [List.length_eraseIdx_of_lt hlt]; simp at hn ⊢; exact hn
      · intro g hg; exact hf g (List.mem_of_mem_eraseIdx hg)
      · apply hf _ (List.getElem_mem hlt)
        apply hd
        have hp : ((f :: fs).map (·.2)).sum = (((f :: fs).eraseIdx j).map (·.2)).sum + ((f :: fs)[j]).2 := by
          have := (List.getElem_cons_eraseIdx_perm hlt).map (·.2)
          have := this.sum_eq
          simp at this ⊢
          omega
        rw [hp] at hs
        rw [Nat.add_assoc]; exact hs

theorem inAnyOrder_graded {B : Nat → State → Prop} (hd : ∀ k u n, B k u → B k { u with draws := n })
    (fs : List ((State → State) × Nat)) (hf : ∀ f ∈ fs, ∀ k u, B (k + f.2) u → B k (f.1 u)) (k : Nat) (s : State)
    (hs : B (k + (fs.map (·.2)).sum) s) : B k (inAnyOrder (fs.map (·.1)) s) := by
  have two : ∀ f g : (State → State) × Nat, (∀ k u, B (k + f.2) u → B k (f.1 u)) → (∀ k u, B (k + g.2) u → B k (g.1 u)) →
      ∀ s, B (k + (f.2 + g.2)) s → B k (eitherOrder f.1 g.1 s) := by
    intro f g hf hg s hs
    have h1 : B k (g.1 (f.1 s)) := hg _ _ (hf _ _ (by rw [Nat.add_assoc, Nat.add_comm g.2]; exact hs))
    have h2 : B k (f.1 (g.1 s)) := hf _ _ (hg _ _ (by rw [Nat.add_assoc]; exact hs))
    unfold eitherOrder; dsimp only
    split
    · exact h1
    · split
      · exact hd _ _ _ h1
      · exact hd _ _ _ h2
  match fs with
  | [] => exact hs
  | [f] => exact hf f (by simp) _ _ (by simpa using hs)
  | [f, g] => exact two f g (hf f (by simp)) (hf g (by simp)) s (by simpa [Nat.add_assoc] using hs)
  | f :: g :: h :: fs => 
    show B k (pickOrder _ ((f :: g :: h :: fs).map (·.1)) s)
    exact pickOrder_graded hd _ _ (by simp) hf k s hs

/-- A fact that each handler keeps, whatever the order. -/
theorem inAnyOrder_keeps {P : State → Prop} (hd : ∀ u n, P u → P { u with draws := n }) {fs : List (State → State)}
    (hf : ∀ f ∈ fs, ∀ u, P u → P (f u)) {s : State} (hs : P s) : P (inAnyOrder fs s) := by
  have := inAnyOrder_graded (B := fun _ => P) (fun _ => hd) (fs.map fun f => (f, 0)) ?_ 0 s hs
  · simpa [Function.comp_def] using this
  · simp only [List.mem_map, forall_exists_index, and_imp]
    rintro _ f hm rfl _ u hu
    exact hf f hm u hu

/-! ## Pins and maps -/

theorem State.findPoint_congr {s t : State} (h : ∀ i, (t.point i).cfg = (s.point i).cfg) (a b : Byte) :
    t.findPoint a b = s.findPoint a b := by
  unfold State.findPoint; simp only [h]

theorem State.outputPoint_congr {s t : State} (h : ∀ i, (t.point i).cfg = (s.point i).cfg) (hd : t.device = s.device)
    (o : OutputIx) : t.outputPoint o = s.outputPoint o := by
  unfold State.outputPoint; rw [hd, State.findPoint_congr h]

/-- The point an output pin follows is local. -/
theorem State.outputPoint_isLocal {s : State} {o : OutputIx} {i : PointIx} (h : s.outputPoint o = some i) :
    s.isLocal i = true := by
  have := List.find?_some h
  simp only [Bool.and_eq_true] at this
  simp only [State.isLocal, Bool.and_eq_true]
  exact ⟨this.1.1, this.1.2⟩

/-- A pin's level depends on the mode, the Device record, the configuration parts and the commanded states of local points. -/
theorem State.pinShould_congr {s t : State} (hm : t.mode = s.mode) (hd : t.device = s.device)
    (hc : ∀ i, (t.point i).cfg = (s.point i).cfg)
    (hk : ∀ i, s.isLocal i = true → (t.point i).drive.commanded = (s.point i).drive.commanded) (o : OutputIx) :
    t.pinShould o = s.pinShould o := by
  unfold State.pinShould
  rw [hm, State.outputPoint_congr hc hd]
  cases h : s.outputPoint o with
  | none => rfl
  | some i => simp only [hk i (State.outputPoint_isLocal h)]

theorem syncPins_pinsFollow (s : State) : (syncPins s).pinsFollow := by
  intro o
  unfold State.output syncPins
  simp only [Vector.getElem_ofFn]
  rfl

theorem Move.pinsFollow {s t : State} (m : Move q s t) (h : s.pinsFollow) : t.pinsFollow := by
  cases m with
  | point i f hc hm ht =>
    intro o
    have hcfg := Move.cfg (Move.point (q := q) (s := s) i f hc hm ht)
    rw [State.pinShould_congr (s := s) (t := s.modPoint i f) rfl rfl hcfg _ o]
    · exact h o
    · intro j hj
      rw [State.point_modPoint_if]
      split
      · rename_i e; subst e
        rcases hm with hm | hm
        · rw [hm] at hj; cases hj
        · exact hm
      · rfl
  | command => exact syncPins_pinsFollow _
  | pins => exact syncPins_pinsFollow _
  | _ => exact h

theorem Moves.pinsFollow {s t : State} (h : Moves q s t) (hs : s.pinsFollow) : t.pinsFollow :=
  h.keeps (P := State.pinsFollow) (fun m => m.pinsFollow) hs

theorem Moves.mapsFollow {s t : State} (h : Moves q s t) (hs : s.mapsFollow) : t.mapsFollow := by
  intro l
  have hc : t.pointCfg = s.pointCfg := funext h.cfg
  have hl : t.membersOf l = s.membersOf l := by simp only [State.membersOf, h.members]
  rw [hc, hl]
  exact hs l

/-! ## What an allowance leaves alone -/

theorem Moves.levels {s t : State} (h : Moves q s t) (hq : ¬q.quiet) (z : ZoneIx) :
    (s.zone z).level.rank ≤ (t.zone z).level.rank := by
  refine h.keeps (P := fun u => (s.zone z).level.rank ≤ (u.zone z).level.rank) (fun m hu => ?_) (Nat.le_refl _)
  cases m with
  | zone w f hf =>
    rw [State.zone_modZone_if]
    split
    · rename_i e; subst e
      rcases hf with hf | hf | hf
      · rw [hf]; exact hu
      · exact Nat.le_trans hu (Nat.le_of_lt hf.2)
      · exact absurd hf.1 hq
    · exact hu
  | _ => exact hu

theorem Moves.sameLevels {s t : State} (h : Moves q s t) (hr : ¬q.raise) (hq : ¬q.quiet) (z : ZoneIx) :
    (t.zone z).level = (s.zone z).level := by
  refine h.keeps (P := fun u => (u.zone z).level = (s.zone z).level) (fun m hu => ?_) rfl
  cases m with
  | zone w f hf =>
    rw [State.zone_modZone_if]
    split
    · rename_i e; subst e
      rcases hf with hf | hf | hf
      · rw [hf]; exact hu
      · exact absurd hf.1 hr
      · exact absurd hf.1 hq
    · exact hu
  | _ => exact hu

theorem Zone.SameWindow.trans {a b c : Zone} (h : a.SameWindow b) (g : b.SameWindow c) : a.SameWindow c := by
  unfold Zone.SameWindow at *
  simp only [h, g, and_self]

theorem Moves.windows {s t : State} (h : Moves q s t) (hq : ¬q.window) (z : ZoneIx) : (s.zone z).SameWindow (t.zone z) := by
  refine h.keeps (P := fun u => (s.zone z).SameWindow (u.zone z)) (fun m hu => ?_) ⟨rfl, rfl, rfl, rfl⟩
  cases m with
  | zone w f _ hw _ =>
    rw [State.zone_modZone_if]
    split
    · rename_i e; subst e
      rcases hw with hw | hw
      · exact absurd hw hq
      · exact hu.trans hw
    · exact hu
  | _ => exact hu

/-- Without the allowance of tables, configuration parts stand, but for a calibration mode and a trip's mode (R42, R87). -/
theorem Moves.tables {s t : State} (h : Moves q s t) (hq : ¬q.tables) :
    (∀ l, (s.line l).SameCfg (t.line l)) ∧ (∀ k, (s.trip k).SameCfg (t.trip k)) ∧
      (∀ d, (t.door d).cfg = (s.door d).cfg) ∧ (∀ g, (t.group g).cfg = (s.group g).cfg) ∧
      ∀ z, (t.zone z).cfg = (s.zone z).cfg := by
  refine h.keeps (P := fun u => (∀ l, (s.line l).SameCfg (u.line l)) ∧ (∀ k, (s.trip k).SameCfg (u.trip k)) ∧
    (∀ d, (u.door d).cfg = (s.door d).cfg) ∧ (∀ g, (u.group g).cfg = (s.group g).cfg) ∧
    ∀ z, (u.zone z).cfg = (s.zone z).cfg) (fun m hu => ?_)
    ⟨fun _ => rfl, fun _ => rfl, fun _ => rfl, fun _ => rfl, fun _ => rfl⟩
  obtain ⟨h1, h2, h3, h4, h5⟩ := hu
  cases m with
  | line l f _ hc =>
    refine ⟨fun k => ?_, h2, h3, h4, h5⟩
    rw [State.line_modLine_if]
    split
    · rename_i e; subst e
      have a := h1 k
      have b := hc.resolve_left fun h => hq h.1
      unfold Line.SameCfg at *
      rw [b, a]
    · exact h1 k
  | trip k f hc =>
    refine ⟨h1, fun j => ?_, h3, h4, h5⟩
    rw [State.trip_modTrip_if]
    split
    · rename_i e; subst e
      have a := h2 j
      have b := hc.resolve_left fun h => hq h.1
      unfold Trip.SameCfg at *
      rw [b, a]
    · exact h2 j
  | door d f hc =>
    refine ⟨h1, h2, fun j => ?_, h4, h5⟩
    rw [State.door_modDoor_if]
    split
    · rename_i e; subst e
      rw [hc.resolve_left fun h => hq h.1]; exact h3 j
    · exact h3 j
  | group g f hc =>
    refine ⟨h1, h2, h3, fun j => ?_, h5⟩
    rw [State.group_modGroup_if]
    split
    · rename_i e; subst e
      rw [hc.resolve_left fun h => hq h.1]; exact h4 j
    · exact h4 j
  | zone z f _ _ hc =>
    refine ⟨h1, h2, h3, h4, fun j => ?_⟩
    rw [State.zone_modZone_if]
    split
    · rename_i e; subst e
      rw [hc.resolve_left fun h => hq h.1]; exact h5 j
    · exact h5 j
  | _ => exact ⟨h1, h2, h3, h4, h5⟩

theorem Moves.loop {s t : State} (h : Moves q s t) (hq : ¬q.loop) : s.port.SameLoop t.port := by
  refine h.keeps (P := fun u => s.port.SameLoop u.port) (fun m hu => ?_) (Port.SameLoop.refl _)
  cases m with
  | port p _ hl =>
    rcases hl with hl | hl
    · exact absurd hl hq
    · exact hu.trans hl
  | _ => exact hu

theorem Moves.inputs {s t : State} (h : Moves q s t) (hq : ¬q.inputs) : t.inputs = s.inputs := by
  refine h.keeps (P := fun u => u.inputs = s.inputs) (fun m hu => ?_) rfl
  cases m with
  | input _ _ ha => exact absurd ha hq
  | _ => exact hu

theorem Moves.mgmt {s t : State} (h : Moves q s t) (hq : ¬q.mgmt) : t.mgmt = s.mgmt ∧ t.memory = s.memory := by
  refine h.keeps (P := fun u => u.mgmt = s.mgmt ∧ u.memory = s.memory) (fun m hu => ?_) ⟨rfl, rfl⟩
  cases m with
  | mgmt _ ha => exact absurd ha hq
  | memory _ ha => exact absurd ha hq
  | _ => exact hu

theorem Moves.cadences {s t : State} (h : Moves q s t) (hq : ¬q.cadences) : t.cadences = s.cadences := by
  refine h.keeps (P := fun u => u.cadences = s.cadences) (fun m hu => ?_) rfl
  cases m with
  | cadence _ _ _ ha => exact absurd ha hq
  | _ => exact hu

theorem Moves.classifier {s t : State} (h : Moves q s t) (hq : ¬q.classifier) : t.classifier = s.classifier := by
  refine h.keeps (P := fun u => u.classifier = s.classifier) (fun m hu => ?_) rfl
  cases m with
  | classifier _ ha => exact absurd ha hq
  | _ => exact hu

end Sys2Proof.Machine
end

