-- ==== Sys2Proof/Laws/DriveFrame.lean ====
section
/-! SUPPORT. The frame of the Drive Unit: a command, a claim, a test or a notice changes points it names, the zones' fault
counts, the Loop Port and the output pins, and nothing else of the part. -/

namespace Sys2Proof.Machine

/-- `t` differs from `s` by what the Drive Unit does on the points `on`. -/
structure DriveOnly (on : PointIx → Prop) (s t : State) : Prop where
  rest : t = { s with points := t.points, zones := t.zones, port := t.port, outputs := t.outputs, draws := t.draws }
  point : ∀ j, ¬on j → t.point j = s.point j
  zone : ∀ z, t.zone z = { s.zone z with faults := (t.zone z).faults }

variable {on : PointIx → Prop}

theorem DriveOnly.refl (s : State) : DriveOnly on s s := ⟨rfl, fun _ _ => rfl, fun _ => rfl⟩

theorem DriveOnly.trans {s t u : State} (h : DriveOnly on s t) (g : DriveOnly on t u) : DriveOnly on s u where
  rest := by
    have h1 := h.rest
    have g1 := g.rest
    rw [g1, h1]
  point j hj := by rw [g.point j hj, h.point j hj]
  zone z := by
    have h1 := h.zone z
    have g1 := g.zone z
    rw [g1, h1]

theorem DriveOnly.mono {on' : PointIx → Prop} {s t : State} (h : DriveOnly on s t) (hm : ∀ j, on j → on' j) :
    DriveOnly on' s t := ⟨h.rest, fun j hj => h.point j fun hn => hj (hm j hn), h.zone⟩

theorem DriveOnly.lines {s t : State} (h : DriveOnly on s t) : t.lines = s.lines := by rw [h.rest]
theorem DriveOnly.line {s t : State} (h : DriveOnly on s t) (l : LineIx) : t.line l = s.line l := by
  simp only [State.line, h.lines]
theorem DriveOnly.doors {s t : State} (h : DriveOnly on s t) : t.doors = s.doors := by rw [h.rest]
theorem DriveOnly.door {s t : State} (h : DriveOnly on s t) (d : DoorIx) : t.door d = s.door d := by
  simp only [State.door, h.doors]
theorem DriveOnly.groups {s t : State} (h : DriveOnly on s t) : t.groups = s.groups := by rw [h.rest]
theorem DriveOnly.group {s t : State} (h : DriveOnly on s t) (g : GroupIx) : t.group g = s.group g := by
  simp only [State.group, h.groups]
theorem DriveOnly.strikes {s t : State} (h : DriveOnly on s t) : t.strikes = s.strikes := by rw [h.rest]
theorem DriveOnly.clock {s t : State} (h : DriveOnly on s t) : t.clock = s.clock := by rw [h.rest]
theorem DriveOnly.mode {s t : State} (h : DriveOnly on s t) : t.mode = s.mode := by rw [h.rest]
theorem DriveOnly.device {s t : State} (h : DriveOnly on s t) : t.device = s.device := by rw [h.rest]
theorem DriveOnly.members {s t : State} (h : DriveOnly on s t) : t.members = s.members := by rw [h.rest]
theorem DriveOnly.membersOf {s t : State} (h : DriveOnly on s t) (l : LineIx) : t.membersOf l = s.membersOf l := by
  simp only [State.membersOf, h.members]

/-! ## The operations -/

@[simp] theorem DriveOnly.modPort {s t : State} {f : Port → Port} (h : DriveOnly on s t) : DriveOnly on s (t.modPort f) :=
  h.trans ⟨rfl, fun _ _ => rfl, fun _ => rfl⟩

@[simp] theorem notify_driveOnly {s t : State} {k : NoticeKind} {o : Nat} {v : Int} (h : DriveOnly on s t) :
    DriveOnly on s (notify k o v t) := h.modPort
@[simp] theorem joinUrgent_driveOnly {s t : State} {f : Frame} (h : DriveOnly on s t) : DriveOnly on s (joinUrgent f t) :=
  h.modPort
@[simp] theorem joinRoutine_driveOnly {s t : State} {f : Frame} (h : DriveOnly on s t) : DriveOnly on s (joinRoutine f t) :=
  h.modPort
@[simp] theorem syncPins_driveOnly {s t : State} (h : DriveOnly on s t) : DriveOnly on s (syncPins t) :=
  h.trans ⟨rfl, fun _ _ => rfl, fun _ => rfl⟩

@[simp] theorem DriveOnly.modPoint {s t : State} {i : PointIx} {f : Point → Point} (hi : on i) (h : DriveOnly on s t) :
    DriveOnly on s (t.modPoint i f) :=
  h.trans ⟨rfl, fun _ hj => State.point_modPoint_ne _ _ _ _ (fun e => hj (e ▸ hi)), fun _ => rfl⟩

@[simp] theorem DriveOnly.modDrive {s t : State} {i : PointIx} {f : Drive → Drive} (hi : on i) (h : DriveOnly on s t) :
    DriveOnly on s (t.modDrive i f) := h.modPoint hi
@[simp] theorem DriveOnly.modValve {s t : State} {i : PointIx} {f : Valve → Valve} (hi : on i) (h : DriveOnly on s t) :
    DriveOnly on s (t.modValve i f) := h.modPoint hi

@[simp] theorem updateFaults_driveOnly {s t : State} {z : ZoneIx} {n : Nat} (h : DriveOnly on s t) :
    DriveOnly on s (updateFaults z n t) := by
  unfold updateFaults
  split
  · exact h
  · refine notify_driveOnly (h.trans ⟨rfl, fun _ _ => rfl, fun w => ?_⟩)
    rw [State.zone_modZone_if]
    split
    · rename_i e; subst e; rfl
    · rfl

theorem foldl_driveOnly {α : Type} {s t : State} {g : State → α → State} {l : List α}
    (hg : ∀ a ∈ l, ∀ u, DriveOnly on s u → DriveOnly on s (g u a)) (h : DriveOnly on s t) :
    DriveOnly on s (l.foldl g t) := by
  induction l generalizing t with
  | nil => exact h
  | cons a l ih =>
    exact ih (fun b hb => hg b (List.mem_cons_of_mem _ hb)) (hg a List.mem_cons_self t h)

theorem inAnyOrder_driveOnly {s t : State} {fs : List (State → State)}
    (hf : ∀ f ∈ fs, ∀ u, DriveOnly on s u → DriveOnly on s (f u)) (h : DriveOnly on s t) :
    DriveOnly on s (inAnyOrder fs t) :=
  inAnyOrder_keeps (P := DriveOnly on s) (fun _ _ hu => hu.trans ⟨rfl, fun _ _ => rfl, fun _ => rfl⟩) hf h

@[simp] theorem recountFaults_driveOnly {s t : State} (h : DriveOnly on s t) : DriveOnly on s (recountFaults t) := by
  unfold recountFaults
  dsimp only
  split
  · exact foldl_driveOnly (fun _ _ _ hu => updateFaults_driveOnly hu) h
  · exact h

@[simp] theorem endDisagreement_driveOnly {s t : State} {i : PointIx} (hi : on i) (h : DriveOnly on s t) :
    DriveOnly on s (endDisagreement i t) := by
  unfold endDisagreement; dsimp only; split <;> simp (maxDischargeDepth := 20) [hi, h]

@[simp] theorem beginDisagreement_driveOnly {s t : State} {i : PointIx} (hi : on i) (h : DriveOnly on s t) :
    DriveOnly on s (beginDisagreement i t) := by
  unfold beginDisagreement; simp [hi, h]

@[simp] theorem testDisagreement_driveOnly {s t : State} {b : Bool} {i : PointIx} (hi : on i) (h : DriveOnly on s t) :
    DriveOnly on s (testDisagreement b i t) := by
  unfold testDisagreement; split_ifs <;> simp (maxDischargeDepth := 20) [hi, h]

@[simp] theorem withhold_driveOnly {s t : State} {i : PointIx} (hi : on i) (h : DriveOnly on s t) :
    DriveOnly on s (withhold i t) := by
  unfold withhold; simp [hi, h]

@[simp] theorem recordCommand_driveOnly {s t : State} {i : PointIx} {r : Requested} (hi : on i) (h : DriveOnly on s t) :
    DriveOnly on s (recordCommand i r t) := by
  unfold recordCommand; simp [hi, h]

@[simp] theorem issue_driveOnly {s t : State} {i : PointIx} {r : Requested} (hi : on i) (h : DriveOnly on s t) :
    DriveOnly on s (issue i r t) := by
  have h' : DriveOnly on s (recordCommand i r t) := recordCommand_driveOnly hi h
  unfold issue
  dsimp only
  split
  · split <;> simp (maxDischargeDepth := 20) [hi, h']
  · split <;> simp (maxDischargeDepth := 20) [hi, h']

@[simp] theorem recordQuiet_driveOnly {s t : State} {i : PointIx} (hi : on i) (h : DriveOnly on s t) :
    DriveOnly on s (recordQuiet i t) := by
  unfold recordQuiet; simp (maxDischargeDepth := 20) [hi, h]

@[simp] theorem addClaim_driveOnly {s t : State} {c : Claim} {i : PointIx} (hi : on i) (h : DriveOnly on s t) :
    DriveOnly on s (addClaim c i t) := by
  unfold addClaim; dsimp only; split_ifs <;> simp (maxDischargeDepth := 20) [hi, h]

@[simp] theorem removeClaim_driveOnly {s t : State} {c : Claim} {i : PointIx} (hi : on i) (h : DriveOnly on s t) :
    DriveOnly on s (removeClaim c i t) := by
  unfold removeClaim; dsimp only; split_ifs <;> simp (maxDischargeDepth := 20) [hi, h]

@[simp] theorem heard_driveOnly {s t : State} {i : PointIx} {a : Time} (hi : on i) (h : DriveOnly on s t) :
    DriveOnly on s (heard i a t) := by
  unfold heard; dsimp only; split <;> simp (maxDischargeDepth := 20) [hi, h]

@[simp] theorem testValve_driveOnly {s t : State} {b : Bool} {v : PointIx} (hi : on v) (h : DriveOnly on s t) :
    DriveOnly on s (testValve b v t) := by
  unfold testValve; dsimp only; split_ifs <;> simp (maxDischargeDepth := 20) [hi, h]

@[simp] theorem commandValve_driveOnly {s t : State} {v : PointIx} {r : Requested} (hi : on v) (h : DriveOnly on s t) :
    DriveOnly on s (commandValve v r t) := by
  unfold commandValve; simp (maxDischargeDepth := 20) [hi, h]

/-! ## What the operations leave of the point they act on -/

theorem updateFaults_points (z : ZoneIx) (n : Nat) (s : State) : (updateFaults z n s).points = s.points := by
  unfold updateFaults; split <;> rfl

theorem recountFaults_points (s : State) : (recountFaults s).points = s.points := by
  unfold recountFaults
  dsimp only
  split
  · suffices h : ∀ (l : List ZoneIx) (f : ZoneIx → Nat) (t : State),
        (l.foldl (fun u z => updateFaults z (f z) u) t).points = t.points from h _ _ _
    intro l f t
    induction l generalizing t with
    | nil => rfl
    | cons z l ih => rw [List.foldl_cons, ih, updateFaults_points]
  · rfl

@[simp] theorem recountFaults_point (s : State) (i : PointIx) : (recountFaults s).point i = s.point i := by
  simp only [State.point, recountFaults_points]

@[simp] theorem State.point_modDrive (s : State) (i : PointIx) (f : Drive → Drive) :
    (s.modDrive i f).point i = { s.point i with drive := f (s.point i).drive } := by
  rw [State.modDrive_eq, State.point_modPoint]

@[simp] theorem State.point_modValve (s : State) (i : PointIx) (f : Valve → Valve) :
    (s.modValve i f).point i = { s.point i with valve := f (s.point i).valve } := by
  rw [State.modValve_eq, State.point_modPoint]

/-- The tests of a record change its two deadlines and its Disagree flag alone. -/
theorem testDisagreement_point (b : Bool) (i : PointIx) (s : State) :
    ∃ r d f, (testDisagreement b i s).point i
      = { s.point i with drive := { (s.point i).drive with repeatAt := r, disagreeAt := d, disagree := f } } := by
  have he : ∃ r d f, (endDisagreement i s).point i
      = { s.point i with drive := { (s.point i).drive with repeatAt := r, disagreeAt := d, disagree := f } } := by
    unfold endDisagreement
    dsimp only
    split
    · exact ⟨none, none, false, by simp⟩
    · exact ⟨none, none, false, by simp⟩
  unfold testDisagreement
  split
  · split
    · split
      · exact ⟨_, _, (s.point i).drive.disagree, by unfold beginDisagreement; rw [State.point_modDrive]⟩
      · split
        · exact ⟨_, (s.point i).drive.disagreeAt, (s.point i).drive.disagree, by rw [State.point_modDrive]⟩
        · exact ⟨_, _, _, rfl⟩
    · exact he
  · exact ⟨_, _, _, rfl⟩

/-- What a command leaves of its point: the commanded state and the last-command time are new, the withheld counter and the
record's deadlines and Disagree flag may change, and everything else stands. -/
theorem issue_point (i : PointIx) (r : Requested) (s : State) :
    ∃ a d f w, (issue i r s).point i
      = { s.point i with
          drive :=
            { (s.point i).drive with
              commanded := some r, lastCommand := some s.clock, repeatAt := a, disagreeAt := d, disagree := f,
              withheld := w } } := by
  unfold issue
  dsimp only
  split
  · split
    · exact ⟨(s.point i).drive.repeatAt, (s.point i).drive.disagreeAt, (s.point i).drive.disagree, bump (s.point i).drive.withheld,
        by simp [withhold, recordCommand]⟩
    · exact ⟨(s.point i).drive.repeatAt, (s.point i).drive.disagreeAt, (s.point i).drive.disagree, (s.point i).drive.withheld, by simp [recordCommand]⟩
  · split
    · obtain ⟨a, d, f, h⟩ := testDisagreement_point true i (joinUrgent (commandFrame (recordCommand i r s) i r)
        (recordCommand i r s))
      exact ⟨a, d, f, (s.point i).drive.withheld, by rw [h]; simp [joinUrgent, recordCommand]⟩
    · exact ⟨(s.point i).drive.repeatAt, (s.point i).drive.disagreeAt, (s.point i).drive.disagree, bump (s.point i).drive.withheld,
        by simp [withhold, recordCommand]⟩
    · exact ⟨(s.point i).drive.repeatAt, (s.point i).drive.disagreeAt, (s.point i).drive.disagree, (s.point i).drive.withheld, by simp [recordCommand]⟩
    · exact ⟨(s.point i).drive.repeatAt, (s.point i).drive.disagreeAt, (s.point i).drive.disagree, (s.point i).drive.withheld, by simp [recordCommand]⟩

/-- R147: the test of a loop record out of disagreement, in Protect. -/
theorem testDisagreement_settled {b : Bool} {i : PointIx} {s : State} (hm : s.mode = .protect) (hl : s.isLoop i = true)
    (hd : (s.point i).drive.disagrees s.clock = false) :
    (testDisagreement b i s).point i =
      { s.point i with
        drive := { (s.point i).drive with repeatAt := none, disagreeAt := none, disagree := false } } := by
  unfold testDisagreement
  rw [if_pos ⟨hm, hl⟩, if_neg (by unfold State.inDisagreement; rw [hd]; simp)]
  unfold endDisagreement
  dsimp only
  split
  · rw [recountFaults_point, State.point_modDrive]
  · rw [State.point_modDrive]

theorem State.isLoop_not_local {s : State} {i : PointIx} (h : s.isLoop i = true) : s.isLocal i = false := by
  unfold State.isLoop at h; unfold State.isLocal
  simp only [Bool.and_eq_true, bne_iff_ne] at h
  simp [h.2]

/-- R144, R147: a command to a loop point in Protect that leaves its record in disagreement. -/
theorem issue_disagreeing {i : PointIx} {r : Requested} {s : State} (hm : s.mode = .protect) (hl : s.isLoop i = true)
    (hd : Drive.disagrees { (s.point i).drive with commanded := some r, lastCommand := some s.clock } s.clock = true) :
    (issue i r s).point i =
        { s.point i with
          drive :=
            { (s.point i).drive with
              commanded := some r, lastCommand := some s.clock
              repeatAt := some (after s.clock Config.repeatInterval)
              disagreeAt :=
                if (s.point i).drive.repeatAt.isNone then
                  (if r.flagged then some (after s.clock (s.point i).cfg.feedbackMs) else none)
                else (s.point i).drive.disagreeAt } } ∧
      (issue i r s).port = (joinUrgent (commandFrame s i r) s).port := by
  have hf : commandFrame (recordCommand i r s) i r = commandFrame s i r := by
    unfold commandFrame recordCommand
    rw [State.point_modDrive]; rfl
  have hi : issue i r s = testDisagreement true i (joinUrgent (commandFrame s i r) (recordCommand i r s)) := by
    unfold issue
    dsimp only
    rw [if_neg (by rw [show s.isLocal i = false from State.isLoop_not_local hl]; simp), hm, hf]
  generalize hu : joinUrgent (commandFrame s i r) (recordCommand i r s) = u at hi
  have up : u.point i =
      { s.point i with drive := { (s.point i).drive with commanded := some r, lastCommand := some s.clock } } := by
    subst hu; show (recordCommand i r s).point i = _; unfold recordCommand; rw [State.point_modDrive]
  have uport : u.port = (joinUrgent (commandFrame s i r) s).port := by subst hu; rfl
  have uc : u.clock = s.clock := by subst hu; rfl
  have um : u.mode = .protect := by subst hu; exact hm
  have ul : u.isLoop i = true := by
    subst hu; unfold State.isLoop at *; rw [up]; exact hl
  rw [hi]
  unfold testDisagreement
  rw [if_pos ⟨um, ul⟩, if_pos (by unfold State.inDisagreement; rw [ul, up, uc]; simpa using hd)]
  rw [up]
  by_cases h : (s.point i).drive.repeatAt.isNone = true
  · rw [if_pos (by exact h)]
    unfold beginDisagreement
    rw [State.point_modDrive, up, uc, if_pos h]
    exact ⟨rfl, uport⟩
  · rw [if_neg (by exact h), if_pos rfl]
    rw [State.point_modDrive, up, uc, if_neg h]
    exact ⟨rfl, uport⟩

end Sys2Proof.Machine
end

