-- ==== Sys2Proof/Laws/Special.lean ====
section
/-! SUPPORT. What the commands that are not runs of moves keep: the start-up events, a frame's arrival, the writes of the
Device record and of a point, the clearing of the Device record's counters, mode changes and Restarts. -/

namespace Sys2Proof.Machine

variable {q : Allow}

/-! ## Capacities and the balance together, graded by the frames received and not yet disposed of -/

/-- The capacities hold, and the balance with `k` frames to dispose of. -/
def State.PortGood (k : Nat) (s : State) : Prop := s.withinCapacity ∧ s.port.balance k

theorem State.portGood_zero (s : State) : s.PortGood 0 ↔ s.withinCapacity ∧ s.balanced := by
  unfold State.PortGood State.balanced Port.balance; simp only [Nat.add_zero]

theorem Moves.portGood {s t : State} {k : Nat} (h : Moves q s t) (hs : s.PortGood k) : t.PortGood k :=
  ⟨h.withinCapacity hs.1, h.balance hs.2⟩

/-- A part with an empty port and short lists is good. -/
theorem State.portGood_cleared {s : State} (h1 : s.port.through = []) (h2 : s.port.urgent = []) (h3 : s.port.routine = [])
    (h4 : s.port.returns = []) (h5 : s.port.counters = {}) (h6 : s.strikes = []) (h7 : ∀ l, (s.line l).tracks = []) :
    s.PortGood 0 := by
  refine ⟨⟨?_, ?_, ?_, ?_, ?_, fun l => ?_⟩, fun _ => ?_⟩
  · simp [h1]
  · simp [h2]
  · simp [h3]
  · simp [h4]
  · simp [h6]
  · simp [h7 l]
  · rw [h5, h1]; rfl

theorem powerUp_portGood (s : State) : (powerUp s).PortGood 0 :=
  State.portGood_cleared rfl rfl rfl rfl rfl rfl fun l => by
    simp [powerUp, State.line, State.reset]

/-- A change of the part that leaves its port's queues and counts, its strike list and its tracks. -/
theorem State.PortGood.congr {s t : State} {k : Nat} (hs : s.PortGood k) (h1 : t.port.through = s.port.through)
    (h2 : t.port.urgent = s.port.urgent ∨ t.port.urgent = []) (h3 : t.port.routine = s.port.routine)
    (h4 : t.port.returns = s.port.returns) (h5 : t.port.counters = s.port.counters) (h6 : t.strikes = s.strikes)
    (h7 : ∀ l, (t.line l).tracks = (s.line l).tracks ∨ (t.line l).tracks = []) : t.PortGood k := by
  obtain ⟨⟨c1, c2, c3, c4, c5, c6⟩, hb⟩ := hs
  refine ⟨⟨?_, ?_, ?_, ?_, ?_, fun l => ?_⟩, ?_⟩
  · rw [h1]; exact c1
  · rcases h2 with h2 | h2 <;> rw [h2]
    · exact c2
    · exact Nat.zero_le _
  · rw [h3]; exact c3
  · rw [h4]; exact c4
  · rw [h6]; exact c5
  · rcases h7 l with h7 | h7 <;> rw [h7]
    · exact c6 l
    · exact Nat.zero_le _
  · unfold Port.balance; rw [h5, h1]; exact hb

theorem startIfActive_portGood {s : State} {k : Nat} (hs : s.PortGood k) : (startIfActive s).PortGood k := by
  unfold startIfActive; split
  · exact hs.congr rfl (.inl rfl) rfl rfl rfl rfl fun _ => .inl rfl
  · exact hs

theorem leaveLoading_portGood {s : State} {k : Nat} (hs : s.PortGood k) : (leaveLoading s).PortGood k :=
  startIfActive_portGood (hs.congr rfl (.inl rfl) rfl rfl rfl rfl fun _ => .inl rfl)

theorem loadImage_portGood {m : Image} {s : State} {k : Nat} (hs : s.PortGood k) : (loadImage m s).PortGood k :=
  hs.congr rfl (.inl rfl) rfl rfl rfl rfl fun l => .inr (by simp [loadImage, rebuildMaps, State.line, Line.cleared])

theorem startBad_portGood {s : State} {k : Nat} (hs : s.PortGood k) : (startBad s).PortGood k :=
  (notify_moves (q := plain) .refl).portGood (leaveLoading_portGood
    ((loadImage_portGood (m := {}) hs).congr rfl (.inl rfl) rfl rfl rfl rfl fun _ => .inl rfl))

theorem imageRead_portGood {a : MemoryAnswer} {s : State} {k : Nat} (hs : s.PortGood k) : (imageRead a s).PortGood k := by
  unfold imageRead
  split
  · split
    · split
      · exact startBad_portGood hs
      · exact (notify_moves (q := plain) .refl).portGood (leaveLoading_portGood (loadImage_portGood hs))
    · exact startBad_portGood hs
  · exact hs

theorem loadingEnds_portGood {s : State} {k : Nat} (hs : s.PortGood k) : (loadingEnds s).PortGood k := by
  unfold loadingEnds; split
  · exact startBad_portGood hs
  · exact hs

theorem clearDynamic_portGood (s : State) : (clearDynamic s).PortGood 0 :=
  State.portGood_cleared rfl rfl rfl rfl rfl rfl fun l => by
    simp [clearDynamic, startSampling, syncPins, State.line, Line.cleared]

theorem restartPart_portGood (s : State) : (restartPart s).PortGood 0 := startIfActive_portGood (clearDynamic_portGood s)

theorem timeValve_moves {s t : State} {i : PointIx} (h : Moves q s t) : Moves q s (timeValve i t) := by
  unfold timeValve; split
  · exact h.modValve
  · exact h

theorem testOnEntry_moves {s t : State} {i : PointIx} (h : Moves q s t) : Moves q s (testOnEntry i t) := by
  unfold testOnEntry; split
  · split
    · exact issue_moves h
    · exact testDisagreement_moves h
  · exact testDisagreement_moves h

/-- The entry into Protect is a run of moves from the part in Protect. -/
theorem enterProtect_moves (s : State) : Moves q (syncPins { s with mode := .protect }) (enterProtect s) := by
  unfold enterProtect
  refine foldl_moves (fun _ _ hu => timeValve_moves hu) (inAnyOrder_moves ?_ .refl)
  simp only [List.mem_map, forall_exists_index, and_imp, forall_apply_eq_imp_iff₂]
  exact fun _ _ _ hu => testOnEntry_moves hu

/-! ## The freezing of the records (R152) -/

theorem freezeRecords_point (m : Mode) (s : State) (i : PointIx) :
    (freezeRecords m s).point i = if m = .bypass then (s.point i).freezePoll s.clock else s.point i := by
  unfold freezeRecords State.point
  dsimp only
  split
  · rw [Vector.getElem_map]
  · rfl

/-- The freezing touches the poll times alone. -/
theorem freezeRecords_keeps (m : Mode) (s : State) (i : PointIx) :
    (freezeRecords m s).point i =
      { s.point i with
        drive := { (s.point i).drive with pollPlaced := ((freezeRecords m s).point i).drive.pollPlaced } } := by
  rw [freezeRecords_point]; split <;> rfl

theorem changeMode_portGood {m : Mode} {s : State} (hs : s.PortGood 0) : (changeMode m s).PortGood 0 := by
  unfold changeMode
  split
  · exact startIfActive_portGood
      ((clearDynamic_portGood s).congr rfl (.inl rfl) rfl rfl rfl rfl fun _ => .inl rfl)
  · exact hs.congr rfl (.inr rfl) rfl rfl rfl rfl fun _ => .inl rfl
  · split
    · exact (enterProtect_moves (q := plain) s).portGood (hs.congr rfl (.inl rfl) rfl rfl rfl rfl fun _ => .inl rfl)
    · exact hs.congr rfl (.inl rfl) rfl rfl rfl rfl fun _ => .inl rfl
  · exact hs

/-- A fact about the part that a Request's checks and its effect keep. -/
theorem answer_keeps {P : State → Prop} {rq : Request} {checks : List (Bool × ReplyCode)} {f : State → State} {s : State}
    (hr : ∀ c, P (reply rq c s)) (hf : P (f s)) (hs : P s) : P (answer rq checks f s) := by
  unfold answer; split
  · exact hs
  · split
    · exact hr _
    · exact hf

theorem takeSetMode_portGood {rq : Request} {s : State} (hs : s.PortGood 0) : (takeSetMode rq s).PortGood 0 := by
  have hr : ∀ c u, u.PortGood 0 → (reply rq c u).PortGood 0 := fun c u hu => (reply_moves (q := plain) .refl).portGood hu
  unfold takeSetMode
  split
  · refine answer_keeps (fun c => hr c s hs) ?_ hs
    split
    · exact hr _ _ hs
    · exact (notify_moves (q := plain) .refl).portGood (hr _ _ (changeMode_portGood hs))
  · exact answer_keeps (fun c => hr c s hs) hs hs

theorem takeRestart_portGood {rq : Request} {s : State} (hs : s.PortGood 0) : (takeRestart rq s).PortGood 0 := by
  have hr : ∀ c u, u.PortGood 0 → (reply rq c u).PortGood 0 := fun c u hu => (reply_moves (q := plain) .refl).portGood hu
  exact answer_keeps (fun c => hr c s hs) (hr _ _ (restartPart_portGood s)) hs

/-- The Device record's counters cleared (R155). -/
theorem clearDevice_portGood {s : State} (hs : s.PortGood 0) : (clearDevice s).PortGood 0 := by
  refine ⟨hs.1, fun _ => ?_⟩
  have h : s.port.through.length ≤ 4 := hs.1.1
  simp only [clearDevice, BitVec.toNat_ofNat]
  have : s.port.through.length % 2 ^ 16 = s.port.through.length := Nat.mod_eq_of_lt (by omega)
  rw [this]
  simp

theorem eitherOrder_keeps {P : State → Prop} {f g : State → State} {s : State} (hd : ∀ u n, P u → P { u with draws := n })
    (hf : ∀ u, P u → P (f u)) (hg : ∀ u, P u → P (g u)) (hs : P s) : P (eitherOrder f g s) := by
  unfold eitherOrder; dsimp only
  split
  · exact hg _ (hf _ hs)
  · split
    · exact hd _ _ (hg _ (hf _ hs))
    · exact hd _ _ (hf _ (hg _ hs))

theorem clearEntry_portGood {table index : Nat} {s : State} (hs : s.PortGood 0) : (clearEntry table index s).PortGood 0 := by
  by_cases h : table = 0
  · subst h; exact clearDevice_portGood hs
  · exact (clearEntry_moves (q := plain) .refl h).portGood hs

theorem takeClearCounters_portGood {rq : Request} {s : State} (hs : s.PortGood 0) :
    (takeClearCounters rq s).PortGood 0 := by
  have hr : ∀ c u, u.PortGood 0 → (reply rq c u).PortGood 0 := fun c u hu => (reply_moves (q := plain) .refl).portGood hu
  exact answer_keeps (fun c => hr c s hs)
    (eitherOrder_keeps (fun _ _ hu => hu) (fun _ hu => clearEntry_portGood hu) (fun u hu => hr _ u hu) hs) hs

/-! ## Writes of the Device record and of a point -/

/-- A point write goes on by moves from the part with the new point and maps. -/
theorem writePoint_moves {s t : State} {i : PointIx} {c : PointCfg} (h : Moves q s (replacePoint i c t)) :
    Moves q s (writePoint i c t) := by
  have h' := contactFromLevel_moves (p := i) h
  unfold writePoint
  dsimp only
  split
  · refine inAnyOrder_moves ?_ h'
    simp only [List.mem_cons, List.not_mem_nil, or_false, forall_eq_or_imp, forall_eq]
    refine ⟨fun u hu => ?_, fun u hu => ?_, fun u hu => recountFaults_moves hu⟩
    · unfold recomputeChanged
      refine inAnyOrder_moves ?_ hu
      simp only [List.mem_map, forall_exists_index, and_imp, forall_apply_eq_imp_iff₂]
      exact fun _ _ _ hv => recomputeSpeed_moves hv
    · unfold rewriteDoors
      refine inAnyOrder_moves ?_ hu
      simp only [List.mem_map, forall_exists_index, and_imp, forall_apply_eq_imp_iff₂]
      exact fun _ _ _ hv => firstReport_moves (resetDoor_moves hv)
  · exact h'

theorem replacePoint_portGood {s : State} {i : PointIx} {c : PointCfg} {k : Nat} (hs : s.PortGood k) :
    (replacePoint i c s).PortGood k := by
  have h : (rebuildMaps (s.modPoint i (Point.written s.clock c))).PortGood k :=
    hs.congr rfl (.inl rfl) rfl rfl rfl rfl fun _ => .inl rfl
  unfold replacePoint
  dsimp only
  split
  · exact (syncPins_moves (dropStrikesOf_moves (q := plain) .refl)).portGood h
  · exact (syncPins_moves (q := plain) .refl).portGood h

theorem writePoint_portGood {s : State} {i : PointIx} {c : PointCfg} {k : Nat} (hs : s.PortGood k) :
    (writePoint i c s).PortGood k :=
  (writePoint_moves (q := plain) .refl).portGood (replacePoint_portGood hs)

theorem writeDevice_portGood {s : State} {c : DeviceCfg} {k : Nat} (hs : s.PortGood k) : (writeDevice c s).PortGood k := by
  unfold writeDevice
  split
  · exact hs.congr rfl (.inl rfl) rfl rfl rfl rfl fun _ => .inl rfl
  · exact hs.congr rfl (.inl rfl) rfl rfl rfl rfl fun _ => .inl rfl

theorem writeEffect_portGood {s u : State} {rq : Request} {k : Nat} (hu : Moves plain u s) (hs : s.PortGood k) :
    ((u.writeEffect rq).getD id s).PortGood k := by
  unfold State.writeEffect
  split
  · split
    · split
      · exact writeDevice_portGood hs
      · exact hs
    · exact hs
  · split
    · split
      · exact writePoint_portGood hs
      · exact hs
    · exact hs
  · split
    · split
      · rename_i hc
        refine (writeGroup_moves (q := { plain with tables := True }) trivial ?_ .refl).portGood hs
        rw [hu.device, show s.pointCfg = u.pointCfg from funext hu.cfg,
          show s.groupCfg = u.groupCfg from funext (hu.groupCfg id)]
        exact hc
      · exact hs
    · exact hs
  · split
    · split
      · exact (writeCadence_moves (q := { plain with cadences := True }) trivial ‹_› .refl).portGood hs
      · exact hs
    · exact hs
  · exact hs

theorem takeWrite_portGood {rq : Request} {s : State} {k : Nat} (hs : s.PortGood k) : (takeWrite rq s).PortGood k := by
  have hr : ∀ c u, u.PortGood k → (reply rq c u).PortGood k := fun c u hu => (reply_moves (q := plain) .refl).portGood hu
  unfold takeWrite
  refine answer_keeps (fun c => hr c s hs) ?_ hs
  dsimp only
  split
  · exact hr _ _ (writeEffect_portGood .refl hs)
  · have h1 := writeEffect_portGood (rq := rq) (u := s) .refl hs
    have h2 := writeEffect_portGood (rq := rq) (u := s) (reply_moves .refl) (hr .done s hs)
    unfold doneWith eitherOrder
    dsimp only
    split
    · exact hr _ _ h1
    · split
      · exact hr _ _ h1
      · exact h2

/-! ## Frames -/

/-- Every Request, by its operation code. -/
theorem takeRequest_portGood {op : Byte} {rq : Request} {s : State} (hs : s.PortGood 0) :
    (takeRequest op rq s).PortGood 0 := by
  unfold takeRequest
  split
  · exact (takeRead_moves (q := plain) .refl).portGood hs
  · exact (takeReadGroup_moves (q := plain) .refl).portGood hs
  · exact takeWrite_portGood hs
  · exact (takeWriteFirst_moves (q := { plain with mgmt := True }) trivial .refl).portGood hs
  · exact (takeWriteSecond_moves (q := { plain with tables := True, mgmt := True, window := True }) trivial trivial trivial .refl).portGood hs
  · exact (takeResetZone_moves (q := { plain with raise := True, quiet := True, window := True }) trivial trivial trivial .refl).portGood hs
  · exact (takeReleaseLine_moves (q := plain) .refl).portGood hs
  · exact (takeRestoreDoor_moves (q := plain) .refl).portGood hs
  · exact (takeSilenceGroup_moves (q := plain) .refl).portGood hs
  · exact (takeSirenTest_moves (q := plain) .refl).portGood hs
  · exact takeClearCounters_portGood hs
  · exact takeSetMode_portGood hs
  · exact takeRestart_portGood hs
  · exact (takeCommit_moves (q := { plain with mgmt := True }) trivial .refl).portGood hs
  · exact (answer_moves (q := plain) .refl .refl).portGood hs

/-- The allowance of a frame's arrival. -/
def arrival : Allow := { plain with raise := True, loop := True, window := True, classifier := True }

theorem strip_portGood {s : State} {k : Nat} (hs : s.PortGood (k + 1)) : (strip s).PortGood k := by
  refine ⟨hs.1, fun hr => ?_⟩
  have hb := hs.2 hr
  simp only [strip, State.modPort, bump_toNat] at *
  omega

theorem joinThrough_portGood {s : State} {f : Frame} {k : Nat} (hs : s.PortGood (k + 1)) :
    (s.modPort (·.joinThrough f)).PortGood k := by
  obtain ⟨⟨c1, c2, c3, c4, c5, c6⟩, hb⟩ := hs
  have key : (s.port.joinThrough f).through.length ≤ 4 ∧ (s.port.joinThrough f).urgent = s.port.urgent ∧
      (s.port.joinThrough f).routine = s.port.routine ∧ (s.port.joinThrough f).returns = s.port.returns ∧
      (s.port.joinThrough f).balance k := by
    unfold Port.joinThrough
    split
    · rename_i hlt
      simp only [Config.throughCapacity] at hlt
      split
      · rename_i t ts _ heq
        have hlen : s.port.through.length + 1 = ts.length + 1 := by
          have := congrArg List.length heq; simpa using this
        refine ⟨by simp only [Port.startThrough]; omega, rfl, rfl, rfl, fun hr => ?_⟩
        have hb' := hb hr
        simp only [Port.startThrough] at hr ⊢
        rw [bump_toNat, Nat.min_eq_left (by omega)]
        omega
      · refine ⟨by simp only [List.length_append, List.length_singleton]; omega, rfl, rfl, rfl, fun hr => ?_⟩
        have hb' := hb hr
        simp only [List.length_append, List.length_singleton] at *
        omega
    · refine ⟨c1, rfl, rfl, rfl, fun hr => ?_⟩
      have hb' := hb hr
      dsimp only at hr ⊢
      rw [bump_toNat, Nat.min_eq_left (by omega)]
      omega
  obtain ⟨k1, k2, k3, k4, k5⟩ := key
  refine ⟨⟨k1, ?_, ?_, ?_, c5, c6⟩, k5⟩
  · show (s.port.joinThrough f).urgent.length ≤ _; rw [k2]; exact c2
  · show (s.port.joinThrough f).routine.length ≤ _; rw [k3]; exact c3
  · show (s.port.joinThrough f).returns.length ≤ _; rw [k4]; exact c4

theorem route_portGood {s : State} {f : Frame} {k : Nat} (hs : s.PortGood (k + 1)) : (route f s).PortGood k := by
  unfold route
  split
  · exact (matchReturn_moves (q := arrival) trivial .refl).portGood (strip_portGood hs)
  · split
    · exact strip_portGood hs
    · exact joinThrough_portGood hs

theorem takeFrameRequest_portGood {s : State} {f : Frame} (hs : s.PortGood 0) : (takeFrameRequest f s).PortGood 0 := by
  unfold takeFrameRequest; split
  · exact takeRequest_portGood hs
  · exact hs

theorem goodFrame_portGood {s : State} {f : Frame} (hs : s.PortGood 1) : (goodFrame f s).PortGood 0 := by
  have hd : ∀ k u n, State.PortGood k u → State.PortGood k { u with draws := n } := fun _ _ _ hu => hu
  have hsil : ∀ k u, State.PortGood (k + 0) u → State.PortGood k (restartSilence u) := fun k u hu =>
    (restartSilence_moves (q := arrival) trivial .refl).portGood hu
  have hcl : ∀ k u, State.PortGood (k + 0) u → State.PortGood k (classifyFrame f u) := fun k u hu =>
    (classifyFrame_moves (q := arrival) trivial trivial trivial .refl).portGood hu
  have hro : ∀ k u, State.PortGood (k + 1) u → State.PortGood k (route f u) := fun k u hu => route_portGood hu
  unfold goodFrame
  split
  · refine takeFrameRequest_portGood ?_
    refine inAnyOrder_graded (B := State.PortGood) hd [(restartSilence, 0), (route f, 1)] ?_ 0 s hs
    simp only [List.mem_cons, List.not_mem_nil, or_false, forall_eq_or_imp, forall_eq]
    exact ⟨hsil, hro⟩
  · split
    · refine inAnyOrder_graded (B := State.PortGood) hd [(restartSilence, 0), (classifyFrame f, 0), (route f, 1)] ?_ 0 s hs
      simp only [List.mem_cons, List.not_mem_nil, or_false, forall_eq_or_imp, forall_eq]
      exact ⟨hsil, hcl, hro⟩
    · refine inAnyOrder_graded (B := State.PortGood) hd [(classifyFrame f, 0), (route f, 1)] ?_ 0 _ (hsil 1 s hs)
      simp only [List.mem_cons, List.not_mem_nil, or_false, forall_eq_or_imp, forall_eq]
      exact ⟨hcl, hro⟩

/-- The received counter counts up before anything else is done with a frame. -/
theorem Port.balance_received {p : Port} (h : p.balance 0) :
    ({ p with counters := { p.counters with received := bump p.counters.received } } : Port).balance 1 := by
  intro hr
  dsimp only at hr ⊢
  rw [bump_toNat] at hr ⊢
  have hlt : p.counters.received.toNat < 65535 := by omega
  have hb := h hlt
  rw [Nat.min_eq_left (by omega)]
  omega

theorem Port.balance_dropped {p : Port} (h : p.balance 1) :
    ({ p with counters := { p.counters with droppedCheck := bump p.counters.droppedCheck } } : Port).balance 0 := by
  intro hr
  have hb := h hr
  dsimp only at hr ⊢
  rw [bump_toNat, Nat.min_eq_left (by omega)]
  omega

theorem frameArrives_portGood {s : State} {bytes : List Byte} (hs : s.PortGood 0) :
    (frameArrives bytes s).PortGood 0 := by
  unfold frameArrives
  dsimp only
  split
  · exact ⟨hs.1, Port.balance_dropped (Port.balance_received hs.2)⟩
  · exact goodFrame_portGood ⟨hs.1, Port.balance_received hs.2⟩

end Sys2Proof.Machine
end

