-- ==== Sys2Proof/Laws/Invariants.lean ====
section
/-! SUPPORT. How a fact about the part is shown to be kept by every step: it is enough to look at the moves, the start-up
events, the Device record's and a point's writes, mode changes and Restarts. The pins and the maps are such facts. -/

namespace Sys2Proof.Machine

/-- What it takes for a fact that does not read the Loop Port to be kept by every command but a power-on or reset. -/
structure Steady (P : State → Prop) : Prop where
  moves : ∀ {q s t}, ¬q.raise → ¬q.quiet → Moves q s t → P s → P t
  commands : ∀ {c s t}, ordinary c = true → exec c s = .next t → P s → P t
  classify : ∀ f s, P s → P (classifyFrame f s)
  resetZone : ∀ rq s, P s → P (takeResetZone rq s)
  port : ∀ s p, P s → P { s with port := p }
  clearDevice : ∀ s, P s → P (clearDevice s)
  startGood : ∀ m s, m.valid = true → s.mode = .loading → P s → P (startGood m s)
  startBad : ∀ s, s.mode = .loading → P s → P (startBad s)
  writePoint : ∀ i c s, s.pointOk i c = true → P s → P (writePoint i c s)
  writeDevice : ∀ c s, s.deviceOk c = true → P s → P (writeDevice c s)
  changeMode : ∀ m s, P s → P (changeMode m s)
  restart : ∀ s, P s → P (restartPart s)

/-- A good image is valid (R177). -/
theorem State.goodImage_valid {s : State} {m : Image} (h : s.goodImage = some m) : m.valid = true := by
  unfold State.goodImage at h
  split at h
  · cases h
  · split at h
    · rename_i hv; cases h; exact hv.2
    · cases h

namespace Steady

variable {P : State → Prop}

theorem reply (h : Steady P) {rq : Request} {c : ReplyCode} {s : State} (hs : P s) : P (reply rq c s) :=
  h.moves id id (reply_moves (q := plain) .refl) hs

theorem draws (h : Steady P) {s : State} {n : Nat} (hs : P s) : P { s with draws := n } :=
  h.moves id id (Moves.step (q := plain) .refl (.draws n)) hs

/-- A point write is judged alike on a state that moves lead to. -/
theorem pointOk_moves {s u : State} (hu : Moves plain s u) (i : PointIx) (c : PointCfg) : u.pointOk i c = s.pointOk i c := by
  have hc : u.pointCfg = s.pointCfg := funext hu.cfg
  have hl : ∀ l, (u.line l).cfg.endPosition = (s.line l).cfg.endPosition := fun l => by rw [(hu.tables id).1 l]
  have ht : u.trialCfg i c = s.trialCfg i c := funext fun j => by simp only [State.trialCfg, hc]
  simp only [State.pointOk, ht, hc, hu.device, hl]

/-- A Write's effect, decided on one state and applied to another that differs by moves. -/
theorem writeEffect (h : Steady P) {s u : State} {rq : Request} (hu : Moves plain s u) (hs : P u) :
    P ((s.writeEffect rq).getD id u) := by
  unfold State.writeEffect
  split
  · split
    · rename_i c _
      split
      · rename_i hd
        refine h.writeDevice c u ?_ hs
        have hc : u.pointCfg = s.pointCfg := funext hu.cfg
        simp only [State.deviceOk, State.ownChangeOk, hc, hu.device] at hd ⊢
        exact hd
      · exact hs
    · exact hs
  · split
    · split
      · rename_i hp; exact h.writePoint _ _ _ (by rw [pointOk_moves hu]; exact hp) hs
      · exact hs
    · exact hs
  · split
    · split
      · rename_i hg
        refine h.moves id id (writeGroup_moves (q := { plain with tables := True }) trivial ?_ .refl) hs
        rw [hu.device, show u.pointCfg = s.pointCfg from funext hu.cfg,
          show u.groupCfg = s.groupCfg from funext (hu.groupCfg id)]
        exact hg
      · exact hs
    · exact hs
  · split
    · split
      · exact h.moves id id (writeCadence_moves (q := { plain with cadences := True }) trivial ‹_› .refl) hs
      · exact hs
    · exact hs
  · exact hs

theorem takeWrite (h : Steady P) {rq : Request} {s : State} (hs : P s) : P (takeWrite rq s) := by
  unfold Machine.takeWrite
  refine answer_keeps (fun c => h.reply hs) ?_ hs
  dsimp only
  split
  · exact h.reply (h.writeEffect .refl hs)
  · have h1 : P ((s.writeEffect rq).getD id s) := h.writeEffect .refl hs
    have h2 : P ((s.writeEffect rq).getD id (Machine.reply rq .done s)) := h.writeEffect (reply_moves .refl) (h.reply hs)
    unfold doneWith eitherOrder
    dsimp only
    split
    · exact h.reply h1
    · split
      · exact h.draws (h.reply h1)
      · exact h.draws h2

theorem takeClearCounters (h : Steady P) {rq : Request} {s : State} (hs : P s) : P (takeClearCounters rq s) := by
  refine answer_keeps (fun c => h.reply hs) (eitherOrder_keeps (fun _ _ hu => h.draws hu) (fun u hu => ?_)
    (fun u hu => h.reply hu) hs) hs
  by_cases h0 : rq.table = 0
  · rw [h0]; exact h.clearDevice u hu
  · exact h.moves id id (clearEntry_moves (q := plain) .refl h0) hu

theorem takeSetMode (h : Steady P) {rq : Request} {s : State} (hs : P s) : P (takeSetMode rq s) := by
  unfold Machine.takeSetMode
  split
  · refine answer_keeps (fun c => h.reply hs) ?_ hs
    split
    · exact h.reply hs
    · exact h.moves id id (notify_moves (q := plain) .refl) (h.reply (h.changeMode _ _ hs))
  · exact answer_keeps (fun c => h.reply hs) hs hs

theorem takeRestart (h : Steady P) {rq : Request} {s : State} (hs : P s) : P (takeRestart rq s) :=
  answer_keeps (fun _c => h.reply hs) (h.reply (h.restart s hs)) hs

theorem takeRequest (h : Steady P) {op : Byte} {rq : Request} {s : State} (hs : P s) : P (takeRequest op rq s) := by
  unfold Machine.takeRequest
  split
  · exact h.moves id id (takeRead_moves (q := plain) .refl) hs
  · exact h.moves id id (takeReadGroup_moves (q := plain) .refl) hs
  · exact h.takeWrite hs
  · exact h.moves id id (takeWriteFirst_moves (q := { plain with mgmt := True }) trivial .refl) hs
  · exact h.moves id id (takeWriteSecond_moves (q := { plain with tables := True, mgmt := True, window := True }) trivial trivial trivial .refl) hs
  · exact h.resetZone _ _ hs
  · exact h.moves id id (takeReleaseLine_moves (q := plain) .refl) hs
  · exact h.moves id id (takeRestoreDoor_moves (q := plain) .refl) hs
  · exact h.moves id id (takeSilenceGroup_moves (q := plain) .refl) hs
  · exact h.moves id id (takeSirenTest_moves (q := plain) .refl) hs
  · exact h.takeClearCounters hs
  · exact h.takeSetMode hs
  · exact h.takeRestart hs
  · exact h.moves id id (takeCommit_moves (q := { plain with mgmt := True }) trivial .refl) hs
  · exact h.moves id id (answer_moves (q := plain) .refl .refl) hs

theorem route (h : Steady P) {f : Frame} {s : State} (hs : P s) : P (route f s) := by
  unfold Machine.route
  split
  · exact h.moves id id (matchReturn_moves (q := { plain with loop := True }) trivial .refl) (h.port _ _ hs)
  · split
    · exact h.port _ _ hs
    · exact h.port _ _ hs

theorem frameArrives (h : Steady P) {bytes : List Byte} {s : State} (hs : P s) : P (frameArrives bytes s) := by
  have hsil : ∀ u, P u → P (restartSilence u) := fun u hu =>
    h.moves id id (restartSilence_moves (q := { plain with loop := True }) trivial .refl) hu
  have hcl : ∀ f u, P u → P (classifyFrame f u) := fun f u hu =>
    h.classify f u hu
  unfold Machine.frameArrives
  dsimp only
  split
  · exact h.port _ _ (h.port _ _ hs)
  · rename_i f _
    have hs' := h.port s { s.port with counters := { s.port.counters with received := bump s.port.counters.received } } hs
    unfold goodFrame
    split
    · have hg := inAnyOrder_keeps (fun _ _ hu => h.draws hu) (fs := [restartSilence, Machine.route f])
        (by simp only [List.mem_cons, List.not_mem_nil, or_false, forall_eq_or_imp, forall_eq]
            exact ⟨hsil, fun u hu => h.route hu⟩) hs'
      unfold takeFrameRequest
      split
      · exact h.takeRequest hg
      · exact hg
    · split
      · exact inAnyOrder_keeps (fun _ _ hu => h.draws hu) (by
          simp only [List.mem_cons, List.not_mem_nil, or_false, forall_eq_or_imp, forall_eq]
          exact ⟨hsil, fun u hu => hcl f u hu, fun u hu => h.route hu⟩) hs'
      · exact eitherOrder_keeps (fun _ _ hu => h.draws hu) (fun u hu => hcl f u hu) (fun u hu => h.route hu) (hsil _ hs')

/-- Every command but a power-on or reset keeps a steady fact. -/
theorem exec (h : Steady P) {c : Instr} {s t : State} (h1 : c ≠ .powerOn) (h2 : c ≠ .resetPin) (he : exec c s = .next t)
    (hs : P s) : P t := by
  by_cases hc : ordinary c = true
  · exact h.commands hc he hs
  · cases c with
    | powerOn => exact absurd rfl h1
    | resetPin => exact absurd rfl h2
    | imageReadComplete a =>
      cases he
      unfold imageRead
      split
      · rename_i hm
        split
        · split
          · exact h.startBad s hm hs
          · rename_i hg _
            exact h.startGood _ s (State.goodImage_valid hg) hm hs
        · exact h.startBad s hm hs
      · exact hs
    | loadingTimeout =>
      cases he
      unfold loadingEnds
      split
      · rename_i hm
        simp only [Bool.and_eq_true, beq_iff_eq] at hm
        exact h.startBad s hm.1 hs
      · exact hs
    | frameArrival bytes => cases he; exact h.frameArrives hs
    | write rq => cases he; exact h.takeWrite hs
    | clearCounters rq => cases he; exact h.takeClearCounters hs
    | setMode rq => cases he; exact h.takeSetMode hs
    | restart rq => cases he; exact h.takeRestart hs
    | _ => exact absurd rfl hc

end Steady

/-- What it takes for a fact that does not read the Loop Port to be kept by every step. -/
structure Stable (P : State → Prop) : Prop extends Steady P where
  clock : ∀ s, P s → P s.tickClock
  queue : ∀ s l, P s → P { s with pending := l }
  powerUp : ∀ s, P s → P (powerUp s)

/-- Every step keeps a stable fact. -/
theorem Stable.step {P : State → Prop} (h : Stable P) {s t : State} (he : step s = .next t) (hs : P s) : P t := by
  unfold Machine.step at he
  split at he
  · cases he; exact h.clock s hs
  · rename_i c rest _
    have hq := h.queue s rest hs
    by_cases h1 : c = .powerOn
    · subst h1; cases he; exact h.powerUp _ hq
    · by_cases h2 : c = .resetPin
      · subst h2; cases he; exact h.powerUp _ hq
      · exact h.toSteady.exec h1 h2 he hq

/-! ## The pins (R22) -/

/-- No point of the part has a commanded state. -/
def State.Quiescent (s : State) : Prop := ∀ i, (s.point i).drive.commanded = none

theorem State.pinShould_quiescent {s : State} (h : s.Quiescent) (o : OutputIx) : s.pinShould o = false := by
  unfold State.pinShould
  split
  · rename_i i _; rw [h i]; simp
  · simp

theorem State.pinsFollow_of_off {s : State} (h : s.Quiescent) (ho : ∀ o, s.output o = false) : s.pinsFollow := fun o => by
  rw [ho o, State.pinShould_quiescent h]

theorem startIfActive_pinsFollow {s : State} (hs : s.pinsFollow) : (startIfActive s).pinsFollow := by
  unfold startIfActive
  split
  · intro o
    have hp : ∀ i, ((startProcessing s).point i).cfg = (s.point i).cfg ∧
        ((startProcessing s).point i).drive.commanded = (s.point i).drive.commanded := fun i => by
      simp only [startProcessing, State.point, Vector.getElem_map]
      split <;> exact ⟨rfl, rfl⟩
    rw [State.pinShould_congr (s := s) (t := startProcessing s) rfl rfl (fun i => (hp i).1) (fun i _ => (hp i).2) o]
    exact hs o
  · exact hs

theorem clearDynamic_quiescent (s : State) : (clearDynamic s).Quiescent := fun i => by
  simp [clearDynamic, startSampling, syncPins, State.point, Point.cleared]

theorem clearDynamic_output (s : State) (o : OutputIx) : (clearDynamic s).output o = false := by
  have h : ∀ u : State, (startSampling (syncPins u)).output o = u.pinShould o := fun u => by
    simp [State.output, startSampling, syncPins]
  unfold clearDynamic
  rw [h]
  exact State.pinShould_quiescent (fun i => by simp [State.point, Point.cleared]) o

theorem loaded_pinsFollow {m : Image} {s : State} (n : Mode) (hm : s.mode = .loading) (hs : s.pinsFollow) :
    (leaveLoading { loadImage m s with mode := n }).pinsFollow := by
  refine startIfActive_pinsFollow (State.pinsFollow_of_off (fun i => ?_) fun o => ?_)
  · simp [startSampling, loadImage, rebuildMaps, State.point]
  · have := hs o
    rw [State.pinShould, hm] at this
    exact this

theorem pinsFollow_stable : Stable State.pinsFollow where
  moves _ _ h hs := h.pinsFollow hs
  commands {c s t} hc he hs := by
    obtain ⟨u, hu, hm⟩ := exec_moves c s hc
    rw [hu] at he; cases he
    exact hm.pinsFollow hs
  classify f _ hs := (classifyFrame_moves (f := f) (q := arrival) trivial trivial trivial .refl).pinsFollow hs
  resetZone rq _ hs := (takeResetZone_moves (rq := rq) (q := { plain with raise := True, quiet := True, window := True })
    trivial trivial trivial .refl).pinsFollow hs
  clock _ hs := hs
  queue _ _ hs := hs
  port _ _ hs := hs
  clearDevice _ hs := hs
  powerUp s _ := State.pinsFollow_of_off (fun i => by simp [powerUp, State.reset, State.point])
    fun o => by simp [powerUp, State.reset, State.output]
  startGood m s _ hm hs := (notify_moves (q := plain) .refl).pinsFollow (loaded_pinsFollow (m := m) m.mode hm hs)
  startBad s hm hs := (notify_moves (q := plain) .refl).pinsFollow (loaded_pinsFollow (m := {}) .bypass hm hs)
  writePoint i c s _ _ := (writePoint_moves (q := plain) .refl).pinsFollow (by
    unfold replacePoint; exact syncPins_pinsFollow _)
  writeDevice c s hd hs := by
    have none_of : ∀ (u : State) (o : OutputIx), (∀ i, (u.point i).cfg.used = true → (u.point i).cfg.station ≠ u.device.own) →
        u.outputPoint o = none := fun u o h => by
      unfold State.outputPoint State.findPoint
      rw [List.find?_eq_none]
      intro i _ hp
      simp only [Bool.and_eq_true, beq_iff_eq] at hp
      exact h i hp.1.1 hp.1.2
    intro o
    show s.output o = (writeDevice c s).pinShould o
    rw [hs o]
    by_cases he : c.own = s.device.own
    · have hdv : ∀ a, (writeDevice c s).findPoint a = s.findPoint a := fun a => rfl
      simp only [State.pinShould, State.outputPoint, hdv]
      rw [show (writeDevice c s).device.own = s.device.own from he]
      rfl
    · have hall : ∀ i, (s.point i).cfg.used = true → (s.point i).cfg.station ≠ s.device.own ∧ (s.point i).cfg.station ≠ c.own := by
        intro i hi
        simp only [State.deviceOk, State.ownChangeOk, Bool.and_eq_true, Bool.or_eq_true, beq_iff_eq, he, false_or,
          List.all_eq_true, Bool.not_eq_true', bne_iff_ne, ne_eq, State.pointCfg] at hd
        have := hd.2 i (List.mem_finRange i)
        rw [hi] at this
        simpa using this
      unfold State.pinShould
      rw [none_of s o fun i hi => (hall i hi).1, none_of (writeDevice c s) o fun i hi => (hall i hi).2]
      rfl
  changeMode m s hs := by
    unfold changeMode
    split
    · exact startIfActive_pinsFollow (State.pinsFollow_of_off (clearDynamic_quiescent s) (clearDynamic_output s))
    · exact syncPins_pinsFollow _
    · split
      · exact (enterProtect_moves (q := plain) s).pinsFollow (syncPins_pinsFollow _)
      · exact syncPins_pinsFollow _
    · exact hs
  restart s _ := startIfActive_pinsFollow (State.pinsFollow_of_off (clearDynamic_quiescent s) (clearDynamic_output s))

/-! ## The maps (R13) -/

theorem State.mapsFollow.congr {s t : State} (hs : s.mapsFollow) (hm : t.members = s.members)
    (hc : ∀ i, (t.point i).cfg = (s.point i).cfg) : t.mapsFollow := fun l => by
  have hp : t.pointCfg = s.pointCfg := funext hc
  simp only [State.membersOf, hm, hp]
  exact hs l

theorem rebuildMaps_mapsFollow (s : State) : (rebuildMaps s).mapsFollow := fun l => by
  simp only [State.membersOf, rebuildMaps, Vector.getElem_ofFn]
  rfl

/-- A point table without used entries has empty maps. -/
theorem membersOf_unused (cfg : PointIx → PointCfg) (h : ∀ i, (cfg i).used = false) (l : LineIx) :
    Machine.membersOf cfg l = {} := by
  have hp : pointsOfLine cfg l = [] := by
    unfold pointsOfLine
    rw [List.filter_eq_nil_iff]
    intro i _
    simp [h i]
  unfold Machine.membersOf
  simp [hp, sortByPosition]

theorem startIfActive_mapsFollow {s : State} (hs : s.mapsFollow) : (startIfActive s).mapsFollow := by
  unfold startIfActive
  split
  · refine hs.congr rfl fun i => ?_
    simp only [startProcessing, State.point, Vector.getElem_map]
    split <;> rfl
  · exact hs

theorem clearDynamic_mapsFollow {s : State} (hs : s.mapsFollow) : (clearDynamic s).mapsFollow :=
  hs.congr rfl fun i => by simp [clearDynamic, startSampling, syncPins, State.point, Point.cleared]

theorem mapsFollow_stable : Stable State.mapsFollow where
  moves _ _ h hs := h.mapsFollow hs
  commands {c s t} hc he hs := by
    obtain ⟨u, hu, hm⟩ := exec_moves c s hc
    rw [hu] at he; cases he
    exact hm.mapsFollow hs
  classify f _ hs := (classifyFrame_moves (f := f) (q := arrival) trivial trivial trivial .refl).mapsFollow hs
  resetZone rq _ hs := (takeResetZone_moves (rq := rq) (q := { plain with raise := True, quiet := True, window := True })
    trivial trivial trivial .refl).mapsFollow hs
  clock _ hs := hs
  queue _ _ hs := hs
  port _ _ hs := hs
  clearDevice _ hs := hs
  powerUp s _ := fun l => by
    rw [membersOf_unused _ (fun i => by simp [State.pointCfg, powerUp, State.reset, State.point, PointCfg.used])]
    simp [State.membersOf, powerUp, State.reset]
  startGood m s _ _ _ := (notify_moves (q := plain) .refl).mapsFollow
    (startIfActive_mapsFollow ((rebuildMaps_mapsFollow _).congr rfl fun _ => rfl))
  startBad s _ _ := (notify_moves (q := plain) .refl).mapsFollow
    (startIfActive_mapsFollow ((rebuildMaps_mapsFollow _).congr rfl fun _ => rfl))
  writePoint i c s _ _ := (writePoint_moves (q := plain) .refl).mapsFollow (by
    unfold replacePoint
    dsimp only
    split
    · exact (rebuildMaps_mapsFollow _).congr rfl fun _ => rfl
    · exact (rebuildMaps_mapsFollow _).congr rfl fun _ => rfl)
  writeDevice c s _ hs := hs.congr rfl fun _ => rfl
  changeMode m s hs := by
    unfold changeMode
    split
    · exact startIfActive_mapsFollow ((clearDynamic_mapsFollow hs).congr rfl fun _ => rfl)
    · refine hs.congr rfl fun i => ?_
      show ((freezeRecords m (leaveProtect s)).point i).cfg = _
      rw [freezeRecords_keeps]
      simp [leaveProtect, State.point]
    · split
      · exact (enterProtect_moves (q := plain) s).mapsFollow (hs.congr rfl fun _ => rfl)
      · refine hs.congr rfl fun i => ?_
        show ((freezeRecords m s).point i).cfg = _
        rw [freezeRecords_keeps]
    · exact hs
  restart s hs := startIfActive_mapsFollow (clearDynamic_mapsFollow hs)

end Sys2Proof.Machine
end

