-- ==== Sys2Proof/Laws/Triggers.lean ====
section
/-! SUPPORT. The taking of trigger events ends (R92): every change of level uses up one of the 128 steps the zones can rise, so
`settle` leaves no trigger event standing, and neither does any command. -/

namespace Sys2Proof.Machine

variable {q : Allow}

/-- The steps the zones can still rise. -/
def State.room (s : State) : Nat := ∑ z : ZoneIx, (4 - (s.zone z).level.rank)

theorem Level.rank_le (n : Level) : n.rank ≤ 4 := by cases n <;> decide

theorem State.room_le (s : State) : s.room ≤ 128 := by
  unfold State.room
  calc ∑ z : ZoneIx, (4 - (s.zone z).level.rank) ≤ ∑ _z : ZoneIx, 4 := Finset.sum_le_sum fun z _ => Nat.sub_le _ _
    _ = 128 := by simp

theorem State.room_congr {s t : State} (h : ∀ z, (t.zone z).level = (s.zone z).level) : t.room = s.room := by
  unfold State.room; simp only [h]

/-- A rise of one zone uses up room. -/
theorem State.room_modZone {s : State} {z : ZoneIx} {f : Zone → Zone} (h : (s.zone z).level.rank < (f (s.zone z)).level.rank) :
    (s.modZone z f).room < s.room := by
  unfold State.room
  refine Finset.sum_lt_sum (fun w _ => ?_) ⟨z, Finset.mem_univ z, ?_⟩
  · rw [State.zone_modZone_if]
    split
    · rename_i e; subst e; omega
    · exact Nat.le_refl _
  · rw [State.zone_modZone_if, if_pos rfl]
    have := (f (s.zone z)).level.rank_le
    omega

/-- Without the allowances of levels, the trigger events stand as they are. -/
theorem Moves.triggers {s t : State} (h : Moves q s t) (hr : ¬q.raise) (hq : ¬q.quiet) : t.triggers = s.triggers := by
  refine h.keeps (P := fun u => u.triggers = s.triggers) (fun m hu => ?_) rfl
  cases m with
  | triggers l ha => exact absurd ha (not_or.2 ⟨hr, hq⟩)
  | _ => exact hu

/-- The trigger events that stand and those that can still come. -/
def State.toCome (s : State) : Nat := s.room + s.triggers.length

theorem Moves.toCome {s t : State} (h : Moves plain s t) : t.toCome = s.toCome := by
  unfold State.toCome
  rw [State.room_congr fun z => h.sameLevels id id z, h.triggers id id]

theorem changeLevel_toCome {z : ZoneIx} {n : Level} {s : State} (h : (s.zone z).level.rank < n.rank) :
    (changeLevel z n s).toCome ≤ s.toCome := by
  unfold changeLevel
  rw [Moves.toCome (respond_moves .refl)]
  have hm : (notify .zoneLevel z.val n.rank
      (s.modZone z fun r => { r with level := n, changed := some s.clock })).toCome < s.toCome := by
    rw [Moves.toCome (notify_moves (q := plain) .refl)]
    unfold State.toCome
    have := State.room_modZone (s := s) (z := z) (f := fun r => { r with level := n, changed := some s.clock }) h
    rw [State.modZone_triggers]
    omega
  generalize notify .zoneLevel z.val n.rank
      (s.modZone z fun r => { r with level := n, changed := some s.clock }) = u at hm ⊢
  unfold State.toCome at *
  rw [State.room_congr (s := u) (t := raiseTrigger (.levelChange z) u) fun _ => rfl, raiseTrigger_triggers,
    List.length_append, List.length_singleton]
  omega

theorem raiseZone_toCome (z : ZoneIx) (n : Level) (s : State) : (raiseZone z n s).toCome ≤ s.toCome := by
  unfold raiseZone; split
  · exact changeLevel_toCome ‹_›
  · exact Nat.le_refl _

theorem executeAction_toCome (k : TripIx) (v : Int) (a : Action) (s : State) : (executeAction k v a s).toCome ≤ s.toCome := by
  unfold executeAction
  split
  · exact Nat.le_refl _
  · exact raiseZone_toCome _ _ _
  · exact (Moves.toCome (by simp (maxDischargeDepth := 20) [Moves.refl])).le
  · exact (Moves.toCome (by simp (maxDischargeDepth := 20) [Moves.refl])).le
  · exact (Moves.toCome (by simp (maxDischargeDepth := 20) [Moves.refl])).le
  · exact (Moves.toCome (by simp (maxDischargeDepth := 20) [Moves.refl])).le

theorem modTrip_toCome (k : TripIx) (f : Trip → Trip) (s : State) : (s.modTrip k f).toCome = s.toCome := rfl

theorem evaluateTrip_toCome (k : TripIx) (s : State) : (evaluateTrip k s).toCome ≤ s.toCome := by
  have ht : ∀ v s, (executeTrue k v s).toCome ≤ s.toCome := fun v s => executeAction_toCome _ _ _ _
  have hf : ∀ v s, (executeFalse k v s).toCome ≤ s.toCome := fun v s => executeAction_toCome _ _ _ _
  unfold evaluateTrip
  dsimp only
  split
  · exact Nat.le_refl _
  · split
    · exact ht _ _
    · exact Nat.le_refl _
  · split
    · exact Nat.le_refl _
    · split_ifs
      · exact Nat.le_refl _
      · exact ht _ _
      · exact hf _ _
  · split
    · exact ht _ _
    · exact hf _ _

theorem takeTrigger_toCome (e : Trigger) (s : State) : (takeTrigger e s).toCome ≤ s.toCome := by
  unfold takeTrigger
  generalize List.finRange 64 = l
  induction l generalizing s with
  | nil => exact Nat.le_refl _
  | cons k ks ih =>
    rw [List.foldl_cons]
    refine Nat.le_trans (ih _) ?_
    split
    · exact evaluateTrip_toCome _ _
    · exact Nat.le_refl _

theorem settleTriggers_triggers {n : Nat} {s : State} (h : s.toCome ≤ n) : (settleTriggers n s).triggers = [] := by
  induction n generalizing s with
  | zero =>
    unfold State.toCome at h
    unfold settleTriggers
    exact List.length_eq_zero_iff.1 (by omega)
  | succ n ih =>
    unfold settleTriggers
    split
    · assumption
    · rename_i e rest hs
      refine ih (Nat.le_trans (takeTrigger_toCome _ _) ?_)
      unfold State.toCome at *
      rw [hs, List.length_cons] at h
      rw [State.room_congr (s := s) (t := { s with triggers := rest }) fun _ => rfl]
      show s.room + rest.length ≤ n
      omega

/-- R92: no trigger event stands once those that stood have been taken. -/
@[simp] theorem settle_triggers (s : State) : (settle s).triggers = [] :=
  settleTriggers_triggers (by unfold State.toCome; have := s.room_le; omega)

/-- Where nothing stands there is nothing to take. -/
theorem settle_idle {s : State} (h : s.triggers = []) : settle s = s := by
  unfold settle settleTriggers
  rw [h]

/-- No trip that is not Off waits for a trigger event. -/
def State.deafTo (s : State) (e : Trigger) : Prop := ∀ k, (s.trip k).cfg.trigger = e → (s.trip k).cfg.mode = .off

theorem takeTrigger_deaf {s : State} {e : Trigger} (h : s.deafTo e) : takeTrigger e s = s := by
  unfold takeTrigger
  generalize List.finRange 64 = l
  induction l with
  | nil => rfl
  | cons k ks ih =>
    rw [List.foldl_cons]
    have hk : (if (s.trip k).cfg.trigger = e then evaluateTrip k s else s) = s := by
      split
      · rename_i he; unfold evaluateTrip; dsimp only; rw [h k he]
      · rfl
    rw [hk]; exact ih

/-- A trigger event that no trip waits for is taken without effect. -/
theorem settle_deaf {s : State} {e : Trigger} (hs : s.triggers = [e]) (h : s.deafTo e) :
    settle s = { s with triggers := [] } := by
  unfold settle
  rw [hs]
  show settleTriggers 129 s = _
  unfold settleTriggers
  rw [hs]
  have h' : State.deafTo { s with triggers := [] } e := h
  dsimp only
  rw [takeTrigger_deaf h']
  unfold settleTriggers
  rfl

/-! ## No trigger event stands between commands -/

/-- A detection is taken whole: its trigger events are settled within the command. -/
theorem edgeActs_triggers {s : State} {i : InputIx} {b : Bool} (h : s.triggers = []) : (edgeActs i b s).triggers = [] := by
  have hc : ∀ p, (contactEdge p b s).triggers = [] := fun p => by
    rw [Moves.triggers (contactEdge_moves (q := plain) .refl) id id, h]
  have hd : ∀ (u : State) (n : Nat), u.triggers = [] → State.triggers { u with draws := n } = [] := fun _ _ hu => hu
  have hf : ∀ p (u : State), u.triggers = [] → (trackFlame p b u).triggers = [] := fun p u hu => by
    rw [Moves.triggers (trackFlame_moves (q := plain) .refl) id id, hu]
  unfold edgeActs
  dsimp only
  split
  · simp
  · split
    · exact eitherOrder_keeps (P := fun u => u.triggers = []) hd (fun u _ => by simp) (fun u _ => by simp) (hc _)
    · refine inAnyOrder_keeps (P := fun u => u.triggers = []) hd ?_ (hc _)
      simp only [List.mem_cons, List.not_mem_nil, or_false, forall_eq_or_imp, forall_eq]
      exact ⟨fun u _ => by simp, fun u _ => by simp, fun u hu => hf _ u hu⟩
    all_goals simp

theorem inputEdge_triggers {s : State} {i : InputIx} (h : s.triggers = []) : (inputEdge i s).triggers = [] := by
  unfold inputEdge; dsimp only; split
  · exact edgeActs_triggers h
  · exact h

theorem rawLevelChanges_triggers {s : State} {i : InputIx} {b : Bool} (h : s.triggers = []) :
    (rawLevelChanges i b s).triggers = [] := by
  unfold rawLevelChanges startDebounce; dsimp only; split_ifs
  · exact h
  · exact h
  · exact h
  · exact inputEdge_triggers h
  · exact h

theorem classify_triggers {s : State} {f : Frame} (h : s.triggers = []) : (classify f s).triggers = [] := by
  have hh : ∀ i a (u : State), u.triggers = [] → (heard i a u).triggers = [] := fun i a u hu => by
    rw [Moves.triggers (heard_moves (q := plain) .refl) id id, hu]
  have hd : ∀ (u : State) (n : Nat), u.triggers = [] → State.triggers { u with draws := n } = [] := fun _ _ hu => hu
  unfold classify
  split
  · unfold takeReport
    split
    · exact h
    · split
      · exact hh _ _ _ h
      · unfold deliver
        dsimp only
        rename_i i _ _ r _
        generalize hu : heard i s.clock _ = u
        have hu' : u.triggers = [] := hu ▸ hh _ _ _ h
        unfold handOn
        split
        · exact eitherOrder_keeps (P := fun u => u.triggers = []) hd (fun u _ => by simp) (fun u _ => by simp) hu'
        · refine eitherOrder_keeps (P := fun u => u.triggers = []) hd (fun u _ => by simp) (fun u h' => ?_) hu'
          rw [Moves.triggers (trackFlame_moves (q := plain) .refl) id id, h']
        all_goals simp
  · exact h

theorem resetZone_triggers {s : State} {rq : Request} (hs : s.triggers = []) : (takeResetZone rq s).triggers = [] := by
  have hr : ∀ c (u : State), u.triggers = [] → (reply rq c u).triggers = [] := fun _ _ hu => hu
  unfold takeResetZone
  split
  · exact answer_keeps (P := fun u => u.triggers = []) (fun c => hr c s hs)
      (eitherOrder_keeps (P := fun u => u.triggers = []) (fun _ _ hu => hu) (fun u _ => by simp) (fun u hu => hr _ u hu) hs) hs
  · exact answer_keeps (P := fun u => u.triggers = []) (fun c => hr c s hs) hs hs

theorem commands_triggers {c : Instr} {s t : State} (hc : ordinary c = true) (he : exec c s = .next t) (hs : s.triggers = []) :
    t.triggers = [] := by
  have plainly : (¬(allowOf c).raise ∧ ¬(allowOf c).quiet) → t.triggers = [] := fun hq => by
    obtain ⟨u, hu, hm⟩ := exec_moves c s hc
    rw [hu] at he; cases he
    rw [hm.triggers hq.1 hq.2, hs]
  cases c with
  | sampleExpiry i => cases he; exact settle_triggers _
  | slotEnd z => cases he; exact settle_triggers _
  | tick => cases he; unfold tickTaken; split; exacts [settle_triggers _, hs]
  | rawLevelChange i b => cases he; exact rawLevelChanges_triggers hs
  | debounceDeadline i => cases he; unfold debounceEnds; split; exacts [inputEdge_triggers hs, hs]
  | resetZone rq => cases he; exact resetZone_triggers hs
  | _ => exact plainly ⟨id, id⟩

theorem startIfActive_triggers (s : State) : (startIfActive s).triggers = s.triggers := by
  unfold startIfActive; split <;> rfl

/-- R92: a command leaves no trigger event standing. -/
theorem triggers_stable : Stable fun s => s.triggers = [] where
  moves hr hq h hs := by rw [h.triggers hr hq, hs]
  commands hc he hs := commands_triggers hc he hs
  classify f s hs := by unfold classifyFrame; split; exacts [hs, classify_triggers hs]
  resetZone _ _ hs := resetZone_triggers hs
  clock _ hs := hs
  queue _ _ hs := hs
  port _ _ hs := hs
  clearDevice _ hs := hs
  powerUp _ _ := rfl
  startGood m s _ _ hs := (startIfActive_triggers _).trans hs
  startBad s _ hs := (startIfActive_triggers _).trans hs
  writePoint i c s _ hs := by
    rw [(writePoint_moves (q := plain) (s := replacePoint i c s) .refl).triggers id id]
    unfold replacePoint
    dsimp only
    split <;> exact hs
  writeDevice _ _ _ hs := hs
  changeMode m s hs := by
    unfold changeMode
    split
    · exact startIfActive_triggers _
    · exact hs
    · split
      · rw [(enterProtect_moves (q := plain) s).triggers id id]; exact hs
      · exact hs
    · exact hs
  restart s _ := startIfActive_triggers _

end Sys2Proof.Machine
end

