-- ==== Sys2Proof/Laws/Requests.lean ====
section
/-! SUPPORT. How a Request is answered, said once: the checks of R165 for a Request that passes the first three, and the Done
Reply beside an effect. -/

namespace Sys2Proof.Machine

/-- The first failed check answers. -/
theorem answer_refused {s : State} {rq : Request} {ch : List (Bool × ReplyCode)} {f : State → State} {c : ReplyCode}
    (hm : s.mode ≠ .loading) (h : firstFailed ch = some c) : answer rq ch f s = reply rq c s := by
  unfold answer; rw [if_neg hm, h]

/-- No failed check: the Request is accepted. -/
theorem answer_accepted {s : State} {rq : Request} {ch : List (Bool × ReplyCode)} {f : State → State}
    (hm : s.mode ≠ .loading) (h : firstFailed ch = none) : answer rq ch f s = f s := by
  unfold answer; rw [if_neg hm, h]

theorem everyTable_contains {n : Nat} (h : n ≤ 7) : everyTable.contains n = true := by interval_cases n <;> rfl

theorem everyTable_lacks {n : Nat} (h : 7 < n) : everyTable.contains n = false := by
  have : ∀ m ∈ everyTable, m ≤ 7 := by decide
  rw [List.contains_eq_mem, decide_eq_false_iff_not]
  intro hm; have := this n hm; omega

/-- A Request that passes checks 1 to 3 meets the checks that follow. -/
theorem firstFailed_entry {s : State} {rq : Request} {n : Nat} {tables : List Nat} (h : s.permits rq n)
    (ht : tables.contains n = true) (more : List (Bool × ReplyCode)) :
    firstFailed (s.entryChecks rq tables ++ more) = firstFailed more := by
  obtain ⟨-, h2, h3, h4, -⟩ := h
  simp only [State.entryChecks, List.cons_append, List.nil_append, firstFailed, h2, h3, ht, Request.outside, Nat.not_le.2 h4,
    bne_self_eq_false, Bool.not_true, decide_false, Bool.false_eq_true, if_false]

theorem State.permits.mode {s : State} {rq : Request} {n : Nat} (h : s.permits rq n) : s.mode ≠ .loading := h.1

theorem State.permits.reserved {s : State} {rq : Request} {n : Nat} (h : s.permits rq n) : rq.reservedSet = false :=
  h.2.2.2.2

theorem State.permits.table {s : State} {rq : Request} {n : Nat} (h : s.permits rq n) : rq.table = n := h.2.2.1

theorem State.permits.le {s : State} {rq : Request} {n : Nat} (h : s.permits rq n) : n ≤ 7 := by
  obtain ⟨-, -, -, h4, -⟩ := h
  by_contra hn
  have : tableSize n = 0 := by
    unfold tableSize
    split <;> omega
  omega

/-- A permitted Request, answered by the checks that follow the first three. -/
theorem answer_entry {s : State} {rq : Request} {n : Nat} {tables : List Nat} (h : s.permits rq n)
    (ht : tables.contains n = true) (more : List (Bool × ReplyCode)) (f : State → State) :
    answer rq (s.entryChecks rq tables ++ more) f s =
      match firstFailed more with
      | some c => reply rq c s
      | none => f s := by
  unfold answer
  rw [if_neg h.mode, firstFailed_entry h ht] <;> cases firstFailed more <;> rfl

/-- `t` is `s` after an accepted Request with this effect: its Done Reply joins before or after the effect's notices (log 7). -/
def Answered (rq : Request) (f : State → State) (s t : State) : Prop :=
  ∃ n, t = { reply rq .done (f s) with draws := n } ∨ t = { f (reply rq .done s) with draws := n }

theorem doneWith_answered (rq : Request) (f : State → State) (s : State) : Answered rq f s (doneWith rq f s) := by
  unfold doneWith eitherOrder
  dsimp only
  split
  · exact ⟨_, .inl rfl⟩
  · split
    · exact ⟨_, .inl rfl⟩
    · exact ⟨_, .inr rfl⟩

/-- An effect that commutes with the Reply leaves no choice. -/
theorem doneWith_eq {rq : Request} {f : State → State} {s : State} (h : f (reply rq .done s) = reply rq .done (f s)) :
    doneWith rq f s = reply rq .done (f s) := by
  unfold doneWith eitherOrder
  dsimp only
  rw [if_pos h.symm]

/-- A fact that neither the Reply nor the choice counter touches, and that the effect establishes from `s` and from `s` with
the Reply placed, holds after the Request. -/
theorem Answered.fact {P : State → Prop} {rq : Request} {f : State → State} {s t : State} (h : Answered rq f s t)
    (hp : ∀ u p n, P u → P { u with port := p, draws := n }) (hf : ∀ p, P (f { s with port := p })) : P t := by
  obtain ⟨n, rfl | rfl⟩ := h
  · exact hp (f s) (reply rq .done (f s)).port n (hf s.port)
  · exact hp _ (f (reply rq .done s)).port n (hf _)

/-- The same for a fact that rests on the loop conditions, which a Reply leaves alone. -/
theorem Answered.keeps {P : State → Prop} {rq : Request} {f : State → State} {s t : State} (h : Answered rq f s t)
    (hp : ∀ u p n, u.port.SameLoop p → P u → P { u with port := p, draws := n })
    (hf : ∀ p, P (f { s with port := p })) : P t := by
  obtain ⟨n, rfl | rfl⟩ := h
  · exact hp (f s) (reply rq .done (f s)).port n (Port.joinRoutine_sameLoop ..) (hf s.port)
  · exact hp _ (f (reply rq .done s)).port n (.refl _) (hf _)

end Sys2Proof.Machine
end

