-- ==== Sys2Proof/Laws/Orders.lean ====
section
/-! SUPPORT. Events in any order: what one of them brings about, and the others keep, holds in the end; the free order is some
order of them. -/

namespace Sys2Proof.Machine

theorem pickOrder_reaches {P Q : State → Prop} (hdP : ∀ u n, P u → P { u with draws := n })
    (hdQ : ∀ u n, Q u → Q { u with draws := n }) (n : Nat) (fs : List (State → State)) (hn : fs.length = n)
    (hQ : ∀ f ∈ fs, ∀ u, Q u → Q (f u)) (hP : ∀ f ∈ fs, ∀ u, Q u → P u → P (f u)) (s : State) (hs : Q s)
    (h : P s ∨ ∃ f ∈ fs, ∀ u, Q u → P (f u)) : P (pickOrder n fs s) := by
  induction n generalizing fs s with
  | zero =>
    cases fs with
    | nil => rcases h with h | ⟨f, hf, -⟩; exacts [h, absurd hf List.not_mem_nil]
    | cons => cases hn
  | succ n ih =>
    cases fs with
    | nil => cases hn
    | cons g gs =>
      unfold pickOrder
      dsimp only
      generalize hj : Config.choice s.draws % (gs.length + 1) = j
      have hlt : j < (g :: gs).length := by rw [← hj]; exact Nat.mod_lt _ (Nat.succ_pos _)
      rw [List.getElem?_eq_getElem hlt, Option.getD_some]
      have hm : (g :: gs)[j] ∈ g :: gs := List.getElem_mem hlt
      refine ih _ (by rw [List.length_eraseIdx_of_lt hlt]; simpa using hn)
        (fun f hf => hQ f (List.mem_of_mem_eraseIdx hf)) (fun f hf => hP f (List.mem_of_mem_eraseIdx hf)) _
        (hQ _ hm _ (hdQ _ _ hs)) ?_
      rcases h with h | ⟨f, hf, hr⟩
      · exact .inl (hP _ hm _ (hdQ _ _ hs) (hdP _ _ h))
      · obtain ⟨k, hk, rfl⟩ := List.mem_iff_getElem.1 hf
        by_cases e : k = j
        · subst e; exact .inl (hr _ (hdQ _ _ hs))
        · exact .inr ⟨_, List.mem_eraseIdx_iff_getElem.2 ⟨k, hk, e, rfl⟩, hr⟩

/-- In whatever order events are taken, what one of them brings about and the others keep holds in the end; `Q` is what they
may rely on. -/
theorem inAnyOrder_reaches {P Q : State → Prop} (hdP : ∀ u n, P u → P { u with draws := n })
    (hdQ : ∀ u n, Q u → Q { u with draws := n }) {fs : List (State → State)} (hQ : ∀ f ∈ fs, ∀ u, Q u → Q (f u))
    (hP : ∀ f ∈ fs, ∀ u, Q u → P u → P (f u)) {s : State} (hs : Q s) (h : P s ∨ ∃ f ∈ fs, ∀ u, Q u → P (f u)) :
    P (inAnyOrder fs s) := by
  have single : ∀ f : State → State, (P s ∨ ∃ g ∈ [f], ∀ u, Q u → P (g u)) → (∀ u, Q u → P u → P (f u)) → P (f s) := by
    intro f h hp
    rcases h with h | ⟨g, hg, hr⟩
    · exact hp _ hs h
    · rw [List.mem_singleton] at hg; subst hg; exact hr _ hs
  unfold inAnyOrder
  split
  · rcases h with h | ⟨f, hf, -⟩; exacts [h, absurd hf List.not_mem_nil]
  · exact single _ h (hP _ (List.mem_singleton.2 rfl))
  · rename_i f g
    have hfQ := hQ f (by simp)
    have hgQ := hQ g (by simp)
    have hfP := hP f (by simp)
    have hgP := hP g (by simp)
    have h1 : P (g (f s)) ∧ P (f (g s)) := by
      rcases h with h | ⟨e, he, hr⟩
      · exact ⟨hgP _ (hfQ _ hs) (hfP _ hs h), hfP _ (hgQ _ hs) (hgP _ hs h)⟩
      · simp only [List.mem_cons, List.not_mem_nil, or_false] at he
        rcases he with rfl | rfl
        · exact ⟨hgP _ (hfQ _ hs) (hr _ hs), hr _ (hgQ _ hs)⟩
        · exact ⟨hr _ (hfQ _ hs), hfP _ (hgQ _ hs) (hr _ hs)⟩
    unfold eitherOrder
    dsimp only
    split
    · exact h1.1
    · split
      · exact hdP _ _ h1.1
      · exact hdP _ _ h1.2
  · exact pickOrder_reaches hdP hdQ _ _ rfl hQ hP s hs h

/-! ## Some order -/

theorem InSomeOrder.take_at {fs : List (State → State)} {s t : State} (k : Nat) (hk : k < fs.length) (n : Nat)
    (h : InSomeOrder (fs.eraseIdx k) (fs[k] { s with draws := n }) t) : InSomeOrder fs s t :=
  .take ⟨k, hk⟩ n h

/-- The last state may differ in the count of free choices. -/
theorem InSomeOrder.drawn {fs : List (State → State)} {s t : State} (h : InSomeOrder fs s t) (n : Nat) :
    InSomeOrder fs s { t with draws := n } := by
  induction h with
  | done s m => exact .done s n
  | take k m _ ih => exact .take k m ih

theorem InSomeOrder.one (f : State → State) (s : State) : InSomeOrder [f] s (f s) :=
  .take_at 0 Nat.one_pos s.draws (.done (f s) (f s).draws)

theorem InSomeOrder.first (f g : State → State) (s : State) : InSomeOrder [f, g] s (g (f s)) :=
  .take_at 0 (by simp) s.draws (.one g (f s))

theorem InSomeOrder.second (f g : State → State) (s : State) : InSomeOrder [f, g] s (f (g s)) :=
  .take_at 1 (by simp) s.draws (.one f (g s))

theorem pickOrder_someOrder (n : Nat) (fs : List (State → State)) (hn : fs.length = n) (s : State) :
    InSomeOrder fs s (pickOrder n fs s) := by
  induction n generalizing fs s with
  | zero =>
    cases fs with
    | nil => exact .done s s.draws
    | cons => cases hn
  | succ n ih =>
    cases fs with
    | nil => cases hn
    | cons g gs =>
      unfold pickOrder
      dsimp only
      generalize hj : Config.choice s.draws % (gs.length + 1) = j
      have hlt : j < (g :: gs).length := by rw [← hj]; exact Nat.mod_lt _ (Nat.succ_pos _)
      rw [List.getElem?_eq_getElem hlt, Option.getD_some]
      exact .take_at j hlt _ (ih _ (by rw [List.length_eraseIdx_of_lt hlt]; simpa using hn) _)

/-- Two events in either order are taken in some order. -/
theorem eitherOrder_someOrder (f g : State → State) (s : State) : InSomeOrder [f, g] s (eitherOrder f g s) := by
  unfold eitherOrder
  dsimp only
  split
  · exact .first f g s
  · split
    · exact (InSomeOrder.first f g s).drawn _
    · exact (InSomeOrder.second f g s).drawn _

/-- Events in any order are taken in some order. -/
theorem inAnyOrder_someOrder (fs : List (State → State)) (s : State) : InSomeOrder fs s (inAnyOrder fs s) := by
  unfold inAnyOrder
  split
  · exact .done s s.draws
  · exact .one _ s
  · exact eitherOrder_someOrder _ _ s
  · exact pickOrder_someOrder _ _ rfl s

/-- What every event keeps, and the count of free choices does not touch, an order of them keeps. -/
theorem InSomeOrder.keeps {P : State → Prop} (hd : ∀ u n, P u → P { u with draws := n }) {fs : List (State → State)}
    {s t : State} (h : InSomeOrder fs s t) (hf : ∀ f ∈ fs, ∀ u, P u → P (f u)) (hs : P s) : P t := by
  induction h with
  | done s n => exact hd _ _ hs
  | take k n _ ih =>
    exact ih (fun f hm => hf f (List.mem_of_mem_eraseIdx hm)) (hf _ (List.getElem_mem k.isLt) _ (hd _ _ hs))

/-- One event among others: it turns `B` into `A`, and the others keep each, so `A` holds in the end. -/
theorem InSomeOrder.once {B A : State → Prop} (hB : ∀ u n, B u → B { u with draws := n })
    (hA : ∀ u n, A u → A { u with draws := n }) {fs : List (State → State)} {s t : State} (h : InSomeOrder fs s t)
    {g : State → State} {rest : List (State → State)} (hp : fs.Perm (g :: rest)) (hg : ∀ u, B u → A (g u))
    (hr : ∀ f ∈ rest, ∀ u, (B u → B (f u)) ∧ (A u → A (f u))) (hs : B s) : A t := by
  induction h generalizing rest with
  | done s n => exact absurd hp.length_eq (by simp)
  | @take fs s t k n h ih =>
    have e : (fs[k] :: fs.eraseIdx k).Perm (g :: rest) := (List.getElem_cons_eraseIdx_perm k.isLt).trans hp
    by_cases hk : fs[k] = g
    · rw [hk] at e h
      exact h.keeps hA (fun f hf => fun u => (hr f (e.cons_inv.mem_iff.1 hf) u).2) (hg _ (hB _ _ hs))
    · have hm : g ∈ fs.eraseIdx k := by
        rcases List.mem_cons.1 (e.mem_iff.2 List.mem_cons_self) with h' | h'
        · exact absurd h'.symm hk
        · exact h'
      obtain ⟨l, r, hlr⟩ := List.append_of_mem hm
      have e1 : (fs.eraseIdx k).Perm (g :: (l ++ r)) := by rw [hlr]; exact List.perm_middle
      have e2 : (fs[k] :: (l ++ r)).Perm rest :=
        (((e1.cons fs[k]).symm.trans e).symm.trans (.swap g fs[k] (l ++ r))).cons_inv.symm
      exact ih e1 (fun f hf => hr f (e2.mem_iff.1 (List.mem_cons_of_mem _ hf)))
        ((hr _ (e2.mem_iff.1 List.mem_cons_self) _).1 (hB _ _ hs))

end Sys2Proof.Machine
end

