-- ==== Sys2Proof/Laws/Blocks.lean ====
section
/-! SUPPORT. What the Siren Controller, the Line Controller and the Door Controller do to their own entries, and that the Drive
Unit's work in between leaves the entries alone. -/

namespace Sys2Proof.Machine

/-- Every point. -/
abbrev anyPoint : PointIx → Prop := fun _ => True

/-! ## Siren groups -/

theorem commandOutputs_driveOnly {s t : State} {g : GroupIx} {r : Requested} (h : DriveOnly anyPoint s t) :
    DriveOnly anyPoint s (commandOutputs g r t) :=
  foldl_driveOnly (fun _ _ _ hu => issue_driveOnly trivial hu) h

theorem issues_driveOnly {s t : State} {r : Requested} {l : List PointIx} (h : DriveOnly anyPoint s t) :
    DriveOnly anyPoint s (l.foldl (fun u i => issue i r u) t) :=
  foldl_driveOnly (fun _ _ _ hu => issue_driveOnly trivial hu) h

@[simp] theorem commandOutputs_group (g h : GroupIx) (r : Requested) (s : State) :
    (commandOutputs g r s).group h = s.group h := (commandOutputs_driveOnly (.refl s)).group h

@[simp] theorem issues_group (h : GroupIx) (r : Requested) (l : List PointIx) (s : State) :
    (l.foldl (fun u i => issue i r u) s).group h = s.group h := (issues_driveOnly (.refl s)).group h

@[simp] theorem issues_clock (r : Requested) (l : List PointIx) (s : State) :
    (l.foldl (fun u i => issue i r u) s).clock = s.clock := (issues_driveOnly (.refl s)).clock

@[simp] theorem issues_cadences (r : Requested) (l : List PointIx) (s : State) :
    (l.foldl (fun u i => issue i r u) s).cadences = s.cadences := by rw [(issues_driveOnly (l := l) (r := r) (.refl s)).rest]

@[simp] theorem commandOutputs_cadences (g : GroupIx) (r : Requested) (s : State) :
    (commandOutputs g r s).cadences = s.cadences := issues_cadences _ _ _

theorem stopEngine_group (g h : GroupIx) (s : State) :
    (stopEngine g s).group h = if h = g then { s.group g with engineOn := false, phaseAt := none } else s.group h := by
  unfold stopEngine; rw [State.group_modGroup_if]; simp

/-- R136: a quieted group sounds nothing, and its engine stands still. -/
theorem quietGroup_group (g h : GroupIx) (s : State) :
    (quietGroup g s).group h =
      if h = g then { s.group g with sounding := none, endAt := none, engineOn := false, phaseAt := none } else s.group h := by
  unfold quietGroup
  rw [stopEngine_group]
  split
  · subst_vars; simp
  · rw [State.group_modGroup_if, if_neg ‹_›]; simp

theorem quietGroup_cadences (g : GroupIx) (s : State) : (quietGroup g s).cadences = s.cadences := by
  unfold quietGroup stopEngine; simp

/-- The deadline the engine sets at the on phase of a cadence (R137). -/
def enginePhaseAt (now : Time) (k : Cadence) : Option Time :=
  if k.off = 0 ∧ k.cycles = 0 then none else some (after now (k.on.toNat * 10))

/-- R136: a group that starts a cadence. -/
theorem startCadence_group (g h : GroupIx) (c : CadenceIx) (s : State) :
    (startCadence g c s).group h =
      if h = g then
        { s.group g with
          sounding := some c
          endAt := if (s.cadence c).cycles = 0 then none else some (after s.clock (s.cadence c).length)
          engineOn := true
          phaseAt := enginePhaseAt s.clock (s.cadence c) }
      else s.group h := by
  have hc : ∀ l r, State.cadence (List.foldl (fun u i => issue i r u) s l) c = s.cadence c := fun l r => by
    simp only [State.cadence, issues_cadences]
  have hm : ∀ (u : State) f, State.cadence (u.modGroup g f) c = u.cadence c := fun _ _ => rfl
  unfold startCadence restartEngine
  dsimp only
  rw [State.group_modGroup_if]
  split
  · subst_vars
    simp only [commandOutputs_group, State.group_modGroup, issues_group, hm, hc, State.modGroup_clock, issues_clock]
    rfl
  · rw [commandOutputs_group, State.group_modGroup_if, if_neg ‹_›, issues_group]

theorem startCadence_cadences (g : GroupIx) (c : CadenceIx) (s : State) : (startCadence g c s).cadences = s.cadences := by
  unfold startCadence restartEngine; simp

theorem startWinner_group (g h : GroupIx) (c : CadenceIx) (s : State) :
    (startWinner g c s).group h =
      if h = g then { (startCadence g c s).group g with starts := bump (s.group g).starts } else s.group h := by
  unfold startWinner
  rw [State.group_modGroup_if]
  split
  · subst_vars; rw [startCadence_group, if_pos rfl]
  · rw [startCadence_group, if_neg ‹_›]

theorem State.bestRequest_congr {s t : State} (g : GroupIx) (hr : (t.group g).requests = (s.group g).requests)
    (hc : t.cadences = s.cadences) : t.bestRequest g = s.bestRequest g := by
  unfold State.bestRequest State.rankOf State.cadence
  simp only [hr, hc]

/-- R135: what arbitration leaves of the groups: the winner is the best request, and only its own group changes. -/
theorem arbitrateGroup_group (g h : GroupIx) (s : State) :
    (h ≠ g → (arbitrateGroup g s).group h = s.group h) ∧
      ((arbitrateGroup g s).group g).cfg = (s.group g).cfg ∧
      ((arbitrateGroup g s).group g).requests = (s.group g).requests ∧
      ((arbitrateGroup g s).group g).phase = (s.group g).phase ∧
      ((arbitrateGroup g s).group g).silences = (s.group g).silences ∧
      ((arbitrateGroup g s).group g).tests = (s.group g).tests ∧
      ((s.group g).silencedRank = none → ((arbitrateGroup g s).group g).silencedRank = none) ∧
      ((s.bestRequest g).isSome = true → ((arbitrateGroup g s).group g).winner = s.bestRequest g) := by
  unfold arbitrateGroup
  split
  · rename_i hb
    refine ⟨fun _ => rfl, rfl, rfl, rfl, rfl, rfl, id, fun hx => ?_⟩
    rw [hb] at hx; cases hx
  · rename_i w hb
    split
    · rename_i hw
      exact ⟨fun _ => rfl, rfl, rfl, rfl, rfl, rfl, id, fun _ => by rw [hb, hw]⟩
    · unfold takeWinner
      split
      · split
        · refine ⟨fun hn => ?_, ?_⟩
          · rw [startWinner_group, if_neg hn, State.group_modGroup_ne _ _ _ _ hn]
          · rw [startWinner_group, if_pos rfl, startCadence_group, if_pos rfl, State.group_modGroup]
            exact ⟨rfl, rfl, rfl, rfl, rfl, fun _ => rfl, fun _ => hb.symm⟩
        · refine ⟨fun hn => State.group_modGroup_ne _ _ _ _ hn, ?_⟩
          rw [State.group_modGroup]
          exact ⟨rfl, rfl, rfl, rfl, rfl, id, fun _ => hb.symm⟩
      · refine ⟨fun hn => ?_, ?_⟩
        · rw [startWinner_group, if_neg hn, State.group_modGroup_ne _ _ _ _ hn]
        · rw [startWinner_group, if_pos rfl, startCadence_group, if_pos rfl, State.group_modGroup]
          exact ⟨rfl, rfl, rfl, rfl, rfl, id, fun _ => hb.symm⟩

/-- One step of the search for the best request (R135). -/
def betterRequest (rank : CadenceIx → Nat) (req : ZoneIx → Option CadenceIx) (best : Option (ZoneIx × CadenceIx))
    (z : ZoneIx) : Option (ZoneIx × CadenceIx) :=
  match req z, best with
  | none, b => b
  | some c, none => some (z, c)
  | some c, some (w, d) => if rank d < rank c then some (z, c) else some (w, d)

theorem State.bestRequest_eq (s : State) (g : GroupIx) :
    s.bestRequest g = (List.finRange 32).foldl (betterRequest s.rankOf fun z => (s.group g).requests[z.val]) none := by
  unfold State.bestRequest
  congr 1

/-- What the search finds among zones in rising order, from a best request of a lower zone. -/
theorem foldl_betterRequest (rank : CadenceIx → Nat) (req : ZoneIx → Option CadenceIx) (l : List ZoneIx)
    (hl : l.Pairwise (· < ·)) (b : Option (ZoneIx × CadenceIx)) (hb : ∀ w d, b = some (w, d) → ∀ z ∈ l, w < z) :
    (l.foldl (betterRequest rank req) b = none → b = none ∧ ∀ z ∈ l, req z = none) ∧
      ∀ z c, l.foldl (betterRequest rank req) b = some (z, c) →
        (b = some (z, c) ∨ req z = some c) ∧
          (∀ w d, b = some (w, d) → rank d ≤ rank c ∧ (rank d = rank c → z ≤ w)) ∧
          ∀ w ∈ l, ∀ d, req w = some d → rank d ≤ rank c ∧ (rank d = rank c → z ≤ w) := by
  induction l generalizing b with
  | nil =>
    refine ⟨fun h => ⟨h, fun _ h => absurd h List.not_mem_nil⟩, fun z c h => ⟨.inl h, fun w d hw => ?_, fun _ h => absurd h List.not_mem_nil⟩⟩
    rw [show b = some (z, c) from h] at hw
    cases hw
    exact ⟨le_refl _, fun _ => le_refl _⟩
  | cons y l ih =>
    rw [List.pairwise_cons] at hl
    rw [List.foldl_cons]
    cases hr : req y with
    | none =>
      have e : betterRequest rank req b y = b := by unfold betterRequest; rw [hr]
      rw [e]
      obtain ⟨h1, h2⟩ := ih hl.2 b fun w d hw z hz => hb w d hw z (List.mem_cons_of_mem _ hz)
      refine ⟨fun h => ⟨(h1 h).1, fun z hz => ?_⟩, fun z c h => ?_⟩
      · rcases List.mem_cons.1 hz with rfl | hz
        exacts [hr, (h1 h).2 z hz]
      · obtain ⟨k1, k2, k3⟩ := h2 z c h
        refine ⟨k1, k2, fun w hw d hd => ?_⟩
        rcases List.mem_cons.1 hw with rfl | hw
        · rw [hr] at hd; cases hd
        · exact k3 w hw d hd
    | some x =>
      cases hbb : b with
      | none =>
        have e : betterRequest rank req none y = some (y, x) := by unfold betterRequest; rw [hr]
        rw [e]
        obtain ⟨h1, h2⟩ := ih hl.2 (some (y, x)) fun w d hw z hz => by cases hw; exact hl.1 z hz
        refine ⟨fun h => absurd (h1 h).1 (by simp), fun z c h => ?_⟩
        obtain ⟨k1, k2, k3⟩ := h2 z c h
        refine ⟨.inr ?_, (fun _ _ h => nomatch h), fun w hw d hd => ?_⟩
        · rcases k1 with k | k
          · cases k; exact hr
          · exact k
        · rcases List.mem_cons.1 hw with rfl | hw
          · rw [hr] at hd; cases hd; exact k2 _ _ rfl
          · exact k3 w hw d hd
      | some p =>
        obtain ⟨v, u⟩ := p
        have hvy : v < y := hb v u hbb y List.mem_cons_self
        by_cases hlt : rank u < rank x
        · have e : betterRequest rank req (some (v, u)) y = some (y, x) := by
            unfold betterRequest; rw [hr]; exact if_pos hlt
          rw [e]
          obtain ⟨h1, h2⟩ := ih hl.2 (some (y, x)) fun w d hw z hz => by cases hw; exact hl.1 z hz
          refine ⟨fun h => absurd (h1 h).1 (by simp), fun z c h => ?_⟩
          obtain ⟨k1, k2, k3⟩ := h2 z c h
          have := (k2 _ _ rfl).1
          refine ⟨.inr ?_, fun w d hw => ?_, fun w hw d hd => ?_⟩
          · rcases k1 with k | k
            · cases k; exact hr
            · exact k
          · cases hw; exact ⟨by omega, fun _ => by omega⟩
          · rcases List.mem_cons.1 hw with rfl | hw
            · rw [hr] at hd; cases hd; exact k2 _ _ rfl
            · exact k3 w hw d hd
        · have e : betterRequest rank req (some (v, u)) y = some (v, u) := by
            unfold betterRequest; rw [hr]; exact if_neg hlt
          rw [e]
          obtain ⟨h1, h2⟩ := ih hl.2 (some (v, u)) fun w d hw z hz => by
            cases hw; exact hb v u hbb z (List.mem_cons_of_mem _ hz)
          refine ⟨fun h => absurd (h1 h).1 (by simp), fun z c h => ?_⟩
          obtain ⟨k1, k2, k3⟩ := h2 z c h
          have k4 := k2 _ _ rfl
          refine ⟨k1, k2, fun w hw d hd => ?_⟩
          rcases List.mem_cons.1 hw with rfl | hw
          · rw [hr] at hd; cases hd
            refine ⟨by omega, fun he => ?_⟩
            exact le_of_lt (lt_of_le_of_lt (k4.2 (by omega)) hvy)
          · exact k3 w hw d hd

/-- R135: the winner is a request of highest rank, of the lowest zone among those of its rank. -/
theorem State.bestRequest_spec (s : State) (g : GroupIx) :
    (s.bestRequest g = none → ∀ z : ZoneIx, (s.group g).requests[z.val] = none) ∧
      ∀ z c, s.bestRequest g = some (z, c) →
        (s.group g).requests[z.val] = some c ∧
          ∀ (w : ZoneIx) d, (s.group g).requests[w.val] = some d →
            s.rankOf d ≤ s.rankOf c ∧ (s.rankOf d = s.rankOf c → z ≤ w) := by
  rw [s.bestRequest_eq g]
  obtain ⟨h1, h2⟩ := foldl_betterRequest s.rankOf (fun z => (s.group g).requests[z.val]) (List.finRange 32)
    (List.pairwise_lt_finRange 32) none (fun _ _ h => by cases h)
  refine ⟨fun h z => (h1 h).2 z (List.mem_finRange z), fun z c h => ?_⟩
  obtain ⟨k1, -, k3⟩ := h2 z c h
  exact ⟨k1.resolve_left (by simp), fun w d hd => k3 w (List.mem_finRange w) d hd⟩

theorem Group.noRequests_iff (r : Group) : r.noRequests = true ↔ ∀ z : ZoneIx, r.requests[z.val] = none := by
  unfold Group.noRequests
  rw [List.all_eq_true]
  constructor
  · intro h z
    have := h _ (List.getElem_mem (l := r.requests.toList) (n := z.val) (by simp))
    simpa using this
  · intro h x hx
    obtain ⟨i, hi, rfl⟩ := List.mem_iff_getElem.1 hx
    simp at hi
    have := h ⟨i, hi⟩
    simpa using this

/-! ## Lines and doors: the Drive Unit's work leaves their entries -/

theorem claimLine_driveOnly {s t : State} {l : LineIx} (h : DriveOnly anyPoint s t) : DriveOnly anyPoint s (claimLine l t) :=
  foldl_driveOnly (fun _ _ _ hu => addClaim_driveOnly trivial hu) h

theorem releaseClaims_driveOnly {s t : State} {l : LineIx} (h : DriveOnly anyPoint s t) :
    DriveOnly anyPoint s (releaseClaims l t) :=
  foldl_driveOnly (fun _ _ _ hu => removeClaim_driveOnly trivial hu) h

theorem claimDoor_driveOnly {s t : State} {d : DoorIx} (h : DriveOnly anyPoint s t) : DriveOnly anyPoint s (claimDoor d t) :=
  foldl_driveOnly (fun _ _ _ hu => addClaim_driveOnly trivial hu) h

theorem unclaimDoor_driveOnly {s t : State} {d : DoorIx} (h : DriveOnly anyPoint s t) :
    DriveOnly anyPoint s (unclaimDoor d t) := by
  unfold unclaimDoor
  refine inAnyOrder_driveOnly ?_ h
  simp only [List.mem_map, forall_exists_index, and_imp, forall_apply_eq_imp_iff₂]
  exact fun _ _ _ hu => removeClaim_driveOnly trivial hu

theorem commandDoor_driveOnly {s t : State} {d : DoorIx} {r : Requested} (h : DriveOnly anyPoint s t) :
    DriveOnly anyPoint s (commandDoor d r t) := by
  unfold commandDoor; split
  · exact issue_driveOnly trivial h
  · exact h

/-- What a command leaves of any point: its reported state and its claims, among the rest. -/
theorem issue_reported (i j : PointIx) (r : Requested) (s : State) :
    ((issue i r s).point j).drive.reported = (s.point j).drive.reported := by
  by_cases e : j = i
  · subst e; obtain ⟨a, d, f, w, h⟩ := issue_point j r s; rw [h]
  · rw [(issue_driveOnly (on := fun k => k = i) rfl (.refl s)).point j e]

theorem issue_claims (i j : PointIx) (r : Requested) (s : State) :
    ((issue i r s).point j).drive.claims = (s.point j).drive.claims := by
  by_cases e : j = i
  · subst e; obtain ⟨a, d, f, w, h⟩ := issue_point j r s; rw [h]
  · rw [(issue_driveOnly (on := fun k => k = i) rfl (.refl s)).point j e]

theorem issue_commanded (i : PointIx) (r : Requested) (s : State) : ((issue i r s).point i).drive.commanded = some r := by
  obtain ⟨a, d, f, w, h⟩ := issue_point i r s; rw [h]

theorem modDrive_reported {s : State} {i j : PointIx} {f : Drive → Drive} (h : ∀ d, (f d).reported = d.reported) :
    ((s.modDrive i f).point j).drive.reported = (s.point j).drive.reported := by
  rw [State.modDrive_eq, State.point_modPoint_if]
  split
  · subst_vars; exact h _
  · rfl

theorem removeClaim_reported (c : Claim) (i j : PointIx) (s : State) :
    ((removeClaim c i s).point j).drive.reported = (s.point j).drive.reported := by
  unfold removeClaim
  dsimp only
  split_ifs
  · rw [issue_reported]; exact modDrive_reported fun _ => rfl
  · exact modDrive_reported fun _ => rfl
  · rfl

theorem addClaim_reported (c : Claim) (i j : PointIx) (s : State) :
    ((addClaim c i s).point j).drive.reported = (s.point j).drive.reported := by
  unfold addClaim
  dsimp only
  split_ifs
  · rfl
  · rw [issue_reported]; exact modDrive_reported fun _ => rfl
  · exact modDrive_reported fun _ => rfl

theorem unclaimDoor_reported (d : DoorIx) (j : PointIx) (s : State) :
    ((unclaimDoor d s).point j).drive.reported = (s.point j).drive.reported := by
  unfold unclaimDoor
  refine inAnyOrder_keeps (P := fun u => (u.point j).drive.reported = (s.point j).drive.reported) (fun _ _ h => h) ?_ rfl
  simp only [List.mem_map, forall_exists_index, and_imp, forall_apply_eq_imp_iff₂]
  exact fun _ _ u h => by rw [removeClaim_reported, h]

/-! ## Door states -/

theorem enterDoorState_door (d e : DoorIx) (st : DoorState) (s : State) :
    (enterDoorState d st s).door e = if e = d then { s.door d with state := st } else s.door e := by
  unfold enterDoorState
  rw [show ∀ u : State, ((notify .doorState d.val st.code u).door e = u.door e) from
    fun u => (notify_driveOnly (on := anyPoint) (.refl u)).door e, State.door_modDoor_if]

@[simp] theorem commandDoor_door (d e : DoorIx) (r : Requested) (s : State) : (commandDoor d r s).door e = s.door e :=
  (commandDoor_driveOnly (.refl s)).door e

@[simp] theorem claimDoor_door (d e : DoorIx) (s : State) : (claimDoor d s).door e = s.door e :=
  (claimDoor_driveOnly (.refl s)).door e

@[simp] theorem unclaimDoor_door (d e : DoorIx) (s : State) : (unclaimDoor d s).door e = s.door e :=
  (unclaimDoor_driveOnly (.refl s)).door e

@[simp] theorem recountFaults_door (e : DoorIx) (s : State) : (recountFaults s).door e = s.door e :=
  (recountFaults_driveOnly (on := anyPoint) (.refl s)).door e

theorem commandDoor_clock (d : DoorIx) (r : Requested) (s : State) : (commandDoor d r s).clock = s.clock :=
  (commandDoor_driveOnly (.refl s)).clock

/-- R122: the entry into Releasing, and the passage to Closed where the door already reports Closed. -/
theorem enterReleasing_door (d e : DoorIx) (s : State) :
    (enterReleasing d s).door e =
      if e = d then
        { s.door d with
          state := if s.doorReported d = some .closed then .closed else .releasing
          closingAt :=
            if s.doorReported d = some .closed then none
            else some (after s.clock ((s.door d).cfg.closing * 1000))
          releases := bump (s.door d).releases }
      else s.door e := by
  unfold enterReleasing enterClosed
  dsimp only
  split_ifs with h1 h2 h2
  · subst h2; rw [enterDoorState_door, if_pos rfl, State.door_modDoor, enterDoorState_door, if_pos rfl]; simp
  · rw [enterDoorState_door, if_neg h2, State.door_modDoor_ne _ _ _ _ h2, enterDoorState_door, if_neg h2,
      State.door_modDoor_ne _ _ _ _ h2, commandDoor_door]
  · subst h2; rw [enterDoorState_door, if_pos rfl]; simp
  · rw [enterDoorState_door, if_neg h2, State.door_modDoor_ne _ _ _ _ h2, commandDoor_door]

/-- What the passage of a door from Clearing to Releasing keeps and brings: the close request and the configuration part
stand, and the state is one of these. -/
structure Closing (d : DoorIx) (s t : State) : Prop where
  state : (t.door d).state = .clearing ∨ (t.door d).state = .releasing ∨ (t.door d).state = .closed
  request : (t.door d).closeRequest = (s.door d).closeRequest
  cfg : (t.door d).cfg = (s.door d).cfg
  others : ∀ e, e ≠ d → t.door e = s.door e

theorem enterReleasing_closing (d : DoorIx) (s : State) : Closing d s (enterReleasing d s) where
  state := by rw [enterReleasing_door, if_pos rfl]; dsimp only; split <;> simp
  request := by rw [enterReleasing_door, if_pos rfl]
  cfg := by rw [enterReleasing_door, if_pos rfl]
  others e h := by rw [enterReleasing_door, if_neg h]

theorem Closing.of_modDoor {d : DoorIx} {s t : State} {f : Door → Door} (h : Closing d (s.modDoor d f) t)
    (h1 : (f (s.door d)).closeRequest = (s.door d).closeRequest) (h2 : (f (s.door d)).cfg = (s.door d).cfg) :
    Closing d s t where
  state := h.state
  request := by rw [h.request, State.door_modDoor, h1]
  cfg := by rw [h.cfg, State.door_modDoor, h2]
  others e he := by rw [h.others e he, State.door_modDoor_ne _ _ _ _ he]

theorem Closing.of_doors {d : DoorIx} {s s' t : State} (h : Closing d s' t) (hd : ∀ e, s'.door e = s.door e) :
    Closing d s t where
  state := h.state
  request := by rw [h.request, hd]
  cfg := by rw [h.cfg, hd]
  others e he := by rw [h.others e he, hd]

theorem finishRunOut_closing (d : DoorIx) (s : State) : Closing d s (finishRunOut d s) :=
  (enterReleasing_closing d _).of_modDoor rfl rfl

theorem forceRelease_closing (d : DoorIx) (s : State) : Closing d s (forceRelease d s) :=
  (enterReleasing_closing d _).of_modDoor rfl rfl

theorem freely_closing {d : DoorIx} {f g : State → State} {s : State} (hf : ∀ u, Closing d u (f u))
    (hg : ∀ u, Closing d u (g u)) : Closing d s (freely f g s) := by
  unfold freely; split
  · exact (hf _).of_doors fun _ => rfl
  · exact (hg _).of_doors fun _ => rfl

theorem startRunOut_closing {d : DoorIx} {s : State} (h : (s.door d).state = .clearing) : Closing d s (startRunOut d s) := by
  unfold startRunOut; split
  · exact finishRunOut_closing d s
  · exact ⟨by simp [h], by simp, by simp, fun e he => State.door_modDoor_ne _ _ _ _ he⟩

/-- R120: the entry into Clearing. -/
theorem enterClearing_closing (d : DoorIx) (s : State) : Closing d s (enterClearing d s) := by
  unfold enterClearing
  dsimp only
  generalize ht : enterDoorState d .clearing _ = t
  have hs : (t.door d).state = .clearing := by subst ht; rw [enterDoorState_door, if_pos rfl]
  have hd : ∀ u, Closing d t u → Closing d s u := fun u h => by
    refine Closing.mk h.state ?_ ?_ fun e he => ?_
    · rw [h.request]; subst ht; rw [enterDoorState_door, if_pos rfl]; simp
    · rw [h.cfg]; subst ht; rw [enterDoorState_door, if_pos rfl]; simp
    · rw [h.others e he]; subst ht
      rw [enterDoorState_door, if_neg he, State.door_modDoor_ne _ _ _ _ he, claimDoor_door]
  split
  · split
    · exact hd _ (freely_closing (finishRunOut_closing d) (forceRelease_closing d))
    · exact hd _ (startRunOut_closing hs)
  · exact hd _ ⟨.inl hs, rfl, rfl, fun _ _ => rfl⟩

theorem closeFromOpen_closing (d : DoorIx) (s : State) : Closing d s (closeFromOpen d s) := by
  unfold closeFromOpen; split
  · exact enterReleasing_closing d s
  · exact enterClearing_closing d s

/-! ## Claims (R145) -/

/-- What adding a claim makes of a point: the claim is in its set. -/
theorem addClaim_claims (c : Claim) (i j : PointIx) (s : State) :
    ((addClaim c i s).point j).drive.claims =
      if j = i ∧ c ∉ (s.point i).drive.claims then (s.point i).drive.claims ++ [c] else (s.point j).drive.claims := by
  have hi : ∀ (u : State) r, ((issue i r u).point i).drive.claims = (u.point i).drive.claims := fun u r => by
    obtain ⟨a, d, f, w, h⟩ := issue_point i r u; rw [h]
  have hm : ∀ f, ((s.modDrive i f).point i) = { s.point i with drive := f (s.point i).drive } := fun f => by simp
  by_cases e : j = i
  · subst e
    unfold addClaim
    dsimp only
    split
    · rename_i hc; simp [hc]
    · rename_i hc
      simp only [hc, not_false_eq_true, and_self, if_true]
      split
      · rw [hi, hm]
      · rw [hm]
  · rw [if_neg fun h => e h.1]
    rw [(addClaim_driveOnly (on := fun k => k = i) rfl (.refl s)).point j e]

/-- What removing a claim makes of a point: the claim is out of its set. -/
theorem removeClaim_claims (c : Claim) (i j : PointIx) (s : State) :
    ((removeClaim c i s).point j).drive.claims =
      if j = i then (s.point i).drive.claims.filter (· != c) else (s.point j).drive.claims := by
  have hi : ∀ (u : State) r, ((issue i r u).point i).drive.claims = (u.point i).drive.claims := fun u r => by
    obtain ⟨a, d, f, w, h⟩ := issue_point i r u; rw [h]
  have hm : ∀ f, ((s.modDrive i f).point i) = { s.point i with drive := f (s.point i).drive } := fun f => by simp
  by_cases e : j = i
  · subst e
    rw [if_pos rfl]
    unfold removeClaim
    dsimp only
    split
    · split
      · rw [hi, hm]
      · rw [hm]
    · rename_i hc
      rw [List.filter_eq_self.2]
      intro a ha
      simp only [bne_iff_ne, ne_eq]
      rintro rfl
      exact hc ha
  · rw [if_neg e, (removeClaim_driveOnly (on := fun k => k = i) rfl (.refl s)).point j e]

theorem not_mem_removeClaim (c : Claim) (i : PointIx) (s : State) : c ∉ ((removeClaim c i s).point i).drive.claims := by
  rw [removeClaim_claims, if_pos rfl]; simp

theorem removeClaim_mono {c d : Claim} {i j : PointIx} {s : State} (h : c ∉ (s.point j).drive.claims) :
    c ∉ ((removeClaim d i s).point j).drive.claims := by
  rw [removeClaim_claims]
  split
  · rename_i e; subst e
    exact fun hm => h (List.mem_of_mem_filter hm)
  · exact h

/-- R125, R128: no set holds the door's claim once it has been taken away. -/
theorem unclaimDoor_claims (d : DoorIx) (s : State) (i : PointIx) :
    Claim.door d ∉ ((unclaimDoor d s).point i).drive.claims := by
  unfold unclaimDoor
  refine inAnyOrder_reaches (P := fun u => Claim.door d ∉ (u.point i).drive.claims) (Q := fun _ => True) (fun _ _ h => h)
    (fun _ _ h => h) (fun _ _ _ _ => trivial) ?_ trivial ?_
  · simp only [List.mem_map, forall_exists_index, and_imp, forall_apply_eq_imp_iff₂]
    exact fun _ _ _ _ h => removeClaim_mono h
  · by_cases h : Claim.door d ∈ (s.point i).drive.claims
    · refine .inr ⟨removeClaim (.door d) i, List.mem_map.2 ⟨i, ?_, rfl⟩, fun u _ => not_mem_removeClaim _ _ _⟩
      exact List.mem_filter.2 ⟨List.mem_finRange i, by simpa using h⟩
    · exact .inl h

/-- R109: no fan or conveyor of the line holds its claim once it has been taken away. -/
theorem releaseClaims_claims (l : LineIx) (s : State) (i : PointIx)
    (h : i ∈ (s.membersOf l).fans ++ (s.membersOf l).conveyors) :
    Claim.line l ∉ ((releaseClaims l s).point i).drive.claims := by
  unfold releaseClaims
  generalize (s.membersOf l).fans ++ (s.membersOf l).conveyors = m at h
  have keep : ∀ (m : List PointIx) (u : State), Claim.line l ∉ (u.point i).drive.claims →
      Claim.line l ∉ ((m.foldl (fun t i => removeClaim (.line l) i t) u).point i).drive.claims := by
    intro m
    induction m with
    | nil => exact fun _ h => h
    | cons j m ih => exact fun u hu => ih _ (removeClaim_mono hu)
  induction m generalizing s with
  | nil => cases h
  | cons j m ih =>
    rw [List.foldl_cons]
    rcases List.mem_cons.1 h with rfl | h
    · exact keep m _ (not_mem_removeClaim _ _ _)
    · exact ih _ h

/-- R101, R105: every fan and conveyor of the line holds its claim once it has been laid. -/
theorem claimLine_claims (l : LineIx) (s : State) (i : PointIx)
    (h : i ∈ (s.membersOf l).fans ++ (s.membersOf l).conveyors) :
    Claim.line l ∈ ((claimLine l s).point i).drive.claims := by
  unfold claimLine
  generalize (s.membersOf l).fans ++ (s.membersOf l).conveyors = m at h
  have add : ∀ (j : PointIx) (u : State), Claim.line l ∈ (u.point i).drive.claims →
      Claim.line l ∈ ((addClaim (.line l) j u).point i).drive.claims := by
    intro j u hu
    rw [addClaim_claims]
    split
    · simp
    · exact hu
  have keep : ∀ (m : List PointIx) (u : State), Claim.line l ∈ (u.point i).drive.claims →
      Claim.line l ∈ ((m.foldl (fun t i => addClaim (.line l) i t) u).point i).drive.claims := by
    intro m
    induction m with
    | nil => exact fun _ h => h
    | cons j m ih => exact fun u hu => ih _ (add j u hu)
  induction m generalizing s with
  | nil => cases h
  | cons j m ih =>
    rw [List.foldl_cons]
    rcases List.mem_cons.1 h with rfl | h
    · refine keep m _ ?_
      rw [addClaim_claims]
      split
      · simp
      · rename_i hc; simpa using hc
    · exact ih _ h

end Sys2Proof.Machine
end

