-- ==== Sys2Proof/Laws/Answers.lean ====
section
/-! SUPPORT. How a Request is answered, said once for each operation: the checks that come after the first three, and the
effect where none refuses (R165 to R173); entries that are read from data are in range. -/

namespace Sys2Proof.Machine

theorem everyTable_gt (n : Nat) (h : 7 < n) : everyTable.contains n = false := by
  have : ∀ m ∈ everyTable, m ≤ 7 := by decide
  rw [List.contains_eq_mem, decide_eq_false_iff_not]
  intro hm; have := this n hm; omega

/-- The configuration part of an entry stands in one section, or in the halves of a two-half entry (R167). -/
theorem State.configParts_length (s : State) (t i : Nat) (ht : t ≤ 7) (hi : i < tableSize t) :
   (s.configParts t i).length = if [2,3,4,5].contains t then 2 else 1 := by
  have h8 : t < 8 := by omega
  unfold State.configParts
  interval_cases t <;> simp_all [tableSize, indexBelow, LineCfg.write, ZoneCfg.write, TripCfg.write, DoorCfg.write]

/-- The configuration parts of a group of entries are all there (R168). -/
theorem State.readEntries_config (s : State) (rq : Request) (hn : rq.namesState = false) (l : List Nat) :
   s.readEntries rq l = some (l.flatMap fun i => s.configParts rq.table i) := by
  induction l with
  | nil => rfl
  | cons i is ih => simp [State.readEntries, State.readEntry, hn, ih]

/-- The conditions of R174 and R175 on zones and lines. -/
theorem State.alarmed_iff (s : State) : (s.anyZoneAt .alarm || s.anyLineBusy) = true ↔ s.alarmed := by
  simp only [State.anyZoneAt, State.anyLineBusy, State.alarmed, Bool.or_eq_true, List.any_eq_true, Level.atLeast,
      bne_iff_ne]
  constructor
  · rintro (⟨r, hr, h⟩ | ⟨r, hr, h⟩)
    · obtain ⟨i, hi, rfl⟩ := List.mem_iff_getElem.1 hr
      left; simp at hi; exact ⟨⟨i, hi⟩, by simpa [State.zone, Level.rank] using h⟩
    · obtain ⟨i, hi, rfl⟩ := List.mem_iff_getElem.1 hr
      right; simp at hi; exact ⟨⟨i, hi⟩, by simpa [State.line] using h⟩
  · rintro (⟨z, h⟩ | ⟨l, h⟩)
    · left; exact ⟨s.zone z, by simp [State.zone], decide_eq_true h⟩
    · right; exact ⟨s.line l, by simp [State.line], h⟩

/-- R20: sampling starts again at the clearing. -/
theorem clearDynamic_input (s : State) (i : InputIx) : (clearDynamic s).input i =
    { raw := (s.input i).raw, level := false, edges := 0, lastEdge := none
      debounceAt := if (s.input i).raw then some (after s.clock (s.debounceOf i)) else none } := by
  have hd : ∀ u : State, u.clock = s.clock → u.device = s.device → (u.input i).raw = (s.input i).raw →
      (∀ j, (u.point j).cfg = (s.point j).cfg) → (startSampling u).input i =
        { raw := (s.input i).raw
          debounceAt := if (s.input i).raw then some (after s.clock (s.debounceOf i)) else none } := fun u h1 h2 h3 h4 => by
    have hp : u.debounceOf i = s.debounceOf i := by
      unfold State.debounceOf State.inputPoint
      rw [h2, State.findPoint_congr h4]
      simp only [h4]
    rw [← hp, ← h1, ← h3]
    simp [State.input, startSampling]
  exact hd (syncPins _) rfl rfl rfl fun j => by simp [syncPins, Point.cleared, State.point]

/-- R175: what the clearing and the start of processing leave. -/
theorem clearDynamic_clearedFrom (s : State) (m : Mode) : s.ClearedFrom (startIfActive { clearDynamic s with mode :=
    m }) s.clock := by
  unfold startIfActive
  split
  · rename_i ha
    have ha' : (startProcessing { clearDynamic s with mode := m }).active = true := ha
    refine ⟨fun i => ?_, fun i => ?_, fun i => ?_, fun i => ?_, fun i => ?_, fun i => ?_, rfl, rfl, rfl, rfl, rfl,
        rfl, rfl, rfl, rfl, rfl, fun o => clearDynamic_output s o, fun i => clearDynamic_input s i⟩
    all_goals simp only [ha']
    · simp [startProcessing, clearDynamic, startSampling, syncPins, State.point, Point.cleared]
      split <;> simp_all
    all_goals simp [startProcessing, clearDynamic, startSampling, syncPins, State.line, State.zone, State.trip,
        State.door, State.group, Line.cleared, Zone.cleared, Trip.cleared, Door.cleared, Group.cleared]
  · rename_i ha
    refine ⟨fun i => ?_, fun i => ?_, fun i => ?_, fun i => ?_, fun i => ?_, fun i => ?_, rfl, rfl, rfl, rfl, rfl,
        rfl, rfl, rfl, rfl, rfl, fun o => clearDynamic_output s o, fun i => clearDynamic_input s i⟩
    all_goals simp only [ha]
    all_goals simp [clearDynamic, startSampling, syncPins, State.point, Point.cleared, State.line, State.zone,
        State.trip, State.door, State.group, Line.cleared, Zone.cleared, Trip.cleared, Door.cleared, Group.cleared]

theorem indexBelow_val {n m : Nat} (i : Fin n) (h : i.val = m) : indexBelow n m = some i :=
    by subst h; unfold indexBelow; rw [dif_pos i.isLt]

theorem State.permits.twoHalves {s : State} {rq : Request} {n : Nat} (h : s.permits rq n) : rq.twoHalves = [2,3,4,5].contains n := by
  unfold Request.twoHalves; rw [h.table]

/-- R169: the checks of a Write that follow the first three. -/
theorem takeWrite_permitted {s : State} {rq : Request} {n : Nat} (h : s.permits rq n) : exec (.write rq) s =
   .next (match firstFailed [(rq.twoHalves, ReplyCode.sequence), (s.mgmt.commit.isSome || s.writeBusy rq, .busy),
        (rq.reservedSet || rq.namesState || (s.writeEffect rq).isNone, .value)] with
      | some c => reply rq c s
      | none =>
          if rq.table = 0 then reply rq .done ((s.writeEffect rq).getD id s) else doneWith rq ((s.writeEffect rq).getD id) s) := by
  show Host.Outcome.next (takeWrite rq s) = _
  unfold takeWrite
  rw [answer_entry h (everyTable_contains h.le)] <;> rfl

/-- A Write that no check refuses, of a table other than the Device record and without halves. -/
theorem takeWrite_done {s : State} {rq : Request} {n : Nat} {f : State → State} (h : s.permits rq n)
    (hn : rq.namesState = false) (hc : s.mgmt.commit = none)
  (hb : s.writeBusy rq = false) (he : s.writeEffect rq = some f) (ht : [2,3,4,5].contains n = false) (h0 : n ≠ 0) :
  exec (.write rq) s = .next (doneWith rq f s) := by
  rw [takeWrite_permitted h, he]
  have : rq.table ≠ 0 := by rw [h.table]; exact h0
  simp only [firstFailed, State.permits.twoHalves h, ht, hb, hc, hn, h.reserved, Bool.false_eq_true, if_false,
      Option.isSome_none, Bool.or_self, Option.isNone_some, if_neg this]; rfl

/-- R170: the checks of a second half that follow the first three. -/
theorem takeWriteSecond_permitted {s : State} {rq : Request} {n : Nat} (h : s.permits rq n) : exec (.writeSecond rq) s =
   .next (match s.stagedFor rq with
      | none => reply rq .sequence (emptyStaging s)
      | some a => match firstFailed [((emptyStaging s).mgmt.commit.isSome || (emptyStaging s).secondBusy rq,
          ReplyCode.busy),
            (rq.reservedSet || rq.namesState || ((emptyStaging s).secondEffect rq a).isNone, .value)] with
         | some c => reply rq c (emptyStaging s)
         | none => doneWith rq (((emptyStaging s).secondEffect rq a).getD id) (emptyStaging s)) := by
  show Host.Outcome.next (takeWriteSecond rq s) = _
  unfold takeWriteSecond
  have := answer_entry h (everyTable_contains h.le) []
  simp only [List.append_nil, firstFailed] at this
  rw [this]
  dsimp only
  cases hst : s.stagedFor rq with
  | none => rfl
  | some a =>
    dsimp only
    unfold answer
    rw [if_neg (show (emptyStaging s).mode ≠ .loading from h.mode)] <;> rfl

/-- The half that waits for this one (R170). -/
theorem State.stagedFor_some {s : State} {rq : Request} {n : Nat} (h : s.permits rq n) {x : Staging}
    (hx : s.mgmt.staging = some x) (h1 : x.tag = rq.tag) (h2 : x.table = n) (h3 : x.index = rq.ix) :
    s.stagedFor rq = some x.half := by
  unfold State.stagedFor; rw [hx]; dsimp only; rw [if_pos ⟨h1, by rw [h2, h.table], h3⟩]

/-- A second half that no check refuses. -/
theorem takeWriteSecond_done {s : State} {rq : Request} {n : Nat} {f : State →
    State} {x : Staging} (h : s.permits rq n) (hn : rq.namesState = false) (hc : s.mgmt.commit = none)
  (hx : s.mgmt.staging = some x) (h1 : x.tag = rq.tag) (h2 : x.table = n) (h3 : x.index = rq.ix)
  (hb : (emptyStaging s).secondBusy rq = false) (he : (emptyStaging s).secondEffect rq x.half = some f) :
  exec (.writeSecond rq) s = .next (doneWith rq f (emptyStaging s)) := by
  rw [takeWriteSecond_permitted h, State.stagedFor_some h hx h1 h2 h3]
  have hc' : (emptyStaging s).mgmt.commit = none := hc
  simp only [firstFailed, hb, hc', hn, he, h.reserved, Bool.false_eq_true, if_false, Option.isSome_none, Bool.or_self,
      Option.isNone_some]; rfl

/-- A second half whose entry is out of range. -/
theorem takeWriteSecond_value {s : State} {rq : Request} {n : Nat} {x : Staging} (h : s.permits rq n)
    (hc : s.mgmt.commit = none)
  (hx : s.mgmt.staging = some x) (h1 : x.tag = rq.tag) (h2 : x.table = n) (h3 : x.index = rq.ix)
  (hb : (emptyStaging s).secondBusy rq = false) (he : (emptyStaging s).secondEffect rq x.half = none) :
  exec (.writeSecond rq) s = .next (reply rq .value (emptyStaging s)) := by
  rw [takeWriteSecond_permitted h, State.stagedFor_some h hx h1 h2 h3]
  have hc' : (emptyStaging s).mgmt.commit = none := hc
  simp only [firstFailed, hb, hc', he, h.reserved, Bool.false_eq_true, if_false, Option.isSome_none, Bool.or_self,
      Option.isNone_none, Bool.or_true, if_true]

/-- R173: a permitted Clear Counters. -/
theorem takeClearCounters_permitted {s : State} {rq : Request} {n : Nat} (h : s.permits rq n) :
    exec (.clearCounters rq) s = .next (doneWith rq (clearEntry n rq.ix) s) := by
  show Host.Outcome.next (takeClearCounters rq s) = _
  unfold takeClearCounters
  rw [answer_entry h (everyTable_contains h.le)]
  simp [firstFailed, h.reserved, h.table]

/-- A Reply reads the Loop Port, the Device record and the clock alone. -/
theorem reply_congr {s t : State} {rq : Request} {c : ReplyCode} (h1 : t.port = s.port) (h2 : t.device = s.device)
    (h3 : t.clock = s.clock) :
  reply rq c t = { t with port := (reply rq c s).port } := by
  have : (reply rq c t).port = (reply rq c s).port := by
    show (t.port).joinRoutine t.clock t.device.returnLimit (replyFrame t rq c 0 [])
      = (s.port).joinRoutine s.clock s.device.returnLimit (replyFrame s rq c 0 [])
    rw [h1, h2, h3]
    unfold replyFrame; rw [h2]
  rw [← this]; rfl

/-! ## Entries read from data -/

/-- R188: a field that must stand is in its range. -/
theorem needed_within {ones fallback v lo hi n : Nat} (h : needed ones fallback v lo hi = some n) : lo ≤ n ∧ n ≤ hi := by
  unfold needed at h
  split at h
  · split at h
    · rename_i hr; cases h; exact hr
    · cases h
  · cases h

/-- R130: a cadence that is read is in range. -/
theorem readCadence_ok {d : List Byte} {c : Cadence} (h : readCadence d = some c) : c.rangesOk = true := by
  unfold readCadence at h
  split at h
  · split at h
    · rename_i h1 h2
      split at h
      · cases h
      · rename_i h3
        cases h
        have r1 := needed_within h1
        have r2 := needed_within h2
        simp only [Cadence.rangesOk, within, Bool.and_eq_true, decide_eq_true_eq, BitVec.toNat_ofNat]
        refine ⟨⟨⟨?_, ?_⟩, h3⟩, ?_, ?_⟩ <;> omega
    · cases h
  · cases h

theorem thresholdOf_between {fallback v : Nat} {n : Level} (h : thresholdOf fallback v = some (some n)) : n.between 2 4 = true := by
  unfold thresholdOf at h
  split at h
  · rename_i m hm
    have := needed_within hm
    have hm' : m = 2 ∨ m = 3 ∨ m = 4 ∨ m = 5 := by omega
    rcases hm' with rfl | rfl | rfl | rfl <;> cases h <;> rfl
  · cases h

theorem levelIn_between {fallback v lo : Nat} {n : Level} (h : levelIn fallback v lo = some n) : n.between lo 4 = true := by
  unfold levelIn at h
  split at h
  · rename_i m hm
    have hr := needed_within hm
    have hm' : m = 0 ∨ m = 1 ∨ m = 2 ∨ m = 3 ∨ m = 4 := by omega
    rcases hm' with rfl | rfl | rfl | rfl | rfl <;> cases h <;>
      simp only [Level.between, Level.rank, within, Bool.and_eq_true] <;>
      exact ⟨decide_eq_true hr.1, decide_eq_true hr.2⟩
  · cases h

/-- R66: a zone entry that is read is in range. -/
theorem readZone_ok {a b : List Byte} {c : ZoneCfg} (h : readZone a b = some c) : c.rangesOk = true := by
  unfold readZone at h
  split at h
  · cases h
  · split at h
    · rename_i h1 h2 h3 h4 _ _ _ _ _
      cases h
      have r1 := needed_within h1
      simp only [ZoneCfg.rangesOk, Bool.and_eq_true, within, decide_eq_true_eq]
      refine ⟨⟨⟨r1, ?_⟩, ?_⟩, levelIn_between h4⟩
      · split
        · exact thresholdOf_between h2
        · rfl
      · split
        · exact thresholdOf_between h3
        · rfl
    · cases h

theorem actionOf_ok {k a b : Nat} {c : Action} (h : actionOf k a b = some c) : c.levelOk = true := by
  unfold actionOf at h
  split at h
  · split at h
    · cases h; rfl
    · cases h
  · split at h
    · rename_i hl
      cases h
      split at hl
      · rename_i hb
        have : b = 1 ∨ b = 2 ∨ b = 3 ∨ b = 4 := by omega
        rcases this with rfl | rfl | rfl | rfl <;> cases hl <;> rfl
      · cases hl
    · cases h
  all_goals first
    | (split at h
       · simp only [Option.map_eq_some_iff] at h
         obtain ⟨_, _, rfl⟩ := h; rfl
       · cases h)
    | (split at h
       · cases h; rfl
       · cases h)
    | cases h

/-- R82: a trip entry that is read is in range. -/
theorem readTrip_ok {a b : List Byte} {c : TripCfg} (h : readTrip a b = some c) : c.rangesOk = true := by
  unfold readTrip at h
  split at h
  · cases h
  · split at h
    · rename_i h1 h2
      cases h
      simp only [TripCfg.rangesOk, actionOf_ok h1, actionOf_ok h2, Bool.and_self]
    · cases h

end Sys2Proof.Machine
end

