-- ==== Sys2Proof/Laws/LineWork.lean ====
section
/-! SUPPORT. What the Line Controller's handlers do to the part, said once: the lines they act on, the points they command, and
nothing else (R96 to R109). -/

namespace Sys2Proof.Machine

/-- `t` differs from `s` by line work on the lines `on`: commands to points, and entries of those lines. -/
structure LineWork (on : LineIx → Prop) (s t : State) : Prop where
  rest : t = { s with points := t.points, lines := t.lines, zones := t.zones, port := t.port, outputs := t.outputs, draws := t.draws }
  line : ∀ k, ¬on k → t.line k = s.line k
  cfg : ∀ k, (t.line k).cfg = (s.line k).cfg
  flow : ∀ k, (t.line k).flood = (s.line k).flood ∧ (t.line k).tracks = (s.line k).tracks
  zone : ∀ z, t.zone z = { s.zone z with faults := (t.zone z).faults }
  reported : ∀ i, (t.point i).drive.reported = (s.point i).drive.reported

namespace LineWork

variable {on : LineIx → Prop} {s t u : State}

theorem refl (s : State) : LineWork on s s := ⟨rfl, fun _ _ => rfl, fun _ => rfl, fun _ => ⟨rfl, rfl⟩, fun _ => rfl, fun _ => rfl⟩

theorem trans (h : LineWork on s t) (g : LineWork on t u) : LineWork on s u where
  rest := by rw [g.rest, h.rest]
  line k hk := by rw [g.line k hk, h.line k hk]
  cfg k := by rw [g.cfg k, h.cfg k]
  flow k := ⟨by rw [(g.flow k).1, (h.flow k).1], by rw [(g.flow k).2, (h.flow k).2]⟩
  zone z := by have h1 := h.zone z; have g1 := g.zone z; rw [g1, h1]
  reported i := by rw [g.reported i, h.reported i]

theorem drive {p : PointIx → Prop} (h : DriveOnly p s t) (hr : ∀ i, (t.point i).drive.reported = (s.point i).drive.reported) :
    LineWork on s t where
  rest := by have := h.rest; rw [this]
  line k _ := h.line k
  cfg k := by rw [h.line k]
  flow k := by rw [h.line k]; exact ⟨rfl, rfl⟩
  zone := h.zone
  reported := hr

theorem modLine {l : LineIx} {f : Line → Line} (hl : on l) (hc : (f (s.line l)).cfg = (s.line l).cfg)
    (hf : (f (s.line l)).flood = (s.line l).flood) (ht : (f (s.line l)).tracks = (s.line l).tracks) :
    LineWork on s (s.modLine l f) where
  rest := rfl
  line k hk := State.line_modLine_ne _ _ _ _ fun e => hk (e ▸ hl)
  cfg k := by rw [State.line_modLine_if]; split <;> [(subst_vars; exact hc); rfl]
  flow k := by rw [State.line_modLine_if]; split <;> [(subst_vars; exact ⟨hf, ht⟩); exact ⟨rfl, rfl⟩]
  zone _ := rfl
  reported _ := rfl

theorem notify {k : NoticeKind} {o : Nat} {v : Int} : LineWork on s (notify k o v s) :=
  drive (p := anyPoint) (notify_driveOnly (.refl s)) fun _ => rfl

theorem issue {i : PointIx} {r : Requested} : LineWork on s (issue i r s) :=
  drive (p := anyPoint) (issue_driveOnly trivial (.refl s)) fun j => issue_reported i j r s

theorem draws {n : Nat} : LineWork on s { s with draws := n } := ⟨rfl, fun _ _ => rfl, fun _ => rfl, fun _ => ⟨rfl, rfl⟩, fun _ => rfl, fun _ => rfl⟩

theorem clock (h : LineWork on s t) : t.clock = s.clock := by rw [h.rest]
theorem mode (h : LineWork on s t) : t.mode = s.mode := by rw [h.rest]
theorem members (h : LineWork on s t) : t.members = s.members := by rw [h.rest]
theorem doors (h : LineWork on s t) : t.doors = s.doors := by rw [h.rest]
theorem groups (h : LineWork on s t) : t.groups = s.groups := by rw [h.rest]
theorem strikes (h : LineWork on s t) : t.strikes = s.strikes := by rw [h.rest]
theorem level (h : LineWork on s t) (z : ZoneIx) : (t.zone z).level = (s.zone z).level := by rw [h.zone z]

/-- The condition for Shut reads nothing that line work changes (R102). -/
theorem shutCondition (h : LineWork on s t) (l : LineIx) : t.shutCondition l = s.shutCondition l := by
  simp only [State.shutCondition, State.membersOf, h.members, h.reported, (h.flow l).1]

end LineWork

variable {on : LineIx → Prop}

theorem foldl_lineWork {α : Type} {g : State → α → State} (hg : ∀ u a, LineWork on u (g u a)) (l : List α) (s : State) :
    LineWork on s (l.foldl g s) := by
  induction l generalizing s with
  | nil => exact .refl s
  | cons a l ih => exact (hg s a).trans (ih _)

theorem claimLine_lineWork (l : LineIx) (s : State) : LineWork on s (claimLine l s) :=
  foldl_lineWork (fun u i => .drive (p := anyPoint) (addClaim_driveOnly trivial (.refl u)) fun j => addClaim_reported _ i j u) _ s

theorem releaseClaims_lineWork (l : LineIx) (s : State) : LineWork on s (releaseClaims l s) :=
  foldl_lineWork (fun u i => .drive (p := anyPoint) (removeClaim_driveOnly trivial (.refl u)) fun j => removeClaim_reported _ i j u) _ s

theorem enterLineState_lineWork {l : LineIx} (hl : on l) (st : LineState) (s : State) :
    LineWork on s (enterLineState l st s) := (LineWork.modLine hl rfl rfl rfl).trans .notify

theorem enterShut_lineWork {l : LineIx} (hl : on l) (s : State) : LineWork on s (enterShut l s) :=
  (LineWork.modLine hl rfl rfl rfl).trans (enterLineState_lineWork hl _ _)

theorem testShut_lineWork {l : LineIx} (hl : on l) (s : State) : LineWork on s (testShut l s) := by
  unfold testShut; split
  · exact enterShut_lineWork hl s
  · exact .refl s

theorem enterStopping_lineWork {l : LineIx} (hl : on l) (s : State) : LineWork on s (enterStopping l s) :=
  (LineWork.modLine hl rfl rfl rfl).trans ((claimLine_lineWork l _).trans ((LineWork.modLine hl rfl rfl rfl).trans
    ((enterLineState_lineWork hl _ _).trans (testShut_lineWork hl _))))

theorem shutLine_lineWork {l : LineIx} (hl : on l) (s : State) : LineWork on s (shutLine l s) := by
  unfold shutLine; split
  · exact enterStopping_lineWork hl s
  · exact enterStopping_lineWork hl s
  · exact enterStopping_lineWork hl s
  · exact .refl s
  · exact .refl s

theorem enterLineState_line (l : LineIx) (st : LineState) (s : State) :
    (enterLineState l st s).line l = { s.line l with state := st } := by
  unfold enterLineState
  rw [(notify_driveOnly (on := anyPoint) (.refl _)).line, State.line_modLine]

theorem enterShut_line (l : LineIx) (s : State) :
    (enterShut l s).line l = { s.line l with state := .shut, runDownAt := none, shuts := bump (s.line l).shuts } := by
  unfold enterShut; rw [enterLineState_line, State.line_modLine]

/-- R101, R102: what the entry into Stopping makes of the line. -/
theorem enterStopping_line (l : LineIx) (s : State) :
    (enterStopping l s).line l =
      if s.shutCondition l then
        { s.line l with state := .shut, gateTravelAt := none, runDownAt := none, shuts := bump (s.line l).shuts }
      else
        { s.line l with
          state := .stopping, gateTravelAt := none
          runDownAt := some (after s.clock ((s.line l).cfg.runDown * 1000)) } := by
  unfold enterStopping
  dsimp only
  have h1 : LineWork (fun _ => True) s (claimLine l (s.modLine l fun r => { r with gateTravelAt := none })) :=
    (LineWork.modLine trivial rfl rfl rfl).trans (claimLine_lineWork l _)
  have hl : (claimLine l (s.modLine l fun r => { r with gateTravelAt := none })).line l
      = { s.line l with gateTravelAt := none } := by
    rw [(claimLine_driveOnly (.refl _)).line, State.line_modLine]
  generalize claimLine l (s.modLine l fun r => { r with gateTravelAt := none }) = t at *
  have h2 : LineWork (fun _ => True) s (enterLineState l .stopping
      (t.modLine l fun r => { r with runDownAt := some (after s.clock ((s.line l).cfg.runDown * 1000)) })) :=
    h1.trans ((LineWork.modLine trivial rfl rfl rfl).trans (enterLineState_lineWork trivial _ _))
  have hv := enterLineState_line l .stopping
    (t.modLine l fun r => { r with runDownAt := some (after s.clock ((s.line l).cfg.runDown * 1000)) })
  rw [State.line_modLine, hl] at hv
  generalize enterLineState l .stopping
    (t.modLine l fun r => { r with runDownAt := some (after s.clock ((s.line l).cfg.runDown * 1000)) }) = v at *
  unfold testShut
  rw [h2.shutCondition l, hv]
  by_cases hc : s.shutCondition l = true
  · simp only [hc, beq_self_eq_true, Bool.and_self, if_true]; rw [enterShut_line, hv]
  · simp only [hc, Bool.and_false, Bool.false_eq_true, if_false]; rw [hv]

/-- R101: a shut request leaves a line Stopping or Shut. -/
theorem shutLine_state (l : LineIx) (s : State) :
    ((shutLine l s).line l).state = .stopping ∨ ((shutLine l s).line l).state = .shut := by
  have h : ((enterStopping l s).line l).state = .stopping ∨ ((enterStopping l s).line l).state = .shut := by
    rw [enterStopping_line]; split
    · exact .inr rfl
    · exact .inl rfl
  unfold shutLine
  split
  · exact h
  · exact h
  · exact h
  · exact .inl ‹_›
  · exact .inr ‹_›

/-- R101, R105: every fan and conveyor of a line that enters Stopping holds its claim. -/
theorem enterStopping_claims (l : LineIx) (s : State) (i : PointIx)
    (h : i ∈ (s.membersOf l).fans ++ (s.membersOf l).conveyors) :
    Claim.line l ∈ ((enterStopping l s).point i).drive.claims := by
  have hp : ∀ u : State, (testShut l u).point i = u.point i := fun u => by
    unfold testShut enterShut enterLineState; split <;> rfl
  unfold enterStopping
  dsimp only
  rw [hp]
  exact claimLine_claims l (s.modLine l fun r => { r with gateTravelAt := none }) i h

theorem inAnyOrder_lineWork {fs : List (State → State)} (hf : ∀ f ∈ fs, ∀ u, LineWork on u (f u)) (s : State) :
    LineWork on s (inAnyOrder fs s) :=
  inAnyOrder_keeps (P := LineWork on s) (fun _ _ hu => hu.trans .draws) (fun f hm u hu => hu.trans (hf f hm u)) (.refl s)

/-- R97: the blind action leaves the lines that have none alone. -/
theorem blindAction_lineWork (s : State) : LineWork (fun l => (s.line l).cfg.blindShut = true) s (blindAction s) := by
  refine inAnyOrder_lineWork ?_ s
  simp only [List.mem_map, forall_exists_index, and_imp, forall_apply_eq_imp_iff₂]
  exact fun l hl u => shutLine_lineWork (List.mem_filter.1 hl).2 u

/-- R97: the blind action shuts every line that has it. -/
theorem blindAction_state (s : State) (l : LineIx) (h : (s.line l).cfg.blindShut = true) :
    ((blindAction s).line l).state = .stopping ∨ ((blindAction s).line l).state = .shut := by
  refine inAnyOrder_reaches (P := fun u => (u.line l).state = .stopping ∨ (u.line l).state = .shut) (Q := fun _ => True)
    (fun _ _ h => h) (fun _ _ h => h) (fun _ _ _ _ => trivial) ?_ trivial
    (.inr ⟨shutLine l, List.mem_map.2 ⟨l, List.mem_filter.2 ⟨List.mem_finRange l, h⟩, rfl⟩, fun u _ => shutLine_state l u⟩)
  simp only [List.mem_map, forall_exists_index, and_imp, forall_apply_eq_imp_iff₂]
  intro k _ u _ hu
  by_cases e : k = l
  · subst e; exact shutLine_state k u
  · rw [(shutLine_lineWork (on := fun j => j = k) rfl u).line l fun e' => e e'.symm]; exact hu

end Sys2Proof.Machine
end

