-- ==== Sys2Proof/Laws/Responses.lean ====
section
/-! SUPPORT. What the doors' and the sirens' handlers do to the part, and a change of a zone's level to Quiet with its response
(R73 to R76, R80, R116, R134). -/

namespace Sys2Proof.Machine

/-- `t` differs from `s` by work on doors: commands to points, and door entries. -/
structure DoorWork (s t : State) : Prop where
  rest : t = { s with points := t.points, doors := t.doors, zones := t.zones, port := t.port, outputs := t.outputs, draws := t.draws }
  zone : ∀ z, t.zone z = { s.zone z with faults := (t.zone z).faults }

/-- `t` differs from `s` by work on doors and siren groups. -/
structure YardWork (s t : State) : Prop where
  rest : t = { s with points := t.points, doors := t.doors, groups := t.groups, zones := t.zones, port := t.port, outputs := t.outputs, draws := t.draws }
  zone : ∀ z, t.zone z = { s.zone z with faults := (t.zone z).faults }

/-! ## Doors -/

namespace DoorWork

variable {s t u : State}

theorem refl (s : State) : DoorWork s s := ⟨rfl, fun _ => rfl⟩

theorem trans (h : DoorWork s t) (g : DoorWork t u) : DoorWork s u where
  rest := by rw [g.rest, h.rest]
  zone z := by have h1 := h.zone z; have g1 := g.zone z; rw [g1, h1]

theorem drive {p : PointIx → Prop} (h : DriveOnly p s t) : DoorWork s t := ⟨by have := h.rest; rw [this], h.zone⟩

theorem modDoor {d : DoorIx} {f : Door → Door} : DoorWork s (s.modDoor d f) := ⟨rfl, fun _ => rfl⟩
theorem draws {n : Nat} : DoorWork s { s with draws := n } := ⟨rfl, fun _ => rfl⟩
theorem groups (h : DoorWork s t) : t.groups = s.groups := by rw [h.rest]
theorem group (h : DoorWork s t) (g : GroupIx) : t.group g = s.group g := by simp only [State.group, h.groups]
theorem lines (h : DoorWork s t) : t.lines = s.lines := by rw [h.rest]
theorem yard (h : DoorWork s t) : YardWork s t := ⟨by have := h.rest; rw [this], h.zone⟩

end DoorWork

theorem enterDoorState_doorWork (d : DoorIx) (st : DoorState) (s : State) : DoorWork s (enterDoorState d st s) :=
  DoorWork.modDoor.trans (.drive (p := anyPoint) (notify_driveOnly (.refl _)))

theorem enterOpen_doorWork (d : DoorIx) (s : State) : DoorWork s (enterOpen d s) :=
  DoorWork.modDoor.trans (enterDoorState_doorWork d _ _)

theorem commandDoor_doorWork (d : DoorIx) (r : Requested) (s : State) : DoorWork s (commandDoor d r s) :=
  .drive (commandDoor_driveOnly (.refl s))

theorem claimDoor_doorWork (d : DoorIx) (s : State) : DoorWork s (claimDoor d s) := .drive (claimDoor_driveOnly (.refl s))

theorem unclaimDoor_doorWork (d : DoorIx) (s : State) : DoorWork s (unclaimDoor d s) := .drive (unclaimDoor_driveOnly (.refl s))

theorem enterReleasing_doorWork (d : DoorIx) (s : State) : DoorWork s (enterReleasing d s) := by
  have h := (commandDoor_doorWork d .release s).trans (DoorWork.modDoor.trans (enterDoorState_doorWork d .releasing
    ((commandDoor d .release s).modDoor d fun r =>
      { r with closingAt := some (after s.clock (r.cfg.closing * 1000)), releases := bump r.releases })))
  unfold enterReleasing
  dsimp only
  split
  · exact h.trans (DoorWork.modDoor.trans (enterDoorState_doorWork d _ _))
  · exact h

theorem finishRunOut_doorWork (d : DoorIx) (s : State) : DoorWork s (finishRunOut d s) :=
  DoorWork.modDoor.trans (enterReleasing_doorWork d _)

theorem forceRelease_doorWork (d : DoorIx) (s : State) : DoorWork s (forceRelease d s) :=
  DoorWork.modDoor.trans (enterReleasing_doorWork d _)

theorem startRunOut_doorWork (d : DoorIx) (s : State) : DoorWork s (startRunOut d s) := by
  unfold startRunOut; split
  · exact finishRunOut_doorWork d s
  · exact .modDoor

theorem enterClearing_doorWork (d : DoorIx) (s : State) : DoorWork s (enterClearing d s) := by
  unfold enterClearing
  dsimp only
  have h := (claimDoor_doorWork d s).trans (DoorWork.modDoor.trans (enterDoorState_doorWork d .clearing
    ((claimDoor d s).modDoor d fun r => { r with clearingAt := some (after s.clock ((s.door d).cfg.clearing * 1000)) })))
  generalize enterDoorState d .clearing _ = t at *
  split
  · split
    · unfold freely; split
      · exact h.trans (DoorWork.draws.trans (finishRunOut_doorWork d _))
      · exact h.trans (DoorWork.draws.trans (forceRelease_doorWork d _))
    · exact h.trans (startRunOut_doorWork d _)
  · exact h

theorem closeBegins_doorWork (d : DoorIx) (s : State) : DoorWork s (closeBegins d s) := by
  have h : DoorWork s (closeFromOpen d s) := by
    unfold closeFromOpen; split
    · exact enterReleasing_doorWork d s
    · exact enterClearing_doorWork d s
  unfold closeBegins
  split
  · exact h
  · exact h
  · exact (claimDoor_doorWork d s).trans (commandDoor_doorWork d _ _)
  · exact (claimDoor_doorWork d s).trans (enterReleasing_doorWork d _)
  all_goals exact .refl s

theorem decideClose_doorWork (d : DoorIx) (s : State) : DoorWork s (decideClose d s) := by
  unfold decideClose
  dsimp only
  split
  · split
    · exact .refl s
    · split
      · exact DoorWork.modDoor.trans (closeBegins_doorWork d _)
      · exact .modDoor
  · exact .refl s

theorem respondDoors_doorWork (z : ZoneIx) (s : State) : DoorWork s (respondDoors z s) := by
  refine inAnyOrder_keeps (P := DoorWork s) (fun _ _ hu => hu.trans .draws) ?_ (.refl s)
  simp only [List.mem_map, forall_exists_index, and_imp, forall_apply_eq_imp_iff₂]
  exact fun d _ u hu => hu.trans (decideClose_doorWork d u)

/-! ## Sirens -/

namespace YardWork

variable {s t u : State}

theorem refl (s : State) : YardWork s s := ⟨rfl, fun _ => rfl⟩

theorem trans (h : YardWork s t) (g : YardWork t u) : YardWork s u where
  rest := by rw [g.rest, h.rest]
  zone z := by have h1 := h.zone z; have g1 := g.zone z; rw [g1, h1]

theorem drive {p : PointIx → Prop} (h : DriveOnly p s t) : YardWork s t := (DoorWork.drive h).yard
theorem modGroup {g : GroupIx} {f : Group → Group} : YardWork s (s.modGroup g f) := ⟨rfl, fun _ => rfl⟩
theorem draws {n : Nat} : YardWork s { s with draws := n } := ⟨rfl, fun _ => rfl⟩

end YardWork

theorem startCadence_yardWork (g : GroupIx) (c : CadenceIx) (s : State) : YardWork s (startCadence g c s) := by
  unfold startCadence restartEngine
  exact ((YardWork.drive (issues_driveOnly (.refl s))).trans .modGroup).trans
    ((YardWork.drive (commandOutputs_driveOnly (.refl _))).trans .modGroup)

theorem quietGroup_yardWork (g : GroupIx) (s : State) : YardWork s (quietGroup g s) := by
  unfold quietGroup stopEngine
  exact ((YardWork.drive (issues_driveOnly (.refl s))).trans .modGroup).trans
    ((YardWork.drive (commandOutputs_driveOnly (.refl _))).trans .modGroup)

theorem arbitrateGroup_yardWork (g : GroupIx) (s : State) : YardWork s (arbitrateGroup g s) := by
  have h : ∀ c u, YardWork u (startWinner g c u) := fun c u => (startCadence_yardWork g c u).trans .modGroup
  unfold arbitrateGroup
  split
  · exact .refl s
  · split
    · exact .refl s
    · unfold takeWinner
      split
      · split
        · exact YardWork.modGroup.trans (h _ _)
        · exact .modGroup
      · exact YardWork.modGroup.trans (h _ _)

theorem emptiedGroup_yardWork (g : GroupIx) (s : State) : YardWork s (emptiedGroup g s) := by
  unfold emptiedGroup
  dsimp only
  split
  · exact (YardWork.modGroup.trans .modGroup).trans (startCadence_yardWork g _ _)
  · exact (YardWork.modGroup.trans (quietGroup_yardWork g _)).trans .modGroup

theorem emptiedGroup_requests (g h : GroupIx) (s : State) : ((emptiedGroup g s).group h).requests = (s.group h).requests := by
  unfold emptiedGroup
  dsimp only
  split
  · rw [startCadence_group]
    split
    · subst_vars; simp
    · rename_i e; rw [State.group_modGroup_ne _ _ _ _ e, State.group_modGroup_ne _ _ _ _ e]
  · rw [State.group_modGroup_if]
    split
    · subst_vars; rw [quietGroup_group, if_pos rfl]; simp
    · rename_i e; rw [quietGroup_group, if_neg e, State.group_modGroup_ne _ _ _ _ e]

/-- R134: taking a change of the request set changes no request. -/
theorem requestsChanged_requests (g h : GroupIx) (s : State) :
    ((requestsChanged g s).group h).requests = (s.group h).requests := by
  have ha : ∀ u, ((arbitrateGroup g u).group h).requests = (u.group h).requests := fun u => by
    by_cases e : h = g
    · subst e; exact (arbitrateGroup_group h h u).2.2.1
    · rw [(arbitrateGroup_group g h u).1 e]
  have hm : ∀ f, (∀ r : Group, (f r).requests = r.requests) → ((s.modGroup g f).group h).requests = (s.group h).requests :=
    fun f hf => by
      rw [State.group_modGroup_if]; split
      · subst_vars; exact hf _
      · rfl
  unfold requestsChanged
  split
  · rw [ha]; exact hm _ fun _ => rfl
  · exact ha s
  · exact emptiedGroup_requests g h s
  · rw [ha]; exact hm _ fun _ => rfl
  · rw [ha]; exact hm _ fun _ => rfl
  all_goals rfl

theorem requestsChanged_yardWork (g : GroupIx) (s : State) : YardWork s (requestsChanged g s) := by
  unfold requestsChanged
  split
  · exact YardWork.modGroup.trans (arbitrateGroup_yardWork g _)
  · exact arbitrateGroup_yardWork g s
  · exact emptiedGroup_yardWork g s
  · exact YardWork.modGroup.trans (arbitrateGroup_yardWork g _)
  · exact YardWork.modGroup.trans (arbitrateGroup_yardWork g _)
  all_goals exact .refl s

theorem changeRequest_yardWork (g : GroupIx) (z : ZoneIx) (c : Option CadenceIx) (s : State) :
    YardWork s (changeRequest g z c s) := by
  unfold changeRequest; split
  · exact .refl s
  · exact YardWork.modGroup.trans (requestsChanged_yardWork g _)

/-- R134: the zone's request stands as it was set. -/
theorem changeRequest_request (g : GroupIx) (z : ZoneIx) (c : Option CadenceIx) (s : State) :
    ((changeRequest g z c s).group g).requests[z.val] = c := by
  unfold changeRequest
  split
  · assumption
  · have h := requestsChanged_requests g g (s.modGroup g fun r => { r with requests := r.requests.set z.val c })
    rw [State.group_modGroup] at h
    simp [h]

theorem respondSirens_yardWork (z : ZoneIx) (n : Level) (s : State) : YardWork s (respondSirens z n s) := by
  unfold respondSirens; split
  · exact changeRequest_yardWork _ _ _ _
  · exact .refl s

/-! ## The response to Quiet -/

/-- R74, R66: a change to Quiet hands nothing to a line. -/
theorem respondLine_quiet {z : ZoneIx} {l : LineIx} {s : State} (h : (s.zone z).cfg.rangesOk = true) :
    respondLine z .quiet l s = s := by
  have hn : ∀ t : Option Level, (match t with | some n => n.between 2 4 | none => true) = true → Level.quiet.reaches t = false := by
    intro t ht
    cases t with
    | none => rfl
    | some n => cases n <;> first | rfl | (exact absurd ht (by decide))
  simp only [ZoneCfg.rangesOk, Bool.and_eq_true] at h
  unfold respondLine
  dsimp only
  rw [hn _ h.1.1.2, hn _ h.1.2]
  simp

/-- R73 to R76: what the response to Quiet leaves. -/
theorem respond_quiet {z : ZoneIx} {s : State} (h : (s.zone z).cfg.rangesOk = true) :
    YardWork s (respond z .quiet s) ∧
      ∀ g, (s.zone z).cfg.group = some g → ((respond z .quiet s).group g).requests[z.val] = none := by
  have hl : ∀ u, YardWork s u → YardWork u (respondLines z .quiet u) ∧ (respondLines z .quiet u).groups = u.groups := by
    intro u hu
    have hc : (u.zone z).cfg.rangesOk = true := by have := hu.zone z; rw [this]; exact h
    refine inAnyOrder_keeps (P := fun v => YardWork u v ∧ v.groups = u.groups) (fun _ _ hv => ⟨hv.1.trans .draws, hv.2⟩) ?_ ⟨.refl u, rfl⟩
    simp only [List.mem_map, forall_exists_index, and_imp, forall_apply_eq_imp_iff₂]
    intro l _ v hv hg
    have hcv : (v.zone z).cfg.rangesOk = true := by have := hv.zone z; rw [this]; exact hc
    rw [respondLine_quiet hcv]
    exact ⟨hv, hg⟩
  have hfs : ∀ f ∈ [respondLines z Level.quiet, respondDoors z, respondSirens z Level.quiet], ∀ u, YardWork s u → YardWork s (f u) := by
    simp only [List.mem_cons, List.not_mem_nil, or_false, forall_eq_or_imp, forall_eq]
    exact ⟨fun u hu => hu.trans (hl u hu).1, fun u hu => hu.trans (respondDoors_doorWork z u).yard,
      fun u hu => hu.trans (respondSirens_yardWork z _ u)⟩
  refine ⟨inAnyOrder_keeps (P := YardWork s) (fun _ _ hu => hu.trans .draws) hfs (.refl s), fun g hg => ?_⟩
  have hs : ∀ u, YardWork s u → ((respondSirens z .quiet u).group g).requests[z.val] = none := by
    intro u hu
    have hc : (u.zone z).cfg = (s.zone z).cfg := by have := hu.zone z; rw [this]
    unfold respondSirens
    rw [hc, hg]
    exact changeRequest_request g z _ u
  refine inAnyOrder_reaches (P := fun u => (u.group g).requests[z.val] = none) (Q := YardWork s) (fun _ _ h => h)
    (fun _ _ hu => hu.trans .draws) hfs ?_ (.refl s) (.inr ⟨respondSirens z .quiet, by simp, hs⟩)
  simp only [List.mem_cons, List.not_mem_nil, or_false, forall_eq_or_imp, forall_eq]
  refine ⟨fun u hu hp => ?_, fun u hu hp => ?_, fun u hu _ => hs u hu⟩
  · have : (respondLines z .quiet u).group g = u.group g := by simp only [State.group, (hl u hu).2]
    rw [this]; exact hp
  · rw [(respondDoors_doorWork z u).group]; exact hp

end Sys2Proof.Machine
end

