-- ==== Sys2Proof/Laws/SparkWork.lean ====
section
/-! SUPPORT. What strikes, openings and the Spark Tracker's removals do to the part, said once (R29, R32, R51 to R60). -/

namespace Sys2Proof.Machine

/-- `t` differs from `s` by strikes on valves: their records, and the strikes counters of lines. -/
structure OpenWork (s t : State) : Prop where
  rest : t = { s with points := t.points, lines := t.lines, zones := t.zones, port := t.port, outputs := t.outputs, draws := t.draws }
  line : ∀ k, t.line k = { s.line k with strikes := (t.line k).strikes }
  point : ∀ i, t.point i = { s.point i with drive := (t.point i).drive, valve := (t.point i).valve }
  zone : ∀ z, t.zone z = { s.zone z with faults := (t.zone z).faults }

/-- `t` differs from `s` by the work of strikes and of the track and strike lists. -/
structure SparkWork (s t : State) : Prop where
  rest : t = { s with points := t.points, lines := t.lines, strikes := t.strikes, zones := t.zones, port := t.port, outputs := t.outputs, draws := t.draws }
  flow : ∀ k, (t.line k).cfg = (s.line k).cfg ∧ (t.line k).speed = (s.line k).speed ∧
    (t.line k).speedStale = (s.line k).speedStale ∧ (t.line k).flood = (s.line k).flood
  point : ∀ i, t.point i = { s.point i with drive := (t.point i).drive, valve := (t.point i).valve }
  zone : ∀ z, t.zone z = { s.zone z with faults := (t.zone z).faults }

/-! ## Openings -/

namespace OpenWork

variable {s t u : State}

theorem refl (s : State) : OpenWork s s := ⟨rfl, fun _ => rfl, fun _ => rfl, fun _ => rfl⟩

theorem trans (h : OpenWork s t) (g : OpenWork t u) : OpenWork s u where
  rest := by rw [g.rest, h.rest]
  line k := by have h1 := h.line k; have g1 := g.line k; rw [g1, h1]
  point i := by have h1 := h.point i; have g1 := g.point i; rw [g1, h1]
  zone z := by have h1 := h.zone z; have g1 := g.zone z; rw [g1, h1]

theorem notify {k : NoticeKind} {o : Nat} {v : Int} : OpenWork s (notify k o v s) :=
  ⟨rfl, fun _ => rfl, fun _ => rfl, fun _ => rfl⟩

theorem modValve {v : PointIx} {f : Valve → Valve} : OpenWork s (s.modValve v f) where
  rest := rfl
  line _ := rfl
  point i := by rw [State.modValve_eq, State.point_modPoint_if]; split <;> [(subst_vars; rfl); rfl]
  zone _ := rfl

theorem issue {i : PointIx} {r : Requested} : OpenWork s (issue i r s) where
  rest := by have := (issue_driveOnly (on := anyPoint) (i := i) (r := r) trivial (.refl s)).rest; rw [this]
  line k := by rw [(issue_driveOnly (on := anyPoint) trivial (.refl s)).line]
  point j := by
    by_cases e : j = i
    · subst e; obtain ⟨a, d, f, w, h⟩ := issue_point j r s; rw [h]
    · rw [(issue_driveOnly (on := fun k => k = i) rfl (.refl s)).point j e]
  zone := (issue_driveOnly (on := anyPoint) trivial (.refl s)).zone

theorem testValve {b : Bool} {v : PointIx} : OpenWork s (testValve b v s) := by
  unfold Machine.testValve
  dsimp only
  split_ifs
  · exact .modValve
  · exact .refl s
  · exact OpenWork.modValve.trans .notify
  · exact .modValve
  · exact .refl s

theorem commandValve {v : PointIx} {r : Requested} : OpenWork s (commandValve v r s) := OpenWork.issue.trans .testValve

theorem countStrike {v : PointIx} : OpenWork s (countStrike v s) := by
  unfold Machine.countStrike
  split
  · refine ⟨rfl, fun k => ?_, fun _ => rfl, fun _ => rfl⟩
    rw [State.line_modLine_if]; split <;> [(subst_vars; rfl); rfl]
  · exact .refl s

theorem clock (h : OpenWork s t) : t.clock = s.clock := by rw [h.rest]
theorem strikes (h : OpenWork s t) : t.strikes = s.strikes := by rw [h.rest]
theorem members (h : OpenWork s t) : t.members = s.members := by rw [h.rest]
theorem cfg (h : OpenWork s t) (i : PointIx) : (t.point i).cfg = (s.point i).cfg := by have := h.point i; rw [this]

theorem spark (h : OpenWork s t) : SparkWork s t :=
  ⟨by have := h.rest; rw [this], fun k => by have := h.line k; rw [this]; exact ⟨rfl, rfl, rfl, rfl⟩, h.point, h.zone⟩

end OpenWork

theorem strikeValve_openWork (v : PointIx) (s : State) : OpenWork s (strikeValve v s) := by
  unfold strikeValve
  dsimp only
  split
  · exact OpenWork.countStrike.trans (OpenWork.modValve.trans .commandValve)
  · exact OpenWork.countStrike.trans .modValve
  · exact OpenWork.countStrike.trans (OpenWork.modValve.trans (OpenWork.commandValve.trans .notify))

theorem openNow_openWork (vs : List PointIx) (s : State) : OpenWork s (openNow vs s) := by
  unfold openNow
  induction vs generalizing s with
  | nil => exact .refl s
  | cons v vs ih => exact (strikeValve_openWork v s).trans (ih _)

/-- What a command to a valve leaves of its record: the feedback deadline and Faulted flag may change (R62). -/
theorem commandValve_valve (v : PointIx) (r : Requested) (s : State) :
    ((commandValve v r s).point v).drive.commanded = some r ∧
      ((commandValve v r s).point v).valve =
        { (s.point v).valve with
          feedbackAt := ((commandValve v r s).point v).valve.feedbackAt
          faulted := ((commandValve v r s).point v).valve.faulted } := by
  have hi : ((issue v r s).point v).valve = (s.point v).valve := by obtain ⟨a, d, f, w, h⟩ := issue_point v r s; rw [h]
  have ht : ∀ (b : Bool) (u : State), ((testValve b v u).point v).drive = (u.point v).drive ∧
      ((testValve b v u).point v).valve =
        { (u.point v).valve with
          feedbackAt := ((testValve b v u).point v).valve.feedbackAt
          faulted := ((testValve b v u).point v).valve.faulted } := by
    intro b u
    have hn : ∀ k o n (w : State), (notify k o n w).point v = w.point v := fun _ _ _ _ => rfl
    unfold testValve
    dsimp only
    split_ifs
    · rw [State.point_modValve]; exact ⟨rfl, rfl⟩
    · exact ⟨rfl, rfl⟩
    · rw [hn, State.point_modValve]; exact ⟨rfl, rfl⟩
    · rw [State.point_modValve]; exact ⟨rfl, rfl⟩
    · exact ⟨rfl, rfl⟩
  obtain ⟨h1, h2⟩ := ht (s.valveDisagrees v) (issue v r s)
  rw [hi] at h2
  refine ⟨?_, h2⟩
  show ((testValve (s.valveDisagrees v) v (issue v r s)).point v).drive.commanded = _
  rw [h1, issue_commanded]

/-- A command to a valve changes that valve's entry alone. -/
theorem commandValve_point_ne (v i : PointIx) (r : Requested) (s : State) (h : i ≠ v) :
    (commandValve v r s).point i = s.point i :=
  (commandValve_driveOnly (on := fun k => k = v) rfl (.refl s)).point i h

/-- R64: what a strike counts. -/
theorem countStrike_line (v : PointIx) (k : LineIx) (s : State) :
    (countStrike v s).line k =
      if (s.point v).cfg.line = some k then { s.line k with strikes := bump (s.line k).strikes } else s.line k := by
  unfold countStrike
  split
  · rename_i l e
    rw [e, State.line_modLine_if]
    by_cases h : k = l
    · subst h; simp
    · rw [if_neg h, if_neg fun e' => h (Option.some.inj e').symm]
  · rename_i e; rw [e, if_neg (by simp)]

theorem countStrike_point (v i : PointIx) (s : State) : (countStrike v s).point i = s.point i := by
  unfold countStrike; split <;> rfl

theorem countStrike_clock (v : PointIx) (s : State) : (countStrike v s).clock = s.clock := by
  unfold countStrike; split <;> rfl

/-- R60: what a strike makes of a valve's record, the hold deadline from now being given. -/
def Valve.struck (r : Valve) (hold : Time) : Valve :=
  match r.state with
  | .closed => { r with state := .opened, holdAt := some hold, opens := bump r.opens }
  | .opened => { r with holdAt := some (match r.holdAt with | some h => later h hold | none => hold) }
  | .recovering =>
    { r with
      state := .opened, recoveryAt := none, holdAt := some hold, opens := bump r.opens, reopens := bump r.reopens }

/-- R60: the valve's record after a strike, by its state before; the feedback deadline and Faulted flag follow R62. -/
theorem strikeValve_valve (v : PointIx) (s : State) :
    ((strikeValve v s).point v).valve =
      { (s.point v).valve.struck (after s.clock (s.point v).cfg.holdMs) with
        feedbackAt := ((strikeValve v s).point v).valve.feedbackAt
        faulted := ((strikeValve v s).point v).valve.faulted } := by
  have hn : ∀ k o n (w : State), (notify k o n w).point v = w.point v := fun _ _ _ _ => rfl
  generalize ht : strikeValve v s = t
  unfold strikeValve at ht
  dsimp only at ht
  unfold Valve.struck
  cases hs : (s.point v).valve.state with
  | closed =>
    rw [hs] at ht
    dsimp only at ht
    obtain ⟨-, h⟩ := commandValve_valve v .opened ((countStrike v s).modValve v fun r =>
      { r with state := .opened, holdAt := some (after s.clock (s.point v).cfg.holdMs), opens := bump r.opens })
    rw [ht, State.point_modValve, countStrike_point] at h
    exact h
  | opened =>
    rw [hs] at ht
    dsimp only at ht
    rw [← ht, State.point_modValve, countStrike_point]
    dsimp only
    rw [hs] <;> cases (s.point v).valve.holdAt <;> rfl
  | recovering =>
    rw [hs] at ht
    dsimp only at ht
    obtain ⟨-, h⟩ := commandValve_valve v .opened ((countStrike v s).modValve v fun r =>
      { r with
        state := .opened, recoveryAt := none, holdAt := some (after s.clock (s.point v).cfg.holdMs), opens := bump r.opens
        reopens := bump r.reopens })
    rw [State.point_modValve, countStrike_point] at h
    rw [← ht, hn]
    exact h

theorem strikeValve_state (v : PointIx) (s : State) : ((strikeValve v s).point v).valve.state = .opened := by
  rw [strikeValve_valve]
  unfold Valve.struck
  cases hs : (s.point v).valve.state <;> simp

/-- R60: Open is commanded, unless the valve is already Open. -/
theorem strikeValve_commanded (v : PointIx) (s : State) :
    ((strikeValve v s).point v).drive.commanded =
      if (s.point v).valve.state = .opened then (s.point v).drive.commanded else some .opened := by
  have hn : ∀ k o n (w : State), (notify k o n w).point v = w.point v := fun _ _ _ _ => rfl
  unfold strikeValve
  dsimp only
  cases hs : (s.point v).valve.state with
  | closed => dsimp only; rw [if_neg (by simp), (commandValve_valve v .opened _).1]
  | opened => rw [if_pos rfl, State.point_modValve, countStrike_point]
  | recovering => dsimp only; rw [if_neg (by simp), hn, (commandValve_valve v .opened _).1]

theorem strikeValve_point_ne (v i : PointIx) (s : State) (h : i ≠ v) : (strikeValve v s).point i = s.point i := by
  have hn : ∀ k o n (w : State), (notify k o n w).point i = w.point i := fun _ _ _ _ => rfl
  have hv : ∀ (u : State) f, (u.modValve v f).point i = u.point i := fun u f => by
    rw [State.modValve_eq, State.point_modPoint_ne _ _ _ _ h]
  unfold strikeValve
  dsimp only
  split
  · rw [commandValve_point_ne _ _ _ _ h, hv, countStrike_point]
  · rw [hv, countStrike_point]
  · rw [hn, commandValve_point_ne _ _ _ _ h, hv, countStrike_point]

theorem strikeValve_line (v : PointIx) (k : LineIx) (s : State) :
    (strikeValve v s).line k =
      if (s.point v).cfg.line = some k then { s.line k with strikes := bump (s.line k).strikes } else s.line k := by
  have hc : ∀ (u : State) r, (commandValve v r u).line k = u.line k := fun u r =>
    (commandValve_driveOnly (on := anyPoint) trivial (.refl u)).line k
  have hn : ∀ e o n (w : State), (notify e o n w).line k = w.line k := fun _ _ _ _ => rfl
  have hv : ∀ (u : State) f, (u.modValve v f).line k = u.line k := fun _ _ => rfl
  rw [← countStrike_line]
  unfold strikeValve
  dsimp only
  split
  · rw [hc, hv]
  · rw [hv]
  · rw [hn, hc, hv]

theorem strikeValve_mono {v i : PointIx} {s : State} (h : (s.point i).valve.state = .opened) :
    ((strikeValve v s).point i).valve.state = .opened := by
  by_cases e : i = v
  · subst e; exact strikeValve_state i s
  · rw [strikeValve_point_ne _ _ _ e]; exact h

/-- R58: every valve of an immediate opening stands Open after it. -/
theorem openNow_state (vs : List PointIx) (s : State) (v : PointIx) (h : v ∈ vs) :
    ((openNow vs s).point v).valve.state = .opened := by
  unfold openNow
  have keep : ∀ (l : List PointIx) (u : State), (u.point v).valve.state = .opened →
      ((l.foldl (fun t w => strikeValve w t) u).point v).valve.state = .opened := by
    intro l
    induction l with
    | nil => exact fun _ h => h
    | cons w l ih => exact fun u hu => ih _ (strikeValve_mono hu)
  induction vs generalizing s with
  | nil => cases h
  | cons w vs ih =>
    rw [List.foldl_cons]
    rcases List.mem_cons.1 h with rfl | h
    · exact keep vs _ (strikeValve_state _ _)
    · exact ih _ h

/-! ## The lists -/

namespace SparkWork

variable {s t u : State}

theorem refl (s : State) : SparkWork s s := (OpenWork.refl s).spark

theorem trans (h : SparkWork s t) (g : SparkWork t u) : SparkWork s u where
  rest := by rw [g.rest, h.rest]
  flow k := by obtain ⟨a, b, c, d⟩ := h.flow k; rw [← a, ← b, ← c, ← d]; exact g.flow k
  point i := by have h1 := h.point i; have g1 := g.point i; rw [g1, h1]
  zone z := by have h1 := h.zone z; have g1 := g.zone z; rw [g1, h1]

theorem modLine {l : LineIx} {f : Line → Line} (hc : (f (s.line l)).cfg = (s.line l).cfg)
    (hs : (f (s.line l)).speed = (s.line l).speed) (ht : (f (s.line l)).speedStale = (s.line l).speedStale)
    (hf : (f (s.line l)).flood = (s.line l).flood) : SparkWork s (s.modLine l f) where
  rest := rfl
  flow k := by
    rw [State.line_modLine_if]; split
    · subst_vars; exact ⟨hc, hs, ht, hf⟩
    · exact ⟨rfl, rfl, rfl, rfl⟩
  point _ := rfl
  zone _ := rfl

theorem notify {k : NoticeKind} {o : Nat} {v : Int} : SparkWork s (notify k o v s) := OpenWork.notify.spark

theorem strikes {l : List Strike} : SparkWork s { s with strikes := l } :=
  ⟨rfl, fun _ => ⟨rfl, rfl, rfl, rfl⟩, fun _ => rfl, fun _ => rfl⟩

theorem addClaim {c : Claim} {i : PointIx} : SparkWork s (addClaim c i s) := by
  have h := addClaim_driveOnly (on := anyPoint) (c := c) (i := i) trivial (.refl s)
  have hm : ∀ (u : State) f, SparkWork u (u.modDrive i f) := fun u f =>
    ⟨rfl, fun _ => ⟨rfl, rfl, rfl, rfl⟩,
      fun j => by rw [State.modDrive_eq, State.point_modPoint_if]; split <;> [(subst_vars; rfl); rfl], fun _ => rfl⟩
  unfold Machine.addClaim
  dsimp only
  split_ifs
  · exact .refl s
  · exact (hm _ _).trans OpenWork.issue.spark
  · exact hm _ _

end SparkWork

theorem testStormEnd_sparkWork (l : LineIx) (s : State) : SparkWork s (testStormEnd l s) := by
  unfold testStormEnd; split
  · exact (SparkWork.modLine rfl rfl rfl rfl).trans .notify
  · exact .refl s

theorem detach_fold (l : LineIx) (ns : List Track) (s : State) :
    ns.foldl (fun t k => detachStrikes l k.number t) s =
      { s with
        strikes := s.strikes.map fun e =>
          if e.line = l ∧ e.track ∈ ns.map (·.number) then { e with detached := true } else e } := by
  induction ns generalizing s with
  | nil => simp
  | cons k ks ih =>
    rw [List.foldl_cons, ih]
    unfold detachStrikes
    simp only [List.map_map, List.map_cons, List.mem_cons]
    congr 1
    refine List.map_congr_left fun e _ => ?_
    by_cases h1 : e.line = l <;> by_cases h2 : e.track = k.number <;>
      by_cases h3 : e.track ∈ ks.map (·.number) <;> simp_all

/-- R32, R33: a retirement in one equation. -/
theorem retireReached_eq (l : LineIx) (u : State) :
    retireReached l u =
      testStormEnd l
        { u.modLine l fun r =>
            { r with
              tracks := (u.line l).tracks.dropWhile fun k => reached u.clock k.endTime
              retireAt := ((u.line l).tracks.dropWhile fun k => reached u.clock k.endTime).head?.map (·.endTime) } with
          strikes := u.strikes.map fun e =>
            if e.line = l ∧ e.track ∈ ((u.line l).tracks.takeWhile fun k => reached u.clock k.endTime).map (·.number) then
              { e with detached := true }
            else e } := by
  unfold retireReached
  dsimp only
  rw [detach_fold]
  rfl

/-- R29: the least origin position, named by a record that has it. -/
theorem leastOrigin_eq {gone : List Track} {first : Track} (hf : first ∈ gone)
    (hm : ∀ k ∈ gone, first.originPosition ≤ k.originPosition) : leastOrigin gone = some first.originPosition := by
  have key : ∀ (l : List Track) (m : Nat),
      let least := l.foldl (fun m j => min m j.originPosition) m
      least ≤ m ∧ (∀ k ∈ l, least ≤ k.originPosition) ∧ (least = m ∨ ∃ k ∈ l, least = k.originPosition) := by
    intro l
    induction l with
    | nil => intro m; simp
    | cons j l ih =>
      intro m
      rw [List.foldl_cons]
      obtain ⟨h1, h2, h3⟩ := ih (min m j.originPosition)
      refine ⟨by omega, fun k hk => ?_, ?_⟩
      · rcases List.mem_cons.1 hk with rfl | hk
        · omega
        · exact h2 k hk
      · rcases h3 with h3 | ⟨k, hk, h3⟩
        · rcases Nat.le_total m j.originPosition with h | h
          · left; rw [h3]; omega
          · right; exact ⟨j, List.mem_cons_self, by rw [h3]; omega⟩
        · right; exact ⟨k, List.mem_cons_of_mem _ hk, h3⟩
  cases gone with
  | nil => cases hf
  | cons g gs =>
    unfold leastOrigin
    obtain ⟨h1, h2, h3⟩ := key gs g.originPosition
    refine congrArg some (le_antisymm ?_ ?_)
    · rcases List.mem_cons.1 hf with rfl | hf
      · exact h1
      · exact h2 _ hf
    · rcases h3 with h3 | ⟨k, hk, h3⟩
      · rw [h3]; exact hm _ List.mem_cons_self
      · rw [h3]; exact hm _ (List.mem_cons_of_mem _ hk)

theorem retireReached_sparkWork (l : LineIx) (s : State) : SparkWork s (retireReached l s) := by
  unfold retireReached
  dsimp only
  rw [detach_fold]
  exact (SparkWork.modLine rfl rfl rfl rfl).trans (SparkWork.strikes.trans (testStormEnd_sparkWork l _))

theorem clearForFlood_sparkWork (l : LineIx) (s : State) : SparkWork s (clearForFlood l s) := by
  unfold clearForFlood
  dsimp only
  split
  · exact retireReached_sparkWork l s
  · exact (SparkWork.modLine rfl rfl rfl rfl).trans ((testStormEnd_sparkWork l _).trans (SparkWork.strikes.trans
      ((openNow_openWork _ _).spark.trans (retireReached_sparkWork l _))))

theorem testShut_sparkWork (l : LineIx) (s : State) : SparkWork s (testShut l s) := by
  unfold testShut; split
  · exact (SparkWork.modLine rfl rfl rfl rfl).trans ((SparkWork.modLine rfl rfl rfl rfl).trans .notify)
  · exact .refl s

/-- R26 to R28: what a computation of the speed leaves of the line, and of the rest. -/
theorem recomputeSpeed_line (l : LineIx) (s : State) :
    let t := recomputeSpeed l s
    (t.line l).speed = s.effectiveSpeed l ∧ (t.line l).speedStale = s.staleSpeed l ∧
      (t.line l).flood = decide (s.effectiveSpeed l < (s.line l).cfg.floor) ∧ (t.line l).cfg = (s.line l).cfg ∧
      (∀ i, t.point i = { s.point i with drive := (t.point i).drive, valve := (t.point i).valve }) ∧
      (∀ z, t.zone z = { s.zone z with faults := (t.zone z).faults }) ∧ t.trips = s.trips ∧ t.doors = s.doors ∧
      t.groups = s.groups ∧ t.triggers = s.triggers := by
  have key : ∀ (u : State) (b : Bool) (t : State),
      (u.line l).speed = s.effectiveSpeed l → (u.line l).speedStale = s.staleSpeed l → (u.line l).flood = b →
      (u.line l).cfg = (s.line l).cfg → u.points = s.points → u.zones = s.zones → u.trips = s.trips →
      u.doors = s.doors → u.groups = s.groups → u.triggers = s.triggers → SparkWork u t →
      (t.line l).speed = s.effectiveSpeed l ∧ (t.line l).speedStale = s.staleSpeed l ∧
      (t.line l).flood = b ∧ (t.line l).cfg = (s.line l).cfg ∧
      (∀ i, t.point i = { s.point i with drive := (t.point i).drive, valve := (t.point i).valve }) ∧
      (∀ z, t.zone z = { s.zone z with faults := (t.zone z).faults }) ∧ t.trips = s.trips ∧ t.doors = s.doors ∧
      t.groups = s.groups ∧ t.triggers = s.triggers := by
    intro u b t h1 h2 h3 h4 h5 h6 h7 h8 h9 h10 hw
    obtain ⟨c1, c2, c3, c4⟩ := hw.flow l
    have hp : ∀ i, u.point i = s.point i := fun i => by simp only [State.point, h5]
    have hz : ∀ z, u.zone z = s.zone z := fun z => by simp only [State.zone, h6]
    have hr := hw.rest
    refine ⟨by rw [c2, h1], by rw [c3, h2], by rw [c4, h3], by rw [c1, h4], fun i => ?_, fun z => ?_, ?_, ?_, ?_, ?_⟩
    · have := hw.point i; rw [hp i] at this; exact this
    · have := hw.zone z; rw [hz z] at this; exact this
    · rw [hr]; exact h7
    · rw [hr]; exact h8
    · rw [hr]; exact h9
    · rw [hr]; exact h10
  unfold recomputeSpeed
  dsimp only
  split
  · rename_i h
    refine key (s.modLine l fun r => { r with speed := s.effectiveSpeed l, speedStale := s.staleSpeed l }) _ _ ?_ ?_ ?_ ?_
      rfl rfl rfl rfl rfl rfl (.refl _)
    · rw [State.line_modLine]
    · rw [State.line_modLine]
    · rw [State.line_modLine]; exact h.symm
    · rw [State.line_modLine]
  · split
    · rename_i hb
      rw [hb]
      refine key ((s.modLine l fun r => { r with speed := s.effectiveSpeed l, speedStale := s.staleSpeed l }).modLine l
        fun r => { r with flood := true }) true _ ?_ ?_ ?_ ?_ rfl rfl rfl rfl rfl rfl
        ((clearForFlood_sparkWork l _).trans (SparkWork.notify.trans (testShut_sparkWork l _)))
      all_goals simp only [State.line_modLine]
    · rename_i hb
      have hb' : decide (s.effectiveSpeed l < (s.line l).cfg.floor) = false := by simpa using hb
      rw [hb']
      refine key ((s.modLine l fun r => { r with speed := s.effectiveSpeed l, speedStale := s.staleSpeed l }).modLine l
        fun r => { r with flood := false }) false _ ?_ ?_ ?_ ?_ rfl rfl rfl rfl rfl rfl .notify
      all_goals simp only [State.line_modLine]

end Sys2Proof.Machine
end

