-- ==== Sys2Proof/Laws/Effects.lean ====
section
/-! SUPPORT. What the larger operations do, said once: strike requests, releases, restores, clearings, the siren's commands, the
fault counts, and doors that are written while their close request stands. -/

namespace Sys2Proof.Machine

/-- R173, R59: clearing the valves of a line. -/
theorem clearValves_point (l : List PointIx) (s : State) (v : PointIx) :
  (l.foldl (fun t v => t.modValve v Valve.clearCounters) s).point v =
   if v ∈ l then { s.point v with valve := { (s.point v).valve with opens := 0, reopens := 0, unsolicited :=
       0 } } else s.point v := by
  induction l generalizing s with
  | nil => simp
  | cons a l ih =>
    rw [List.foldl_cons, ih, State.modValve_eq, State.point_modPoint_if]
    by_cases e : v = a
    · subst e; simp [Valve.clearCounters]
    · simp [e]

theorem clearValves_line (l : List PointIx) (s : State) (k : LineIx) :
  (l.foldl (fun t v => t.modValve v Valve.clearCounters) s).line k = s.line k := by
  induction l generalizing s with
  | nil => rfl
  | cons a l ih => rw [List.foldl_cons, ih]; rfl

theorem clearValves_port (l : List PointIx) (s : State) (p : Port) :
  (l.foldl (fun t v => t.modValve v Valve.clearCounters) { s with port := p }) = { (l.foldl (fun t v =>
      t.modValve v Valve.clearCounters) s) with port := p } := by
  induction l generalizing s with
  | nil => rfl
  | cons a l ih => rw [List.foldl_cons, List.foldl_cons, ← ih]; rfl

theorem clearValves_rest (l : List PointIx) (s : State) :
  (l.foldl (fun t v => t.modValve v Valve.clearCounters) s).clock = s.clock ∧ (l.foldl (fun t v =>
      t.modValve v Valve.clearCounters) s).device = s.device ∧ (l.foldl (fun t v =>
          t.modValve v Valve.clearCounters) s).port = s.port := by
  induction l generalizing s with
  | nil => exact ⟨rfl, rfl, rfl⟩
  | cons a l ih => rw [List.foldl_cons]; exact ih _

/-- A retirement of an empty list leaves no retire deadline, and may end Storm (R32, R33). -/
theorem retireReached_empty {l : LineIx} {s : State} (h : (s.line l).tracks = []) :
  ∃ b p, retireReached l s = { s.modLine l fun r => { r with retireAt := none, storm := b } with port := p } := by
  unfold retireReached
  simp only [h, List.takeWhile_nil, List.dropWhile_nil, List.foldl_nil]
  unfold testStormEnd
  have e : (s.modLine l fun r => ({ r with tracks := [] } : Line).setRetire) = s.modLine l fun r =>
      { r with retireAt := none } := by
    unfold State.modLine; simp only [Line.setRetire, h]; congr 2
  rw [e]
  split
  · refine ⟨false, (notify .storm l.val 0 (s.modLine l fun r => { r with retireAt := none, storm := false })).port, ?_⟩
    rw [State.modLine_modLine]; rfl
  · refine ⟨(s.line l).storm, s.port, ?_⟩
    rfl

theorem modLine_twice {u : State} {p p' : Port} {l : LineIx} {f : Line → Line} {r : Line} :
   ({ State.modLine { u.modLine l (fun _ => r) with port := p } l f with port :=
       p' } : State) = { u.modLine l (fun _ => f r) with port := p' } := by
  have := State.modLine_modLine u l (fun _ => r) f
  simp only [State.modLine] at *
  simp only [State.line] at *
  simp

theorem testShut_normal {s : State} {l : LineIx} (h : (s.line l).state = .normal) : testShut l s = s := by
  unfold testShut; rw [if_neg]; simp [h]

/-- R26 to R28: the speed of a line without tracks in Normal. -/
theorem recomputeSpeed_empty {l : LineIx} {s : State} (ht : (s.line l).tracks = []) (hs : (s.line l).state = .normal) :
   ∃ r p, recomputeSpeed l s = { s.modLine l (fun _ => r) with port := p } ∧ r.cfg = (s.line l).cfg ∧
       r.state = .normal ∧ r.tracks = [] ∧
     r.speed = s.effectiveSpeed l ∧ r.flood = decide (r.speed < (s.line l).cfg.floor) := by
  unfold recomputeSpeed
  dsimp only
  generalize s.effectiveSpeed l = v
  generalize s.staleSpeed l = b
  split
  · rename_i h
    exact ⟨_, s.port, rfl, rfl, hs, ht, rfl, h.symm⟩
  · rename_i h
    split
    · rename_i hb
      unfold enterFlood clearForFlood
      dsimp only
      rw [State.modLine_modLine]
      simp only [State.line_modLine, ht, List.filter_nil, leastOrigin]
      obtain ⟨b', p, e⟩ := retireReached_empty (l := l)
          (s := s.modLine l fun r => { r with speed := v, speedStale := b, flood := true }) (by simpa using ht)
      simp only at e
      rw [e, State.modLine_modLine]
      have nl : ∀ (x : State) p k o v, (notify k o v { x with port := p }).line l = x.line l := fun _ _ _ _ _ => rfl
      rw [testShut_normal (by rw [nl, State.line_modLine]; exact hs)]
      exact ⟨_, _, rfl, rfl, hs, ht, rfl, hb.symm⟩
    · rename_i hb
      unfold leaveFlood
      rw [State.modLine_modLine]
      refine ⟨_, _, rfl, rfl, hs, ht, rfl, ?_⟩
      simpa using hb

/-- Where the first of two events changes nothing, the order does not matter. -/
theorem eitherOrder_left {f g : State → State} {s : State} (h1 : f s = s)
    (h2 : f (g s) = g s) : eitherOrder f g s = g s := by
  unfold eitherOrder; dsimp only; rw [h1, h2, if_pos rfl]

/-- R160: a frame that matches no entry. -/
theorem Port.takeReturn_none {f : Frame} {p : Port} (h : ∀ r ∈ p.returns,
    r.matchedBy f = false) : p.takeReturn f = none := by
  unfold Port.takeReturn
  rw [List.findIdx?_eq_none_iff.2]
  · rfl
  · simpa using h

/-- R160: a frame that matches an entry. -/
theorem Port.takeReturn_some {f : Frame} {p : Port} {before rest : List Return} {r : Return} (hp : p.returns = before ++ r :: rest)
    (h : r.matchedBy f = true) (hb : ∀ b ∈ before, b.matchedBy f = false) :
    p.takeReturn f =
      some { p with
        returns := rest, counters := { p.counters with missing := bumpBy before.length p.counters.missing } } := by
  unfold Port.takeReturn
  have : List.findIdx? (fun r => r.matchedBy f) p.returns = some before.length := by
    rw [hp]
    rw [List.findIdx?_append]
    rw [List.findIdx?_eq_none_iff.2 (by simpa using hb), List.findIdx?_cons, if_pos h]
    simp
  rw [this]
  simp only [Option.map_some, hp]
  simp

/-- R154: sorting a frame touches the Loop Port alone. -/
theorem route_port (f : Frame) (u : State) : ∃ p, route f u = { u with port := p } := by
  unfold route
  split
  · unfold matchReturn
    split
    · unfold setDownstream
      split
      · exact ⟨_, rfl⟩
      · exact ⟨_, rfl⟩
    · exact ⟨_, rfl⟩
  · split
    · exact ⟨_, rfl⟩
    · exact ⟨_, rfl⟩

/-- R109: what an accepted Release Line leaves. -/
theorem releaseLine_spec (l : LineIx) (s : State) :
   (releaseLine l s).line l = { s.line l with
            state := .normal, gateFault := false, runDownIncomplete := false, gateTravelAt := none, runDownAt := none
            tripHeld := [] } ∧ LineWork (fun k => k = l) s (releaseLine l s) ∧
    (∀ i, i ∈ (s.membersOf l).fans ∨ i ∈ (s.membersOf l).conveyors →
        Claim.line l ∉ ((releaseLine l s).point i).drive.claims) ∧
        ∀ g, (s.membersOf l).gates.head? = some g → ((releaseLine l s).point g).drive.commanded = some .normal := by
  have hp : ∀ (u : State) f i, (enterLineState l .normal (u.modLine l f)).point i = u.point i := fun u f i => rfl
  unfold releaseLine
  dsimp only
  have hw : LineWork (fun k => k = l) s (releaseClaims l s) := releaseClaims_lineWork l s
  have hg : s.gateOf l = (s.membersOf l).gates.head? := rfl
  have hl := (releaseClaims_driveOnly (l := l) (.refl s)).line l
  have hc : ∀ i, i ∈ (s.membersOf l).fans ∨ i ∈ (s.membersOf l).conveyors →
      Claim.line l ∉ ((releaseClaims l s).point i).drive.claims :=
    fun i hi => releaseClaims_claims l s i (List.mem_append.2 hi)
  rw [← hg]
  cases hgs : s.gateOf l with
  | none =>
    dsimp only
    refine ⟨?_, hw.trans ((LineWork.modLine (on := fun k => k = l) (l :=
        l) rfl rfl rfl rfl).trans (enterLineState_lineWork (on := fun k => k = l) (l := l) rfl _ _)), hc, nofun⟩
    rw [enterLineState_line, State.line_modLine, hl]
  | some g =>
    dsimp only
    refine ⟨?_, hw.trans (LineWork.issue.trans ((LineWork.modLine (on := fun k => k = l) (l :=
        l) rfl rfl rfl rfl).trans (enterLineState_lineWork (on := fun k => k = l) (l := l) rfl _ _))), fun i hi => ?_,
            fun g' e => ?_⟩
    · rw [enterLineState_line, State.line_modLine, (issue_driveOnly (on := anyPoint) trivial (.refl _)).line, hl]
    · rw [hp, issue_claims]; exact hc i hi
    · cases e; rw [hp, issue_commanded]

/-- R125: what an accepted Restore Door leaves. -/
theorem restoreDoor_spec (d : DoorIx) (s : State) :
    DoorWork s (restoreDoor d s) ∧ (restoreDoor d s).door d = (if s.doorReported d = some .opened then
              { s.door d with
                state := .opened, forced := false, wasJammed := false, manualClosed := false, breached := false }
            else { s.door d with state := .restoring }) ∧
          (∀ e, e ≠ d → (restoreDoor d s).door e = s.door e) ∧
          (∀ i, Claim.door d ∉ ((restoreDoor d s).point i).drive.claims) ∧
          ∀ i, (s.door d).cfg.point = some i → ((restoreDoor d s).point i).drive.commanded = some .hold := by
  have leave : ∀ b u, DoorWork u (leaveJam b u) := fun b u => by
    unfold leaveJam; split
    · exact .drive (recountFaults_driveOnly (on := anyPoint) (.refl u))
    · exact .refl u
  have leaveP : ∀ b u i, (leaveJam b u).point i = u.point i := fun b u i => by
    unfold leaveJam; split
    · exact recountFaults_point u i
    · rfl
  have leaveD : ∀ b u e, (leaveJam b u).door e = u.door e := fun b u e => by
    unfold leaveJam; split
    · exact recountFaults_door e u
    · rfl
  have nD : ∀ k o v (u : State) e, (notify k o v u).door e = u.door e := fun _ _ _ _ _ => rfl
  have nP : ∀ k o v (u : State) e, (notify k o v u).point e = u.point e := fun _ _ _ _ _ => rfl
  have oP : ∀ (u : State) e, (enterOpen d u).point e = u.point e := fun _ _ => rfl
  have cP : ∀ i, (∀ e, s.door d = s.door e → True) →
      Claim.door d ∉ ((commandDoor d .hold (unclaimDoor d s)).point i).drive.claims := fun i _ => by
    unfold commandDoor; split
    · rw [issue_claims]; exact unclaimDoor_claims d s i
    · exact unclaimDoor_claims d s i
  have cC : ∀ i, (s.door d).cfg.point = some i →
      ((commandDoor d .hold (unclaimDoor d s)).point i).drive.commanded = some .hold := fun i hi => by
    unfold commandDoor; rw [unclaimDoor_door, hi]; exact issue_commanded _ _ _
  have w1 : DoorWork s (commandDoor d .hold (unclaimDoor d s)) :=
      (unclaimDoor_doorWork d s).trans (commandDoor_doorWork d _ _)
  have d1 : ∀ e, (commandDoor d .hold (unclaimDoor d s)).door e = s.door e := fun e => by rw [commandDoor_door,
      unclaimDoor_door]
  unfold restoreDoor
  dsimp only
  generalize commandDoor d .hold (unclaimDoor d s) = t at *
  have w2 := w1.trans (DoorWork.modDoor.trans (leave (s.door d).state (t.modDoor d fun r => { r with state :=
      .restoring })))
  have d2 : ∀ e, (leaveJam (s.door d).state (t.modDoor d fun r => { r with state :=
      .restoring })).door e = if e = d then { s.door d with state := .restoring } else s.door e := fun e => by
    rw [leaveD, State.door_modDoor_if, d1, d1]
  have p2 : ∀ e, (leaveJam (s.door d).state (t.modDoor d fun r => { r with state :=
      .restoring })).point e = t.point e := fun e => by
    rw [leaveP]; rfl
  generalize leaveJam (s.door d).state (t.modDoor d fun r => { r with state := .restoring }) = u at *
  have w3 : DoorWork s (if (s.door d).state = .restoring then u else notify .doorState d.val DoorState.restoring.code u) := by
    split
    · exact w2
    · exact w2.trans (.drive (p := anyPoint) (notify_driveOnly (.refl _)))
  have d3 : ∀ e,
      (if (s.door d).state = .restoring then u else notify .doorState d.val DoorState.restoring.code u).door e =
        if e = d then { s.door d with state := .restoring } else s.door e := by
    intro e; split <;> exact d2 e
  have p3 : ∀ e,
      (if (s.door d).state = .restoring then u else notify .doorState d.val DoorState.restoring.code u).point e = t.point e := by
    intro e; split <;> exact p2 e
  generalize (if (s.door d).state = .restoring then u else notify .doorState d.val DoorState.restoring.code u) = v at *
  split
  · refine ⟨w3.trans (enterOpen_doorWork d v), ?_, fun e he => ?_, fun i => ?_, fun i hi => ?_⟩
    · unfold enterOpen; rw [enterDoorState_door, if_pos rfl, State.door_modDoor, d3, if_pos rfl]; rfl
    · unfold enterOpen; rw [enterDoorState_door, if_neg he, State.door_modDoor_ne _ _ _ _ he, d3, if_neg he]
    · rw [oP, p3]; exact cP i fun _ _ => trivial
    · rw [oP, p3]; exact cC i hi
  · refine ⟨w3, ?_, fun e he => ?_, fun i => ?_, fun i hi => ?_⟩
    · rw [d3, if_pos rfl]
    · rw [d3, if_neg he]
    · rw [p3]; exact cP i fun _ _ => trivial
    · rw [p3]; exact cC i hi

/-- R62: when a valve is in disagreement. -/
theorem State.valveDisagrees_iff (s : State) (v : PointIx) : s.valveDisagrees v = true ↔ ∃ c,
    (s.point v).drive.commanded = some c ∧
        ∀ code, (s.point v).drive.reported = some code →
            c.matchedBy s.clock (s.point v).drive.lastCommand code = false := by
  unfold State.valveDisagrees
  dsimp only
  cases (s.point v).drive.commanded with
  | none => simp
  | some c => cases (s.point v).drive.reported <;> simp

/-- R147: when a record is in disagreement. -/
theorem Drive.disagrees_iff (d : Drive) (now : Time) : d.disagrees now = true ↔ ∃ r, d.commanded = some r ∧
    r.reconciled = true ∧ ∀ code, d.reported = some code → r.matchedBy now d.lastCommand code = false := by
  unfold Drive.disagrees
  cases d.commanded with
  | none => simp
  | some r => cases d.reported <;> simp

/-- R56: a fired report on the record at the tail; the records before it stand where none has its number. -/
theorem reportFired_tracks (l : LineIx) (n : Cyc) (s : State) (old : List Track) (k : Track)
    (h : (s.line l).tracks = old ++ [k]) (hk : k.number = n) :
    ∃ old', ((reportFired l n s).line l).tracks =
        old' ++ [{ k with state := if k.state = .inFlight then .struck else k.state }] ∧
      old'.length = old.length ∧ ((∀ x ∈ old, x.number ≠ n) → old' = old) := by
  unfold reportFired
  rw [State.line_modLine]
  dsimp only
  rw [h, List.map_append]
  refine ⟨_, congrArg (List.map _ old ++ ·) ?_, List.length_map _, fun hn => ?_⟩
  · subst hk; simp only [List.map_cons, List.map_nil, true_and]
    split <;> rfl
  · conv_rhs => rw [← List.map_id old]
    refine List.map_congr_left fun x hx => ?_
    simp [hn x hx]

/-- What a strike request of line `l` and track `n` keeps and brings (R53 to R55). -/
structure RequestWork (l : LineIx) (n : Cyc) (s t : State) : Prop where
  next : (t.line l).nextTrack = (s.line l).nextTrack
  untr : (t.line l).untracked = (s.line l).untracked
  ret : (t.line l).retireAt = (s.line l).retireAt
  tr : ∀ old k, (s.line l).tracks = old ++ [k] → k.number = n →
      ∃ old' st, (t.line l).tracks = old' ++ [{ k with state := st }] ∧ (st = k.state ∨ st = .struck) ∧
        old'.length = old.length ∧ ((∀ x ∈ old, x.number ≠ n) → old' = old)
  opened : ∀ v, (s.point v).valve.state = .opened → (t.point v).valve.state = .opened

theorem RequestWork.refl {l n} (s : State) : RequestWork l n s s := ⟨rfl, rfl, rfl,
  fun old k h _ => ⟨old, k.state, h, .inl rfl, rfl, fun _ => rfl⟩, fun _ h => h⟩

theorem RequestWork.trans {l n} {s t u : State} (h : RequestWork l n s t)
    (g : RequestWork l n t u) : RequestWork l n s u where
  next := by rw [g.next, h.next]
  untr := by rw [g.untr, h.untr]
  ret := by rw [g.ret, h.ret]
  tr old k e hk := by
    obtain ⟨o1, st, h1, h2, h3, h4⟩ := h.tr old k e hk
    obtain ⟨o2, st', g1, g2, g3, g4⟩ := g.tr o1 _ h1 hk
    refine ⟨o2, st', g1, ?_, g3.trans h3, fun hn => ?_⟩
    · rcases g2 with g2 | g2
      · rw [g2]; exact h2
      · exact .inr g2
    · have e1 := h4 hn
      rw [g4 (by rw [e1]; exact hn), e1]
  opened v hv := g.opened v (h.opened v hv)

theorem RequestWork.strike {l n} {s : State} (v : PointIx) : RequestWork l n s (strikeValve v s) := by
  have h := (strikeValve_openWork v s).line l
  refine ⟨by rw [h], by rw [h], by rw [h], fun old k e _ =>
    ⟨old, k.state, by rw [h]; exact e, .inl rfl, rfl, fun _ => rfl⟩, fun w hw => strikeValve_mono hw⟩

theorem RequestWork.mod {l n} {s : State} {f : Line → Line} (h1 : (f (s.line l)).nextTrack = (s.line l).nextTrack)
    (h2 : (f (s.line l)).untracked = (s.line l).untracked)
   (h3 : (f (s.line l)).retireAt = (s.line l).retireAt)
       (h4 : (f (s.line l)).tracks = (s.line l).tracks) : RequestWork l n s (s.modLine l f) := by
  refine ⟨?_, ?_, ?_, fun old k e _ => ⟨old, k.state, ?_, .inl rfl, rfl, fun _ => rfl⟩, fun _ h => h⟩
  all_goals rw [State.line_modLine]
  · exact h1
  · exact h2
  · exact h3
  · rw [h4]; exact e

theorem RequestWork.fired {l n} {s : State} : RequestWork l n s (reportFired l n s) := by
  refine ⟨?_, ?_, ?_, fun old k e hk => ?_, fun _ h => h⟩
  · unfold reportFired; rw [State.line_modLine]
  · unfold reportFired; rw [State.line_modLine]
  · unfold reportFired; rw [State.line_modLine]
  · obtain ⟨o, h1, h2, h3⟩ := reportFired_tracks l n s old k e hk
    refine ⟨o, _, h1, ?_, h2, h3⟩
    split
    · exact .inr rfl
    · exact .inl rfl

/-- R53 to R55: a strike request. -/
theorem requestStrike_work {l n} (vs : List PointIx) (fire : Time)
    (s : State) : RequestWork l n s (requestStrike l n vs fire s) := by
  induction vs generalizing fire s with
  | nil => exact .refl s
  | cons v rest ih =>
    have on : ∀ t : State, RequestWork l n t
        (match (generalizing := false) rest with
          | [] => t
          | w :: _ => requestStrike l n rest (onwardFire l v w fire t) t) := by
      intro t
      cases rest with
      | nil => exact .refl t
      | cons w ws => exact ih _ t
    have ins : ∀ e, RequestWork l n s { s with strikes := insertStrike e s.strikes } := fun e => ⟨rfl, rfl, rfl,
        fun old k h _ => ⟨old, k.state, h, .inl rfl, rfl, fun _ => rfl⟩, fun _ h => h⟩
    unfold requestStrike
    dsimp only
    split
    · exact (RequestWork.strike v).trans ((RequestWork.mod rfl rfl rfl rfl).trans (RequestWork.fired.trans (on _)))
    · split
      · exact (RequestWork.strike v).trans ((RequestWork.mod rfl rfl rfl rfl).trans RequestWork.fired)
      · split
        · exact (ins _).trans (on _)
        · exact ins _

/-- R144: every point of a list that is commanded holds the command. -/
theorem issues_commanded (r : Requested) (l : List PointIx) (s : State) (i : PointIx) (h : i ∈ l) :
    ((l.foldl (fun u i => issue i r u) s).point i).drive.commanded = some r := by
  have keep : ∀ (m : List PointIx) (u : State), (u.point i).drive.commanded = some r → ((m.foldl (fun u i =>
      issue i r u) u).point i).drive.commanded = some r := by
    intro m
    induction m with
    | nil => exact fun _ h => h
    | cons j m ih =>
      intro u hu
      refine ih _ ?_
      by_cases e : i = j
      · subst e; exact issue_commanded _ _ _
      · rw [(issue_driveOnly (on := fun k => k = j) rfl (.refl u)).point i e]; exact hu
  induction l generalizing s with
  | nil => cases h
  | cons j l ih =>
    rw [List.foldl_cons]
    rcases List.mem_cons.1 h with rfl | h
    · exact keep l _ (issue_commanded _ _ _)
    · exact ih _ h

theorem commandOutputs_commanded (g : GroupIx) (r : Requested) (s : State) (i : PointIx) (h : i ∈ s.enginePoints g) :
    ((commandOutputs g r s).point i).drive.commanded = some r := issues_commanded r _ s i h

/-- R138: every loop siren of a list is recorded as Quiet. -/
theorem recordQuiets_commanded (l : List PointIx) (s : State) (i : PointIx) (h : i ∈ l) :
    ((l.foldl (fun u i => recordQuiet i u) s).point i).drive.commanded = some .quiet ∧ ((l.foldl (fun u i =>
        recordQuiet i u) s).point i).drive.lastCommand = some s.clock := by
  have one : ∀ (j : PointIx) (u : State), ((recordQuiet j u).point j).drive.commanded = some .quiet ∧
      ((recordQuiet j u).point j).drive.lastCommand = some u.clock := by
    intro j u
    unfold recordQuiet
    obtain ⟨a, d, f, h⟩ := testDisagreement_point true j (recordCommand j .quiet u)
    rw [h]
    unfold recordCommand
    rw [State.point_modDrive]
    exact ⟨rfl, rfl⟩
  have clk : ∀ j (u : State), (recordQuiet j u).clock = u.clock := fun j u => (recordQuiet_driveOnly (on :=
      anyPoint) trivial (.refl u)).clock
  have keep : ∀ (m : List PointIx) (u : State), (u.point i).drive.commanded = some .quiet ∧
      (u.point i).drive.lastCommand = some u.clock → ((m.foldl (fun u i =>
          recordQuiet i u) u).point i).drive.commanded = some .quiet ∧ ((m.foldl (fun u i =>
              recordQuiet i u) u).point i).drive.lastCommand = some u.clock := by
    intro m
    induction m with
    | nil => exact fun _ h => h
    | cons j m ih =>
      intro u hu
      have := ih (recordQuiet j u) (by
        by_cases e : i = j
        · subst e; rw [clk]; exact one _ _
        · rw [(recordQuiet_driveOnly (on := fun k => k = j) rfl (.refl u)).point i e, clk]; exact hu)
      rw [clk] at this
      exact this
  induction l generalizing s with
  | nil => cases h
  | cons j l ih =>
    rw [List.foldl_cons]
    rcases List.mem_cons.1 h with rfl | h
    · have := keep l (recordQuiet i s) (by rw [clk]; exact one _ _)
      rw [clk] at this
      exact this
    · have := ih (recordQuiet j s) h
      rw [clk] at this
      exact this

/-- R138: recording Quiet withholds no command. -/
theorem recordQuiets_withheld (l : List PointIx) (s : State) (i : PointIx) :
    ((l.foldl (fun u i => recordQuiet i u) s).point i).drive.withheld = (s.point i).drive.withheld := by
  induction l generalizing s with
  | nil => rfl
  | cons j l ih =>
    rw [List.foldl_cons, ih]
    by_cases e : i = j
    · subst e
      unfold recordQuiet
      obtain ⟨a, d, f, h⟩ := testDisagreement_point true i (recordCommand i .quiet s)
      rw [h]
      unfold recordCommand
      rw [State.point_modDrive]
    · rw [(recordQuiet_driveOnly (on := fun k => k = j) rfl (.refl s)).point i e]

/-- Two events that change nothing. -/
theorem eitherOrder_idle {f g : State → State} {s : State} (hf : f s = s) (hg : g s = s) : eitherOrder f g s = s := by
  unfold eitherOrder; dsimp only; rw [hf, hg, hf, if_pos rfl]

/-- R84: an edge that no trip waits for. -/
theorem settle_inputEdge_deaf {s : State} {i : InputIx} (ht : s.triggers = []) (hk : ∀ k,
    (s.trip k).cfg.trigger = .inputEdge i → (s.trip k).cfg.mode = .off) :
    settle (raiseTrigger (.inputEdge i) s) = s := by
  rw [settle_deaf (s := raiseTrigger (.inputEdge i) s) (e := .inputEdge i)
      (by unfold raiseTrigger; dsimp only; rw [ht]; rfl) (fun k => hk k)]
  unfold raiseTrigger; dsimp only; rw [← ht]

/-- R78: the counts after every zone has been brought up to date. -/
theorem updateFaults_fold (f : ZoneIx → Nat) (l : List ZoneIx) (hl : l.Nodup) (s : State) (z : ZoneIx) :
   ((l.foldl (fun t z => updateFaults z (f z) t) s).zone z).faults = if z ∈ l then f z else (s.zone z).faults := by
  have one : ∀ w (u : State), ((updateFaults w (f w) u).zone z).faults = if z = w then f w else (u.zone z).faults := by
    intro w u
    unfold updateFaults
    have hn : ∀ e o n (v : State), (notify e o n v).zone z = v.zone z := fun _ _ _ _ => rfl
    split
    · rename_i h; split
      · subst_vars; exact h
      · rfl
    · rw [hn, State.zone_modZone_if]
      split <;> rfl
  induction l generalizing s with
  | nil => simp
  | cons w l ih =>
    rw [List.nodup_cons] at hl
    rw [List.foldl_cons, ih hl.2, one]
    by_cases h1 : z ∈ l
    · simp [h1]
    · rw [if_neg h1]
      by_cases h2 : z = w
      · subst h2; simp
      · simp [h2, h1]

/-- R78: where no count changes nothing is sent. -/
theorem updateFaults_fold_same (f : ZoneIx → Nat) (l : List ZoneIx) (s : State) (h : ∀ z, (s.zone z).faults = f z) :
   l.foldl (fun t z => updateFaults z (f z) t) s = s := by
  induction l with
  | nil => rfl
  | cons w l ih =>
    rw [List.foldl_cons]
    have : updateFaults w (f w) s = s := by unfold updateFaults; rw [if_pos (h w)]
    rw [this]; exact ih

/-- Outside Observe and Protect the events of the plant change nothing. -/
theorem plantEvent_idle {s : State} (hset : settle s = s) (ha : s.active = false) (hp : s.mode ≠ .protect) (c : Instr)
    (hc : plantEvent c = true) : exec c s = .next s := by
  have hn : ∀ {a b : State}, a = b → (Host.Outcome.next a : Host.Outcome State Fault Refusal) = .next b := fun h =>
      by rw [h]
  cases c with
  | sampleExpiry i => apply hn; rw [show sampleExpires _ s = s by unfold sampleExpires; split <;> simp [ha]]; exact hset
  | retireDeadline l => apply hn; unfold retireEnds; simp [ha]
  | recordEndTime l n => apply hn; unfold recordEnds; split <;> simp [ha]
  | strikeEntryFireTime => apply hn; unfold strikeFires; split <;> simp [ha]
  | holdDeadline v => apply hn; unfold holdEnds; simp [ha]
  | recoveryDeadline v => apply hn; unfold recoveryEnds; simp [ha]
  | feedbackDeadline v => apply hn; unfold feedbackEnds; simp [hp]
  | slotEnd z => apply hn; rw [show slotEnds _ s = s by unfold slotEnds; simp [ha]]; exact hset
  | tick => apply hn; unfold tickTaken; simp [ha]
  | gateTravelDeadline l => apply hn; unfold gateTravelEnds; simp [ha]
  | runDownDeadline l => apply hn; unfold runDownEnds; simp [ha]
  | runOutDeadline d => apply hn; unfold runOutEnds; simp [ha]
  | clearingDeadline d => apply hn; unfold clearingEnds; simp [ha]
  | closingDeadline d => apply hn; unfold closingEnds; simp [ha]
  | cadenceEndDeadline g => apply hn; unfold cadenceEnds; simp [ha]
  | phaseDeadline g => apply hn; unfold phaseEnds; split <;> simp [ha]
  | repeatDeadline i => apply hn; unfold repeatEnds; simp [hp]
  | disagreementDeadline i => apply hn; unfold disagreementEnds; simp [hp]
  | supervisionPoll i => apply hn; unfold pollDue; simp [State.supervised, ha]
  | supervisionLimit i => apply hn; unfold supervisionEnds; simp [State.supervised, ha]
  | _ => cases hc

/-! ## Doors that begin to close (R118 to R120, R128) -/

theorem enterDoorState_point (d : DoorIx) (st : DoorState) (s : State) (i : PointIx) :
    (enterDoorState d st s).point i = s.point i := rfl

/-- A command touches no claim, and a claim once added stays: after a run of adds, every point of the run holds it. -/
theorem addClaims_mem (c : Claim) (l : List PointIx) (s : State) (i : PointIx)
    (h : i ∈ l ∨ c ∈ (s.point i).drive.claims) : c ∈ ((l.foldl (fun t i => addClaim c i t) s).point i).drive.claims := by
  induction l generalizing s with
  | nil => rcases h with h | h; exacts [absurd h List.not_mem_nil, h]
  | cons j l ih =>
    refine ih _ ?_
    by_cases hl : i ∈ l
    · exact .inl hl
    · right
      rw [addClaim_claims]
      split
      · simp
      · rename_i hn
        rcases h with h | h
        · rcases List.mem_cons.1 h with rfl | h
          · by_contra hc; exact hn ⟨rfl, hc⟩
          · exact absurd h hl
        · exact h

theorem claimDoor_claims (d : DoorIx) (s : State) (i : PointIx) (h : i ∈ s.doorConveyors d) :
    Claim.door d ∈ ((claimDoor d s).point i).drive.claims := addClaims_mem _ _ s i (.inl h)

theorem claimDoor_reported (d : DoorIx) (s : State) (i : PointIx) :
    ((claimDoor d s).point i).drive.reported = (s.point i).drive.reported := by
  unfold claimDoor
  generalize s.doorConveyors d = l
  induction l generalizing s with
  | nil => rfl
  | cons j l ih => rw [List.foldl_cons, ih, addClaim_reported]

theorem enterReleasing_claims (d : DoorIx) (s : State) (i : PointIx) :
    ((enterReleasing d s).point i).drive.claims = (s.point i).drive.claims := by
  have h : ((commandDoor d .release s).point i).drive.claims = (s.point i).drive.claims := by
    unfold commandDoor; split
    · exact issue_claims _ _ _ _
    · rfl
  unfold enterReleasing enterClosed
  dsimp only
  split <;> simp only [enterDoorState_point, State.point_modDoor, h]

theorem enterReleasing_commanded (d : DoorIx) (s : State) (i : PointIx) (h : (s.door d).cfg.point = some i) :
    ((enterReleasing d s).point i).drive.commanded = some .release := by
  have h' : ((commandDoor d .release s).point i).drive.commanded = some .release := by
    unfold commandDoor; rw [h]; exact issue_commanded _ _ _
  unfold enterReleasing enterClosed
  dsimp only
  split <;> simp only [enterDoorState_point, State.point_modDoor, h']

theorem enterClearing_claims (d : DoorIx) (s : State) (i : PointIx) (h : i ∈ s.doorConveyors d) :
    Claim.door d ∈ ((enterClearing d s).point i).drive.claims := by
  have h0 := claimDoor_claims d s i h
  have e : ∀ (u : State) (f : Door → Door), Claim.door d ∈ (u.point i).drive.claims →
      Claim.door d ∈ ((enterReleasing d (u.modDoor d f)).point i).drive.claims := fun u f hu => by
    rw [enterReleasing_claims]; exact hu
  unfold enterClearing
  dsimp only
  generalize ht : enterDoorState d .clearing _ = t
  have h1 : Claim.door d ∈ (t.point i).drive.claims := by subst ht; rw [enterDoorState_point, State.point_modDoor]; exact h0
  have ed : ∀ (u : State) n, State.point { u with draws := n } i = u.point i := fun _ _ => rfl
  split
  · split
    · unfold freely finishRunOut forceRelease; split <;> exact e _ _ (by rw [ed]; exact h1)
    · unfold startRunOut; split
      · exact e _ _ h1
      · rw [State.point_modDoor]; exact h1
  · exact h1

/-- R119: a door whose door point does not report Closed goes no further than Releasing. -/
theorem closeFromOpen_state (d : DoorIx) (s : State) (h : s.doorReported d ≠ some .closed) :
    ((closeFromOpen d s).door d).state = .clearing ∨ ((closeFromOpen d s).door d).state = .releasing := by
  have rel : ∀ u : State, u.doorReported d = s.doorReported d → ((enterReleasing d u).door d).state = .releasing :=
    fun u hu => by rw [enterReleasing_door, if_pos rfl, hu, if_neg h]
  unfold closeFromOpen
  split
  · exact .inr (rel s rfl)
  · unfold enterClearing
    dsimp only
    generalize ht : enterDoorState d .clearing _ = t
    have hs : (t.door d).state = .clearing := by subst ht; rw [enterDoorState_door, if_pos rfl]
    have hr : ∀ j, (t.point j).drive.reported = (s.point j).drive.reported := fun j => by
      subst ht; exact claimDoor_reported d s j
    have hc : (t.door d).cfg = (s.door d).cfg := by subst ht; rw [enterDoorState_door, if_pos rfl]; simp
    have hm : ∀ (u : State) (f : Door → Door), (∀ r, (f r).cfg = r.cfg) → (∀ j, u.point j = t.point j) →
        (u.door d).cfg = (s.door d).cfg → (u.modDoor d f).doorReported d = s.doorReported d := fun u f hf hp hd => by
      simp only [State.doorReported, State.door_modDoor, hf, hd, State.point_modDoor, hp, hr]
    split
    · split
      · unfold freely finishRunOut forceRelease
        split <;> exact .inr (rel _ (hm _ _ (fun _ => rfl) (fun _ => rfl) hc))
      · unfold startRunOut; split
        · exact .inr (rel _ (hm _ _ (fun _ => rfl) (fun _ => rfl) hc))
        · left; simp [hs]
    · exact .inl hs

/-- R120: the entry into Clearing while a conveyor does not report Stopped. -/
theorem enterClearing_door (d : DoorIx) (s : State) (h : s.clearingCondition d = false) :
    (enterClearing d s).door d =
      { s.door d with state := .clearing, clearingAt := some (after s.clock ((s.door d).cfg.clearing * 1000)) } := by
  unfold enterClearing
  dsimp only
  generalize ht : enterDoorState d .clearing _ = t
  have hd : t.door d =
      { s.door d with state := .clearing, clearingAt := some (after s.clock ((s.door d).cfg.clearing * 1000)) } := by
    subst ht; rw [enterDoorState_door, if_pos rfl]; simp
  have hp : ∀ j, t.point j = (claimDoor d s).point j := fun j => by subst ht; rfl
  have hc : t.clearingCondition d = false := by
    have hk : ∀ j, (t.point j).cfg = (s.point j).cfg := fun j => by
      rw [hp]; exact (claimDoor_moves (q := plain) (d := d) (Moves.refl (s := s))).cfg j
    have hr : ∀ j, (t.point j).drive.reported = (s.point j).drive.reported := fun j => by rw [hp]; exact claimDoor_reported d s j
    rw [← h]
    simp only [State.clearingCondition, State.doorConveyors, State.isKind, hd, hk, hr]
  rw [if_neg (by simp [hc])]
  exact hd

/-- R128, R118: a door that is reset and whose door point has reported nothing: it waits for its first report, unless its close
request stands, which it then takes as from Open (R119). -/
theorem resetDoor_unreported (d : DoorIx) (s : State) (hr : s.doorReported d = none) :
    let t := firstReport d (resetDoor d s)
    let r := s.door d
    let fresh : Door :=
      { cfg := r.cfg, releases := r.releases, forcedCount := r.forcedCount, jams := r.jams, breaches := r.breaches }
    (∀ e, e ≠ d → t.door e = s.door e) ∧
    (s.doorActive d = false ∨ s.closeStands d = false →
      t.door d = fresh ∧ ∀ j, Claim.door d ∉ (t.point j).drive.claims) ∧
    (s.doorActive d = true → s.closeStands d = true →
      ((t.door d).closeRequest = true ∧ (t.door d).cfg = r.cfg ∧
        ((t.door d).state = .clearing ∨ (t.door d).state = .releasing)) ∧
      (r.cfg.conveyors = [] →
        t.door d =
          { fresh with
            state := .releasing, closeRequest := true, closingAt := some (after s.clock (r.cfg.closing * 1000))
            releases := bump r.releases } ∧
        (∀ i, r.cfg.point = some i → (t.point i).drive.commanded = some .release) ∧
        ∀ j, Claim.door d ∉ (t.point j).drive.claims) ∧
      (r.cfg.conveyors ≠ [] → ∀ j ∈ s.doorConveyors d, Claim.door d ∈ (t.point j).drive.claims) ∧
      (s.clearingCondition d = false →
        t.door d =
          { fresh with
            state := .clearing, closeRequest := true
            clearingAt := some (after s.clock (r.cfg.clearing * 1000)) })) := by
  intro t r fresh
  generalize hw : resetDoor d s = w at *
  have wd : w.door d = fresh := by subst hw; unfold resetDoor; simp [Door.clearFlags, fresh, r]
  have wo : ∀ e, e ≠ d → w.door e = s.door e := fun e he => by
    subst hw; unfold resetDoor; rw [State.door_modDoor_ne _ _ _ _ he, unclaimDoor_door]
  have wc : ∀ i, Claim.door d ∉ (w.point i).drive.claims := fun i => by subst hw; exact unclaimDoor_claims d s i
  have wr : ∀ i, (w.point i).drive.reported = (s.point i).drive.reported := fun i => by
    subst hw; exact unclaimDoor_reported d i s
  have wm : Moves plain s w := by subst hw; unfold resetDoor; exact (unclaimDoor_moves .refl).modDoor rfl
  have wz : ∀ z, (w.zone z).level = (s.zone z).level := fun z => wm.sameLevels id id z
  have wt : w.clock = s.clock := wm.clock
  have a1 : w.doorActive d = s.doorActive d := by simp only [State.doorActive, State.isKind, wd, wm.cfg]; rfl
  have a2 : w.closeStands d = s.closeStands d := by simp only [State.closeStands, wd, wz]; rfl
  have a3 : w.doorReported d = none := by rw [← hr]; simp only [State.doorReported, wd, wr]; rfl
  have a4 : w.doorConveyors d = s.doorConveyors d := by simp only [State.doorConveyors, State.isKind, wd, wm.cfg]; rfl
  have a5 : w.clearingCondition d = s.clearingCondition d := by simp only [State.clearingCondition, a4, wr]
  have ht : t = firstReport d w := by rw [← hw]
  unfold firstReport at ht
  rw [a1, a2, a3] at ht
  dsimp only at ht
  by_cases hact : s.doorActive d = true
  · rw [if_pos hact] at ht
    by_cases hcl : s.closeStands d = true
    · rw [if_pos hcl, hcl] at ht
      generalize hv : (w.modDoor d fun r => { r with closeRequest := true }) = v at ht
      have vd : v.door d = { fresh with closeRequest := true } := by subst hv; rw [State.door_modDoor, wd]
      have vo : ∀ e, e ≠ d → v.door e = s.door e := fun e he => by
        subst hv; rw [State.door_modDoor_ne _ _ _ _ he, wo e he]
      have vp : ∀ j, v.point j = w.point j := fun j => by subst hv; rfl
      have vc : v.clock = s.clock := by subst hv; exact wt
      have v4 : v.doorConveyors d = s.doorConveyors d := by
        rw [← a4]; simp only [State.doorConveyors, State.isKind, vd, wd, vp]
      have v5 : v.clearingCondition d = s.clearingCondition d := by
        rw [← a5]; simp only [State.clearingCondition, v4, a4, vp]
      have v3 : v.doorReported d = none := by rw [← a3]; simp only [State.doorReported, vd, wd, vp]
      have ht' : t = closeFromOpen d v := by rw [ht]; unfold closeBegins; rw [vd]
      have hcl' := closeFromOpen_closing d v
      rw [← ht'] at hcl'
      refine ⟨fun e he => by rw [hcl'.others e he, vo e he], fun h => ?_, fun _ _ =>
        ⟨⟨by rw [hcl'.request, vd], by rw [hcl'.cfg, vd], ?_⟩, fun hn => ?_, fun hn j hj => ?_, fun hn => ?_⟩⟩
      · rcases h with h | h <;> simp [hact, hcl] at h
      · rw [ht']; exact closeFromOpen_state d v (by rw [v3]; simp)
      · have : t = enterReleasing d v := by
          rw [ht']; unfold closeFromOpen; rw [if_pos (by rw [vd]; simp [fresh, hn])]
        refine ⟨?_, fun i hi => ?_, fun j => ?_⟩
        · rw [this, enterReleasing_door, if_pos rfl, vd, v3, vc]; simp [fresh, r]
        · rw [this]; exact enterReleasing_commanded d v i (by rw [vd]; exact hi)
        · rw [this, enterReleasing_claims, vp]; exact wc j
      · have : t = enterClearing d v := by
          rw [ht']; unfold closeFromOpen; rw [if_neg (by rw [vd]; simpa [fresh] using hn)]
        rw [this]; exact enterClearing_claims d v j (by rw [v4]; exact hj)
      · have hne : r.cfg.conveyors ≠ [] := by
          intro e
          have : s.clearingCondition d = true := by
            simp only [State.clearingCondition, State.doorConveyors, show (s.door d).cfg.conveyors = [] from e]; rfl
          rw [this] at hn; cases hn
        have : t = enterClearing d v := by
          rw [ht']; unfold closeFromOpen; rw [if_neg (by rw [vd]; simpa [fresh] using hne)]
        rw [this, enterClearing_door d v (by rw [v5]; exact hn), vd, vc]
    · have hcl' : s.closeStands d = false := by simpa using hcl
      rw [if_neg hcl, hcl'] at ht
      rw [ht]
      refine ⟨fun e he => by rw [State.door_modDoor_ne _ _ _ _ he, wo e he], fun _ => ⟨?_, wc⟩, fun _ h => absurd h hcl⟩
      rw [State.door_modDoor, wd]
  · rw [if_neg hact] at ht
    rw [ht]
    exact ⟨wo, fun _ => ⟨wd, wc⟩, fun h => absurd h hact⟩

end Sys2Proof.Machine
end

