-- ==== Sys2Proof/Laws/Members.lean ====
section
/-! SUPPORT. The member lists of a line as the point table gives them (R13): which points stand in them, that the valves and
detectors stand in the order of their positions (equal positions in order of index), which zones the line serves, and what the
check of a line's maximums and positions says (R9). -/

namespace Sys2Proof.Machine

/-! ## Sorting by position -/

theorem insertByPosition_perm (i : PointIx) (pos : PointIx → Nat) (l : List PointIx) :
    (insertByPosition i pos l).Perm (i :: l) := by
  induction l with
  | nil => exact .refl _
  | cons j js ih =>
    unfold insertByPosition
    split
    · exact .refl _
    · exact (ih.cons j).trans (.swap i j js)

theorem sortByPosition_perm (pos : PointIx → Nat) (l : List PointIx) : (sortByPosition pos l).Perm l := by
  have h : ∀ (l acc : List PointIx),
      (l.foldl (fun acc i => insertByPosition i pos acc) acc).Perm (acc ++ l) := by
    intro l
    induction l with
    | nil => intro acc; simp
    | cons i l ih =>
      intro acc
      rw [List.foldl_cons]
      exact (ih _).trans (((insertByPosition_perm i pos acc).append_right l).trans List.perm_middle.symm)
  simpa [sortByPosition] using h l []

theorem insertByPosition_sorted {i : PointIx} {pos : PointIx → Nat} {l : List PointIx}
    (h : l.Pairwise fun a b => pos a ≤ pos b) : (insertByPosition i pos l).Pairwise fun a b => pos a ≤ pos b := by
  induction l with
  | nil => exact List.pairwise_singleton _ _
  | cons j js ih =>
    rw [List.pairwise_cons] at h
    unfold insertByPosition
    split
    · rename_i hlt
      refine List.pairwise_cons.2 ⟨fun b hb => ?_, List.pairwise_cons.2 h⟩
      rcases List.mem_cons.1 hb with rfl | hb
      · omega
      · have := h.1 b hb; omega
    · rename_i hle
      refine List.pairwise_cons.2 ⟨fun b hb => ?_, ih h.2⟩
      rcases List.mem_cons.1 ((insertByPosition_perm i pos js).mem_iff.1 hb) with rfl | hb
      · omega
      · exact h.1 b hb

theorem sortByPosition_sorted (pos : PointIx → Nat) (l : List PointIx) :
    (sortByPosition pos l).Pairwise fun a b => pos a ≤ pos b := by
  have h : ∀ (l acc : List PointIx), acc.Pairwise (fun a b => pos a ≤ pos b) →
      (l.foldl (fun acc i => insertByPosition i pos acc) acc).Pairwise fun a b => pos a ≤ pos b := by
    intro l
    induction l with
    | nil => exact fun _ h => h
    | cons i l ih => exact fun acc ha => ih _ (insertByPosition_sorted ha)
  exact h l [] .nil

theorem insertByPosition_placed {i : PointIx} {pos : PointIx → Nat} {l : List PointIx}
    (h : l.Pairwise fun a b => pos a < pos b ∨ pos a = pos b ∧ a < b) (hi : ∀ j ∈ l, j < i) :
    (insertByPosition i pos l).Pairwise fun a b => pos a < pos b ∨ pos a = pos b ∧ a < b := by
  induction l with
  | nil => exact List.pairwise_singleton _ _
  | cons j js ih =>
    rw [List.pairwise_cons] at h
    unfold insertByPosition
    split
    · rename_i hlt
      refine List.pairwise_cons.2 ⟨fun b hb => .inl ?_, List.pairwise_cons.2 h⟩
      rcases List.mem_cons.1 hb with rfl | hb
      · exact hlt
      · rcases h.1 b hb with hp | hp <;> omega
    · rename_i hle
      refine List.pairwise_cons.2 ⟨fun b hb => ?_, ih h.2 fun k hk => hi k (List.mem_cons_of_mem _ hk)⟩
      rcases List.mem_cons.1 ((insertByPosition_perm i pos js).mem_iff.1 hb) with rfl | hb
      · rcases (not_lt.1 hle).lt_or_eq with hp | hp
        · exact .inl hp
        · exact .inr ⟨hp, hi j List.mem_cons_self⟩
      · exact h.1 b hb

/-- R13: a list in order of index, sorted by position, keeps the order of index among the points at one position. -/
theorem sortByPosition_placed (pos : PointIx → Nat) {l : List PointIx} (hl : l.Pairwise (· < ·)) :
    (sortByPosition pos l).Pairwise fun a b => pos a < pos b ∨ pos a = pos b ∧ a < b := by
  have h : ∀ (l acc : List PointIx), l.Pairwise (· < ·) → (∀ i ∈ l, ∀ j ∈ acc, j < i) →
      acc.Pairwise (fun a b => pos a < pos b ∨ pos a = pos b ∧ a < b) →
      (l.foldl (fun acc i => insertByPosition i pos acc) acc).Pairwise
        fun a b => pos a < pos b ∨ pos a = pos b ∧ a < b := by
    intro l
    induction l with
    | nil => exact fun _ _ _ h => h
    | cons i l ih =>
      intro acc hs hb ha
      rw [List.pairwise_cons] at hs
      refine ih _ hs.2 (fun k hk j hj => ?_) (insertByPosition_placed ha (hb i List.mem_cons_self))
      rcases List.mem_cons.1 ((insertByPosition_perm i pos acc).mem_iff.1 hj) with rfl | hj
      · exact hs.1 k hk
      · exact hb k (List.mem_cons_of_mem _ hk) j hj
  exact h l [] hl (fun _ _ _ hj => nomatch hj) .nil

/-- R9: no two neighbours of a list in order share a position, so no two of its points do. -/
theorem distinctPositions_spec {pos : PointIx → Nat} {l : List PointIx} (hs : l.Pairwise fun a b => pos a ≤ pos b)
    (hd : distinctPositions pos l = true) : l.Pairwise fun a b => pos a < pos b := by
  induction l with
  | nil => exact .nil
  | cons i l ih =>
    rw [List.pairwise_cons] at hs
    cases l with
    | nil => exact List.pairwise_singleton _ _
    | cons j rest =>
      simp only [distinctPositions, Bool.and_eq_true, bne_iff_ne, ne_eq] at hd
      have hr := ih hs.2 hd.2
      refine List.pairwise_cons.2 ⟨fun b hb => ?_, hr⟩
      have hij : pos i < pos j := lt_of_le_of_ne (hs.1 j List.mem_cons_self) hd.1
      rcases List.mem_cons.1 hb with rfl | hb
      · exact hij
      · exact hij.trans ((List.pairwise_cons.1 hr).1 b hb)

/-! ## The lists -/

/-- The points of a line of some kinds. -/
theorem mem_pointsOfLine {cfg : PointIx → PointCfg} {l : LineIx} {i : PointIx} :
    i ∈ pointsOfLine cfg l ↔ (cfg i).used = true ∧ (cfg i).line = some l := by
  simp [pointsOfLine, allPoints]

theorem mem_valves {cfg : PointIx → PointCfg} {l : LineIx} {i : PointIx} :
    i ∈ (membersOf cfg l).valves ↔ ((cfg i).used = true ∧ (cfg i).line = some l) ∧ (cfg i).kind = .valve := by
  simp [membersOf, (sortByPosition_perm _ _).mem_iff, mem_pointsOfLine]

theorem mem_detectors {cfg : PointIx → PointCfg} {l : LineIx} {i : PointIx} :
    i ∈ (membersOf cfg l).detectors ↔
      ((cfg i).used = true ∧ (cfg i).line = some l) ∧ ((cfg i).kind = .spark ∨ (cfg i).kind = .flame) := by
  simp [membersOf, (sortByPosition_perm _ _).mem_iff, mem_pointsOfLine]

/-- The points of a line stand in order of index. -/
theorem pointsOfLine_ascending (cfg : PointIx → PointCfg) (l : LineIx) : (pointsOfLine cfg l).Pairwise (· < ·) :=
  (List.pairwise_lt_finRange 256).filter _

theorem mem_serves {cfg : PointIx → PointCfg} {l : LineIx} {z : ZoneIx} :
    z ∈ (membersOf cfg l).serves ↔ ∃ i ∈ (membersOf cfg l).detectors, (cfg i).zone = some z := by
  simp [membersOf]

/-- R9: what the check of a line's maximums and positions says. -/
theorem Members.Fit.of_membersOk {cfg : PointIx → PointCfg} {l : LineIx} {e : Nat}
    (h : membersOk cfg (membersOf cfg l) e = true) : (membersOf cfg l).Fit cfg e := by
  simp only [membersOk, Bool.and_eq_true, decide_eq_true_eq, List.all_eq_true, List.mem_append] at h
  obtain ⟨⟨⟨⟨⟨⟨⟨h1, h2⟩, h3⟩, h4⟩, h5⟩, h6⟩, h7⟩, h8⟩ := h
  refine ⟨h1, h2, h3, h4, h5, h6, fun v hv w hw hne => ?_, h8⟩
  have hp := distinctPositions_spec (sortByPosition_sorted _ _) h7
  have _ : Std.Symm fun a b => (cfg a).pos ≠ (cfg b).pos := ⟨fun _ _ h => Ne.symm h⟩
  exact (hp.imp (S := fun a b => (cfg a).pos ≠ (cfg b).pos) fun h => ne_of_lt h).forall hv hw hne

/-- A line none of whose points is new keeps fitting: a point of it has gone, or nothing of it has changed. -/
theorem Members.Fit.mono {cfg cfg' : PointIx → PointCfg} {l : LineIx} {e : Nat} (h : (membersOf cfg l).Fit cfg e)
    (hc : ∀ i, (cfg' i).used = true → (cfg' i).line = some l → cfg' i = cfg i) : (membersOf cfg' l).Fit cfg' e := by
  have mine : ∀ i, i ∈ pointsOfLine cfg' l → i ∈ pointsOfLine cfg l ∧ cfg' i = cfg i := fun i hi => by
    obtain ⟨hu, hl⟩ := mem_pointsOfLine.1 hi
    have := hc i hu hl
    exact ⟨mem_pointsOfLine.2 (by rw [← this]; exact ⟨hu, hl⟩), this⟩
  have len : ∀ p : PointCfg → Bool,
      ((pointsOfLine cfg' l).filter fun i => p (cfg' i)).length ≤ ((pointsOfLine cfg l).filter fun i => p (cfg i)).length := by
    intro p
    unfold pointsOfLine
    rw [List.filter_filter, List.filter_filter]
    rw [← List.countP_eq_length_filter, ← List.countP_eq_length_filter]
    refine List.countP_mono_left fun i _ hi => ?_
    simp only [Bool.and_eq_true, beq_iff_eq] at hi
    have := hc i hi.2.1 hi.2.2
    rw [← this]
    simpa using hi
  obtain ⟨h1, h2, h3, h4, h5, h6, h7, h8⟩ := h
  have vals : ∀ i, i ∈ (membersOf cfg' l).valves → i ∈ (membersOf cfg l).valves ∧ cfg' i = cfg i := fun i hi => by
    obtain ⟨⟨hu, hl⟩, hk⟩ := mem_valves.1 hi
    have := hc i hu hl
    exact ⟨mem_valves.2 (by rw [← this]; exact ⟨⟨hu, hl⟩, hk⟩), this⟩
  have dets : ∀ i, i ∈ (membersOf cfg' l).detectors → i ∈ (membersOf cfg l).detectors ∧ cfg' i = cfg i := fun i hi => by
    obtain ⟨⟨hu, hl⟩, hk⟩ := mem_detectors.1 hi
    have := hc i hu hl
    exact ⟨mem_detectors.2 (by rw [← this]; exact ⟨⟨hu, hl⟩, hk⟩), this⟩
  refine ⟨?_, ?_, (len fun c => c.kind == .airflow).trans h3, (len fun c => c.kind == .fan).trans h4,
    (len fun c => c.kind == .conveyor).trans h5, (len fun c => c.kind == .gate).trans h6, fun v hv w hw hne => ?_,
    fun i hi => ?_⟩
  · rw [show (membersOf cfg' l).detectors.length = _ from (sortByPosition_perm _ _).length_eq]
    rw [show (membersOf cfg l).detectors.length = _ from (sortByPosition_perm _ _).length_eq] at h1
    exact (len fun c => c.kind == .spark || c.kind == .flame).trans h1
  · rw [show (membersOf cfg' l).valves.length = _ from (sortByPosition_perm _ _).length_eq]
    rw [show (membersOf cfg l).valves.length = _ from (sortByPosition_perm _ _).length_eq] at h2
    exact (len fun c => c.kind == .valve).trans h2
  · obtain ⟨hv1, hv2⟩ := vals v hv
    obtain ⟨hw1, hw2⟩ := vals w hw
    rw [hv2, hw2]
    exact h7 v hv1 w hw1 hne
  · rcases hi with hi | hi
    · rw [(dets i hi).2]; exact h8 i (.inl (dets i hi).1)
    · rw [(vals i hi).2]; exact h8 i (.inr (vals i hi).1)

end Sys2Proof.Machine
end

