-- ==== Sys2Proof/Laws/PerInstr.lean ====
section
/-! SUPPORT. The check of a Request's source and length, said for every command. -/

namespace Sys2Proof.Laws.SourceCheck

/-- A command is well formed exactly when the Request it carries, if it carries one, comes from a station a good frame can name
(R153) and has at most 20 data bytes (R184). -/
def Statement (i : Instr) : Prop :=
  i.wellFormed = true ↔ ∀ rq, i.request? = some rq → rq.source ≠ 0 ∧ rq.source ≠ 127 ∧ rq.data.length ≤ 20

/-- A command that carries a Request. -/
theorem of_request {i : Instr} {rq : Request} (h : i.request? = some rq) : Statement i := by
  unfold Statement Instr.wellFormed Request.sourceOk Request.lengthOk
  rw [h]
  simp [and_assoc]

/-- A command that carries none. -/
theorem of_event {i : Instr} (h : i.request? = none) : Statement i := by
  unfold Statement Instr.wellFormed
  rw [h]
  simp

theorem powerOn : Statement .powerOn := of_event rfl
theorem resetPin : Statement .resetPin := of_event rfl
theorem imageReadComplete (answer : MemoryAnswer) : Statement (.imageReadComplete answer) := of_event rfl
theorem loadingTimeout : Statement .loadingTimeout := of_event rfl
theorem frameArrival (bytes : List Byte) : Statement (.frameArrival bytes) := of_event rfl
theorem sampleExpiry (sensor : PointIx) : Statement (.sampleExpiry sensor) := of_event rfl
theorem retireDeadline (line : LineIx) : Statement (.retireDeadline line) := of_event rfl
theorem recordEndTime (line : LineIx) (track : Cyc) : Statement (.recordEndTime line track) := of_event rfl
theorem strikeEntryFireTime : Statement .strikeEntryFireTime := of_event rfl
theorem holdDeadline (valve : PointIx) : Statement (.holdDeadline valve) := of_event rfl
theorem recoveryDeadline (valve : PointIx) : Statement (.recoveryDeadline valve) := of_event rfl
theorem feedbackDeadline (valve : PointIx) : Statement (.feedbackDeadline valve) := of_event rfl
theorem slotEnd (zone : ZoneIx) : Statement (.slotEnd zone) := of_event rfl
theorem tick : Statement .tick := of_event rfl
theorem gateTravelDeadline (line : LineIx) : Statement (.gateTravelDeadline line) := of_event rfl
theorem runDownDeadline (line : LineIx) : Statement (.runDownDeadline line) := of_event rfl
theorem runOutDeadline (door : DoorIx) : Statement (.runOutDeadline door) := of_event rfl
theorem clearingDeadline (door : DoorIx) : Statement (.clearingDeadline door) := of_event rfl
theorem closingDeadline (door : DoorIx) : Statement (.closingDeadline door) := of_event rfl
theorem cadenceEndDeadline (group : GroupIx) : Statement (.cadenceEndDeadline group) := of_event rfl
theorem phaseDeadline (group : GroupIx) : Statement (.phaseDeadline group) := of_event rfl
theorem repeatDeadline (point : PointIx) : Statement (.repeatDeadline point) := of_event rfl
theorem disagreementDeadline (point : PointIx) : Statement (.disagreementDeadline point) := of_event rfl
theorem supervisionPoll (point : PointIx) : Statement (.supervisionPoll point) := of_event rfl
theorem supervisionLimit (point : PointIx) : Statement (.supervisionLimit point) := of_event rfl
theorem rawLevelChange (input : InputIx) (on : Bool) : Statement (.rawLevelChange input on) := of_event rfl
theorem debounceDeadline (input : InputIx) : Statement (.debounceDeadline input) := of_event rfl
theorem transmissionCompletion : Statement .transmissionCompletion := of_event rfl
theorem returnDeadline : Statement .returnDeadline := of_event rfl
theorem silenceDeadline : Statement .silenceDeadline := of_event rfl
theorem previousStationDeadline : Statement .previousStationDeadline := of_event rfl
theorem stagingDeadline : Statement .stagingDeadline := of_event rfl
theorem read (rq : Request) : Statement (.read rq) := of_request rfl
theorem readGroup (rq : Request) : Statement (.readGroup rq) := of_request rfl
theorem write (rq : Request) : Statement (.write rq) := of_request rfl
theorem writeFirst (rq : Request) : Statement (.writeFirst rq) := of_request rfl
theorem writeSecond (rq : Request) : Statement (.writeSecond rq) := of_request rfl
theorem resetZone (rq : Request) : Statement (.resetZone rq) := of_request rfl
theorem releaseLine (rq : Request) : Statement (.releaseLine rq) := of_request rfl
theorem restoreDoor (rq : Request) : Statement (.restoreDoor rq) := of_request rfl
theorem silenceGroup (rq : Request) : Statement (.silenceGroup rq) := of_request rfl
theorem sirenTest (rq : Request) : Statement (.sirenTest rq) := of_request rfl
theorem clearCounters (rq : Request) : Statement (.clearCounters rq) := of_request rfl
theorem setMode (rq : Request) : Statement (.setMode rq) := of_request rfl
theorem restart (rq : Request) : Statement (.restart rq) := of_request rfl
theorem commit (rq : Request) : Statement (.commit rq) := of_request rfl
theorem commitCompletion (result : ReadBack) : Statement (.commitCompletion result) := of_event rfl
theorem commitTimeout : Statement .commitTimeout := of_event rfl

end Sys2Proof.Laws.SourceCheck
end

