-- ==== Sys2Proof/Laws/Port.lean ====
section
/-! SUPPORT. What the Loop Port's operations do, case by case: the arbiter (R157), the insert queues (R156), the through-buffer
(R154, R158) and the return list (R160). -/

namespace Sys2Proof.Machine

/-! ## The arbiter -/

theorem Port.arbitrate_urgent {p : Port} {u : Queued} {us : List Queued} (now : Time) (limit : Nat) (h : p.urgent = u :: us) :
    p.arbitrate now limit = p.startUrgent now limit u us := by
  unfold Port.arbitrate; rw [h]

theorem Port.arbitrate_routine {p : Port} {r : Queued} {rs : List Queued} {now : Time} {limit : Nat} (hu : p.urgent = [])
    (hr : p.routine = r :: rs) (h : Config.routinePatience < elapsed now r.joined ∨ p.through = []) :
    p.arbitrate now limit = p.startRoutine now limit r rs := by
  unfold Port.arbitrate
  rw [hu, hr]
  split
  · contradiction
  · rename_i r' rs' t ts _ hr' ht
    cases hr'
    rcases h with h | h
    · rw [if_pos h]
    · rw [h] at ht; cases ht
  · rename_i hr' _; cases hr'; rfl
  · rename_i hr' _; cases hr'
  · rename_i hr' _; cases hr'

theorem Port.arbitrate_through {p : Port} {f : Frame} {fs : List Frame} {now : Time} {limit : Nat} (hu : p.urgent = [])
    (hf : p.through = f :: fs) (h : ∀ r rs, p.routine = r :: rs → elapsed now r.joined ≤ Config.routinePatience) :
    p.arbitrate now limit = p.startThrough f fs := by
  unfold Port.arbitrate
  rw [hu, hf]
  split
  · contradiction
  · rename_i hr ht
    cases ht
    rw [if_neg (by have := h _ _ hr; omega)]
  · rename_i ht; cases ht
  · rename_i ht; cases ht; rfl
  · rename_i ht; cases ht

theorem Port.arbitrate_idle {p : Port} {now : Time} {limit : Nat} (hu : p.urgent = []) (hr : p.routine = [])
    (hf : p.through = []) : p.arbitrate now limit = { p with sending := none } := by
  unfold Port.arbitrate; rw [hu, hr, hf]

theorem Port.chooseIfIdle_busy {p : Port} {now : Time} {limit : Nat} (h : p.sending.isNone = false) :
    p.chooseIfIdle now limit = p := by
  unfold Port.chooseIfIdle; rw [if_neg (by rw [h]; simp)]

/-! ## The insert queues -/

/-- R156: while the port is busy, a frame joins the urgent queue, or is lost where it is full. -/
theorem Port.joinUrgent_busy {p : Port} {now : Time} {limit : Nat} {f : Frame} (h : p.sending.isNone = false) :
    p.joinUrgent now limit f =
      if p.urgent.length < Config.urgentCapacity then { p with urgent := p.urgent ++ [{ frame := f, joined := now }] }
      else { p with counters := { p.counters with urgentLost := bump p.counters.urgentLost } } := by
  unfold Port.joinUrgent
  split
  · exact Port.chooseIfIdle_busy h
  · rfl

/-- R156: while the port is busy, a frame joins the routine queue, or is lost where it is full. -/
theorem Port.joinRoutine_busy {p : Port} {now : Time} {limit : Nat} {f : Frame} (h : p.sending.isNone = false) :
    p.joinRoutine now limit f =
      if p.routine.length < Config.routineCapacity then { p with routine := p.routine ++ [{ frame := f, joined := now }] }
      else { p with counters := { p.counters with routineLost := bump p.counters.routineLost } } := by
  unfold Port.joinRoutine
  split
  · exact Port.chooseIfIdle_busy h
  · rfl

/-- R157, R158: an urgent frame starts at once on an idle port. -/
theorem Port.joinUrgent_idle {p : Port} {now : Time} {limit : Nat} {f : Frame} (h : p.sending = none) (hu : p.urgent = []) :
    p.joinUrgent now limit f = p.startUrgent now limit { frame := f, joined := now } [] := by
  obtain ⟨th, u, r, se, re, a, b, c, d, e⟩ := p
  cases h; cases hu; rfl

/-- R157, R158: a routine frame starts at once on an idle port where nothing else waits. -/
theorem Port.joinRoutine_idle {p : Port} {now : Time} {limit : Nat} {f : Frame} (h : p.sending = none) (hu : p.urgent = [])
    (hr : p.routine = []) (ht : p.through = []) :
    p.joinRoutine now limit f = p.startRoutine now limit { frame := f, joined := now } [] := by
  obtain ⟨th, u, r, se, re, a, b, c, d, e⟩ := p
  cases h; cases hu; cases hr; cases ht; rfl

end Sys2Proof.Machine
end

