-- ==== Sys2Proof/Laws/Ranges.lean ====
section
/-! SUPPORT. What every write is checked for stays so: the tables keep their ranges (R8, R14, R66, R82, R113, R130, R169), doors
and groups stay distinct (R113, R131), every line fits its points (R9, R14), and a commanded state keeps the time of its
command (R144). -/

namespace Sys2Proof.Machine

variable {q : Allow}

/-! ## The tables -/

/-- The tables are what the fact reads. -/
theorem State.tablesInRange.congr {s t : State} (hs : s.tablesInRange) (hd : t.device = s.device)
    (hl : ∀ l, (t.line l).cfg = (s.line l).cfg) (hz : ∀ z, (t.zone z).cfg = (s.zone z).cfg)
    (hk : ∀ k, (t.trip k).cfg = (s.trip k).cfg) (ho : ∀ d, (t.door d).cfg = (s.door d).cfg)
    (hc : t.cadences = s.cadences) (hp : ∀ i, (t.point i).cfg = (s.point i).cfg) : t.tablesInRange := by
  have hc' : ∀ c, t.cadence c = s.cadence c := fun c => by simp only [State.cadence, hc]
  simpa only [State.tablesInRange, hd, hl, hz, hk, ho, hc', hp] using hs

theorem Move.tablesInRange {s t : State} (m : Move q s t) (hs : s.tablesInRange) : t.tablesInRange := by
  have hpt := m.cfg
  obtain ⟨h1, h2, h3, h4, h5, h6, h7⟩ := hs
  cases m with
  | line l f _ hc =>
    refine ⟨h1, fun k => ?_, h3, h4, h5, h6, h7⟩
    rw [State.line_modLine_if]
    split
    · rename_i e; subst e
      rcases hc with hc | hc
      · have := hc.2
        simp only [lineOk, Bool.and_eq_true] at this
        exact this.1
      · rw [hc]; exact h2 k
    · exact h2 k
  | zone z f _ _ hc =>
    refine ⟨h1, h2, fun k => ?_, h4, h5, h6, h7⟩
    rw [State.zone_modZone_if]
    split
    · rename_i e; subst e
      rcases hc with hc | hc
      · exact hc.2
      · rw [hc]; exact h3 k
    · exact h3 k
  | trip j f hc =>
    refine ⟨h1, h2, h3, fun k => ?_, h5, h6, h7⟩
    rw [State.trip_modTrip_if]
    split
    · rename_i e; subst e
      rcases hc with hc | hc
      · exact hc.2
      · rw [hc]; exact h4 k
    · exact h4 k
  | door d f hc =>
    refine ⟨h1, h2, h3, h4, fun k => ?_, h6, h7⟩
    rw [State.door_modDoor_if]
    split
    · rename_i e; subst e
      rcases hc with hc | hc
      · have := hc.2
        simp only [doorOk, Bool.and_eq_true] at this
        exact this.1.1
      · rw [hc]; exact h5 k
    · exact h5 k
  | cadence c k hk _ =>
    refine ⟨h1, h2, h3, h4, h5, fun j => ?_, h7⟩
    show (s.cadences.set c.val k)[j.val].rangesOk = true
    rw [Vector.getElem_set]
    split
    · exact hk
    · exact h6 j
  | point i f hc hm ht => exact ⟨h1, h2, h3, h4, h5, h6, fun i => by simp only [hpt]; exact h7 i⟩
  | command i f hc ht => exact ⟨h1, h2, h3, h4, h5, h6, fun i => by simp only [hpt]; exact h7 i⟩
  | _ => exact ⟨h1, h2, h3, h4, h5, h6, h7⟩

theorem Moves.tablesInRange {s t : State} (h : Moves q s t) (hs : s.tablesInRange) : t.tablesInRange :=
  h.keeps (P := State.tablesInRange) (fun m => m.tablesInRange) hs

theorem startIfActive_tablesInRange {s : State} (hs : s.tablesInRange) : (startIfActive s).tablesInRange := by
  unfold startIfActive
  split
  · refine hs.congr rfl (fun _ => rfl) (fun z => ?_) (fun _ => rfl) (fun _ => rfl) rfl fun i => ?_
    · simp [startProcessing, State.zone]
    · simp only [startProcessing, State.point, Vector.getElem_map]
      split <;> rfl
  · exact hs

theorem clearDynamic_tablesInRange {s : State} (hs : s.tablesInRange) : (clearDynamic s).tablesInRange := by
  refine hs.congr rfl (fun l => ?_) (fun z => ?_) (fun k => ?_) (fun d => ?_) rfl fun i => ?_
  · simp [clearDynamic, startSampling, syncPins, State.line, Line.cleared]
  · simp [clearDynamic, startSampling, syncPins, State.zone, Zone.cleared]
  · simp [clearDynamic, startSampling, syncPins, State.trip, Trip.cleared]
  · simp [clearDynamic, startSampling, syncPins, State.door, Door.cleared]
  · simp [clearDynamic, startSampling, syncPins, State.point, Point.cleared]

/-- A key that is free is no other used entry's. -/
theorem keyFree_iff {cfg : PointIx → PointCfg} {i : PointIx} {c : PointCfg} :
    keyFree cfg i c = true ↔
      ∀ j, j ≠ i → (cfg j).used = true → (cfg j).station ≠ c.station ∨ (cfg j).channel ≠ c.channel := by
  simp only [keyFree, allPoints, List.all_eq_true, List.mem_finRange, forall_const, Bool.or_eq_true, beq_iff_eq,
    Bool.not_eq_true', bne_iff_ne, ne_eq]
  refine forall_congr' fun j => ?_
  by_cases h : j = i
  · simp [h]
  · cases (cfg j).used <;> simp [h]

/-- A valid image's tables are in range (R177). -/
theorem loadImage_tablesInRange {m : Image} (s : State) (n : Mode) (h : m.valid = true) :
    ({ loadImage m s with mode := n } : State).tablesInRange := by
  simp only [Image.valid, Bool.and_eq_true, List.all_eq_true, List.mem_finRange, forall_const, Bool.or_eq_true,
    Bool.not_eq_true', allPoints, lineOk, doorOk] at h
  obtain ⟨⟨⟨⟨⟨⟨⟨⟨-, h1⟩, h2⟩, h3⟩, h4⟩, h5⟩, h6⟩, -⟩, h8⟩ := h
  have hp : ∀ i, (({ loadImage m s with mode := n } : State).point i).cfg = m.points[i.val] := fun i => by
    simp [loadImage, rebuildMaps, State.point]
  refine ⟨h1, fun l => ?_, fun z => ?_, fun k => ?_, fun d => ?_, fun c => h8 c, fun i hi => ?_⟩
  · have := (h3 l).2.1
    simpa [loadImage, rebuildMaps, State.line, Line.cleared] using this
  · simpa [loadImage, rebuildMaps, State.zone] using h4 z
  · simpa [loadImage, rebuildMaps, State.trip] using h5 k
  · simpa [loadImage, rebuildMaps, State.door] using (h6 d).1.1
  · rw [hp] at hi
    have := h2 i
    rw [hi] at this
    simp only [Bool.true_eq_false, false_or] at this
    refine ⟨by rw [hp]; exact this.1, fun j hj hu => ?_⟩
    rw [hp] at hu
    have h' := keyFree_iff.mp this.2 j hj hu
    simpa only [hp] using h'

theorem leaveLoading_tablesInRange {s : State} (hs : s.tablesInRange) : (leaveLoading s).tablesInRange :=
  startIfActive_tablesInRange (hs.congr rfl (fun _ => rfl) (fun _ => rfl) (fun _ => rfl) (fun _ => rfl) rfl fun _ => rfl)

/-- R8, R11: a used entry that names neither the old nor the new own station fits under both. -/
theorem PointCfg.fits_own {c : PointCfg} {a b : Byte} (ha : c.station ≠ a) (hb : c.station ≠ b) : c.fits a = c.fits b := by
  have h1 : (c.station == a) = false := by simpa using ha
  have h2 : (c.station == b) = false := by simpa using hb
  simp only [PointCfg.fits, h1, h2]

theorem replacePoint_cfg (i : PointIx) (c : PointCfg) (s : State) (j : PointIx) :
    ((replacePoint i c s).point j).cfg = if j = i then c else (s.point j).cfg := by
  have hb : ((s.modPoint i (Point.written s.clock c)).point j).cfg = if j = i then c else (s.point j).cfg := by
    rw [State.point_modPoint_if]
    by_cases h : j = i
    · subst h; rw [if_pos rfl, if_pos rfl]; rfl
    · rw [if_neg h, if_neg h]
  unfold replacePoint
  dsimp only
  split <;> exact hb

theorem replacePoint_tablesInRange {i : PointIx} {c : PointCfg} {s : State} (hok : s.pointOk i c = true)
    (hs : s.tablesInRange) : (replacePoint i c s).tablesInRange := by
  obtain ⟨h1, h2, h3, h4, h5, h6, h7⟩ := hs
  have hp := replacePoint_cfg i c s
  have hd : (replacePoint i c s).device = s.device := by unfold replacePoint; dsimp only; split <;> rfl
  have ht : (replacePoint i c s).lines = s.lines ∧ (replacePoint i c s).zones = s.zones ∧
      (replacePoint i c s).trips = s.trips ∧ (replacePoint i c s).doors = s.doors ∧
      (replacePoint i c s).cadences = s.cadences := by
    unfold replacePoint; dsimp only; split <;> exact ⟨rfl, rfl, rfl, rfl, rfl⟩
  obtain ⟨hl, hz, hk, ho, hc⟩ := ht
  refine ⟨by rw [hd]; exact h1, fun l => ?_, fun z => ?_, fun k => ?_, fun d => ?_, fun k => ?_, fun j hj => ?_⟩
  · simp only [State.line, hl]; exact h2 l
  · simp only [State.zone, hz]; exact h3 z
  · simp only [State.trip, hk]; exact h4 k
  · simp only [State.door, ho]; exact h5 d
  · simp only [State.cadence, hc]; exact h6 k
  · have hfree : c.used = true → c.fits s.device.own = true ∧ keyFree s.pointCfg i c = true := fun hu => by
      simp only [State.pointOk, hu, Bool.not_true, Bool.false_or, Bool.and_eq_true] at hok
      exact hok.1
    simp only [hp, hd] at hj ⊢
    by_cases e : j = i
    · subst e
      simp only [if_true] at hj ⊢
      obtain ⟨hf, hx⟩ := hfree hj
      refine ⟨hf, fun k hk hu => ?_⟩
      simp only [hk, if_false] at hu ⊢
      exact keyFree_iff.mp hx k hk hu
    · simp only [e, if_false] at hj ⊢
      obtain ⟨hf, hx⟩ := h7 j hj
      refine ⟨hf, fun k hk hu => ?_⟩
      by_cases e' : k = i
      · subst e'
        simp only [if_true] at hu ⊢
        have := keyFree_iff.mp (hfree hu).2 j e hj
        exact this.imp Ne.symm Ne.symm
      · simp only [e', if_false] at hu ⊢
        exact hx k hk hu

theorem writeDevice_tablesInRange {c : DeviceCfg} {s : State} (hd : s.deviceOk c = true) (hs : s.tablesInRange) :
    (writeDevice c s).tablesInRange := by
  obtain ⟨h1, h2, h3, h4, h5, h6, h7⟩ := hs
  simp only [State.deviceOk, Bool.and_eq_true] at hd
  refine ⟨hd.1, h2, h3, h4, h5, h6, fun i hi => ⟨?_, (h7 i hi).2⟩⟩
  have hf := (h7 i hi).1
  show (s.point i).cfg.fits c.own = true
  by_cases e : c.own = s.device.own
  · rw [e]; exact hf
  · have hi' : (s.point i).cfg.used = true := hi
    have := hd.2
    simp only [State.ownChangeOk, Bool.or_eq_true, beq_iff_eq, e, false_or, List.all_eq_true, Bool.not_eq_true',
      Bool.and_eq_true, bne_iff_ne, ne_eq, State.pointCfg] at this
    have hn := this i (List.mem_finRange i)
    rw [hi'] at hn
    simp only [Bool.true_eq_false, false_or] at hn
    rw [PointCfg.fits_own hn.2 hn.1]; exact hf

theorem powerUp_tablesInRange (s : State) : (powerUp s).tablesInRange := by
  refine ⟨rfl, fun l => ?_, fun z => ?_, fun k => ?_, fun d => ?_, fun c => ?_, fun i hi => ?_⟩
  · simp only [powerUp, State.reset, State.line, Vector.getElem_replicate]; rfl
  · simp only [powerUp, State.reset, State.zone, Vector.getElem_replicate]; rfl
  · simp only [powerUp, State.reset, State.trip, Vector.getElem_replicate]; rfl
  · simp only [powerUp, State.reset, State.door, Vector.getElem_replicate]; rfl
  · simp only [powerUp, State.reset, State.cadence, Vector.getElem_replicate]; rfl
  · simp only [powerUp, State.reset, State.point, Vector.getElem_replicate] at hi; cases hi

/-- Leaving Protect and the freezing of the records change no configuration part. -/
theorem frozen_cfg (m : Mode) (s : State) :
    (∀ i, ((syncPins { freezeRecords m (leaveProtect s) with mode := m }).point i).cfg = (s.point i).cfg) ∧
      ∀ i, ((syncPins { freezeRecords m s with mode := m }).point i).cfg = (s.point i).cfg := by
  refine ⟨fun i => ?_, fun i => ?_⟩
  · show ((freezeRecords m (leaveProtect s)).point i).cfg = _
    rw [freezeRecords_keeps]
    simp [leaveProtect, State.point]
  · show ((freezeRecords m s).point i).cfg = _
    rw [freezeRecords_keeps]

/-- R8, R14, R66, R82, R113, R130, R169: the tables stay in range. -/
theorem tablesInRange_stable : Stable State.tablesInRange where
  moves _ _ h hs := h.tablesInRange hs
  commands {c s t} hc he hs := by
    obtain ⟨u, hu, hm⟩ := exec_moves c s hc
    rw [hu] at he; cases he
    exact hm.tablesInRange hs
  classify f _ hs := (classifyFrame_moves (f := f) (q := arrival) trivial trivial trivial .refl).tablesInRange hs
  resetZone rq _ hs := (takeResetZone_moves (rq := rq) (q := { plain with raise := True, quiet := True, window := True })
    trivial trivial trivial .refl).tablesInRange hs
  clock _ hs := hs
  queue _ _ hs := hs
  port _ _ hs := hs
  clearDevice _ hs := hs
  powerUp s _ := powerUp_tablesInRange s
  startGood m s hv _ _ := (notify_moves (q := plain) .refl).tablesInRange
    (leaveLoading_tablesInRange (loadImage_tablesInRange s m.mode hv))
  startBad s _ _ := (notify_moves (q := plain) .refl).tablesInRange
    (leaveLoading_tablesInRange (loadImage_tablesInRange s .bypass (by decide +kernel)))
  writePoint i c s hok hs := (writePoint_moves (q := plain) .refl).tablesInRange (replacePoint_tablesInRange hok hs)
  writeDevice c s hd hs := writeDevice_tablesInRange hd hs
  changeMode m s hs := by
    unfold changeMode
    split
    · exact startIfActive_tablesInRange ((clearDynamic_tablesInRange hs).congr rfl (fun _ => rfl) (fun _ => rfl)
        (fun _ => rfl) (fun _ => rfl) rfl fun _ => rfl)
    · exact hs.congr rfl (fun _ => rfl) (fun _ => rfl) (fun _ => rfl) (fun _ => rfl) rfl (frozen_cfg m s).1
    · split
      · exact (enterProtect_moves (q := plain) s).tablesInRange (hs.congr rfl (fun _ => rfl) (fun _ => rfl)
          (fun _ => rfl) (fun _ => rfl) rfl fun _ => rfl)
      · exact hs.congr rfl (fun _ => rfl) (fun _ => rfl) (fun _ => rfl) (fun _ => rfl) rfl (frozen_cfg m s).2
    · exact hs
  restart s hs := startIfActive_tablesInRange (clearDynamic_tablesInRange hs)

/-! ## The times of commands -/

theorem State.commandsTimed.congr {s t : State} (hs : s.commandsTimed)
    (hp : ∀ i, (t.point i).drive.commanded = (s.point i).drive.commanded ∧
      (t.point i).drive.lastCommand = (s.point i).drive.lastCommand) : t.commandsTimed := fun i => by
  rw [(hp i).1, (hp i).2]; exact hs i

theorem State.commandsTimed_of_none {s : State} (h : ∀ i, (s.point i).drive.commanded = none) : s.commandsTimed :=
  fun i hi => absurd (h i) hi

theorem Move.commandsTimed {s t : State} (m : Move q s t) (hs : s.commandsTimed) : t.commandsTimed := by
  cases m with
  | point i f _ _ ht =>
    intro j
    rw [State.point_modPoint_if]
    split
    · rename_i e; subst e; exact ht (hs j)
    · exact hs j
  | command i f _ ht =>
    intro j
    rw [syncPins_point, State.point_modPoint_if]
    split
    · rename_i e; subst e; exact ht (hs j)
    · exact hs j
  | _ => exact hs

theorem Moves.commandsTimed {s t : State} (h : Moves q s t) (hs : s.commandsTimed) : t.commandsTimed :=
  h.keeps (P := State.commandsTimed) (fun m => m.commandsTimed) hs

theorem startIfActive_commandsTimed {s : State} (hs : s.commandsTimed) : (startIfActive s).commandsTimed := by
  unfold startIfActive
  split
  · refine hs.congr fun i => ?_
    simp only [startProcessing, State.point, Vector.getElem_map]
    split <;> exact ⟨rfl, rfl⟩
  · exact hs

theorem loadImage_commandsTimed (m : Image) (s : State) (n : Mode) : ({ loadImage m s with mode := n } : State).commandsTimed :=
  State.commandsTimed_of_none fun i => by simp [loadImage, rebuildMaps, State.point]

theorem powerUp_commandsTimed (s : State) : (powerUp s).commandsTimed :=
  State.commandsTimed_of_none fun i => by simp [powerUp, State.reset, State.point]

/-- R144: a commanded state keeps the time of its command. -/
theorem commandsTimed_stable : Stable State.commandsTimed where
  moves _ _ h hs := h.commandsTimed hs
  commands {c s t} hc he hs := by
    obtain ⟨u, hu, hm⟩ := exec_moves c s hc
    rw [hu] at he; cases he
    exact hm.commandsTimed hs
  classify f _ hs := (classifyFrame_moves (f := f) (q := arrival) trivial trivial trivial .refl).commandsTimed hs
  resetZone rq _ hs := (takeResetZone_moves (rq := rq) (q := { plain with raise := True, quiet := True, window := True })
    trivial trivial trivial .refl).commandsTimed hs
  clock _ hs := hs
  queue _ _ hs := hs
  port _ _ hs := hs
  clearDevice _ hs := hs
  powerUp s _ := powerUp_commandsTimed s
  startGood m s _ _ _ := (notify_moves (q := plain) .refl).commandsTimed
    (startIfActive_commandsTimed (s := startSampling _) (loadImage_commandsTimed m s m.mode))
  startBad s _ _ := (notify_moves (q := plain) .refl).commandsTimed
    (startIfActive_commandsTimed (s := startSampling _) (loadImage_commandsTimed {} s .bypass))
  writePoint i c s _ hs := (writePoint_moves (q := plain) .refl).commandsTimed (by
    have h : ∀ j, (s.point j).drive.commanded ≠ none → (s.point j).drive.lastCommand ≠ none := hs
    have hw : (s.modPoint i (Point.written s.clock c)).commandsTimed := fun j => by
      rw [State.point_modPoint_if]
      split
      · exact fun hn => absurd rfl hn
      · exact h j
    unfold replacePoint
    dsimp only
    split <;> exact hw)
  writeDevice c s _ hs := hs
  changeMode m s hs := by
    unfold changeMode
    split
    · exact startIfActive_commandsTimed (State.commandsTimed_of_none (clearDynamic_quiescent s))
    · refine hs.congr fun i => ?_
      show ((freezeRecords m (leaveProtect s)).point i).drive.commanded = _ ∧
        ((freezeRecords m (leaveProtect s)).point i).drive.lastCommand = _
      rw [freezeRecords_keeps]
      simp [leaveProtect, State.point]
    · split
      · exact (enterProtect_moves (q := plain) s).commandsTimed hs
      · refine hs.congr fun i => ?_
        show ((freezeRecords m s).point i).drive.commanded = _ ∧ ((freezeRecords m s).point i).drive.lastCommand = _
        rw [freezeRecords_keeps]
        exact ⟨rfl, rfl⟩
    · exact hs
  restart s _ := startIfActive_commandsTimed (State.commandsTimed_of_none (clearDynamic_quiescent s))

/-! ## Doors and groups (R113, R131) -/

theorem State.tablesDistinct.congr {s t : State} (hs : s.tablesDistinct) (hd : ∀ d, (t.door d).cfg = (s.door d).cfg)
    (hg : ∀ g, (t.group g).cfg = (s.group g).cfg) : t.tablesDistinct := by
  simpa only [State.tablesDistinct, hd, hg] using hs

/-- R131: what the check of a group says of its sirens and outputs. -/
theorem groupOk_spec {own : Byte} {cfg : PointIx → PointCfg} {groups : GroupIx → GroupCfg} {g : GroupIx} {c : GroupCfg}
    (h : groupOk own cfg groups g c = true) :
    (c.sirens.length ≤ 4 ∧ c.sirens.Nodup) ∧
      ∀ k, k ≠ g → (groups k).outputs &&& c.outputs = 0 ∧ ∀ i ∈ c.sirens, i ∉ (groups k).sirens := by
  simp only [groupOk, Bool.and_eq_true, decide_eq_true_eq, List.all_eq_true, List.mem_finRange, forall_const,
    Bool.or_eq_true, beq_iff_eq, Bool.not_eq_true', List.contains_eq_mem, decide_eq_false_iff_not] at h
  exact ⟨h.1.1, fun k hk => (h.2 k).resolve_left hk⟩

/-- R113: what the check of a door says of the other doors. -/
theorem doorOk_spec {cfg : PointIx → PointCfg} {doors : DoorIx → DoorCfg} {d : DoorIx} {c : DoorCfg}
    (h : doorOk cfg doors d c = true) : ∀ i, c.point = some i → ∀ e, e ≠ d → (doors e).point ≠ some i := by
  intro i hi e he
  simp only [doorOk, hi, Bool.and_eq_true, List.all_eq_true, List.mem_finRange, forall_const, Bool.or_eq_true, beq_iff_eq,
    bne_iff_ne, ne_eq] at h
  exact (h.2.2 e).resolve_left he

theorem Move.tablesDistinct {s t : State} (m : Move q s t) (hs : s.tablesDistinct) : t.tablesDistinct := by
  obtain ⟨h1, h2, h3⟩ := hs
  cases m with
  | door d f hc =>
    rcases hc with hc | hc
    · refine ⟨fun a b hab i ha => ?_, h2, h3⟩
      have hn := doorOk_spec hc.2
      rw [State.door_modDoor_if] at ha ⊢
      by_cases e : b = d
      · subst e
        rw [if_pos rfl]
        rw [if_neg hab] at ha
        exact fun hb => hn i hb a hab ha
      · rw [if_neg e]
        split at ha
        · exact hn i ha b e
        · exact h1 a b hab i ha
    · refine State.tablesDistinct.congr ⟨h1, h2, h3⟩ (fun e => ?_) fun _ => rfl
      rw [State.door_modDoor_if]; split
      · rename_i e; subst e; exact hc
      · rfl
  | group g f hc =>
    rcases hc with hc | hc
    · obtain ⟨k1, k2⟩ := groupOk_spec hc.2
      refine ⟨h1, fun k => ?_, fun a b hab => ?_⟩
      · rw [State.group_modGroup_if]; split
        · exact k1
        · exact h2 k
      · rw [State.group_modGroup_if, State.group_modGroup_if]
        by_cases ea : a = g
        · subst ea
          rw [if_pos rfl, if_neg fun e => hab e.symm]
          obtain ⟨o1, o2⟩ := k2 b fun e => hab e.symm
          exact ⟨by rw [BitVec.and_comm]; exact o1, o2⟩
        · rw [if_neg ea]
          by_cases eb : b = g
          · subst eb
            rw [if_pos rfl]
            obtain ⟨o1, o2⟩ := k2 a ea
            exact ⟨o1, fun i hi hc => o2 i hc hi⟩
          · rw [if_neg eb]; exact h3 a b hab
    · refine State.tablesDistinct.congr ⟨h1, h2, h3⟩ (fun _ => rfl) fun k => ?_
      rw [State.group_modGroup_if]; split
      · rename_i e; subst e; exact hc
      · rfl
  | _ => exact ⟨h1, h2, h3⟩

theorem Moves.tablesDistinct {s t : State} (h : Moves q s t) (hs : s.tablesDistinct) : t.tablesDistinct :=
  h.keeps (P := State.tablesDistinct) (fun m => m.tablesDistinct) hs

theorem startIfActive_tablesDistinct {s : State} (hs : s.tablesDistinct) : (startIfActive s).tablesDistinct := by
  unfold startIfActive; split
  · exact hs.congr (fun _ => rfl) fun _ => rfl
  · exact hs

theorem clearDynamic_tablesDistinct {s : State} (hs : s.tablesDistinct) : (clearDynamic s).tablesDistinct := by
  refine hs.congr (fun d => ?_) fun g => ?_
  · simp [clearDynamic, startSampling, syncPins, State.door, Door.cleared]
  · simp [clearDynamic, startSampling, syncPins, State.group, Group.cleared]

/-- A valid image's doors and groups are distinct (R177). -/
theorem loadImage_tablesDistinct {m : Image} (s : State) (n : Mode) (h : m.valid = true) :
    ({ loadImage m s with mode := n } : State).tablesDistinct := by
  simp only [Image.valid, Bool.and_eq_true, List.all_eq_true, List.mem_finRange, forall_const] at h
  have hd : ∀ d, (({ loadImage m s with mode := n } : State).door d).cfg = m.doors[d.val] := fun d => by
    simp [loadImage, rebuildMaps, State.door]
  have hg : ∀ g, (({ loadImage m s with mode := n } : State).group g).cfg = m.groups[g.val] := fun g => by
    simp [loadImage, rebuildMaps, State.group]
  refine ⟨fun d e hde i hi => ?_, fun g => ?_, fun g k hgk => ?_⟩
  · rw [hd] at hi ⊢
    exact doorOk_spec (h.1.1.2 d) i hi e fun e' => hde e'.symm
  · rw [hg]; exact (groupOk_spec (h.1.2 g)).1
  · rw [hg, hg]
    obtain ⟨o1, o2⟩ := (groupOk_spec (h.1.2 g)).2 k fun e => hgk e.symm
    exact ⟨by rw [BitVec.and_comm]; exact o1, o2⟩

theorem replacePoint_tablesDistinct {i : PointIx} {c : PointCfg} {s : State} (hs : s.tablesDistinct) :
    (replacePoint i c s).tablesDistinct := by
  unfold replacePoint
  dsimp only
  split <;> exact hs.congr (fun _ => rfl) fun _ => rfl

theorem reset_tablesDistinct : State.reset.tablesDistinct := by
  refine ⟨fun d e _ i hi => ?_, fun g => ?_, fun g k _ => ?_⟩
  · simp only [State.reset, State.door, Vector.getElem_replicate] at hi; cases hi
  · simp only [State.reset, State.group, Vector.getElem_replicate]; exact ⟨Nat.zero_le _, .nil⟩
  · simp only [State.reset, State.group, Vector.getElem_replicate]
    exact ⟨BitVec.and_self, fun _ h => absurd h List.not_mem_nil⟩

/-- R113, R131: doors and groups stay distinct. -/
theorem tablesDistinct_stable : Stable State.tablesDistinct where
  moves _ _ h hs := h.tablesDistinct hs
  commands {c s t} hc he hs := by
    obtain ⟨u, hu, hm⟩ := exec_moves c s hc
    rw [hu] at he; cases he
    exact hm.tablesDistinct hs
  classify f _ hs := (classifyFrame_moves (f := f) (q := arrival) trivial trivial trivial .refl).tablesDistinct hs
  resetZone rq _ hs := (takeResetZone_moves (rq := rq) (q := { plain with raise := True, quiet := True, window := True })
    trivial trivial trivial .refl).tablesDistinct hs
  clock _ hs := hs
  queue _ _ hs := hs
  port _ _ hs := hs
  clearDevice _ hs := hs
  powerUp s _ := reset_tablesDistinct.congr (fun _ => rfl) fun _ => rfl
  startGood m s hv _ _ := (notify_moves (q := plain) .refl).tablesDistinct
    (startIfActive_tablesDistinct (s := startSampling _) (loadImage_tablesDistinct s m.mode hv))
  startBad s _ _ := (notify_moves (q := plain) .refl).tablesDistinct
    (startIfActive_tablesDistinct (s := startSampling _) (loadImage_tablesDistinct s .bypass (by decide +kernel)))
  writePoint i c s _ hs := (writePoint_moves (q := plain) .refl).tablesDistinct (replacePoint_tablesDistinct hs)
  writeDevice c s _ hs := hs
  changeMode m s hs := by
    unfold changeMode
    split
    · exact startIfActive_tablesDistinct (clearDynamic_tablesDistinct hs)
    · exact hs.congr (fun _ => rfl) fun _ => rfl
    · split
      · exact (enterProtect_moves (q := plain) s).tablesDistinct hs
      · exact hs.congr (fun _ => rfl) fun _ => rfl
    · exact hs
  restart s hs := startIfActive_tablesDistinct (clearDynamic_tablesDistinct hs)

/-! ## Lines (R9, R14) -/

theorem State.linesFit.congr {s t : State} (hs : s.linesFit) (hp : ∀ i, (t.point i).cfg = (s.point i).cfg)
    (hl : ∀ l, (t.line l).cfg.endPosition = (s.line l).cfg.endPosition) : t.linesFit := fun l => by
  rw [show t.pointCfg = s.pointCfg from funext hp, hl]; exact hs l

theorem Move.linesFit {s t : State} (m : Move q s t) (hs : s.mapsFollow ∧ s.linesFit) : t.mapsFollow ∧ t.linesFit := by
  refine ⟨(Moves.step .refl m).mapsFollow hs.1, ?_⟩
  have hp := m.cfg
  cases m with
  | line l f _ hc =>
    rcases hc with hc | hc
    · intro k
      rw [State.line_modLine_if]
      show Members.Fit s.pointCfg (membersOf s.pointCfg k) _
      split
      · rename_i e; subst e
        obtain ⟨h1, h2, h3, h4, h5, h6, h7, -⟩ := hs.2 k
        have ho := hc.2
        rw [hs.1 k] at ho
        simp only [lineOk, Bool.and_eq_true, List.all_eq_true, List.mem_append, decide_eq_true_eq] at ho
        exact ⟨h1, h2, h3, h4, h5, h6, h7, ho.2⟩
      · exact hs.2 k
    · refine hs.2.congr hp fun k => ?_
      rw [State.line_modLine_if]; split
      · rename_i e; subst e; rw [hc]
      · rfl
  | _ => exact hs.2.congr hp fun _ => rfl

theorem Moves.linesFit {s t : State} (h : Moves q s t) (hs : s.mapsFollow ∧ s.linesFit) : t.mapsFollow ∧ t.linesFit :=
  h.keeps (P := fun u => u.mapsFollow ∧ u.linesFit) (fun m => m.linesFit) hs

theorem startIfActive_linesFit {s : State} (hs : s.linesFit) : (startIfActive s).linesFit := by
  unfold startIfActive; split
  · refine hs.congr (fun i => ?_) fun _ => rfl
    simp only [startProcessing, State.point, Vector.getElem_map]
    split <;> rfl
  · exact hs

theorem clearDynamic_linesFit {s : State} (hs : s.linesFit) : (clearDynamic s).linesFit := by
  refine hs.congr (fun i => ?_) fun l => ?_
  · simp [clearDynamic, startSampling, syncPins, State.point, Point.cleared]
  · simp [clearDynamic, startSampling, syncPins, State.line, Line.cleared]

/-- A valid image's lines fit (R177). -/
theorem loadImage_linesFit {m : Image} (s : State) (n : Mode) (h : m.valid = true) :
    ({ loadImage m s with mode := n } : State).linesFit := by
  simp only [Image.valid, Bool.and_eq_true, List.all_eq_true, List.mem_finRange, forall_const] at h
  intro l
  have hp : ({ loadImage m s with mode := n } : State).pointCfg = fun i => m.points[i.val] := funext fun i => by
    simp [loadImage, rebuildMaps, State.point, State.pointCfg]
  have hl : (({ loadImage m s with mode := n } : State).line l).cfg = m.lines[l.val] := by
    simp [loadImage, rebuildMaps, State.line, Line.cleared]
  rw [hp, hl]
  exact .of_membersOk (h.1.1.1.1.1.2 l).1

/-- R8, R10: the line a new entry names fits by the check of the write, and every other line keeps fitting. -/
theorem replacePoint_linesFit {i : PointIx} {c : PointCfg} {s : State} (hok : s.pointOk i c = true) (hs : s.linesFit) :
    (replacePoint i c s).linesFit := by
  intro l
  have hp : (replacePoint i c s).pointCfg = s.trialCfg i c := funext (replacePoint_cfg i c s)
  have hl : ((replacePoint i c s).line l).cfg = (s.line l).cfg := by unfold replacePoint; dsimp only; split <;> rfl
  rw [hp, hl]
  by_cases hc : c.used = true ∧ c.line = some l
  · simp only [State.pointOk, hc.1, hc.2, Bool.not_true, Bool.false_or, Bool.and_eq_true] at hok
    exact .of_membersOk hok.2
  · refine (hs l).mono fun j hu hj => ?_
    unfold State.trialCfg at hu hj ⊢
    split
    · rename_i e
      rw [if_pos e] at hu hj
      exact absurd ⟨hu, hj⟩ hc
    · rfl

/-- A table of unused entries fits every line. -/
theorem State.linesFit_of_unused {s : State} (h : ∀ i, (s.point i).cfg.used = false) : s.linesFit := fun l => by
  have hn : ∀ i, i ∉ pointsOfLine s.pointCfg l := fun i hi => by
    have := (mem_pointsOfLine.1 hi).1
    rw [show (s.pointCfg i).used = false from h i] at this
    cases this
  have he : pointsOfLine s.pointCfg l = [] := List.eq_nil_iff_forall_not_mem.2 hn
  simp [Members.Fit, Machine.membersOf, he, sortByPosition]

/-- R177: at the end of Loading the maps are those of the point table, and every line fits. -/
theorem leaveLoading_linesFit {m : Image} {s : State} (n : Mode) (h : m.valid = true) :
    (leaveLoading { loadImage m s with mode := n }).mapsFollow ∧ (leaveLoading { loadImage m s with mode := n }).linesFit := by
  have h1 : ({ loadImage m s with mode := n } : State).mapsFollow := (rebuildMaps_mapsFollow _).congr rfl fun _ => rfl
  have h2 : ({ loadImage m s with mode := n } : State).linesFit := loadImage_linesFit s n h
  generalize ({ loadImage m s with mode := n } : State) = u at *
  exact ⟨startIfActive_mapsFollow (h1.congr rfl fun _ => rfl), startIfActive_linesFit (h2.congr (fun _ => rfl) fun _ => rfl)⟩

/-- R9, R14: the maps stay those of the point table, and every line keeps fitting. -/
theorem linesFit_stable : Stable fun s => s.mapsFollow ∧ s.linesFit where
  moves _ _ h hs := h.linesFit hs
  commands {c s t} hc he hs := by
    obtain ⟨u, hu, hm⟩ := exec_moves c s hc
    rw [hu] at he; cases he
    exact hm.linesFit hs
  classify f _ hs := (classifyFrame_moves (f := f) (q := arrival) trivial trivial trivial .refl).linesFit hs
  resetZone rq _ hs := (takeResetZone_moves (rq := rq) (q := { plain with raise := True, quiet := True, window := True })
    trivial trivial trivial .refl).linesFit hs
  clock _ hs := hs
  queue _ _ hs := hs
  port _ _ hs := hs
  clearDevice _ hs := hs
  powerUp s hs := ⟨mapsFollow_stable.powerUp s hs.1, State.linesFit_of_unused fun i => by
    simp only [powerUp, State.reset, State.point, Vector.getElem_replicate]; rfl⟩
  startGood m s hv _ _ := (notify_moves (q := plain) .refl).linesFit (leaveLoading_linesFit m.mode hv)
  startBad s _ _ := (notify_moves (q := plain) .refl).linesFit (leaveLoading_linesFit .bypass (by decide +kernel))
  writePoint i c s hok hs := (writePoint_moves (q := plain) .refl).linesFit
    ⟨by
      unfold replacePoint
      dsimp only
      split
      · exact (rebuildMaps_mapsFollow _).congr rfl fun _ => rfl
      · exact (rebuildMaps_mapsFollow _).congr rfl fun _ => rfl, replacePoint_linesFit hok hs.2⟩
  writeDevice c s _ hs := hs
  changeMode m s hs := by
    refine ⟨mapsFollow_stable.changeMode m s hs.1, ?_⟩
    unfold changeMode
    split
    · exact startIfActive_linesFit ((clearDynamic_linesFit hs.2).congr (fun _ => rfl) fun _ => rfl)
    · exact hs.2.congr (frozen_cfg m s).1 fun _ => rfl
    · split
      · exact ((enterProtect_moves (q := plain) s).linesFit ⟨hs.1, hs.2⟩).2
      · exact hs.2.congr (frozen_cfg m s).2 fun _ => rfl
    · exact hs.2
  restart s hs := ⟨mapsFollow_stable.restart s hs.1, startIfActive_linesFit (clearDynamic_linesFit hs.2)⟩

end Sys2Proof.Machine
end

