-- ==== Sys2Proof/Laws/Yard.lean ====
section
/-! SUPPORT. The siren groups: what quieting and starting command of the points (R136, R137), what a change of a request leaves
of the other groups and requests (R134), and work on several groups taken in a free order. -/

namespace Sys2Proof.Machine

/-! ## Commands to sirens and outputs -/

theorem issues_on (r : Requested) (l : List PointIx) (s : State) :
    DriveOnly (fun j => j ∈ l) s (l.foldl (fun u i => issue i r u) s) := by
  have h : ∀ (m : List PointIx) (u : State), (∀ i ∈ m, i ∈ l) → DriveOnly (fun j => j ∈ l) s u →
      DriveOnly (fun j => j ∈ l) s (m.foldl (fun u i => issue i r u) u) := by
    intro m
    induction m with
    | nil => exact fun _ _ h => h
    | cons i m ih =>
      exact fun u hm hu => ih _ (fun j hj => hm j (List.mem_cons_of_mem _ hj)) (issue_driveOnly (hm i List.mem_cons_self) hu)
  exact h l s (fun _ h => h) (.refl s)

theorem issues_moves {s t : State} {r : Requested} {l : List PointIx} (h : Moves plain s t) :
    Moves plain s (l.foldl (fun u i => issue i r u) t) := foldl_moves (fun _ _ hu => issue_moves hu) h

theorem commandOutputs_on (g : GroupIx) (r : Requested) (s : State) :
    DriveOnly (fun j => j ∈ s.enginePoints g) s (commandOutputs g r s) := issues_on r _ s

/-- What a group plays on depends on its configuration and the configured points. -/
theorem State.loopSirens_congr {s t : State} {g : GroupIx} (hg : (t.group g).cfg = (s.group g).cfg)
    (hp : ∀ i, (t.point i).cfg = (s.point i).cfg) (hd : t.device = s.device) : t.loopSirens g = s.loopSirens g := by
  unfold State.loopSirens State.isKind State.isLoop
  simp only [hg, hp, hd]

theorem State.enginePoints_congr {s t : State} {g : GroupIx} (hg : (t.group g).cfg = (s.group g).cfg)
    (hp : ∀ i, (t.point i).cfg = (s.point i).cfg) (hd : t.device = s.device) : t.enginePoints g = s.enginePoints g := by
  unfold State.enginePoints State.isKind
  simp only [hg, hp, State.outputPoint_congr hp hd]

/-- A group's outputs are local points (R131). -/
theorem enginePoints_isLocal {s : State} {g : GroupIx} {i : PointIx} (h : i ∈ s.enginePoints g) : s.isLocal i = true := by
  unfold State.enginePoints at h
  obtain ⟨q, -, hq⟩ := List.mem_filterMap.1 h
  split at hq
  · rename_i j hj
    split at hq
    · cases hq; exact State.outputPoint_isLocal hj
    · cases hq
  · cases hq

theorem loopSirens_not_engine {s : State} {g h : GroupIx} {i : PointIx} (hi : i ∈ s.loopSirens g) : i ∉ s.enginePoints h :=
  fun he => by
    have := State.isLoop_not_local (loopSirens_isLoop hi)
    rw [enginePoints_isLocal he] at this
    cases this

/-- What a group's sirens and outputs are commanded by `rs` and `ro`, other points keeping what they hold. -/
structure Commands (g : GroupIx) (rs ro : Requested) (s t : State) : Prop where
  sirens : ∀ i ∈ s.loopSirens g, (t.point i).drive.commanded = some rs
  outputs : ∀ i ∈ s.enginePoints g, (t.point i).drive.commanded = some ro
  others : ∀ i, i ∉ s.loopSirens g → i ∉ s.enginePoints g → t.point i = s.point i
  cfg : ∀ i, (t.point i).cfg = (s.point i).cfg
  device : t.device = s.device

/-- The sirens first, then the engine, with work on groups in between and after. -/
theorem Commands.of_parts {g : GroupIx} {rs ro : Requested} {s t u : State}
    (ht : t.points = ((s.loopSirens g).foldl (fun t i => issue i rs t) s).points) (hg : (t.group g).cfg = (s.group g).cfg)
    (hd : t.device = s.device) (hu : u.points = (commandOutputs g ro t).points) (hud : u.device = s.device) :
    Commands g rs ro s u := by
  have h1 := issues_on rs (s.loopSirens g) s
  have tp : ∀ i, t.point i = ((s.loopSirens g).foldl (fun t i => issue i rs t) s).point i := fun i => by
    simp only [State.point, ht]
  have tc : ∀ i, (t.point i).cfg = (s.point i).cfg := fun i => by
    rw [tp]; exact (issues_moves (.refl (s := s))).cfg i
  have up : ∀ i, u.point i = (commandOutputs g ro t).point i := fun i => by simp only [State.point, hu]
  have h2 := commandOutputs_on g ro t
  have he : t.enginePoints g = s.enginePoints g := State.enginePoints_congr hg tc hd
  rw [he] at h2
  refine ⟨fun i hi => ?_, fun i hi => ?_, fun i h3 h4 => ?_, fun i => ?_, hud⟩
  · rw [up, h2.point i (loopSirens_not_engine hi), tp]
    exact issues_commanded rs _ s i hi
  · rw [up]; exact commandOutputs_commanded g ro t i (by rw [he]; exact hi)
  · rw [up, h2.point i h4, tp, h1.point i h3]
  · rw [up, (commandOutputs_moves (q := plain) (.refl (s := t))).cfg i, tc]

/-- R136, R137: what a quieted group commands. -/
theorem quietGroup_commands (g : GroupIx) (s : State) : Commands g .quiet .outOff s (quietGroup g s) := by
  have hd := (issues_moves (r := .quiet) (l := s.loopSirens g) (.refl (s := s))).device
  refine .of_parts (t := ((s.loopSirens g).foldl (fun t i => issue i .quiet t) s).modGroup g fun r =>
    { r with sounding := none, endAt := none }) rfl ?_ hd rfl ?_
  · rw [State.group_modGroup]; simp
  · exact ((quietGroup_moves (q := plain) (g := g) (.refl (s := s))).device)

/-- R136, R137: what a group that starts a cadence commands. -/
theorem startCadence_commands (g : GroupIx) (c : CadenceIx) (s : State) :
    Commands g (.sounding (s.cadence c).on (s.cadence c).off (s.cadence c).cycles (s.cadence c).tone) .outOn s
      (startCadence g c s) := by
  have hd := (issues_moves (r := .sounding (s.cadence c).on (s.cadence c).off (s.cadence c).cycles
    (s.cadence c).tone) (l := s.loopSirens g) (.refl (s := s))).device
  refine .of_parts (t := ((s.loopSirens g).foldl (fun t i => issue i (.sounding (s.cadence c).on (s.cadence c).off
    (s.cadence c).cycles (s.cadence c).tone) t) s).modGroup g fun r =>
      { r with
        sounding := some c
        endAt := if (s.cadence c).cycles = 0 then none else some (after s.clock (s.cadence c).length) }) rfl ?_ hd ?_ ?_
  · rw [State.group_modGroup]; simp
  · rfl
  · exact ((startCadence_moves (q := plain) (g := g) (c := c) (.refl (s := s))).device)

/-! ## Requests (R134, R81) -/

theorem requestsChanged_other (g h : GroupIx) (s : State) (e : h ≠ g) : (requestsChanged g s).group h = s.group h := by
  unfold requestsChanged
  have ha : ∀ u, (arbitrateGroup g u).group h = u.group h := fun u => (arbitrateGroup_group g h u).1 e
  have hm : ∀ (u : State) f, (u.modGroup g f).group h = u.group h := fun u f => State.group_modGroup_ne _ _ _ _ e
  split
  · rw [ha, hm]
  · rw [ha]
  · unfold emptiedGroup
    dsimp only
    split
    · rw [startCadence_group, if_neg e, hm, hm]
    · rw [hm, quietGroup_group, if_neg e, hm]
  all_goals first | (rw [ha, hm]) | rfl

/-- R134: only the group of the request changes. -/
theorem changeRequest_other (g h : GroupIx) (z : ZoneIx) (c : Option CadenceIx) (s : State) (e : h ≠ g) :
    (changeRequest g z c s).group h = s.group h := by
  unfold changeRequest
  split
  · rfl
  · rw [requestsChanged_other g h _ e, State.group_modGroup_ne _ _ _ _ e]

theorem changeRequest_own (g : GroupIx) (z w : ZoneIx) (c : Option CadenceIx) (s : State) :
    ((changeRequest g z c s).group g).requests[w.val] = if w = z then c else (s.group g).requests[w.val] := by
  split
  · subst_vars; exact changeRequest_request _ _ _ _
  · rename_i hw
    unfold changeRequest
    split
    · rfl
    · have h := requestsChanged_requests g g (s.modGroup g fun r => { r with requests := r.requests.set z.val c })
      rw [State.group_modGroup] at h
      have : w.val ≠ z.val := fun e => hw (Fin.ext e)
      simp only [h]
      rw [Vector.getElem_set_ne]; exact fun e => this e.symm

theorem respondSirens_other (z : ZoneIx) (n : Level) (s : State) (h : GroupIx) (e : (s.zone z).cfg.group ≠ some h) :
    (respondSirens z n s).group h = s.group h := by
  unfold respondSirens
  split
  · rename_i g hg
    exact changeRequest_other g h _ _ _ (fun e' => e (by rw [hg, e']))
  · rfl

/-- R134: only the zone's own request changes. -/
theorem changeRequest_requests (g h : GroupIx) (z w : ZoneIx) (c : Option CadenceIx) (s : State) :
    ((changeRequest g z c s).group h).requests[w.val] = if h = g ∧ w = z then c else (s.group h).requests[w.val] := by
  by_cases e : h = g
  · subst e; rw [changeRequest_own]; simp
  · rw [changeRequest_other g h _ _ _ e]; simp [e]

/-- R81: a request leaves the old group and stands in the new one as the level asks. -/
theorem moveRequest_groups (z : ZoneIx) (old : Option GroupIx) (s : State) :
   (∀ g, (s.zone z).cfg.group = some g →
      ((moveRequest z old s).group g).requests[z.val] = (s.zone z).cfg.cadenceFor (s.zone z).level) ∧
   (∀ g, old = some g → (s.zone z).cfg.group ≠ some g → ((moveRequest z old s).group g).requests[z.val] = none) ∧
   (∀ g, old ≠ some g → (s.zone z).cfg.group ≠ some g → (moveRequest z old s).group g = s.group g) ∧
   ∀ g (w : ZoneIx), w ≠ z → ((moveRequest z old s).group g).requests[w.val] = (s.group g).requests[w.val] := by
  obtain ⟨t, ht, hm, h1, h2, h3⟩ : ∃ t, moveRequest z old s = respondSirens z (s.zone z).level t ∧ Moves plain s t ∧
      (∀ g (w : ZoneIx), w ≠ z → (t.group g).requests[w.val] = (s.group g).requests[w.val]) ∧
      (∀ g, old ≠ some g → t.group g = s.group g) ∧ ∀ g, old = some g → (t.group g).requests[z.val] = none := by
    cases old with
    | none => exact ⟨s, rfl, .refl, fun _ _ _ => rfl, fun _ _ => rfl, fun _ h => nomatch h⟩
    | some o =>
      refine ⟨changeRequest o z none s, rfl, changeRequest_moves .refl, fun g w hw => ?_, fun g ho => ?_, fun g ho => ?_⟩
      · rw [changeRequest_requests, if_neg (by tauto)]
      · exact changeRequest_other _ _ _ _ _ (fun e => ho (by rw [e]))
      · cases ho; exact changeRequest_request _ _ _ _
  have hz : (t.zone z).cfg = (s.zone z).cfg := (hm.tables id).2.2.2.2 z
  rw [ht]
  refine ⟨fun g hg => ?_, fun g ho hg => ?_, fun g ho hg => ?_, fun g w hw => ?_⟩
  · unfold respondSirens; rw [hz, hg]; exact changeRequest_request _ _ _ _
  · rw [respondSirens_other _ _ _ _ (by rw [hz]; exact hg), h3 g ho]
  · rw [respondSirens_other _ _ _ _ (by rw [hz]; exact hg), h2 g ho]
  · unfold respondSirens
    split
    · rw [changeRequest_requests, if_neg (by tauto), h1 g w hw]
    · exact h1 g w hw

/-! ## Several groups (R142, log 5) -/

/-- Work on one group each, on groups without repeats, taken in any order. -/
theorem InSomeOrder.groups (F : GroupIx → State → State) (R : GroupIx → Group → Group → Prop) (Q : State → Prop)
    (hd : ∀ u n, Q u → Q { u with draws := n }) (hq : ∀ g u, Q u → Q (F g u))
    (hv : ∀ g u, Q u → R g (u.group g) ((F g u).group g))
    (ho : ∀ g h u, h ≠ g → (F g u).group h = u.group h) {fs : List (State → State)} {s t : State} (h : InSomeOrder fs s t) :
    ∀ gs : List GroupIx, gs.Nodup → fs = gs.map F → Q s →
      Q t ∧ ∀ g, (g ∈ gs → R g (s.group g) (t.group g)) ∧ (g ∉ gs → t.group g = s.group g) := by
  induction h with
  | done s n => 
    intro gs _ e hs
    have : gs = [] := by cases gs <;> simp_all
    subst this; exact ⟨hd _ _ hs, fun g => by simp; rfl⟩
  | @take fs s t k n h ih =>
    intro gs nd e hs
    subst e
    have hk : k.val < gs.length := by have := k.isLt; simpa using this
    obtain ⟨i1, i2⟩ := ih (gs.eraseIdx k.val) (nd.eraseIdx _) (by rw [List.eraseIdx_map])
      (by simpa using hq _ _ (hd _ n hs))
    refine ⟨i1, fun g => ?_⟩
    have i2 := i2 g
    have hf : (gs.map F)[k] = F gs[k.val] := by simp
    rw [hf] at i2
    by_cases hg : g = gs[k.val]
    · have : g ∉ gs.eraseIdx k.val := by
        rw [hg, List.mem_eraseIdx_iff_getElem]
        rintro ⟨i, hi, hne, he⟩
        exact hne ((nd.getElem_inj_iff).1 he)
      have e1 := i2.2 this
      have := hv g _ (hd _ n hs)
      subst hg
      exact ⟨fun _ => by rw [e1]; exact this, fun hx => absurd (List.getElem_mem _) hx⟩
    · rw [ho _ _ _ hg] at i2
      have : g ∈ gs.eraseIdx k.val ↔ g ∈ gs := by
        constructor
        · exact List.mem_of_mem_eraseIdx
        · intro hm
          obtain ⟨i, hi, he⟩ := List.getElem_of_mem hm
          rw [List.mem_eraseIdx_iff_getElem]
          exact ⟨i, hi, fun e => hg (by subst e; exact he.symm), he⟩
      rw [this] at i2; exact i2

/-- R142: what a group that plays a written cadence holds after. -/
theorem restartPlaying_group (c : CadenceIx) (g : GroupIx) (u : State) : (restartPlaying g c u).group g =
      { u.group g with
                  starts := if (u.group g).phase = .sounding then bump (u.group g).starts else (u.group g).starts
                  sounding := some c
                  endAt := if (u.cadence c).cycles = 0 then none else some (after u.clock (u.cadence c).length)
                  engineOn := true
                  phaseAt := enginePhaseAt u.clock (u.cadence c) } := by
  unfold restartPlaying
  split
  · rename_i h
    rw [startWinner_group, if_pos rfl, startCadence_group, if_pos rfl]
  · rw [startCadence_group, if_pos rfl]

theorem restartPlaying_other (c : CadenceIx) (g h : GroupIx) (u : State) (e : h ≠ g) :
    (restartPlaying g c u).group h = u.group h := by
  unfold restartPlaying
  split
  · rw [startWinner_group, if_neg e]
  · rw [startCadence_group, if_neg e]

/-- R135: arbitration that finds the winner it has changes nothing. -/
theorem arbitrateGroup_idle {g : GroupIx} {u : State} (h : u.bestRequest g = none ∨ u.bestRequest g = (u.group g).winner) :
    arbitrateGroup g u = u := by
  unfold arbitrateGroup
  rcases h with h | h
  · rw [h]
  · split
    · rfl
    · rename_i w hw; rw [if_pos (by rw [← h, hw])]


end Sys2Proof.Machine
end

