-- ==== Sys2Proof/Tests/Slice0.lean ====
section
/-! SUPPORT. Tests: the checks of well-formedness, a state for the hypotheses of every statement, single commands on small
states. -/

namespace Sys2Proof.Tests

set_option Elab.async false

open Sys2Proof Sys2Proof.Machine

/-! ## Small states -/

/-- The part in a mode, with empty tables, the clock at 5000 ms. -/
def up (m : Mode) : State := { State.reset with mode := m, clock := 5000, mgmt := {} }

/-- A Request of the supervisor station. -/
def ask (selector index : Byte) (data : List Byte) : Request := { source := 1, tag := 9, selector, index, data }

/-- The state a command leaves. -/
def got (c : Instr) (s : State) : State := match exec c s with
  | .next t => t
  | .fault _ => s
  | .refused _ => s

/-- The state after an entry of the point table has been replaced and the maps built again. -/
def put (i : PointIx) (p : Point) (s : State) : State := rebuildMaps (s.modPoint i fun _ => p)

/-- Some frame. -/
def frame : Frame := { dst := 9, src := 125, kind := 7, channel := 3, payload := [1] }

/-- A spark detector, a valve, an airflow sensor and a siren of loop stations, and points of local pins. -/
def sparkCfg : PointCfg :=
  { kind := .spark, station := 10, channel := 0, zone := some 0, line := some 0, position := some 100
    supervision := some 10, role := some .primary }
def valveCfg : PointCfg :=
  { kind := .valve, station := 11, channel := 0, zone := some 0, line := some 0, position := some 300
    supervision := some 10, feedback := some 10, lead := some 150, hold := some 50, recovery := some 30
    arming := some 30 }
def airCfg : PointCfg :=
  { kind := .airflow, station := 12, channel := 0, zone := some 0, line := some 0, supervision := some 10 }
def fanCfg : PointCfg :=
  { kind := .fan, station := 14, channel := 0, line := some 0, supervision := some 10, feedback := some 10 }
def gateCfg : PointCfg :=
  { kind := .gate, station := 15, channel := 0, line := some 0, supervision := some 10, feedback := some 10 }
def doorCfg : PointCfg := { kind := .door, station := 16, channel := 0, zone := some 0, supervision := some 10 }
def sirenCfg : PointCfg :=
  { kind := .siren, station := 17, channel := 0, zone := some 0, supervision := some 10, feedback := some 10 }
def inputCfg : PointCfg := { kind := .input, station := 125, channel := 0, debounce := some 20 }
def callCfg : PointCfg := { kind := .call, station := 125, channel := 1, zone := some 3, debounce := some 0 }
def outputCfg : PointCfg := { kind := .output, station := 125, channel := 15 }

/-! ## Well-formedness refuses ill-formed commands -/

theorem test_wellformed_accepts : (Instr.read (ask 0x01 0 [])).wellFormed = true ∧ Instr.tick.wellFormed = true := by decide
theorem test_wellformed_refuses_source_0 : (Instr.read { ask 0x01 0 [] with source := 0 }).wellFormed = false := by decide
theorem test_wellformed_refuses_source_127 :
    (Instr.commit { ask 0 0 [] with source := 127 }).wellFormed = false := by decide
theorem test_wellformed_refuses_long_data :
    (Instr.write (ask 0x01 0 (List.replicate 21 0))).wellFormed = false ∧
      (Instr.write (ask 0x01 0 (List.replicate 20 0))).wellFormed = true := by decide

/-! ## States that meet the hypotheses of the statements -/

theorem test_meets_StepTakesFront :
    ({ up .bypass with pending := [.tick, .powerOn] } : State).pending = Instr.tick :: [.powerOn] ∧
      (up .bypass).pending = [] := by decide

theorem test_meets_EveryCommandCompletes : Instr.tick ≠ .powerOn ∧ Instr.tick ≠ .resetPin := by decide

/-- Two frames wait, one has been passed on: a completed transmission keeps the balance. -/
def balancedState : State :=
  { up .protect with
    pending := [.transmissionCompletion]
    port := { through := [frame, frame], sending := some frame, counters := { received := 3, repeated := 1 } } }

theorem test_meets_BalanceKept :
    balancedState.withinCapacity ∧ balancedState.balanced ∧ ∃ t, step balancedState = .next t := by
  refine ⟨?_, ?_, _, rfl⟩
  · unfold State.withinCapacity; decide +kernel
  · unfold State.balanced; decide +kernel

/-- Q8 is driven. -/
def drivenState : State :=
  { put 0 { cfg := outputCfg, drive := { commanded := some .outOn } } (up .protect) with
    outputs := Vector.ofFn fun q => q == 7, pending := [.tick] }

theorem test_meets_PinsFollowKept : drivenState.pinsFollow ∧ drivenState.output 7 = true ∧ ∃ t, step drivenState = .next t := by
  refine ⟨?_, by decide +kernel, _, rfl⟩
  unfold State.pinsFollow; decide +kernel

theorem test_meets_MapsFollowKept :
    (put 255 { cfg := valveCfg } (up .protect)).mapsFollow ∧
      ((put 255 { cfg := valveCfg } (up .protect)).membersOf 0).valves = [255] ∧
      ∃ t, step (put 255 { cfg := valveCfg } (up .protect)) = .next t := by
  refine ⟨?_, by decide +kernel, _, rfl⟩
  unfold State.mapsFollow; decide +kernel

theorem test_meets_TablesKept :
    (put 255 { cfg := valveCfg, drive := { commanded := some .closed, lastCommand := some 0 } } (up .protect)).tablesInRange ∧
      (put 255 { cfg := valveCfg, drive := { commanded := some .closed, lastCommand := some 0 } } (up .protect)).commandsTimed ∧
      ∃ t, step (put 255 { cfg := valveCfg, drive := { commanded := some .closed, lastCommand := some 0 } }
        (up .protect)) = .next t := by
  refine ⟨?_, ?_, _, rfl⟩
  · unfold State.tablesInRange; decide +kernel
  · unfold State.commandsTimed; decide +kernel

theorem test_meets_TriggersTaken : (up .protect).triggers = [] ∧ ∃ t, step (up .protect) = .next t := ⟨rfl, _, rfl⟩

/-- Loading at the last moment the image may be read, with the default image in the memory. -/
def readable : State := { State.reset with clock := 250, memory := .image Config.partCode {} }

theorem test_meets_GoodImageStarts :
    readable.mode = .loading ∧ readable.memory = .image Config.partCode {} ∧ ({} : Image).valid = true ∧
      overdue readable.clock readable.mgmt.loadingAt = false := by
  refine ⟨rfl, rfl, ?_, ?_⟩ <;> decide +kernel

theorem test_meets_BadImageStarts :
    State.reset.mode = .loading ∧ State.reset.goodImage = none ∧
      overdue (251 : Time) State.reset.mgmt.loadingAt = true ∧ due (250 : Time) State.reset.mgmt.loadingAt = true := by
  decide +kernel

/-- A zone at Alarm. -/
def alarmedState (m : Mode) : State := (up m).modZone 31 fun r => { r with level := .alarm }

/-- A valve that is Open, on a line that serves zone 0. -/
def openState (m : Mode) : State :=
  put 8 { cfg := sparkCfg } (put 9 { cfg := valveCfg, valve := { state := .opened, holdAt := some 5000 } } (up m))

theorem test_meets_SetModeChanges :
    (up .bypass).permits (ask 0 0 [2]) 0 ∧ (ask 0 0 []).mode? = none ∧ (ask 0 0 [0]).mode? = none ∧
      (ask 0 0 [4]).mode? = none ∧ (ask 0 0 [1]).mode? = some .bypass ∧ (ask 0 0 [2]).mode? = some .observe ∧
      (ask 0 0 [3]).mode? = some .protect ∧ (alarmedState .protect).alarmed ∧ (alarmedState .observe).alarmed ∧
      (alarmedState .protect).permits (ask 0 0 [2]) 0 ∧ (∃ i, ((openState .observe).point i).valve.state ≠ .closed) ∧
      ¬(up .protect).alarmed ∧ ¬(up .observe).alarmed ∧ ∀ i, ((up .observe).point i).valve.state = .closed := by
  unfold State.permits State.alarmed; decide +kernel

theorem test_meets_RestartClears :
    (alarmedState .protect).permits (ask 0 0 []) 0 ∧ (alarmedState .protect).alarmed ∧
      (up .protect).permits (ask 0 0 []) 0 ∧ ¬(up .protect).alarmed ∧ (up .bypass).permits (ask 0 0 []) 0 := by
  unfold State.permits State.alarmed; decide +kernel

/-- A Commit that ends at 5000 ms at the latest. -/
def committing (m : Mode) : State := { up m with mgmt := { commit := some { content := {}, deadline := 5000 } } }

theorem test_meets_CommitRuns :
    (up .bypass).permits (ask 0 0 []) 0 ∧ (up .bypass).mgmt.commit = none ∧ (committing .protect).permits (ask 0 0 []) 0 ∧
      (committing .protect).mgmt.commit.isSome = true := by
  unfold State.permits; decide +kernel

theorem test_meets_CommitEnds :
    (up .bypass).mgmt.commit = none ∧ (committing .bypass).mgmt.commit = some { content := {}, deadline := 5000 } ∧
      overdue (committing .bypass).clock (some 5000) = false ∧ reached (committing .bypass).clock 5000 = true ∧
      ReadBack.differs ≠ .correct ∧ ReadBack.unacknowledged ≠ .correct := by
  decide +kernel

theorem test_meets_LoadingDiscardsRequests :
    (Instr.commit (ask 0 0 [])).request? = some (ask 0 0 []) ∧ State.reset.mode = .loading := by decide

/-- The same Request from another station. -/
def other (rq : Request) : Request := { rq with source := 2 }

theorem test_meets_RequestsChecked :
    (up .bypass).mode ≠ .loading ∧ (other (ask 0 0 [])).source ≠ (up .bypass).device.supervisor ∧
      (Instr.commit (ask 0 0 [])).request? = some (ask 0 0 []) ∧ 7 < (ask 8 0 []).table ∧
      (ask 2 12 []).table ≤ 7 ∧ tableSize (ask 2 12 []).table ≤ (ask 2 12 []).ix ∧
      (ask 0 0 []).source = (up .bypass).device.supervisor ∧ (ask 2 0 []).table ≠ 3 ∧ (ask 3 32 []).table = 3 ∧
      tableSize 3 ≤ (ask 3 32 []).ix ∧ (ask 0 1 []).table = 0 ∧ tableSize 0 ≤ (ask 0 1 []).ix := by
  decide

/-- The routine queue holds `n` frames. -/
def queued (n : Nat) : State :=
  { up .bypass with port := { sending := some frame, routine := List.replicate n { frame := frame, joined := 5000 } } }

theorem test_meets_ReadReplies :
    (queued 15).mode ≠ .loading ∧ (ask 1 255 []).table ≤ 7 ∧ (ask 1 255 []).ix < tableSize (ask 1 255 []).table ∧
      (ask 1 255 []).reservedSet = false ∧ (ask 1 255 []).namesState = false ∧ (ask 1 255 []).twoHalves = false ∧
      1 ≤ (queued 15).routineFree ∧ (queued 16).routineFree < 1 ∧ (ask 5 23 []).ix < tableSize (ask 5 23 []).table ∧
      (ask 5 23 []).reservedSet = false ∧ (ask 5 23 []).namesState = false ∧ (ask 5 23 []).twoHalves = true ∧
      2 ≤ (queued 14).routineFree ∧ (queued 15).routineFree < 2 ∧ (ask 0x10 0 [1]).namesState = true ∧
      (ask 0x10 0 [1]).reservedSet = false ∧ (ask 0x10 0 [1]).section? = some 1 ∧
      (queued 15).section? 0 0 1 = some [0, 0, 0, 0, 0, 0] ∧ (ask 0x17 0 [0]).section? = some 0 ∧
      (queued 15).section? (ask 0x17 0 [0]).table 0 0 = none := by
  decide +kernel

theorem test_meets_ReadGroupReplies :
    (ask 0x67 7 []).table ≤ 7 ∧ (ask 0x67 7 []).reservedSet = false ∧ (ask 0x67 7 []).groupSize = 8 ∧
      (ask 0x67 7 []).ix / 8 * 8 + 8 ≤ tableSize (ask 0x67 7 []).table ∧
      tableSize (ask 0x62 8 []).table < (ask 0x62 8 []).ix / 8 * 8 + (ask 0x62 8 []).groupSize ∧
      (ask 0x67 7 []).namesState = false ∧ 8 ≤ (queued 8).routineFree ∧ (queued 9).routineFree < 8 ∧
      (List.range 8).flatMap (fun i => (queued 8).configParts 7 i) = List.replicate 8 [1, 50, 50, 0, 0] ∧
      (ask 0x07 7 []).groupSize = 1 := by
  decide +kernel

/-- A used point at the own station, and one at station 5. -/
def stations : State := put 1 { cfg := { sparkCfg with station := 5 } } (put 0 { cfg := inputCfg } (up .bypass))

/-- The data of a Device write with these stations and limits. -/
def deviceData (own supervisor : Byte) (silence returning : Nat) : List Byte :=
  [0, 0, own, supervisor, 1] ++ be16 silence ++ be16 returning

theorem test_meets_OwnStationKept :
    stations.permits (ask 0 0 (deviceData 5 1 100 50)) 0 ∧ stations.mgmt.commit = none ∧
      readDevice (deviceData 5 1 100 50) = some { own := 5, supervisor := 1, silenceLimit := 100, returnLimit := 50 } ∧
      (5 : Byte) ≠ stations.device.own ∧ (stations.point 0).cfg.kind ≠ .unused ∧
      (stations.point 0).cfg.station = stations.device.own ∧ (stations.point 1).cfg.kind ≠ .unused ∧
      (stations.point 1).cfg.station = 5 := by
  unfold State.permits; decide +kernel

theorem test_meets_DeviceWritten :
    (up .bypass).permits (ask 0 0 (deviceData 126 1 10 500)) 0 ∧ (ask 0 0 (deviceData 126 1 10 500)).namesState = false ∧
      readDevice (deviceData 126 1 10 500) = some { own := 126, supervisor := 1, silenceLimit := 10, returnLimit := 500 } ∧
      (∀ i, ((up .bypass).point i).cfg.kind = .unused) ∧
      readDevice (deviceData 127 1 2000 5) = some { own := 127, supervisor := 1, silenceLimit := 2000, returnLimit := 5 } := by
  unfold State.permits; decide +kernel

theorem test_meets_PreviousStationForgotten :
    ({ up .bypass with port := { previous := some (5, 5000) } } : State).port.previous = some (5, 5000) ∧
      reached (up .bypass).clock 5000 = true := by
  decide +kernel

/-- The bytes of the valve's entry, on line 11. -/
def valveData : List Byte := ({ valveCfg with line := some 11 } : PointCfg).write

theorem test_meets_WritesRefused :
    (up .protect).permits (ask 2 11 []) 2 ∧ (committing .protect).permits (ask 6 7 []) 6 ∧
      (committing .protect).mgmt.commit.isSome = true ∧ (openState .protect).permits (ask 1 9 valveData) 1 ∧
      ((openState .protect).point 9).cfg.kind = .valve ∧ ((openState .protect).point 9).valve.state ≠ .closed ∧
      ((put 255 { cfg := fanCfg, drive := { claims := [.door 23] } } (up .protect)).point 255).drive.claims ≠ [] ∧
      newLine valveData = some 11 ∧ ((up .protect).modLine 11 fun r => { r with state := .shut }).permits (ask 1 9 valveData) 1 ∧
      (up .protect).permits (ask 0x11 0 []) 1 ∧ (ask 0x11 0 []).namesState = true ∧ (up .protect).mgmt.commit = none ∧
      (up .protect).writeBusy (ask 0x11 0 []) = false ∧ readDevice [] = none ∧ readPoint [] = none ∧
      readGroupCfg [5] = none ∧ readCadence [16, 1, 0, 0, 3] = none := by
  unfold State.permits; decide +kernel

theorem test_meets_PointWritten :
    (up .bypass).permits (ask 1 255 valveData) 1 ∧ (ask 1 255 valveData).namesState = false ∧
      (255 : PointIx).val = (ask 1 255 valveData).ix ∧ readPoint valveData = some { valveCfg with line := some 11 } ∧
      (up .bypass).pointBusy 255 valveData = false ∧ (up .bypass).pointOk 255 { valveCfg with line := some 11 } = true ∧
      (put 0 { cfg := valveCfg } (up .bypass)).pointBusy 255 valveData = false ∧
      (put 0 { cfg := valveCfg } (up .bypass)).pointOk 255 { valveCfg with line := some 11 } = false := by
  unfold State.permits; decide +kernel

theorem test_meets_PointChecked :
    (up .bypass).pointOk 0 inputCfg = true ∧ inputCfg.station = (up .bypass).device.own ∧ inputCfg.channel.toNat < 8 ∧
      (up .bypass).pointOk 0 outputCfg = true ∧ outputCfg.station = (up .bypass).device.own ∧ 8 ≤ outputCfg.channel.toNat ∧
      (up .bypass).pointOk 255 sparkCfg = true ∧ sparkCfg.station ≠ (up .bypass).device.own ∧ sparkCfg.line = some 0 ∧
      (put 3 { cfg := valveCfg } (up .bypass)).pointOk 0 sparkCfg = true ∧
      ((put 3 { cfg := valveCfg } (up .bypass)).point 3).cfg.kind ≠ .unused := by
  decide +kernel

/-- A group write that names output Q8 and cadences 7 and none; the same with a siren that is no siren point. -/
def groupData : List Byte := [0, 0, 1, 7, 255]
def badGroupData : List Byte := [1, 4, 0, 0, 255, 255]

theorem test_meets_GroupWritten :
    (up .protect).permits (ask 6 7 groupData) 6 ∧ (up .bypass).permits (ask 6 7 groupData) 6 ∧
      readGroupCfg groupData = some { outputs := 128, allClear := some 7 } ∧
      groupOk (up .protect).device.own (up .protect).pointCfg (up .protect).groupCfg 7
        { outputs := 128, allClear := some 7 } = true ∧
      readGroupCfg badGroupData = some { sirens := [4] } ∧
      groupOk (up .protect).device.own (up .protect).pointCfg (up .protect).groupCfg 7 { sirens := [4] } = false ∧
      (∀ z : ZoneIx, ((up .protect).group 7).requests[z.val] = none) ∧
      (((up .protect).modGroup 7 fun r => { r with requests := r.requests.set 31 (some 0) }).group 7).requests[31] ≠ none := by
  unfold State.permits; decide +kernel

theorem test_meets_CadenceWritten :
    (up .bypass).permits (ask 7 7 [15, 1, 0, 0, 3]) 7 ∧ (up .protect).permits (ask 7 7 [15, 1, 0, 0, 3]) 7 ∧
      readCadence [15, 1, 0, 0, 3] = some { rank := 15, on := 1, off := 0, cycles := 0, tone := 3 } := by
  unfold State.permits; decide +kernel

/-- A half staged until 5000 ms for an entry. -/
def staged (m : Mode) (table index : Nat) (half : List Byte) : State :=
  { up m with mgmt := { staging := some { tag := 9, table, index, half, deadline := 5000 } } }

theorem test_meets_FirstHalfStaged :
    (up .bypass).permits (ask 1 0 []) 1 ∧ (committing .bypass).permits (ask 5 23 []) 5 ∧
      (committing .bypass).mgmt.commit.isSome = true ∧ (up .bypass).permits (ask 2 11 []) 2 ∧
      (ask 2 11 []).namesState = false ∧ (up .bypass).mgmt.commit = none ∧ (staged .bypass 2 0 []).mgmt.staging.isSome = true ∧
      reached (staged .bypass 2 0 []).clock 5000 = true := by
  unfold State.permits; decide +kernel

theorem test_meets_SecondHalfMatched :
    (up .bypass).permits (ask 2 0 []) 2 ∧ (up .bypass).mgmt.staging = none ∧
      (staged .bypass 3 31 []).permits (ask 3 31 []) 3 ∧
      (staged .bypass 3 31 []).mgmt.staging = some { tag := 9, table := 3, index := 31, half := [], deadline := 5000 } ∧
      (ask 3 31 []).tag = 9 ∧ (ask 3 31 []).ix = 31 ∧ (staged .bypass 0x3 31 []).secondBusy (ask 0x13 31 []) = false ∧
      (ask 0x13 31 []).namesState = true ∧ readLine [] [] = none ∧ readZone [] [] = none ∧ readTrip [] [] = none ∧
      readDoor [] [] = none ∧
      2 ≤ (((staged .bypass 3 31 []).modZone 31 fun r => { r with level := .alarm }).zone 31).level.rank ∧
      (((staged .bypass 2 11 []).modLine 11 fun r => { r with state := .shut }).line 11).state ≠ .normal ∧
      (((staged .bypass 5 23 []).modDoor 23 fun r => { r with state := .closed }).door 23).state ≠ .unknown := by
  unfold State.permits; decide +kernel

/-- The halves of the default entries of each two-half table. -/
def lineHalves : List (List Byte) := ({} : LineCfg).write
def zoneHalves : List (List Byte) := ({} : ZoneCfg).write
def tripHalves : List (List Byte) := ({} : TripCfg).write
def doorHalves : List (List Byte) := ({} : DoorCfg).write

theorem test_meets_LineWritten :
    (staged .protect 2 11 lineHalves[0]!).permits (ask 2 11 lineHalves[1]!) 2 ∧
      (ask 2 11 lineHalves[1]!).namesState = false ∧ (staged .protect 2 11 lineHalves[0]!).mgmt.commit = none ∧
      ((staged .protect 2 11 lineHalves[0]!).line 11).state = .normal ∧
      ((staged .protect 2 11 lineHalves[0]!).line 11).tracks = [] ∧ readLine lineHalves[0]! lineHalves[1]! = some {} ∧
      lineOk (up .protect).pointCfg ((up .protect).membersOf 11) {} = true ∧
      lineOk (put 0 { cfg := { valveCfg with line := some 11, position := some 6001 } } (up .protect)).pointCfg
        ((put 0 { cfg := { valveCfg with line := some 11, position := some 6001 } } (up .protect)).membersOf 11) {} = false := by
  unfold State.permits; decide +kernel

theorem test_meets_ZoneWritten :
    (staged .protect 3 31 zoneHalves[0]!).permits (ask 3 31 zoneHalves[1]!) 3 ∧
      (ask 3 31 zoneHalves[1]!).namesState = false ∧
      (((staged .protect 3 31 zoneHalves[0]!).modZone 31 fun r => { r with level := .watch }).zone 31).level.rank < 2 ∧
      readZone zoneHalves[0]! zoneHalves[1]! = some {} ∧
      ((staged .protect 3 31 zoneHalves[0]!).zone 31).cfg.slotLength = ({} : ZoneCfg).slotLength ∧
      readZone [60, 5, 5, 1] zoneHalves[1]! = some { slotLength := 60, divert := none, shut := none, escape := .watch } ∧
      ((staged .protect 3 31 [60, 5, 5, 1]).zone 31).cfg.slotLength ≠ 60 := by
  unfold State.permits; decide +kernel

theorem test_meets_TripWritten :
    (staged .protect 4 63 tripHalves[0]!).permits (ask 4 63 tripHalves[1]!) 4 ∧
      (ask 4 63 tripHalves[1]!).namesState = false ∧ readTrip tripHalves[0]! tripHalves[1]! = some {} := by
  unfold State.permits; decide +kernel

/-- A door of zone 0 whose door point 4 reports a code, in a mode, with its entry staged. -/
def doorState (m : Mode) (code : Option Code) (level : Level) : State :=
  (put 4 { cfg := doorCfg, drive := { reported := code } }
    (staged m 5 23 (DoorCfg.write { point := some 4 })[0]!)).modZone 0 fun r => { r with level := level }

theorem test_meets_DoorWritten :
    (doorState .protect none .quiet).permits (ask 5 23 doorHalves[1]!) 5 ∧ (ask 5 23 doorHalves[1]!).namesState = false ∧
      ((doorState .protect none .quiet).door 23).state = .unknown ∧
      readDoor (DoorCfg.write { point := some 4 })[0]! doorHalves[1]! = some { point := some 4 } ∧
      doorOk (doorState .protect none .quiet).pointCfg (doorState .protect none .quiet).doorCfg 23 { point := some 4 } = true ∧
      doorOk (up .protect).pointCfg (up .protect).doorCfg 23 { point := some 4 } = false ∧
      ((doorState .protect none .quiet).modDoor 23 fun r => { r with cfg := { point := some 4 } }).closeStands 23 = false ∧
      ((doorState .protect none .fire).modDoor 23 fun r => { r with cfg := { point := some 4 } }).doorActive 23 = true ∧
      ((doorState .protect none .fire).modDoor 23 fun r => { r with cfg := { point := some 4 } }).closeStands 23 = true := by
  unfold State.permits; decide +kernel

theorem test_meets_NotDueChangesNothing :
    (up .bypass).triggers = [] ∧ (up .bypass).mode = .bypass ∧ plantEvent .tick = true ∧ (up .observe).mode ≠ .loading ∧
      due (249 : Time) State.reset.mgmt.loadingAt = false ∧ due (4999 : Time) (some 5000) = false ∧
      reached (4999 : Time) 5000 = false ∧ (4999 : Time).toNat % 1000 ≠ 0 ∧ elapsed (1999 : Time) 0 < 2000 ∧
      (∀ e, ({ up .observe with strikes := [⟨5001, 0, 0, 0, false⟩] } : State).strikes.head? = some e →
        reached (up .observe).clock e.fire = false) ∧
      (up .observe).port.sending = none ∧ ((up .observe).input 7).raw = false := by
  refine ⟨rfl, rfl, rfl, by decide, by decide +kernel, by decide, by decide, by decide, by decide, ?_, rfl, by decide +kernel⟩
  intro e he; cases he; decide

theorem test_meets_RestUntouched :
    sweeping .tick = false ∧ sweeping (.write (ask 2 0 [])) = false ∧ sweeping (.write (ask 1 0 [])) = true ∧
      sweeping (.clearCounters (ask 1 0 [])) = false ∧ ∃ t, exec .tick (up .protect) = .next t := by
  refine ⟨rfl, by decide, by decide, by decide, _, rfl⟩

/-- The port is sending, the routine head has waited 51 ms or 50 ms, and a frame waits to be passed on. -/
def busyPort (joined : Time) : State :=
  { up .protect with port := { sending := some frame, routine := [⟨frame, joined⟩], through := [frame] } }

theorem test_meets_PortChooses :
    (busyPort 4949).port.sending ≠ none ∧ (busyPort 4949).port.urgent = [] ∧
      (busyPort 4949).port.routine = [⟨frame, 4949⟩] ∧ 50 < elapsed (busyPort 4949).clock 4949 ∧
      elapsed (busyPort 4950).clock 4950 ≤ 50 ∧ (busyPort 4950).port.through = [frame] ∧
      (up .protect).port.sending = none ∧ (up .protect).port.urgent = [] ∧ (up .protect).port.routine = [] ∧
      (up .protect).port.through = [] := by
  decide +kernel

theorem test_meets_LoopDeadlines :
    reached (up .protect).clock (5000 : Time) = true ∧ due (up .protect).clock (some 5000) = true ∧
      ({ up .protect with port := { returns := [⟨frame, 5000⟩], silenceAt := some 5000 } } : State).port.downstreamOpen = false ∧
      ({ up .protect with port := { returns := [⟨frame, 5000⟩], silenceAt := some 5000 } } : State).port.upstreamLost = false ∧
      (up .protect).active = true ∧ (up .bypass).active = false ∧
      (((up .protect).modLine 11 fun r => { r with cfg := { blindShut := true } }).line 11).cfg.blindShut = true := by
  decide +kernel

/-- A frame of another station that is no report, a report of it, and the same with a bad value. -/
def foreign : Frame := { frame with src := 9 }
def sparkFrame (payload : List Byte) : Frame := { dst := 0, src := 10, kind := 2, channel := 0, payload }

theorem test_meets_FramesSorted :
    readFrame [1, 2, 3] = none ∧ readFrame frame.bytes = some frame ∧ frame.src = (up .protect).device.own ∧
      (up .protect).mode ≠ .loading ∧ (up .protect).port.upstreamLost = false ∧
      (⟨frame, 6000⟩ : Return).matchedBy frame = true ∧ (⟨{ frame with channel := 4 }, 6000⟩ : Return).matchedBy frame = false ∧
      readFrame foreign.bytes = some foreign ∧ foreign.src ≠ (up .protect).device.own ∧
      (up .protect).port.previous = none ∧ foreign.kind ≠ 10 ∧ foreign.isReport = false := by
  decide +kernel

theorem test_meets_ReportsCounted :
    readFrame (sparkFrame [1]).bytes = some (sparkFrame [1]) ∧ (up .observe).active = true ∧
      (up .observe).port.upstreamLost = false ∧ (sparkFrame [1]).src ≠ (up .observe).device.own ∧
      (sparkFrame [1]).isReport = true ∧ (up .observe).findPoint 10 0 = none ∧
      (put 7 { cfg := sparkCfg } (up .observe)).findPoint 10 0 = some 7 ∧ readReport .spark 2 [0] = none ∧
      readReport .spark 2 [1] ≠ none := by
  decide +kernel

theorem test_meets_FramesRoundTrip :
    ({ frame with src := 126, payload := List.replicate 24 255 } : Frame).payload.length ≤ 24 ∧ (126 : Byte) ≠ 0 ∧
      (126 : Byte) ≠ 127 ∧
      readFrame ({ frame with src := 126, payload := List.replicate 24 255 } : Frame).bytes =
        some { frame with src := 126, payload := List.replicate 24 255 } := by
  decide +kernel

theorem test_meets_CountersCleared :
    (up .bypass).permits (ask 0 0 []) 0 ∧ (up .bypass).permits (ask 1 255 []) 1 ∧ (up .bypass).permits (ask 2 11 []) 2 ∧
      (up .bypass).permits (ask 3 31 []) 3 ∧ (up .bypass).permits (ask 4 63 []) 4 ∧ (up .bypass).permits (ask 5 23 []) 5 ∧
      (up .bypass).permits (ask 6 7 []) 6 ∧ (up .bypass).permits (ask 7 7 []) 7 ∧ (queued 16).permits (ask 0 0 []) 0 ∧
      (queued 16).port.sending ≠ none := by
  unfold State.permits; decide +kernel

/-- A zone at Fire, with a call point of zone 3 whose contact is Active. -/
def calledState : State := put 200 { cfg := callCfg, contact := some true } (up .protect)
def fireState : State := (up .protect).modZone 31 fun r => { r with level := .fire }

theorem test_meets_ZoneReset :
    (up .bypass).permits (ask 3 31 []) 3 ∧ calledState.permits (ask 3 3 []) 3 ∧ calledState.active = true ∧
      (calledState.point 200).cfg.kind = .call ∧ (calledState.point 200).cfg.zone = some 3 ∧
      (calledState.point 200).contact = some true ∧ (openState .protect).permits (ask 3 0 []) 3 ∧
      0 ∈ ((openState .protect).membersOf 0).serves ∧ 9 ∈ ((openState .protect).membersOf 0).valves := by
  unfold State.permits; decide +kernel

theorem test_meets_ZoneReset_accepted :
    (fireState.permits (ask 3 31 []) 3 ∧ fireState.triggers = [] ∧ fireState.active = true ∧
      (fireState.zone 31).level ≠ .quiet ∧ (fireState.zone 30).level = .quiet) ∧ fireState.tablesInRange ∧
      (∀ i, (fireState.point i).cfg.kind ≠ .flame ∧ (fireState.point i).cfg.kind ≠ .call) ∧
      (∀ l, 31 ∉ (fireState.membersOf l).serves ∧ 30 ∉ (fireState.membersOf l).serves) ∧
      ∀ k, (fireState.trip k).cfg.trigger ≠ .levelChange 31 := by
  refine ⟨?_, ?_, ?_, ?_, ?_⟩
  · unfold State.permits; decide +kernel
  · unfold State.tablesInRange; decide +kernel
  all_goals decide +kernel

/-- Line 0, which serves zone 0, in a state, with zone 0 at a level. -/
def lineState (m : Mode) (st : LineState) (n : Level) : State :=
  ((put 8 { cfg := sparkCfg } (put 5 { cfg := gateCfg } (put 6 { cfg := fanCfg } (up m)))).modLine 0 fun r =>
    { r with state := st, gateTravelAt := some 5000, runDownAt := some 5000 }).modZone 0 fun r => { r with level := n }

theorem test_meets_LineReleased :
    (lineState .bypass .shut .quiet).permits (ask 2 0 []) 2 ∧ ((lineState .protect .diverting .quiet).line 0).state = .diverting ∧
      (lineState .protect .normal .quiet).active = true ∧ ((lineState .protect .normal .quiet).line 0).state = .normal ∧
      0 ∈ ((lineState .protect .diverted .alarm).membersOf 0).serves ∧
      ((lineState .protect .diverted .alarm).zone 0).level.reaches
        ((lineState .protect .diverted .alarm).zone 0).cfg.divert = true ∧
      (∀ z ∈ ((lineState .protect .shut .alarm).membersOf 0).serves, ((lineState .protect .shut .alarm).zone z).level.reaches
        ((lineState .protect .shut .alarm).zone z).cfg.shut = false) ∧
      ∀ v ∈ ((lineState .protect .shut .alarm).membersOf 0).valves,
        ((lineState .protect .shut .alarm).point v).valve.state ≠ .opened := by
  unfold State.permits; decide +kernel

/-- Door 23 over door point 4, in a state, its three deadlines at 5000 ms. -/
def doorIn (m : Mode) (st : DoorState) (close : Bool) (code : Option Code) : State :=
  (put 4 { cfg := doorCfg, drive := { reported := code } } (up m)).modDoor 23 fun r =>
    { r with
      cfg := { point := some 4 }, state := st, closeRequest := close, runOutAt := some 5000, clearingAt := some 5000
      closingAt := some 5000 }

theorem test_meets_DoorRestored :
    (up .protect).permits (ask 5 23 []) 5 ∧ (up .protect).doorActive 23 = false ∧
      (doorIn .protect .clearing false none).doorActive 23 = true ∧
      ((doorIn .protect .clearing false none).door 23).state = .clearing ∧
      ((doorIn .protect .closed true none).door 23).closeRequest = true ∧
      ((doorIn .protect .closed false (some .opened)).door 23).closeRequest = false ∧
      (doorIn .protect .closed false (some .opened)).doorReported 23 = some .opened ∧
      (doorIn .protect .closed false none).doorReported 23 ≠ some .opened ∧
      (doorIn .protect .closed false none).active = true := by
  unfold State.permits; decide +kernel

/-- Siren group 7 in a phase, a cadence with an end sounding until 5000 ms. -/
def groupIn (m : Mode) (p : Phase) (silenced : Option Nat) (ends : Option Time) : State :=
  { up m with
    groups := (up m).groups.set 7
      { cfg := { outputs := 128, test := some 0 }, phase := p, winner := some (0, 0), sounding := some 0, endAt := ends
        silencedRank := silenced, engineOn := true, phaseAt := some 5000 }
    cadences := (up m).cadences.set 0 { cycles := 3 } }

theorem test_meets_SirensCommanded :
    (up .bypass).permits (ask 6 7 []) 6 ∧ ((up .protect).group 7).phase = .idle ∧
      ((groupIn .protect .sounding (some 1) none).group 7).silencedRank ≠ none ∧
      ((groupIn .protect .sounding none none).group 7).sounding = some 0 ∧
      ((groupIn .protect .sounding none none).group 7).endAt = none ∧
      ((groupIn .protect .sounding none none).cadence 0).cycles ≠ 0 ∧
      ((groupIn .protect .sounding none (some 5000)).group 7).endAt ≠ none ∧
      ((groupIn .protect .sounding none (some 5000)).group 7).phase = .sounding ∧
      ((groupIn .protect .allClear none none).group 7).phase = .allClear ∧
      (groupIn .protect .allClear none none).permits (ask 6 7 []) 6 ∧ ((up .protect).group 7).cfg.test = none ∧
      ((groupIn .protect .idle none none).group 7).cfg.test = some 0 := by
  unfold State.permits; decide +kernel

/-- An airflow sensor with a fresh sample that arrived 2000 ms ago. -/
def sampledState : State := put 255 { cfg := airCfg, sample := some { speed := 600, arrival := 3000, fresh := true } } (up .protect)

theorem test_meets_SampleExpires :
    sampledState.active = true ∧ sampledState.triggers = [] ∧ (sampledState.point 255).cfg.line = some 0 ∧
      (sampledState.point 255).sample = some { speed := 600, arrival := 3000, fresh := true } ∧
      2000 ≤ elapsed sampledState.clock 3000 := by
  decide +kernel

/-- A record of line 11, in flight, that ends at a time. -/
def track (n : Cyc) (e : Time) : Track :=
  { number := n, origin := 0, originPosition := 100, detected := 4000, speed := 200, state := .inFlight
    target := none, lastMatched := none, endTime := e }

def trackedState : State :=
  (up .protect).modLine 11 fun r => { r with tracks := [track 0 5000, track 1 5000, track 2 6000], retireAt := some 5000 }

theorem test_meets_RecordsRetire :
    trackedState.active = true ∧ due trackedState.clock (trackedState.line 11).retireAt = true ∧
      (trackedState.line 11).tracks = [track 0 5000, track 1 5000, track 2 6000] := by
  decide +kernel

/-- A strike of the valve 9 that fires now, the valve in a state. -/
def strikingState (st : ValveState) : State :=
  { put 9 { cfg := valveCfg, valve := { state := st, holdAt := some 5000, recoveryAt := some 5000, feedbackAt := some 5000 } }
      (up .protect) with
    strikes := [⟨5000, 9, 0, 255, false⟩] }

theorem test_meets_StrikeFires :
    (strikingState .closed).active = true ∧ (strikingState .closed).strikes = [⟨5000, 9, 0, 255, false⟩] ∧
      reached (strikingState .closed).clock 5000 = true ∧ ((strikingState .closed).point 9).valve.state = .closed ∧
      ((strikingState .opened).point 9).valve.state = .opened ∧
      ((strikingState .recovering).point 9).valve.state = .recovering := by
  decide +kernel

theorem test_meets_ValveDeadlines :
    due (strikingState .opened).clock ((strikingState .opened).point 9).valve.holdAt = true ∧
      due (strikingState .recovering).clock ((strikingState .recovering).point 9).valve.recoveryAt = true ∧
      due (strikingState .closed).clock ((strikingState .closed).point 9).valve.feedbackAt = true ∧
      (strikingState .closed).mode = .protect ∧ ((strikingState .closed).point 9).drive.commanded = none ∧
      Requested.closed.matchedBy 5000 (some 0) .opened = false := by
  decide +kernel

theorem test_meets_SlotTurns :
    (up .protect).active = true ∧ (up .protect).triggers = [] ∧
      (((up .protect).modZone 31 fun r => { r with slotEndAt := some 5000, current := 7 }).zone 31).slotEndAt = some 5000 ∧
      (up .protect).clock.toNat % 1000 = 0 ∧ (∀ k, ((up .protect).trip k).cfg.trigger ≠ .slotEnd 31) ∧
      ∀ k, ((up .protect).trip k).cfg.mode = .off := by
  decide +kernel

theorem test_meets_TripEvaluated :
    ((up .protect).trip 63).cfg.mode = .off ∧
      (((up .protect).modTrip 63 fun r => { r with baseline := some true, cfg := { r.cfg with mode := .edge } }).trip 63).baseline =
        some true ∧
      (put 3 { cfg := outputCfg } (up .protect)).outputPoint 7 = some 3 ∧
      ((put 3 { cfg := outputCfg } (up .protect)).point 3).cfg.kind = .output ∧
      (∀ i, (up .protect).outputPoint 7 = some i → ((up .protect).point i).cfg.kind ≠ .output) ∧
      Level.fire.rank ≤ (fireState.zone 31).level.rank ∧ (fireState.zone 31).level.rank < Level.evacuate.rank := by
  decide +kernel

/-- The valve at 300 dm, and line 0 with 16 records, or in Flood. -/
def fullState : State := (strikingState .closed).modLine 0 fun r => { r with tracks := List.replicate 16 (track 0 6000) }
def floodedState : State := (strikingState .closed).modLine 0 fun r => { r with flood := true }

theorem test_meets_DetectionCases :
    16 ≤ (fullState.line 0).tracks.length ∧ (floodedState.line 0).tracks.length < 16 ∧ (floodedState.line 0).storm = false ∧
      (floodedState.line 0).flood = true ∧ ((strikingState .closed).line 0).flood = false ∧
      ((strikingState .closed).line 0).storm = false ∧ ((strikingState .closed).line 0).tracks.length < 16 ∧
      ((strikingState .closed).membersOf 0).valves = [9] ∧ 270 ≤ ((strikingState .closed).point 9).cfg.pos ∧
      ((strikingState .closed).point 9).cfg.arming.getD 0 ≤ ((strikingState .closed).point 9).cfg.pos - 270 ∧
      ¬((strikingState .closed).point 9).cfg.arming.getD 0 ≤ ((strikingState .closed).point 9).cfg.pos - 271 ∧
      reached (5000 : Time) 5000 = true ∧ reached (5000 : Time) 5001 = false ∧ (strikingState .closed).strikes.length < 32 := by
  decide +kernel

theorem test_meets_LineDeadlines :
    (lineState .protect .diverting .quiet).active = true ∧ ((lineState .protect .diverting .quiet).line 0).state = .diverting ∧
      due (lineState .protect .diverting .quiet).clock ((lineState .protect .diverting .quiet).line 0).gateTravelAt = true ∧
      ((lineState .protect .stopping .quiet).line 0).state = .stopping ∧
      due (lineState .protect .stopping .quiet).clock ((lineState .protect .stopping .quiet).line 0).runDownAt = true ∧
      ((lineState .protect .diverting .quiet).point 6).drive.reported ≠ some .stopped := by
  decide +kernel

theorem test_meets_DoorDeadlines :
    (doorIn .protect .clearing true none).active = true ∧ (doorIn .protect .clearing true none).doorActive 23 = true ∧
      ((doorIn .protect .clearing true none).door 23).state = .clearing ∧
      due (doorIn .protect .clearing true none).clock ((doorIn .protect .clearing true none).door 23).runOutAt = true ∧
      due (doorIn .protect .clearing true none).clock ((doorIn .protect .clearing true none).door 23).clearingAt = true ∧
      ((doorIn .protect .releasing true none).door 23).state = .releasing ∧
      due (doorIn .protect .releasing true none).clock ((doorIn .protect .releasing true none).door 23).closingAt = true := by
  decide +kernel

theorem test_meets_SirenDeadlines :
    (groupIn .protect .sounding none (some 5000)).active = true ∧
      ((groupIn .protect .sounding none (some 5000)).group 7).sounding = some 0 ∧
      ((groupIn .protect .sounding none (some 5000)).group 7).phaseAt = some 5000 ∧
      reached (groupIn .protect .sounding none (some 5000)).clock 5000 = true ∧
      ((groupIn .protect .sounding none (some 5000)).group 7).engineOn = true ∧
      ((groupIn .protect .sounding none (some 5000)).cadence 0).off ≠ 0 ∧
      due (groupIn .protect .test none (some 5000)).clock ((groupIn .protect .test none (some 5000)).group 7).endAt = true := by
  decide +kernel

/-- Input I1 with a debounce time of 20 ms, and the call point of I2 without one, each pin On, its wait over now. -/
def pinState (m : Mode) : State :=
  (put 8 { cfg := callCfg } (put 7 { cfg := inputCfg } (up m))).modInput 1 fun r =>
    { r with raw := true, debounceAt := some 5000 }

theorem test_meets_InputsDebounced :
    (pinState .protect).triggers = [] ∧ ((pinState .protect).input 0).raw ≠ true ∧ ((pinState .protect).input 0).level ≠ true ∧
      (pinState .protect).inputPoint 0 = some 7 ∧ ((pinState .protect).point 7).cfg.debounce.getD 0 ≠ 0 ∧
      (pinState .protect).inputPoint 1 = some 8 ∧ ((pinState .protect).point 8).cfg.debounce.getD 0 = 0 ∧
      ((pinState .protect).point 8).cfg.kind = .call ∧ ((pinState .protect).point 8).cfg.zone = some 3 ∧
      ((pinState .protect).input 1).raw = true ∧
      due (pinState .protect).clock ((pinState .protect).input 1).debounceAt = true ∧ (pinState .protect).mode ≠ .loading ∧
      (∀ k, ((pinState .protect).trip k).cfg.trigger ≠ .inputEdge 1) := by
  decide +kernel

/-- The valve 9 commanded Open while it reports Closed, its drive deadlines at 5000 ms, its last word 10 s ago. -/
def differing : State :=
  put 9
    { cfg := valveCfg
      drive :=
        { commanded := some .opened, lastCommand := some 4000, reported := some .closed, repeatAt := some 5000
          disagreeAt := some 5000, lastHeard := some (BitVec.ofInt 32 (-5000)) } }
    (up .protect)

theorem test_meets_DriveDeadlines :
    differing.isLoop 9 = true ∧ differing.mode = .protect ∧ due differing.clock (differing.point 9).drive.repeatAt = true ∧
      due differing.clock (differing.point 9).drive.disagreeAt = true ∧
      (differing.point 9).drive.commanded = some .opened ∧ Requested.opened.reconciled = true ∧
      (differing.point 9).drive.reported = some .closed ∧
      Requested.opened.matchedBy differing.clock (some 4000) .closed = false ∧ differing.commandsTimed ∧
      Requested.opened.matchedBy differing.clock (some 4000) .opened = true ∧
      (differing.point 9).cfg.supervision = some 10 ∧ (differing.point 9).drive.unsupervised = false ∧
      10 * 1000 ≤ elapsed differing.clock (BitVec.ofInt 32 (-5000)) ∧ (differing.point 9).drive.pollPlaced = none := by
  unfold State.commandsTimed; decide +kernel

theorem test_meets_CommandIssued :
    (put 3 { cfg := outputCfg } (up .observe)).isLocal 3 = true ∧ (strikingState .closed).isLocal 9 = false ∧
      (strikingState .closed).mode = .protect ∧ (openState .bypass).isLocal 9 = false ∧
      (openState .observe).isLocal 9 = false ∧ ((lineState .protect .normal .quiet).point 6).drive.claims = [] ∧
      ([Claim.line 0] : List Claim).filter (· != .line 0) = [] ∧
      ([Claim.line 0, .door 1] : List Claim).filter (· != .line 0) ≠ [] := by
  decide +kernel

theorem test_meets_FaultsCounted :
    (up .protect).active = true ∧ (up .bypass).active = false ∧ ∀ z, ((up .protect).zone z).faults = 0 := by
  decide +kernel

/-! ## States for the further clauses of the statements -/

/-- The valve 255 of line 0, in tables that keep every check. -/
def valveState : State := put 255 { cfg := valveCfg, drive := { commanded := some .closed, lastCommand := some 0 } } (up .protect)

theorem test_meets_TablesKept_lines :
    valveState.mapsFollow ∧ valveState.linesFit ∧ (valveState.membersOf 0).valves = [255] := by
  refine ⟨?_, ?_, by decide +kernel⟩
  · unfold State.mapsFollow; decide +kernel
  · unfold State.linesFit Members.Fit; decide +kernel

theorem test_meets_TablesKept_distinct : (up .protect).tablesDistinct := by
  have none_named : ∀ d, ((up .protect).door d).cfg.point = none := by decide +kernel
  refine ⟨fun d e _ i h => ?_, by decide +kernel, by decide +kernel⟩
  rw [none_named d] at h
  cases h

/-- The valve 9, out of place, and the point 8 with a Disagree that has no ground, a poll of it placed long ago. -/
def entering : State :=
  put 8 { cfg := { sparkCfg with line := none, position := none }
          drive := { disagree := true, pollPlaced := some 0 } }
    (put 9
      { cfg := valveCfg
        drive := { commanded := some .opened, lastCommand := some 4000, reported := some .closed, pollPlaced := some 4999 } }
      (up .observe))

theorem test_meets_SetModeChanges_entry :
    entering.permits (ask 0 0 [3]) 0 ∧ ¬entering.alarmed ∧ (∀ i, (entering.point i).valve.state = .closed) ∧
      entering.commandsTimed ∧ entering.isLoop 9 = true ∧ (entering.point 9).drive.commanded = some .opened ∧
      Requested.opened.matchedBy entering.clock (some 4000) .closed = false ∧ entering.isLoop 8 = true ∧
      (entering.point 8).drive.commanded = none ∧ (entering.point 8).drive.disagree = true ∧
      (entering.point 9).cfg.kind = .valve ∧ entering.permits (ask 0 0 [1]) 0 ∧
      10 * 1000 / 2 ≤ elapsed entering.clock 0 ∧ elapsed entering.clock 4999 < 10 * 1000 / 2 := by
  unfold State.permits State.alarmed State.commandsTimed; decide +kernel

theorem test_meets_CommitEnds_late : overdue (5001 : Time) (some 5000) = true ∧ ReadBack.correct = .correct := by
  decide +kernel

/-- A strike in the list, a record on line 11, the valve 9 on line 0, an output point whose pin Q8 is driven. -/
def readState : State :=
  { put 3 { cfg := outputCfg, drive := { commanded := some .outOn } } (strikingState .closed) with
    lines := (up .protect).lines.set 11 { tracks := [track 0 5000] }, outputs := Vector.ofFn fun q => q == 7 }

theorem test_meets_ReadReplies_sections :
    readState.strikes[0]? = some ⟨5000, 9, 0, 255, false⟩ ∧ readState.strikes[31]? = none ∧
      (readState.point 255).cfg.kind = .unused ∧ (readState.point 9).cfg.kind ≠ .unused ∧
      (readState.point 9).drive.commanded = none ∧ readState.isLoop 9 = true ∧ readState.isLoop 3 = false ∧
      (readState.point 3).drive.commanded = some .outOn ∧ (readState.point 3).cfg.kind = .output ∧
      (readState.point 3).cfg.channel = BitVec.ofNat 8 (8 + (7 : OutputIx).val) ∧
      (readState.line 11).tracks[0]? = some (track 0 5000) ∧ (readState.membersOf 0).valves[0]? = some 9 ∧
      reached (5000 : Time) 5000 = true ∧ reached (5000 : Time) 5001 = false ∧
      (differing.point 9).drive.commanded = some .opened := by
  decide +kernel

theorem test_meets_ReadGroupReplies_sections :
    (ask 0x76 7 [2]).namesState = true ∧ (ask 0x76 7 [2]).reservedSet = false ∧ (ask 0x76 7 [2]).groupSize = 8 ∧
      (ask 0x76 7 [2]).ix / 8 * 8 + 8 ≤ tableSize (ask 0x76 7 [2]).table ∧ 8 ≤ (queued 8).routineFree ∧
      (queued 9).routineFree < 8 ∧ (queued 8).section? (ask 0x76 7 [3]).table 7 3 = none ∧ (ask 0x16 7 [2]).groupSize = 1 ∧
      ((List.range 8).map fun i => (queued 8).section? 6 i 2) = (List.replicate 8 (List.replicate 16 255)).map some := by
  decide +kernel

theorem test_meets_WritesRefused_door :
    (doorIn .protect .closed false none).permits (ask 1 4 []) 1 ∧
      ((doorIn .protect .closed false none).door 23).cfg.point = some 4 ∧
      ((doorIn .protect .closed false none).point 4).cfg.kind = .door ∧
      ((doorIn .protect .closed false none).door 23).state = .closed ∧ (valveData.take 4).length ≤ 4 ∧
      kindOf 5 = some .valve ∧ PointKind.valve.hasLine = true ∧ valveData[4]? = some 11 ∧
      newLine [5, 11, 0, 0, 12] = none := by
  unfold State.permits; decide +kernel

/-- The bytes of the call point of I2. -/
def callData : List Byte := callCfg.write

theorem test_meets_PointWritten_running :
    ((strikingState .closed).permits (ask 1 9 callData) 1 ∧ (ask 1 9 callData).namesState = false ∧
      readPoint callData = some callCfg ∧ (strikingState .closed).pointBusy 9 callData = false ∧
      (strikingState .closed).pointOk 9 callCfg = true ∧ (strikingState .closed).active = true ∧
      (∀ d, ((strikingState .closed).door d).cfg.point ≠ some 9) ∧ ((strikingState .closed).point 9).cfg.kind = .valve ∧
      callCfg.station = (strikingState .closed).device.own ∧ callCfg.channel = BitVec.ofNat 8 (1 : InputIx).val) ∧
      (strikingState .closed).mapsFollow := by
  refine ⟨?_, ?_⟩
  · unfold State.permits; decide +kernel
  · unfold State.mapsFollow; decide +kernel

theorem test_meets_PointChecked_valves :
    (put 3 { cfg := valveCfg } (up .bypass)).pointOk 0 { valveCfg with station := 20, position := some 6000 } = true ∧
      (put 3 { cfg := valveCfg } (up .bypass)).pointOk 0 { valveCfg with station := 20 } = false ∧
      (put 3 { cfg := valveCfg } (up .bypass)).pointOk 0 { valveCfg with station := 20, position := some 6001 } = false := by
  decide +kernel

/-- Siren group 7 over the loop siren 4 and the local siren of Q8, its zone 31 asking for cadence 0, which sounds. -/
def requested (m : Mode) (p : Phase) (silenced : Option Nat) (winner : Option (ZoneIx × CadenceIx)) : State :=
  { put 5 { cfg := { kind := .siren, station := 125, channel := 15, zone := some 0 } } (put 4 { cfg := sirenCfg } (up m)) with
    groups := (up m).groups.set 7
      { cfg := { sirens := [4], outputs := 128, allClear := some 1 }, phase := p, winner
        requests := (Vector.replicate 32 none).set 31 (some 0), sounding := some 0, endAt := some 6000
        silencedRank := silenced, engineOn := true, phaseAt := some 5000 } }

theorem test_meets_GroupWritten_sounding :
    (requested .protect .sounding none (some (31, 0))).permits (ask 6 7 groupData) 6 ∧
      groupOk (requested .protect .sounding none none).device.own (requested .protect .sounding none none).pointCfg
        (requested .protect .sounding none none).groupCfg 7 { outputs := 128, allClear := some 7 } = true ∧
      ((requested .protect .sounding none none).group 7).requests[(31 : ZoneIx).val] ≠ none ∧
      (requested .protect .sounding none none).bestRequest 7 = some (31, 0) ∧
      (requested .protect .sounding none none).loopSirens 7 = [4] ∧
      (requested .protect .sounding none none).enginePoints 7 = [5] := by
  unfold State.permits; decide +kernel

theorem test_meets_CadenceWritten_playing :
    (requested .protect .sounding none (some (31, 0))).permits (ask 7 0 [15, 1, 0, 0, 3]) 7 ∧
      ((requested .protect .sounding none (some (31, 0))).group 7).sounding = some 0 ∧
      ((requested .protect .sounding none (some (31, 0))).group 7).endAt ≠ none ∧
      (requested .protect .sounding none (some (31, 0))).bestRequest 7 = some (31, 0) ∧
      ((requested .protect .sounding none (some (31, 0))).group 7).winner = some (31, 0) ∧
      ((requested .protect .sounding none (some (0, 0))).group 7).winner ≠ some (31, 0) ∧
      ((up .protect).group 6).sounding ≠ some 0 ∧ (up .protect).bestRequest 6 = none := by
  unfold State.permits; decide +kernel

theorem test_meets_ZoneWritten_moving :
    let s := (staged .protect 3 31 zoneHalves[0]!).modZone 31 fun r => { r with level := .watch, cfg := { group := some 7 } }
    s.permits (ask 3 31 (ZoneCfg.write { group := some 6, watchCadence := some 5 })[1]!) 3 ∧ s.active = true ∧
      readZone zoneHalves[0]! (ZoneCfg.write { group := some 6, watchCadence := some 5 })[1]! =
        some { group := some 6, watchCadence := some 5 } ∧
      (s.zone 31).cfg.group = some 7 ∧ (s.zone 31).level = .watch ∧ (s.zone 31).level.rank < 2 := by
  unfold State.permits; decide +kernel

theorem test_meets_LoopDeadlines_bypass :
    let s := { up .bypass with port := { returns := [⟨frame, 5000⟩], silenceAt := some 5000 } }
    (s : State).mode = .bypass ∧ s.port.upstreamLost = false ∧ due s.clock s.port.silenceAt = true ∧
      s.port.returns = [⟨frame, 5000⟩] ∧
      ({ up .protect with port := { upstreamLost := true, downstreamOpen := true } } : State).port.upstreamLost = true := by
  decide +kernel

/-- A Request of the supervisor to the part, and a port that has lost its upstream, with a previous own station 9. -/
def requestFrame (payload : List Byte) : Frame := { dst := 125, src := 1, kind := 10, channel := 0, payload }
def lostState : State :=
  { up .protect with
    port := { upstreamLost := true, previous := some (9, 6000), returns := [⟨{ frame with src := 9 }, 6000⟩] } }

theorem test_meets_FramesSorted_others :
    lostState.mode ≠ .loading ∧ lostState.port.upstreamLost = true ∧ State.reset.mode = .loading ∧
      (∃ q, lostState.port.previous = some q ∧ foreign.src = q.1) ∧
      (⟨{ frame with src := 9 }, 6000⟩ : Return).matchedBy foreign = true ∧
      (∀ r ∈ lostState.port.returns, r.matchedBy { foreign with channel := 4 } = false) ∧
      readFrame (requestFrame [9, 16, 3, 31]).bytes = some (requestFrame [9, 16, 3, 31]) ∧
      (requestFrame []).kind = 10 ∧ (requestFrame []).dst = lostState.device.own ∧
      (requestFrame []).src ≠ lostState.device.own ∧ readFrame (requestFrame [9]).bytes = some (requestFrame [9]) ∧
      (requestFrame [9]).payload.length < 4 ∧ (up .protect).port.previous = none ∧
      readFrame (requestFrame [9, 25, 0, 0]).bytes = some (requestFrame [9, 25, 0, 0]) ∧
      (sparkFrame [1]).isReport = true ∧ (sparkFrame [1]).src ≠ lostState.device.own ∧ frame.isReport = false := by
  decide +kernel

theorem test_meets_ReportsCounted_kinds :
    readReport .spark 2 [1] = some (.spark 1) ∧ readReport .flame 3 [0] = some (.flame false) ∧
      readReport .airflow 4 [2, 0x58] = some (.air 600) ∧ readReport .airflow 4 [2, 0x59] = none ∧
      readReport .call 5 [1] = some (.call true) ∧ readReport .valve 6 [1, 0] = some (.status .opened false) ∧
      (strikingState .closed).findPoint 11 0 = some 9 ∧ (strikingState .closed).active = true ∧
      ((strikingState .closed).point 9).drive.reported ≠ some .opened ∧
      ((strikingState .closed).point 9).drive.obscured = false ∧
      (put 7 { cfg := sparkCfg } (up .protect)).findPoint 10 0 = some 7 ∧ sparkCfg.line = some 0 ∧ sparkCfg.zone = some 0 ∧
      (∀ i, ((up .protect).point i).cfg.kind = .unused) ∧
      ((lineState .protect .stopping .quiet).point 6).cfg.kind = .fan ∧
      ((lineState .protect .diverting .quiet).point 5).cfg.kind = .gate := by
  decide +kernel

theorem test_meets_FramesRoundTrip_tables :
    (up .bypass).device.rangesOk = true ∧ valveCfg.fits 125 = true ∧ ({} : LineCfg).rangesOk = true ∧
      ({} : ZoneCfg).rangesOk = true ∧ ({} : TripCfg).rangesOk = true ∧ ({ point := some 4 } : DoorCfg).rangesOk = true ∧
      ({ sirens := [0, 1, 2, 255] } : GroupCfg).sirens.length ≤ 4 ∧ ({} : Cadence).rangesOk = true := by
  decide +kernel

theorem test_meets_ZoneReset_raise :
    ((up .protect).zone 31).level.rank < Level.fire.rank ∧ Level.watch.rank ≤ (fireState.zone 31).level.rank ∧
      ((up .protect).zone 31).cfg.group = none ∧
      (((up .protect).modZone 31 fun r => { r with cfg := { group := some 7 } }).zone 31).cfg.group = some 7 ∧
      (∃ m, ((up .protect).zone 31).cfg.divert = some m ∧ m.rank ≤ Level.alarm.rank) ∧
      (¬∃ m, ((up .protect).zone 31).cfg.shut = some m ∧ m.rank ≤ Level.alarm.rank) ∧
      (∃ m, ((up .protect).zone 31).cfg.shut = some m ∧ m.rank ≤ Level.fire.rank) := by
  refine ⟨by decide +kernel, by decide +kernel, by decide +kernel, by decide +kernel, ⟨.alarm, by decide +kernel⟩, ?_,
    ⟨.fire, by decide +kernel⟩⟩
  rintro ⟨m, h, g⟩
  have : m = .fire := by
    have e : ((up .protect).zone 31).cfg.shut = some .fire := by decide +kernel
    rw [e] at h; exact (Option.some.inj h).symm
  subst this; exact absurd g (by decide)

theorem test_meets_SirensCommanded_requests :
    ((requested .protect .sounding none none).group 7).requests[(31 : ZoneIx).val] = some 0 ∧
      (∀ (z : ZoneIx) (c : CadenceIx), ((requested .protect .sounding none none).group 7).requests[z.val] = some c →
        z = 31 ∧ c = 0) ∧
      ((requested .protect .sounding none (some (31, 0))).group 7).winner = some (31, 0) ∧
      ((requested .protect .sounding none none).group 7).winner ≠ some (31, 0) ∧
      ((requested .protect .sounding (some 15) none).group 7).silencedRank = some 15 ∧
      ((requested .protect .sounding (some 0) none).group 7).silencedRank = some 0 ∧
      0 < ((requested .protect .sounding none none).cadence 0).rank.toNat ∧
      ((requested .protect .sounding none none).cadence 0).rank.toNat ≤ 15 ∧
      ((requested .protect .idle none none).group 7).phase = .idle ∧
      ((requested .protect .test none none).group 7).phase = .test ∧
      (∀ z : ZoneIx, ((groupIn .protect .sounding none none).group 7).requests[z.val] = none) ∧
      ((groupIn .protect .sounding none none).group 7).phase = .sounding ∧
      ((groupIn .protect .sounding none none).group 7).cfg.allClear = none ∧
      ((requested .protect .sounding none none).group 7).cfg.allClear = some 1 := by
  decide +kernel

/-- A valve that stands Faulted while a strike waits. -/
def faultedState : State :=
  (strikingState .closed).modPoint 9 fun p => { p with valve := { p.valve with faulted := true } }

theorem test_meets_StrikeFires_requests :
    reached (strikingState .closed).clock 5000 = true ∧ reached (strikingState .closed).clock 5001 = false ∧
      ({ strikingState .closed with strikes := List.replicate 32 ⟨6000, 9, 0, 1, false⟩ } : State).strikes.length = 32 ∧
      (strikingState .closed).strikes.length < 32 ∧ ((strikingState .closed).point 9).valve.faulted = false ∧
      (faultedState.point 9).valve.faulted = true ∧ faultedState.strikes.length < 32 := by
  decide +kernel

/-- The valve 9, commanded Closed and reporting a code, Faulted since its feedback deadline. -/
def testedValve (m : Mode) (code : Code) (st : ValveState) : State :=
  put 9
    { cfg := valveCfg, drive := { commanded := some .closed, lastCommand := some 0, reported := some code }
      valve := { state := st, faulted := true } }
    (up m)

theorem test_meets_ValveDeadlines_tested :
    (testedValve .protect .opened .closed).valveDisagrees 9 = true ∧
      ((testedValve .protect .opened .closed).point 9).valve.feedbackAt = none ∧
      (testedValve .protect .closed .closed).valveDisagrees 9 = false ∧
      ((testedValve .protect .closed .closed).point 9).valve.faulted = true ∧
      ((testedValve .protect .opened .closed).point 9).drive.reported = some .opened ∧
      ((testedValve .protect .opened .closed).point 9).valve.state = .closed ∧
      ((testedValve .protect .opened .closed).point 9).drive.commanded ≠ some .opened ∧
      ((testedValve .protect .opened .opened).point 9).valve.state ≠ .closed ∧
      (testedValve .observe .opened .closed).mode ≠ .protect := by
  decide +kernel

theorem test_meets_SlotTurns_triggers :
    ({ up .protect with triggers := [.tick, .slotEnd 31] } : State).triggers = Trigger.tick :: [.slotEnd 31] ∧
      (up .protect).triggers = [] := by decide

/-- A check detection at 300 dm of the record 0 that started at 100 dm, 1000 ms ago, at 200 dm/s, on line 0. -/
def checkedState (st : TrackState) (calibration : Calibration) (target : Option (PointIx × Time)) : State :=
  (put 10 { cfg := { sparkCfg with station := 20, position := some 300, role := some .check } }
    (put 9 { cfg := { valveCfg with position := some 200 } } (up .protect))).modLine 0 fun r =>
      { r with
        tracks := [{ track 0 34500 with state := st, target := target }, track 1 9000], cfg := { r.cfg with calibration } }

theorem test_meets_DetectionCases_checked :
    ((checkedState .inFlight .single none).point 10).cfg.role = some .check ∧
      ((checkedState .inFlight .single none).line 0).tracks = [] ++ track 0 34500 :: [track 1 9000] ∧
      (track 0 34500).state ≠ .passed ∧ (track 0 34500).originPosition < 300 ∧ (track 0 34500).lastMatched = none ∧
      ((5000 : Time) - ((track 0 34500).detected + BitVec.ofNat 32 ((300 - 100) * 1000 / 200))).toNat ≤
        ((checkedState .inFlight .single none).line 0).cfg.margin ∧
      ((5000 : Time) - (track 0 34500).detected).toNat = 1000 ∧ (300 - 100) * 1000 / 1000 = 200 ∧
      ((checkedState .inFlight .single none).line 0).cfg.calibration ≠ .off ∧
      ((checkedState .inFlight .off none).line 0).cfg.calibration = .off ∧
      ((checkedState .struck .single (some (9, 4500))).point 9).cfg.pos < 300 ∧
      ((checkedState .passed .single none).line 0).tracks.length = 2 ∧ sparkCfg.role ≠ some .check := by
  decide +kernel

theorem test_meets_LineDeadlines_requests :
    ((lineState .protect .normal .quiet).line 0).state = .normal ∧
      ((lineState .protect .normal .quiet).membersOf 0).gates.head? = some 5 ∧ ((up .protect).membersOf 11).gates = [] ∧
      ((up .protect).line 11).state = .normal ∧ ((lineState .protect .shut .quiet).line 0).state = .shut ∧
      ((lineState .protect .stopping .quiet).line 0).state = .stopping ∧
      ((lineState .protect .diverting .quiet).line 0).state = .diverting ∧
      (∀ i ∈ ((up .protect).membersOf 11).fans, ((up .protect).point i).drive.reported = some .stopped) ∧
      (((up .protect).modLine 11 fun r => { r with flood := true }).line 11).flood = true := by
  decide +kernel

/-- Door 23 lists the conveyor 12, whose reported state is a code; its run-out time and clearing limit are as given. -/
def listing (st : DoorState) (close : Bool) (code : Option Code) (runOut clearing : Nat) : State :=
  (put 12 { cfg := { kind := .conveyor, station := 30, channel := 0, line := some 0, supervision := some 10
                     feedback := some 10 }
            drive := { reported := code } } (doorIn .protect st close none)).modDoor 23 fun r =>
    { r with cfg := { r.cfg with conveyors := [12], runOut, clearing }, runOutAt := none }

theorem test_meets_DoorDeadlines_requests :
    (listing .opened false none 5 60).doorActive 23 = true ∧ (listing .opened false none 5 60).closeStands 23 = false ∧
      ((listing .opened false none 5 60).modZone 0 fun r => { r with level := .evacuate }).closeStands 23 = true ∧
      (listing .clearing true (some .stopped) 5 60).clearingCondition 23 = true ∧
      (listing .clearing true (some .running) 5 60).clearingCondition 23 = false ∧
      ((listing .clearing true (some .stopped) 0 60).door 23).cfg.runOut = 0 ∧
      ((listing .clearing true (some .stopped) 0 0).door 23).cfg.clearing = 0 ∧
      ((listing .clearing true (some .stopped) 5 60).door 23).runOutAt = none ∧
      ((listing .clearing true none 5 60).door 23).state = .clearing ∧
      ((doorIn .protect .closed true none).door 23).closeRequest = true ∧
      ((doorIn .protect .closed false none).door 23).closeRequest = false ∧
      ((doorIn .protect .unknown true none).door 23).state = .unknown ∧
      ((doorIn .protect .jammed true none).door 23).state = .jammed ∧
      ((doorIn .protect .restoring true none).door 23).state = .restoring ∧
      (up .protect).doorActive 23 = false := by
  decide +kernel

theorem test_meets_DriveDeadlines_tested :
    (up .bypass).mode ≠ .protect ∧ (differing.point 9).drive.repeatAt ≠ none ∧ (entering.point 9).drive.repeatAt = none ∧
      (Requested.sounding 50 50 2 0).matchedBy 5000 (some 3000) .quiet = true ∧
      (Requested.sounding 50 50 2 0).matchedBy 5000 (some 3001) .quiet = false := by
  decide +kernel

theorem test_meets_PinsFollowKept_points :
    drivenState.tablesInRange ∧ drivenState.mode = .protect ∧ (drivenState.point 0).cfg.kind ≠ .unused ∧
      (drivenState.point 0).cfg.station = drivenState.device.own ∧
      (drivenState.point 0).cfg.channel = BitVec.ofNat 8 (8 + (7 : Fin 8).val) ∧
      (drivenState.point 0).drive.commanded = some .outOn ∧
      (∀ i, (drivenState.point i).cfg.kind ≠ .unused → (drivenState.point i).cfg.channel ≠ BitVec.ofNat 8 (8 + (0 : Fin 8).val)) ∧
      (up .observe).pinsFollow ∧ (up .observe).mode ≠ .protect := by
  refine ⟨?_, by decide +kernel, by decide +kernel, by decide +kernel, by decide +kernel, by decide +kernel, by decide +kernel,
    ?_, by decide +kernel⟩
  · unfold State.tablesInRange; decide +kernel
  · unfold State.pinsFollow; decide +kernel

/-- Two spark detectors at one position before a flame detector, and a point of another line. -/
theorem test_meets_MapsFollowKept_members :
    (let cfg := fun i : PointIx =>
      if i = 9 then { sparkCfg with zone := some 31 } else if i = 200 then sparkCfg
      else if i = 3 then { sparkCfg with kind := .flame, position := some 200 } else if i = 4 then fanCfg
      else if i = 5 then { valveCfg with line := some 11 } else {}
    membersOf cfg 0 = { detectors := [9, 200, 3], fans := [4], serves := [0, 31] } ∧ (membersOf cfg 11).valves = [5] ∧
      (membersOf cfg 11).serves = []) := by
  decide +kernel

theorem test_meets_ReadReplies_config :
    (readState.point 255).cfg.write = [0] ∧ (readState.point 9).cfg.write = valveCfg.write ∧
      readState.configParts 1 255 = [[0]] ∧ readState.configParts 1 9 = [valveCfg.write] := by
  decide +kernel

/-- The bytes of the entry of a door point of another station. -/
def doorData : List Byte := { doorCfg with station := 20 }.write

/-- Door 23 over the door point 4, which may be written, its conveyor as listed. -/
def doorPointState (n : Level) : State := (listing .opened false none 5 60).modZone 0 fun r => { r with level := n }

theorem named_once : ∀ d, ((doorPointState .fire).door d).cfg.point ≠ none → d = 23 := by decide +kernel

theorem test_meets_PointWritten_doors :
    ((doorPointState .fire).permits (ask 1 4 doorData) 1 ∧ (ask 1 4 doorData).namesState = false ∧
      readPoint doorData = some { doorCfg with station := 20 } ∧ readPoint callData = some callCfg ∧
      (doorPointState .fire).pointBusy 4 doorData = false ∧
      (doorPointState .fire).pointBusy 4 callData = false ∧
      (doorPointState .fire).pointOk 4 { doorCfg with station := 20 } = true ∧
      (doorPointState .fire).pointOk 4 callCfg = true ∧ (doorPointState .fire).active = true) := by
  unfold State.permits; decide +kernel

theorem test_meets_PointWritten_tables :
    (doorPointState .fire).tablesDistinct ∧ (doorPointState .fire).mapsFollow := by
  refine ⟨⟨fun d e apart i hd he => apart ?_, by decide +kernel, by decide +kernel⟩, ?_⟩
  · rw [named_once d (by rw [hd]; nofun), named_once e (by rw [he]; nofun)]
  · unfold State.mapsFollow; decide +kernel

/-- A door that closes and one that does not, with a conveyor that has not stopped, one that has, and none. -/
theorem test_meets_PointWritten_closing :
    (let s := doorPointState .fire
     (s.door 23).cfg.point = some 4 ∧ (s.point 4).cfg.kind = .door ∧
      (s.door 23).cfg.release.rank ≤ (s.zone (s.door 23).cfg.sideA).level.rank ∧ 12 ∈ (s.door 23).cfg.conveyors ∧
      (s.point 12).cfg.kind = .conveyor ∧ (s.point 12).drive.reported ≠ some .stopped) ∧
      ¬((doorPointState .quiet).door 23).cfg.release.rank ≤ ((doorPointState .quiet).zone 0).level.rank ∧
      ((doorPointState .quiet).door 23).cfg.sideB = none ∧
      ((listing .opened false (some .stopped) 5 60).point 12).drive.reported = some .stopped ∧
      ((doorIn .protect .opened false none).door 23).cfg.conveyors = [] ∧
      (doorIn .protect .opened false none).pointBusy 4 doorData = false := by
  decide +kernel

/-- Lines whose records are all Passed, partly so, and all ended. -/
theorem test_meets_SampleExpires_flood :
    (let passed := fun (n : Cyc) e => { track n e with state := .passed }
     let mixed := [{ track 0 5000 with originPosition := 200 }, passed 1 5000, track 2 6000]
     mixed.filter (fun k => k.state ≠ .passed) = [{ track 0 5000 with originPosition := 200 }, track 2 6000] ∧
      (∀ k ∈ mixed.filter fun k => k.state ≠ .passed, (track 2 6000).originPosition ≤ k.originPosition) ∧
      ([passed 0 5000, passed 1 6000].filter fun k => k.state ≠ .passed) = [] ∧
      (∀ k ∈ mixed.filter fun k => k.state = .passed, reached (5000 : Time) k.endTime = true) ∧
      ((strikingState .closed).membersOf 0).valves = [9] ∧
      (track 2 6000).originPosition < ((strikingState .closed).point 9).cfg.position.getD 0 ∧
      ((strikingState .closed).point 9).cfg.position.getD 0 = 300) := by
  decide +kernel

/-- I1 with a flame detector of no zone on line 0, before the valve 9. -/
def flamePinState : State :=
  (put 7 { cfg := { kind := .flame, station := 125, channel := 0, debounce := some 0, line := some 0, position := some 100 } }
    (strikingState .closed)).modInput 0 fun r => { r with raw := true, debounceAt := some 5000 }

theorem test_meets_InputsDebounced_flame :
    flamePinState.active = true ∧ flamePinState.triggers = [] ∧ flamePinState.inputPoint 0 = some 7 ∧
      (flamePinState.point 7).cfg.kind = .flame ∧ (flamePinState.point 7).cfg.line = some 0 ∧
      due flamePinState.clock (flamePinState.input 0).debounceAt = true ∧
      ((flamePinState.membersOf 0).valves.filter fun v =>
        (flamePinState.point 7).cfg.position.getD 0 < (flamePinState.point v).cfg.position.getD 0) = [9] := by
  decide +kernel

theorem test_meets_FaultsCounted_notices :
    (up .protect).active = true ∧ (up .bypass).active = false ∧
      ((doorIn .protect .jammed true none).door 23).state = .jammed ∧
      ((doorIn .protect .jammed true none).zone 0).faults ≠ 1 ∧
      ((recountFaults (doorIn .protect .jammed true none)).zone 0).faults = 1 := by
  decide +kernel

/-! ## What single commands do -/

/-- R180: the check of the digits 1 to 9. -/
theorem test_crc_of_digits : crc [0x31, 0x32, 0x33, 0x34, 0x35, 0x36, 0x37, 0x38, 0x39] = 0x29B1 := by decide +kernel

/-- R1: an idle step is one millisecond, and the clock wraps. -/
theorem test_idle_step_counts : step { up .bypass with clock := 0xFFFFFFFF } = .next { up .bypass with clock := 0 } := rfl

/-- R4: an event counter stops, R3: transit times round down. -/
theorem test_arithmetic : bump 65535 = 65535 ∧ bump 65534 = 65535 ∧ transit 7 3 = 2333 := by decide

/-- R177: a power-on leaves the pins and the memory, and discards a Commit in progress. -/
theorem test_powerOn :
    (got .powerOn (committing .protect)).mode = .loading ∧ (got .powerOn (committing .protect)).mgmt.loadingAt = some 250 ∧
      (got .powerOn { readable with clock := 9 }).memory = readable.memory :=
  ⟨by decide +kernel, by decide +kernel, rfl⟩

theorem test_loadingTimeout :
    (got .loadingTimeout { State.reset with clock := 249 }).mode = .loading ∧
      (got .loadingTimeout { State.reset with clock := 250 }).mode = .bypass := by decide +kernel

theorem test_imageRead_silent :
    (got (.imageReadComplete .silent) State.reset).mode = .bypass ∧
      (got (.imageReadComplete .silent) State.reset).port.silenceAt = some 100 := by decide +kernel

/-- R153: a bad frame is dropped and counted. -/
theorem test_frame_dropped :
    (got (.frameArrival [1, 2, 3]) (up .protect)).port.counters = { received := 1, droppedCheck := 1 } := by decide +kernel

/-- R154, R158: a foreign frame starts at once on an idle port. -/
theorem test_frame_passed :
    (got (.frameArrival foreign.bytes) (up .bypass)).port.sending = some foreign ∧
      (got (.frameArrival foreign.bytes) (up .bypass)).port.counters = { received := 1, repeated := 1 } := by decide +kernel

/-- R17: a report of no point is unmapped. -/
theorem test_report_unmapped :
    (got (.frameArrival (sparkFrame [1]).bytes) (up .observe)).classifier = { unmapped := 1 } := by decide +kernel

/-- R34, R36: a Spark on a primary detector of a line without a far valve makes a record that retires at its end time. -/
theorem test_spark_recorded :
    ((got (.frameArrival (sparkFrame [1]).bytes) (put 7 { cfg := sparkCfg } (up .observe))).line 0).tracks =
      [{ number := 0, origin := 7, originPosition := 100, detected := 5000, speed := 200, state := .inFlight, target := none
         lastMatched := none, endTime := 34500 }] := by decide +kernel

theorem test_sampleExpiry :
    ((got (.sampleExpiry 255) sampledState).point 255).sample = some { speed := 600, arrival := 3000, fresh := false } := by
  decide +kernel

theorem test_retireDeadline :
    ((got (.retireDeadline 11) trackedState).line 11).tracks = [track 2 6000] ∧
      ((got (.retireDeadline 11) trackedState).line 11).retireAt = some 6000 := by decide +kernel

theorem test_recordEndTime :
    ((got (.recordEndTime 11 1) trackedState).line 11).tracks =
      [track 0 5000, { track 1 5000 with state := .passed }, track 2 6000] := by decide +kernel

/-- R60, R61: a strike opens its valve for the hold time, 50 tenths of a second. -/
theorem test_strike_fires :
    ((got .strikeEntryFireTime (strikingState .closed)).point 9).valve.state = .opened ∧
      ((got .strikeEntryFireTime (strikingState .closed)).point 9).valve.holdAt = some 10000 ∧
      (got .strikeEntryFireTime (strikingState .closed)).strikes = [] := by decide +kernel

theorem test_holdDeadline :
    ((got (.holdDeadline 9) (strikingState .opened)).point 9).valve.state = .recovering ∧
      ((got (.holdDeadline 9) (strikingState .opened)).point 9).valve.recoveryAt = some 8000 := by decide +kernel

theorem test_recoveryDeadline :
    ((got (.recoveryDeadline 9) (strikingState .recovering)).point 9).valve.state = .closed := by decide +kernel

theorem test_slotEnd :
    ((got (.slotEnd 31) ((up .protect).modZone 31 fun r => { r with slotEndAt := some 4000, current := 7 })).zone 31).current = 0 ∧
      ((got (.slotEnd 31) ((up .protect).modZone 31 fun r => { r with slotEndAt := some 4000 })).zone 31).slotEndAt =
        some 14000 := by decide +kernel

theorem test_gateTravelDeadline :
    ((got (.gateTravelDeadline 0) (lineState .protect .diverting .quiet)).line 0).state = .stopping ∧
      ((got (.gateTravelDeadline 0) (lineState .protect .diverting .quiet)).point 6).drive.commanded = some .stop ∧
      ((got (.gateTravelDeadline 0) (lineState .protect .diverting .quiet)).line 0).runDownAt = some 95000 := by decide +kernel

theorem test_runDownDeadline :
    ((got (.runDownDeadline 0) (lineState .observe .stopping .quiet)).line 0).state = .shut := by decide +kernel

theorem test_runOutDeadline :
    ((got (.runOutDeadline 23) (doorIn .protect .clearing true none)).door 23).state = .releasing ∧
      ((got (.runOutDeadline 23) (doorIn .protect .clearing true none)).door 23).closingAt = some 35000 := by decide +kernel

theorem test_clearingDeadline :
    ((got (.clearingDeadline 23) (doorIn .protect .clearing true none)).door 23).forced = true := by decide +kernel

theorem test_closingDeadline :
    ((got (.closingDeadline 23) (doorIn .protect .releasing true none)).door 23).state = .jammed ∧
      ((got (.closingDeadline 23) (doorIn .protect .releasing true none)).zone 0).faults = 1 := by decide +kernel

theorem test_phaseDeadline :
    ((got (.phaseDeadline 7) (groupIn .protect .sounding none (some 5000))).group 7).engineOn = false ∧
      ((got (.phaseDeadline 7) (groupIn .protect .sounding none (some 5000))).group 7).phaseAt = some 5500 := by decide +kernel

theorem test_cadenceEndDeadline :
    ((got (.cadenceEndDeadline 7) (groupIn .protect .test none (some 5000))).group 7).phase = .idle := by decide +kernel

/-- R156, R183: a repeated command joins the urgent queue, and starts on the idle port. -/
theorem test_repeatDeadline :
    (got (.repeatDeadline 9) differing).port.sending = some { dst := 11, src := 125, kind := 7, channel := 0, payload := [1] } ∧
      ((got (.repeatDeadline 9) differing).point 9).drive.repeats = 1 := by decide +kernel

theorem test_disagreementDeadline :
    ((got (.disagreementDeadline 9) differing).point 9).drive.disagree = true ∧
      ((got (.disagreementDeadline 9) differing).zone 0).faults = 1 := by decide +kernel

theorem test_supervisionPoll :
    (got (.supervisionPoll 9) differing).port.sending = some { dst := 11, src := 125, kind := 8, channel := 0, payload := [] } := by
  decide +kernel

theorem test_supervisionLimit : ((got (.supervisionLimit 9) differing).point 9).drive.unsupervised = true := by decide +kernel

theorem test_rawLevelChange :
    ((got (.rawLevelChange 0 true) (pinState .observe)).input 0).debounceAt = some 5020 := by decide +kernel

/-- R20: at the debounce deadline the level follows the pin, and the edge counts. -/
theorem test_debounceDeadline :
    ((got (.debounceDeadline 1) (pinState .bypass)).input 1).level = true ∧
      ((got (.debounceDeadline 1) (pinState .bypass)).input 1).edges = 1 := by decide +kernel

/-- R157: of a routine head that has waited 51 ms and through traffic, the head goes. -/
theorem test_transmission_patience :
    (got .transmissionCompletion (busyPort 4949)).port.routine = [] ∧
      (got .transmissionCompletion (busyPort 4950)).port.through = [] := by decide +kernel

theorem test_firstHalf_staged :
    (got (.writeFirst (ask 2 11 [1])) (up .bypass)).mgmt.staging =
      some { tag := 9, table := 2, index := 11, half := [1], deadline := 5500 } := by decide +kernel

theorem test_restoreDoor_held :
    ((got (.restoreDoor (ask 5 23 [])) (doorIn .protect .closed true none)).door 23).state = .closed := by decide +kernel

theorem test_resetZone_held :
    ((got (.resetZone (ask 3 3 [])) (calledState.modZone 3 fun r => { r with level := .evacuate })).zone 3).level =
      .evacuate := by decide +kernel

theorem test_sirenTest_busy :
    ((got (.sirenTest (ask 6 7 [])) (groupIn .protect .sounding none none)).group 7).phase = .sounding := by decide +kernel

theorem test_setMode_held : (got (.setMode (ask 0 0 [1])) (alarmedState .protect)).mode = .protect := by decide +kernel
theorem test_setMode_entered : (got (.setMode (ask 0 0 [2])) (up .bypass)).mode = .observe := by decide +kernel

theorem test_commit_runs :
    ((got (.commit (ask 0 0 [])) (up .bypass)).mgmt.commit.map (·.deadline)) = some 7000 := by decide +kernel

theorem test_request_of_other_station :
    (got (.setMode (other (ask 0 0 [2]))) (up .bypass)).mode = .bypass := by decide +kernel

/-! ## Default markers and short data -/

/-- R188: a trip's mode and strict take the default marker, 254, and so do the stations of the Device record (log 43). -/
theorem test_markers :
    readTrip (254 :: tripHalves[0]!.tail) (tripHalves[1]!.set 8 254) = some {} ∧
      readDevice (deviceData 254 2 100 50) = some { own := 125, supervisor := 2 } ∧
      readDevice (deviceData 5 254 100 50) = some { own := 5, supervisor := 1 } := by
  decide +kernel

/-- Log 33: point data without its line byte names no line. -/
theorem test_short_point_data : newLine (valveData.take 4) = none ∧ newLine (valveData.take 5) = some 11 := by
  decide +kernel

/-- R119 (log 37): a door whose listed conveyor is a point of another kind passes Clearing at once with a run-out of 0. -/
theorem test_stale_conveyor :
    ((closeBegins 23 ((listing .opened true none 0 60).modPoint 12 fun _ => {})).door 23).state = .releasing := by
  decide +kernel
end Sys2Proof.Tests
end

