-- ==== Sys2Proof/Proofs/DeviceWrites.lean ====
section
/-! PROOFS. Writes of the Device record: what a change of own station asks of the point table (R11, R169). -/

namespace Sys2Proof.Machine

/-- R11: the test on a new own station, as a fact about the used point entries. -/
theorem State.ownChangeOk_iff (s : State) (c : DeviceCfg) :
    s.ownChangeOk c = true ↔ c.own = s.device.own ∨
      ∀ i, (s.point i).cfg.kind ≠ .unused → (s.point i).cfg.station ≠ s.device.own ∧ (s.point i).cfg.station ≠ c.own := by
  simp [State.ownChangeOk, State.pointCfg, allPoints, PointCfg.used, imp_iff_not_or]

/-- R11: one used point entry on the old or the new own station is enough against the change. -/
theorem State.deviceOk_of_stationUsed {s : State} {c : DeviceCfg} {i : PointIx} (hown : c.own ≠ s.device.own)
    (hused : (s.point i).cfg.kind ≠ .unused)
    (hstation : (s.point i).cfg.station = s.device.own ∨ (s.point i).cfg.station = c.own) : s.deviceOk c = false := by
  have hchange : s.ownChangeOk c ≠ true := fun h => by
    obtain hsame | hfree := (s.ownChangeOk_iff c).1 h
    · exact hown hsame
    · obtain ⟨hold, hnew⟩ := hfree i hused
      exact hstation.elim hold hnew
  rw [State.deviceOk, Bool.eq_false_of_not_eq_true hchange, Bool.and_false]

/-- R169: on the Device record, a Write's effect is that of the record its data holds, if it is accepted. -/
theorem State.writeEffect_device {s : State} {rq : Request} {c : DeviceCfg} (ht : rq.table = 0)
    (hc : readDevice rq.data = some c) : s.writeEffect rq = if s.deviceOk c then some (writeDevice c) else none := by
  simp only [State.writeEffect, ht, hc]

/-- R172: no work in progress stands in the way of a Write of the Device record. -/
theorem State.writeBusy_device (s : State) {rq : Request} (ht : rq.table = 0) : s.writeBusy rq = false := by
  simp only [State.writeBusy, ht]

/-- A Write whose data no table entry takes, of a table without halves, where nothing in progress refuses it first. -/
theorem takeWrite_value {s : State} {rq : Request} {n : Nat} (h : s.permits rq n) (ht : [2,3,4,5].contains n = false)
    (hc : s.mgmt.commit = none) (hb : s.writeBusy rq = false) (he : s.writeEffect rq = none) :
    exec (.write rq) s = .next (reply rq .value s) := by
  rw [takeWrite_permitted h, he]
  simp only [firstFailed, h.twoHalves, ht, hc, hb, Bool.false_eq_true, if_false, Option.isSome_none, Bool.or_self,
    Option.isNone_none, Bool.or_true, if_true]

/-- Settles O20: the point entry fails the test on the new own station, so the Write has no effect to apply. -/
theorem ownStationKept : Obligations.OwnStationKept := by
  intro s rq c i hp hcommit hdata hown hused hstation
  have heffect : s.writeEffect rq = none := by
    rw [State.writeEffect_device hp.table hdata, State.deviceOk_of_stationUsed hown hused hstation]
    rfl
  exact takeWrite_value hp rfl hcommit (s.writeBusy_device hp.table) heffect

end Sys2Proof.Machine
end

