-- ==== Sys2Proof/Proofs/Trips.lean ====
section
/-! PROOFS. The Trip Unit: the condition and the modes of an evaluation (R86 to R90), what each action does (R91), and what the
sources read (R85). -/

namespace Sys2Proof.Machine

/-! ## The condition -/

/-- R86: the condition, as bounds on the value. -/
theorem TripCfg.holdsAt_iff (c : TripCfg) (v : Int) :
    c.holdsAt v = true ↔ c.origin.toInt ≤ v ∧
      (if c.strict then v < c.origin.toInt + c.margin.toNat else v ≤ c.origin.toInt + c.margin.toNat) := by
  cases hs : c.strict <;> simp [TripCfg.holdsAt, hs]

/-- R86: the condition of a trip at the value its sources have now. -/
def State.tripHolds (s : State) (k : TripIx) : Bool := (s.trip k).cfg.holdsAt (s.tripValue (s.trip k).cfg)

/-! ## The evaluation, by the trip's mode (R87 to R89) -/

/-- R90: the action that an evaluation executes: the true action where the condition holds, else the false action. -/
def actOnTrip (k : TripIx) (s : State) : State :=
  if s.tripHolds k then executeTrue k (s.tripValue (s.trip k).cfg) s else executeFalse k (s.tripValue (s.trip k).cfg) s

section
variable {s : State} {k : TripIx}

theorem evaluateTrip_off (hm : (s.trip k).cfg.mode = .off) : evaluateTrip k s = s := by
  simp only [evaluateTrip, hm]

/-- R87: a Once trip acts when its condition holds, and is spent by that. -/
theorem evaluateTrip_once (hm : (s.trip k).cfg.mode = .once) :
    evaluateTrip k s = if s.tripHolds k then (actOnTrip k s).modTrip k Trip.spend else s := by
  simp only [evaluateTrip, hm]
  exact ite_congr rfl (fun hholds => by rw [actOnTrip, if_pos hholds]) fun _ => rfl

/-- R88: the first evaluation of an Edge trip takes the baseline and executes nothing. -/
theorem evaluateTrip_edge_first (hm : (s.trip k).cfg.mode = .edge) (hb : (s.trip k).baseline = none) :
    evaluateTrip k s = s.modTrip k fun r => { r with baseline := some (s.tripHolds k) } := by
  simp only [evaluateTrip, hm, hb, State.tripHolds]

theorem evaluateTrip_edge_same (hm : (s.trip k).cfg.mode = .edge) (hb : (s.trip k).baseline = some (s.tripHolds k)) :
    evaluateTrip k s = s := by
  simp only [evaluateTrip, hm, hb, State.tripHolds, if_true]

/-- R88: a change of the condition makes an Edge trip act and moves its baseline. -/
theorem evaluateTrip_edge_change (hm : (s.trip k).cfg.mode = .edge) (hb : (s.trip k).baseline = some (!s.tripHolds k)) :
    evaluateTrip k s = (actOnTrip k s).modTrip k fun r => { r with baseline := some (s.tripHolds k) } := by
  simp only [evaluateTrip, hm, hb]
  exact if_neg (Bool.not_not_eq.2 rfl)

/-- R89: an Every trip acts at each evaluation. -/
theorem evaluateTrip_every (hm : (s.trip k).cfg.mode = .every) : evaluateTrip k s = actOnTrip k s := by
  simp only [evaluateTrip, hm]
  rfl

end

/-! ## The actions (R91) -/

/-- R73: the response to a change of level leaves the zone at that level. -/
theorem changeLevel_level (z : ZoneIx) (n : Level) (s : State) : ((changeLevel z n s).zone z).level = n := by
  unfold changeLevel
  rw [Moves.sameLevels (respond_moves (q := plain) .refl) id id, State.zone_raiseTrigger,
    Moves.sameLevels (notify_moves (q := plain) .refl) id id, State.zone_modZone]

/-- R71: a raise to the level the zone has, or to a lower one, does nothing. -/
theorem raiseZone_of_le {z : ZoneIx} {n : Level} {s : State} (h : n.rank ≤ (s.zone z).level.rank) : raiseZone z n s = s :=
  if_neg (Nat.not_lt.2 h)

/-- R71: a raise to a higher level brings the zone there. -/
theorem raiseZone_level {z : ZoneIx} {n : Level} {s : State} (h : (s.zone z).level.rank < n.rank) :
    ((raiseZone z n s).zone z).level = n := by
  rw [raiseZone, if_pos h, changeLevel_level]

/-- R101: a shut request leaves the line's trip-held set as it stands. -/
theorem shutLine_tripHeld (l : LineIx) (s : State) : ((shutLine l s).line l).tripHeld = (s.line l).tripHeld := by
  have hstop : ((enterStopping l s).line l).tripHeld = (s.line l).tripHeld := by
    rw [enterStopping_line]; split <;> rfl
  unfold shutLine
  cases (s.line l).state with
  | normal | diverting | diverted => exact hstop
  | stopping | shut => rfl

/-- R96: a trip that shuts a line stands in the line's trip-held set. -/
theorem mem_tripHeld_shutByTrip (l : LineIx) (k : TripIx) (s : State) : k ∈ ((shutByTrip l k s).line l).tripHeld := by
  rw [shutByTrip, shutLine_tripHeld, State.line_modLine]
  split
  · assumption
  · exact List.mem_concat_self

/-- R91: an output action on the line of a general output commands that output. -/
theorem tripOutput_output {q : OutputIx} {i : PointIx} {s : State} (hq : s.outputPoint q = some i)
    (hk : (s.point i).cfg.kind = .output) (r : Requested) : tripOutput q r s = issue i r s := by
  simp only [tripOutput, hq, State.isKind, hk, beq_self_eq_true, if_true]

/-- R91: an output action on a line that is no general output's does nothing. -/
theorem tripOutput_no_output {q : OutputIx} {s : State}
    (h : ∀ i, s.outputPoint q = some i → (s.point i).cfg.kind ≠ .output) (r : Requested) : tripOutput q r s = s := by
  unfold tripOutput
  cases hq : s.outputPoint q with
  | none => rfl
  | some i => simp only [State.isKind, beq_eq_false_iff_ne.2 (h i hq), Bool.false_eq_true, if_false]

/-! ## The sources (R85) -/

/-- R85: OpenValves counts the line's valves in state Open. -/
theorem State.readSource_openValves (s : State) (l : LineIx) :
    s.readSource (.openValves l) = ((s.membersOf l).valves.filter fun v => (s.point v).valve.state = .opened).length := by
  simp only [State.readSource, State.openValves, beq_eq_decide]

/-- Settles O52: a case per mode of the evaluation, a rule per action, and the sources as they are read. -/
theorem tripEvaluated : Obligations.TripEvaluated := by
  refine ⟨?_, fun s z l i => ⟨rfl, rfl, rfl, rfl, rfl, rfl, rfl, s.readSource_openValves l, rfl, rfl⟩⟩
  intro s k c part v top holds onTrue onFalse
  have hcond : s.tripHolds k = true ↔ holds := c.holdsAt_iff v
  have hdecide : s.tripHolds k = decide holds := Bool.eq_iff_iff.2 (hcond.trans decide_eq_true_iff.symm)
  have hact : actOnTrip k s = if holds then onTrue else onFalse := if_congr hcond rfl rfl
  refine ⟨evaluateTrip_off, fun hm hn => ?once_false, fun hm hh => ?once_true, fun hm hb => ?edge_first,
    fun hm hb => ?edge_same, fun hm hb => ?edge_change, fun hm => ?every, fun _ => rfl, fun _ => rfl,
    fun z n u => raiseZone_of_le, fun z n u => raiseZone_level,
    fun l u => ⟨mem_tripHeld_shutByTrip l k u, shutLine_state l _⟩,
    fun q u i hq hk => ⟨tripOutput_output hq hk .outOn, tripOutput_output hq hk .outOff⟩,
    fun q u h => ⟨tripOutput_no_output h .outOn, tripOutput_no_output h .outOff⟩, fun _ => rfl⟩
  case once_false => rw [evaluateTrip_once hm, if_neg (mt hcond.1 hn)]
  case once_true => rw [evaluateTrip_once hm, if_pos (hcond.2 hh), hact, if_pos hh]; rfl
  case edge_first => rw [evaluateTrip_edge_first hm hb, hdecide]
  case edge_same => exact evaluateTrip_edge_same hm (hdecide ▸ hb)
  case edge_change => rw [evaluateTrip_edge_change hm (hdecide ▸ hb), hact, hdecide]
  case every => rw [evaluateTrip_every hm, hact]

end Sys2Proof.Machine
end

