-- ==== Sys2Proof/Proofs/Lines.lean ====
section
/-! PROOFS. The Line Controller: the changes of a line's state as one update and one notice (R111), the condition for Shut
(R102), divert and shut requests by the line's state (R96 to R101), and the two deadlines (R100, R103). -/

namespace Sys2Proof.Machine

section
variable {s : State} {l : LineIx}

/-! ## Changes of state, each one update and its notice (R111) -/

theorem enterLineState_modLine (l : LineIx) (st : LineState) (f : Line → Line) (s : State) :
    enterLineState l st (s.modLine l f) = notify .lineState l.val st.code (s.modLine l fun r => { f r with state := st }) := by
  rw [enterLineState, State.modLine_modLine]

theorem enterShut_eq (l : LineIx) (s : State) :
    enterShut l s =
      notify .lineState l.val 4
        (s.modLine l fun r => { r with state := .shut, runDownAt := none, shuts := bump r.shuts }) :=
  enterLineState_modLine l .shut _ s

theorem enterDiverted_eq (l : LineIx) (s : State) :
    enterDiverted l s =
      notify .lineState l.val 2 (s.modLine l fun r => { r with state := .diverted, gateTravelAt := none }) :=
  enterLineState_modLine l .diverted _ s

/-- R101, R105: the entry into Stopping lays the line's claims, enters the state with its run-down deadline, and tests for
Shut. -/
theorem enterStopping_eq (l : LineIx) (s : State) :
    enterStopping l s =
      testShut l
        (notify .lineState l.val 3
          ((claimLine l (s.modLine l fun r => { r with gateTravelAt := none })).modLine l fun r =>
            { r with state := .stopping, runDownAt := some (after s.clock ((s.line l).cfg.runDown * 1000)) })) :=
  congrArg (testShut l) (enterLineState_modLine l .stopping _ _)

/-! ## The condition for Shut (R102) -/

theorem State.shutCondition_iff (s : State) (l : LineIx) :
    s.shutCondition l = true ↔
      (∀ i ∈ (s.membersOf l).fans, (s.point i).drive.reported = some .stopped) ∧ (s.line l).flood = true := by
  rw [State.shutCondition, Bool.and_eq_true, List.all_eq_true]
  simp only [beq_iff_eq]

theorem testShut_of_stands (hs : (s.line l).state = .stopping) (hc : s.shutCondition l = true) :
    testShut l s = enterShut l s :=
  if_pos (by rw [hs, hc]; rfl)

theorem testShut_eq_self (h : (s.line l).state ≠ .stopping ∨ ¬s.shutCondition l = true) : testShut l s = s :=
  if_neg (by rw [Bool.and_eq_true, beq_iff_eq]; exact not_and_or.2 h)

/-! ## Requests, by the line's state (R98, R99, R101) -/

theorem divertLine_gate (hs : (s.line l).state = .normal) {g : PointIx} (hg : (s.membersOf l).gates.head? = some g) :
    divertLine l s =
      let t := notify .lineState l.val 1
        ((issue g .divert s).modLine l fun r =>
          { r with
            state := .diverting, gateTravelAt := some (after s.clock (r.cfg.gateTravel * 1000)), diverts := bump r.diverts })
      if (s.point g).drive.reported = some .diverted then enterDiverted l t else t := by
  simp only [divertLine, hs, State.gateOf, hg, enterLineState_modLine, LineState.code, Nat.cast_one]

theorem divertLine_no_gate (hs : (s.line l).state = .normal) (hg : (s.membersOf l).gates = []) :
    divertLine l s = s.modLine l fun r => { r with divertSkipped := bump r.divertSkipped } := by
  simp only [divertLine, hs, State.gateOf, hg, List.head?_nil]

theorem divertLine_eq_self (hs : (s.line l).state ≠ .normal) : divertLine l s = s := by
  unfold divertLine
  cases h : (s.line l).state with
  | normal => exact absurd h hs
  | diverting | diverted | stopping | shut => rfl

theorem shutLine_eq_self (hs : (s.line l).state = .stopping ∨ (s.line l).state = .shut) : shutLine l s = s := by
  unfold shutLine
  obtain h | h := hs <;> rw [h]

theorem shutLine_eq_enterStopping
    (hs : (s.line l).state = .normal ∨ (s.line l).state = .diverting ∨ (s.line l).state = .diverted) :
    shutLine l s = enterStopping l s := by
  unfold shutLine
  obtain h | h | h := hs <;> rw [h]

theorem gateReported_diverted (hs : (s.line l).state = .diverting) : gateReported l .diverted s = enterDiverted l s :=
  if_pos ⟨hs, rfl⟩

theorem gateReported_eq_self {code : Code} (h : (s.line l).state ≠ .diverting ∨ code ≠ .diverted) :
    gateReported l code s = s :=
  if_neg (not_and_or.2 h)

/-! ## The deadlines (R100, R103) -/

/-- R100: a Diverting line whose gate has not travelled in time. -/
def gateFails (l : LineIx) (s : State) : State :=
  enterStopping l (s.modLine l fun r => { r with gateTravelAt := none, gateFault := true })

theorem exec_gateTravelDeadline_due (ha : s.active = true) (hs : (s.line l).state = .diverting)
    (hd : due s.clock (s.line l).gateTravelAt = true) : exec (.gateTravelDeadline l) s = .next (gateFails l s) := by
  have hends : gateTravelEnds l s = gateFails l s := if_pos (by rw [ha, hs, hd]; rfl)
  exact congrArg _ hends

theorem gateFails_lineWork (l : LineIx) (s : State) : LineWork (· = l) s (gateFails l s) :=
  (LineWork.modLine (on := (· = l)) rfl rfl rfl rfl).trans (enterStopping_lineWork (on := (· = l)) rfl _)

theorem gateFails_claims {i : PointIx} (h : i ∈ (s.membersOf l).fans ∨ i ∈ (s.membersOf l).conveyors) :
    Claim.line l ∈ ((gateFails l s).point i).drive.claims :=
  enterStopping_claims l _ i (List.mem_append.2 h)

/-- R100 to R102: what the gate travel deadline makes of the line. -/
theorem gateFails_line (l : LineIx) (s : State) :
    (gateFails l s).line l =
      if s.shutCondition l then
        { s.line l with
          state := .shut, gateFault := true, gateTravelAt := none, runDownAt := none, shuts := bump (s.line l).shuts }
      else
        { s.line l with
          state := .stopping, gateFault := true, gateTravelAt := none
          runDownAt := some (after s.clock ((s.line l).cfg.runDown * 1000)) } := by
  have hcond : (s.modLine l fun r => { r with gateTravelAt := none, gateFault := true }).shutCondition l
      = s.shutCondition l := (LineWork.modLine (on := (· = l)) rfl rfl rfl rfl).shutCondition l
  rw [gateFails, enterStopping_line, hcond, State.line_modLine, State.modLine_clock]

/-- R103: at its run-down deadline a Stopping line is Shut, and its run-down incomplete. -/
theorem exec_runDownDeadline_due (ha : s.active = true) (hs : (s.line l).state = .stopping)
    (hd : due s.clock (s.line l).runDownAt = true) :
    exec (.runDownDeadline l) s =
      .next (notify .lineState l.val 4
        (s.modLine l fun r =>
          { r with state := .shut, runDownIncomplete := true, runDownAt := none, shuts := bump r.shuts })) := by
  have hends : runDownEnds l s = enterShut l (s.modLine l fun r => { r with runDownIncomplete := true }) :=
    if_pos (by rw [ha, hs, hd]; rfl)
  rw [enterShut_eq, State.modLine_modLine] at hends
  exact congrArg _ hends

end

/-- Settles O54: the two deadlines in Observe and Protect, then each request by the line's state. -/
theorem lineDeadlines : Obligations.LineDeadlines := by
  refine ⟨fun s l ha => ⟨?gate_travel, exec_runDownDeadline_due ha⟩, fun s l => ?requests⟩
  case gate_travel =>
    intro hs hd
    have hwork := gateFails_lineWork l s
    refine ⟨gateFails l s, exec_gateTravelDeadline_due ha hs hd, fun hc => ?shut, fun hc => ?stopping, hwork.line,
      fun i => gateFails_claims, hwork.doors, hwork.groups, hwork.strikes, hwork.level⟩
    case shut => rw [gateFails_line, if_pos ((s.shutCondition_iff l).2 hc)]
    case stopping => rw [gateFails_line, if_neg (mt (s.shutCondition_iff l).1 hc)]
  case requests =>
    refine ⟨fun hs g hg => ?divert, divertLine_no_gate, divertLine_eq_self, shutLine_eq_self, fun hs => ?shut,
      fun hs hc => ?stands, fun h => ?stays, fun code => ⟨fun hs hcode => ?report, gateReported_eq_self⟩⟩
    case divert => rw [divertLine_gate hs hg]; simp only [enterDiverted_eq]
    case shut => rw [shutLine_eq_enterStopping hs, enterStopping_eq]; rfl
    case stands => rw [testShut_of_stands hs ((s.shutCondition_iff l).2 hc), enterShut_eq]
    case stays => exact testShut_eq_self (h.imp_right (mt (s.shutCondition_iff l).1))
    case report => rw [hcode, gateReported_diverted hs, enterDiverted_eq]

end Sys2Proof.Machine
end

