-- ==== Sys2Proof/Proofs/FirstHalves.lean ====
section
/-! PROOFS. The first half of a two-half write: its checks in their order and what it stages (R170), and the staging deadline. -/

namespace Sys2Proof.Machine

section
variable {s : State} {rq : Request} {n : Nat}

/-- R170: the tables whose entries are written in one piece take no halves. -/
theorem State.permits.not_twoHalves (h : s.permits rq n) (hn : n ∈ [0, 1, 6, 7]) : rq.twoHalves = false := by
  have hpieces : ∀ m ∈ [0, 1, 6, 7], [2, 3, 4, 5].contains m = false := by decide
  rw [h.twoHalves, hpieces n hn]

/-- R170: the tables whose entries are written in two halves. -/
theorem State.permits.halves (h : s.permits rq n) (hn : n ∈ [2, 3, 4, 5]) : rq.twoHalves = true := by
  rw [h.twoHalves, List.contains_iff_mem.2 hn]

/-- R165, R170: a WriteFirst that passes checks 1 to 3, by the checks that follow, in their order. -/
theorem takeWriteFirst_permitted (h : s.permits rq n) :
    takeWriteFirst rq s =
      if rq.twoHalves = false then reply rq .sequence s
      else if s.mgmt.commit.isSome = true then reply rq .busy s
      else if rq.namesState = true then reply rq .value s
      else reply rq .done (stage rq s) := by
  rw [takeWriteFirst, answer_entry h (everyTable_contains h.le), h.reserved, Bool.false_or]
  simp only [firstFailed, Bool.not_eq_true']
  split_ifs <;> rfl

theorem takeWriteFirst_sequence (h : s.permits rq n) (hn : n ∈ [0, 1, 6, 7]) :
    takeWriteFirst rq s = reply rq .sequence s := by
  rw [takeWriteFirst_permitted h, if_pos (h.not_twoHalves hn)]

theorem takeWriteFirst_busy (h : s.permits rq n) (hn : n ∈ [2, 3, 4, 5]) (hc : s.mgmt.commit.isSome = true) :
    takeWriteFirst rq s = reply rq .busy s := by
  rw [takeWriteFirst_permitted h, h.halves hn, if_neg Bool.noConfusion, if_pos hc]

theorem takeWriteFirst_done (h : s.permits rq n) (hn : n ∈ [2, 3, 4, 5]) (hc : s.mgmt.commit = none)
    (hstate : rq.namesState = false) : takeWriteFirst rq s = reply rq .done (stage rq s) := by
  rw [takeWriteFirst_permitted h, h.halves hn, hc, hstate]
  rfl

/-- R170: at its deadline a staged half is dropped, and counted as expired. -/
theorem stagingEnds_of_reached {x : Staging} (hx : s.mgmt.staging = some x) (hd : reached s.clock x.deadline = true) :
    stagingEnds s = s.modMgmt fun m => { m with staging := none, expired := bump m.expired } := by
  simp only [stagingEnds, hx, hd, if_true]

end

/-- Settles O28: a WriteFirst by the first check it fails, or as staged; and the staging deadline. -/
theorem firstHalfStaged : Obligations.FirstHalfStaged := by
  refine fun s rq n h => ⟨fun hn => ?sequence, fun hn hc => ?busy, fun hn hc hstate => ?staged, fun x hx hd => ?expired⟩
  case sequence => exact congrArg _ (takeWriteFirst_sequence h hn)
  case busy => exact congrArg _ (takeWriteFirst_busy h hn hc)
  case staged =>
    have hdone := takeWriteFirst_done h hn hc hstate
    rw [stage, h.table] at hdone
    exact congrArg _ hdone
  case expired => exact congrArg _ (stagingEnds_of_reached hx hd)

end Sys2Proof.Machine
end

