-- ==== Sys2Proof/Proofs/Steps.lean ====
section
/-! PROOFS. The step: what it takes, that every command completes, and the invariants that every step keeps (R155, R22, R13, R8
to R14, R92, R144), each from the moves of the ordinary commands and one lemma per command that sweeps the part. -/

namespace Sys2Proof.Machine

/-! ## What a step takes -/

theorem step_cons {s : State} {c : Instr} {rest : List Instr} (h : s.pending = c :: rest) :
    step s = exec c { s with pending := rest } := by
  simp only [step, h]

theorem step_nil {s : State} (h : s.pending = []) : step s = .next s.tickClock := by
  simp only [step, h]

/-- A fact that the clock and the queue do not bear on, and that every command keeps, is kept by every step. -/
theorem step_keeps {P : State → Prop} (hclock : ∀ s, P s → P s.tickClock) (hqueue : ∀ s l, P s → P { s with pending := l })
    (hexec : ∀ c s t, exec c s = .next t → P s → P t) {s t : State} (hstep : step s = .next t) (hs : P s) : P t := by
  cases hp : s.pending with
  | nil =>
    rw [step_nil hp] at hstep
    cases hstep
    exact hclock s hs
  | cons c rest =>
    rw [step_cons hp] at hstep
    exact hexec c _ t hstep (hqueue s rest hs)

/-- Settles O1. -/
theorem stepTakesFront : Obligations.StepTakesFront := fun _ => ⟨fun _ _ => step_cons, step_nil⟩

/-! ## Every command completes -/

/-- No command is refused and none faults. -/
theorem exec_completes (c : Instr) (s : State) : ∃ t, exec c s = .next t := by
  cases c <;> exact ⟨_, rfl⟩

/-- The queue and the clock stand as they were. -/
def State.SameTime (s t : State) : Prop := t.pending = s.pending ∧ t.clock = s.clock

theorem Moves.sameTime {q : Allow} {s t u : State} (h : Moves q t u) (hs : s.SameTime t) : s.SameTime u :=
  ⟨h.pending.trans hs.1, h.clock.trans hs.2⟩

theorem startIfActive_sameTime {s t : State} (hs : s.SameTime t) : s.SameTime (startIfActive t) := by
  unfold startIfActive
  split
  · exact hs
  · exact hs

theorem replacePoint_sameTime {s t : State} {i : PointIx} {c : PointCfg} (hs : s.SameTime t) :
    s.SameTime (replacePoint i c t) := by
  unfold replacePoint
  split
  · exact hs
  · exact hs

theorem changeMode_sameTime {s t : State} (m : Mode) (hs : s.SameTime t) : s.SameTime (changeMode m t) := by
  unfold changeMode
  split
  · exact startIfActive_sameTime hs
  · exact hs
  · split
    · exact (enterProtect_moves (q := plain) t).sameTime hs
    · exact hs
  · exact hs

/-- The queue and the clock stand through every command but a power-on or reset. -/
theorem sameTime_steady (s : State) : Steady s.SameTime where
  moves _ _ h hs := h.sameTime hs
  commands {c u t} hc he hs := by
    obtain ⟨v, hv, hm⟩ := exec_moves c u hc
    rw [hv] at he
    cases he
    exact hm.sameTime hs
  classify f _ hs := (classifyFrame_moves (f := f) (q := arrival) trivial trivial trivial .refl).sameTime hs
  resetZone rq _ hs := (takeResetZone_moves (rq := rq) (q := { plain with raise := True, quiet := True, window := True })
    trivial trivial trivial .refl).sameTime hs
  port _ _ hs := hs
  clearDevice _ hs := hs
  startGood _ _ _ _ hs := (notify_moves (q := plain) .refl).sameTime (startIfActive_sameTime hs)
  startBad _ _ hs := (notify_moves (q := plain) .refl).sameTime (startIfActive_sameTime hs)
  writePoint _ _ _ _ hs := (writePoint_moves (q := plain) .refl).sameTime (replacePoint_sameTime hs)
  writeDevice _ _ _ hs := hs
  changeMode m _ hs := changeMode_sameTime m hs
  restart _ hs := startIfActive_sameTime hs

/-- Settles O2: no arm refuses, and the queue and the clock are among what every command but a start of the part keeps. -/
theorem everyCommandCompletes : Obligations.EveryCommandCompletes := by
  intro c s
  obtain ⟨t, ht⟩ := exec_completes c s
  by_cases hstart : c = .powerOn ∨ c = .resetPin
  · obtain rfl | rfl := hstart
    · exact ⟨_, rfl, rfl, fun h _ => absurd rfl h⟩
    · exact ⟨_, rfl, rfl, fun _ h => absurd rfl h⟩
  · obtain ⟨hon, hpin⟩ := not_or.1 hstart
    obtain ⟨hqueue, hclock⟩ := (sameTime_steady s).exec hon hpin ht ⟨rfl, rfl⟩
    exact ⟨t, ht, hqueue, fun _ _ => hclock⟩

/-! ## The capacities and the balance (R155) -/

/-- Every command keeps the capacities and the balance: an ordinary one by its moves, and each of the others by its lemma. -/
theorem exec_portGood {c : Instr} {s t : State} (he : exec c s = .next t) (hs : s.PortGood 0) : t.PortGood 0 := by
  by_cases hc : ordinary c = true
  · obtain ⟨u, hu, hm⟩ := exec_moves c s hc
    rw [hu] at he
    cases he
    exact hm.portGood hs
  · cases c with
    | powerOn => cases he; exact powerUp_portGood s
    | resetPin => cases he; exact powerUp_portGood s
    | imageReadComplete a => cases he; exact imageRead_portGood hs
    | loadingTimeout => cases he; exact loadingEnds_portGood hs
    | frameArrival bytes => cases he; exact frameArrives_portGood hs
    | write rq => cases he; exact takeWrite_portGood hs
    | clearCounters rq => cases he; exact takeClearCounters_portGood hs
    | setMode rq => cases he; exact takeSetMode_portGood hs
    | restart rq => cases he; exact takeRestart_portGood hs
    | _ => exact absurd rfl hc

/-- Settles O5: the capacities and the balance are kept together by every command. -/
theorem balanceKept : Obligations.BalanceKept := by
  intro s t hcap hbal hstep
  exact t.portGood_zero.1 (step_keeps (P := State.PortGood 0) (fun _ h => h) (fun _ _ h => h) (fun _ _ _ => exec_portGood)
    hstep (s.portGood_zero.2 ⟨hcap, hbal⟩))

/-! ## The triggers (R92) and the tables -/

/-- Settles O34: the taking of the triggers ends with none left, and no command ends between a raising and the taking. -/
theorem triggersTaken : Obligations.TriggersTaken := fun _ _ hs hstep => triggers_stable.step hstep hs

/-- Settles O8: each of the four facts is one that every step keeps. -/
theorem tablesKept : Obligations.TablesKept := fun _ _ hstep =>
  ⟨tablesInRange_stable.step hstep, tablesDistinct_stable.step hstep,
    fun hmaps hfit => (linesFit_stable.step hstep ⟨hmaps, hfit⟩).2, commandsTimed_stable.step hstep⟩

/-! ## The pins (R22) -/

/-- R22: the point of an output's channel is the used entry with that key. -/
theorem State.outputPoint_some {s : State} {q : OutputIx} {i : PointIx} (h : s.outputPoint q = some i) :
    (s.point i).cfg.kind ≠ .unused ∧ (s.point i).cfg.station = s.device.own ∧
      (s.point i).cfg.channel = BitVec.ofNat 8 (8 + q.val) := by
  have hfound := List.find?_some h
  simpa [PointCfg.used, and_assoc] using hfound

/-- R8, R22: with the tables in range, the used entry on an output's channel is the one that is found. -/
theorem State.outputPoint_eq {s : State} (hs : s.tablesInRange) {q : OutputIx} {i : PointIx}
    (hkind : (s.point i).cfg.kind ≠ .unused) (hstation : (s.point i).cfg.station = s.device.own)
    (hchannel : (s.point i).cfg.channel = BitVec.ofNat 8 (8 + q.val)) : s.outputPoint q = some i := by
  have hused : (s.point i).cfg.used = true := by simpa [PointCfg.used] using hkind
  cases hfind : s.outputPoint q with
  | none =>
    have hnone := List.find?_eq_none.1 hfind i (List.mem_finRange i)
    simp [hused, hstation, hchannel] at hnone
  | some j =>
    obtain ⟨hkj, hsj, hcj⟩ := State.outputPoint_some hfind
    by_contra hne
    obtain ⟨_, _, _, _, _, _, hpoints⟩ := hs
    obtain ⟨_, hkeys⟩ := hpoints i hused
    obtain hst | hch := hkeys j (fun h => hne (congrArg some h)) (by simpa [PointCfg.used] using hkj)
    · exact hst (hsj.trans hstation.symm)
    · exact hch (hcj.trans hchannel.symm)

/-- R8: what stands on an output's channel of the own station is a general output or a siren. -/
theorem PointCfg.fits_output {c : PointCfg} {own : Byte} (h : c.fits own = true) (hstation : c.station = own)
    (q : OutputIx) (hchannel : c.channel = BitVec.ofNat 8 (8 + q.val)) : c.kind = .output ∨ c.kind = .siren := by
  have hhigh : ¬c.channel.toNat < 8 := by
    rw [hchannel, BitVec.toNat_ofNat]
    omega
  simpa [PointCfg.fits, PointCfg.placeOk, hstation, hhigh] using (Bool.and_eq_true_iff.1 h).2

/-- Settles O6: the pins are among what every step keeps; the clauses read `pinShould` by its point. -/
theorem pinsFollowKept : Obligations.PinsFollowKept := by
  refine ⟨fun _ _ hs hstep => pinsFollow_stable.step hstep hs, fun s q hs => ?_⟩
  intro onPin
  refine ⟨fun hmode => ?off, fun hnone => ?noneOn, fun hrange i hon => ?_⟩
  case off => rw [hs q, State.pinShould, beq_eq_false_iff_ne.2 hmode, Bool.false_and]
  case noneOn =>
    rw [hs q, State.pinShould]
    cases hfind : s.outputPoint q with
    | none => exact Bool.and_false _
    | some i => simp [hnone i (State.outputPoint_some hfind)]
  obtain ⟨hkind, hstation, hchannel⟩ := hon
  have hused : (s.point i).cfg.used = true := by simpa [PointCfg.used] using hkind
  obtain ⟨_, _, _, _, _, _, hpoints⟩ := id hrange
  refine ⟨PointCfg.fits_output (hpoints i hused).1 hstation q hchannel, ?_⟩
  rw [hs q, State.pinShould, State.outputPoint_eq hrange hkind hstation hchannel]
  simp

/-! ## The maps (R13) -/

section
variable (cfg : PointIx → PointCfg) (l : LineIx)

/-- R13: a list of the line's points of some kinds holds each once, and those alone. -/
def HoldsKinds (kinds : List PointKind) (list : List PointIx) : Prop :=
  list.Nodup ∧ ∀ i, i ∈ list ↔ (cfg i).line = some l ∧ (cfg i).kind ∈ kinds

/-- R13: the line's points that pass a test of their entry, in ascending order. -/
theorem holdsKinds_filter {kinds : List PointKind} {p : PointIx → Bool} (hp : ∀ i, p i = true ↔ (cfg i).kind ∈ kinds)
    (hunused : PointKind.unused ∉ kinds) : HoldsKinds cfg l kinds ((pointsOfLine cfg l).filter p) := by
  refine ⟨((pointsOfLine_ascending cfg l).filter _).imp fun h => h.ne, fun i => ?_⟩
  rw [List.mem_filter, mem_pointsOfLine, hp]
  refine ⟨fun ⟨⟨_, hl⟩, hk⟩ => ⟨hl, hk⟩, fun ⟨hl, hk⟩ => ⟨⟨?_, hl⟩, hk⟩⟩
  simpa [PointCfg.used] using fun h : (cfg i).kind = .unused => hunused (h ▸ hk)

theorem HoldsKinds.perm {kinds : List PointKind} {a b : List PointIx} (h : HoldsKinds cfg l kinds a) (hp : b.Perm a) :
    HoldsKinds cfg l kinds b :=
  ⟨hp.nodup_iff.2 h.1, fun i => hp.mem_iff.trans (h.2 i)⟩

/-- R13: a list by index of the line's points of one kind. -/
theorem listed_ofKind {k : PointKind} (hk : PointKind.unused ≠ k) :
    HoldsKinds cfg l [k] ((pointsOfLine cfg l).filter fun i => (cfg i).kind == k) ∧
      ((pointsOfLine cfg l).filter fun i => (cfg i).kind == k).Pairwise (· < ·) :=
  ⟨holdsKinds_filter cfg l (fun i => by simp) (by simpa using hk), (pointsOfLine_ascending cfg l).filter _⟩

/-- R13: a list by position of the line's points of some kinds. -/
theorem placed_ofKinds {kinds : List PointKind} {p : PointIx → Bool} (hp : ∀ i, p i = true ↔ (cfg i).kind ∈ kinds)
    (hunused : PointKind.unused ∉ kinds) :
    HoldsKinds cfg l kinds (sortByPosition (fun i => (cfg i).pos) ((pointsOfLine cfg l).filter p)) ∧
      (sortByPosition (fun i => (cfg i).pos) ((pointsOfLine cfg l).filter p)).Pairwise fun i j =>
        (cfg i).pos < (cfg j).pos ∨ (cfg i).pos = (cfg j).pos ∧ i < j :=
  ⟨(holdsKinds_filter cfg l hp hunused).perm cfg l (sortByPosition_perm _ _),
    sortByPosition_placed _ ((pointsOfLine_ascending cfg l).filter _)⟩

theorem serves_ascending : (membersOf cfg l).serves.Pairwise (· < ·) := by
  simp only [membersOf]
  exact (List.pairwise_lt_finRange 32).filter _

end

/-- Settles O7: the maps are among what every step keeps, and each list is the line's points of its kinds in its order. -/
theorem mapsFollowKept : Obligations.MapsFollowKept := by
  refine ⟨fun _ _ hs hstep => mapsFollow_stable.step hstep hs, fun _ => Iff.rfl, fun cfg l => ?_⟩
  exact ⟨placed_ofKinds cfg l (kinds := [.spark, .flame]) (fun i => by simp) (by decide),
    placed_ofKinds cfg l (kinds := [.valve]) (fun i => by simp) (by decide),
    listed_ofKind cfg l (by decide), listed_ofKind cfg l (by decide), listed_ofKind cfg l (by decide),
    listed_ofKind cfg l (by decide), fun z => mem_serves, serves_ascending cfg l⟩

/-! ## Power-on (R177) -/

/-- A power-on of a part right after power-on changes nothing. -/
theorem powerUp_reset : powerUp State.reset = State.reset := by
  have hinputs : (Vector.ofFn fun i : InputIx => ({ raw := (State.reset.input i).raw } : Input)) = Vector.replicate 8 {} := by
    decide
  rw [powerUp, hinputs]
  rfl

section
variable (i : PointIx) (l : LineIx) (z : ZoneIx) (d : DoorIx) (g : GroupIx) (o : OutputIx)

theorem reset_point : State.reset.point i = {} := Vector.getElem_replicate _
theorem reset_line : State.reset.line l = {} := Vector.getElem_replicate _
theorem reset_zone : State.reset.zone z = {} := Vector.getElem_replicate _
theorem reset_door : State.reset.door d = {} := Vector.getElem_replicate _
theorem reset_group : State.reset.group g = {} := Vector.getElem_replicate _
theorem reset_output : State.reset.output o = false := Vector.getElem_replicate _

theorem reset_membersOf : State.reset.membersOf l = {} := Vector.getElem_replicate _

end

/-- Settles O3: each entry of a table is the one it was filled with. -/
theorem resetState : Obligations.ResetState := by
  refine ⟨rfl, rfl, rfl, rfl, rfl, rfl, rfl, rfl, rfl, reset_point, fun l => ?_, fun z => ?_, fun d => ?_, fun g => ?_,
    reset_output⟩
  · rw [reset_line]; exact ⟨rfl, rfl⟩
  · rw [reset_zone]; exact ⟨rfl, rfl⟩
  · rw [reset_door]
  · rw [reset_group]

/-- Settles O4: what a power-on leaves meets the invariants, and reset is what a power-on leaves. -/
theorem resetInGoodOrder : Obligations.ResetInGoodOrder := by
  have hunused : ∀ i, (State.reset.point i).cfg.used = false := fun i => by rw [reset_point]; rfl
  have hquiet : State.reset.Quiescent := fun i => by rw [reset_point]
  obtain ⟨hcap, hbal⟩ := State.reset.portGood_zero.1 (powerUp_reset ▸ powerUp_portGood State.reset)
  have hmaps : State.reset.mapsFollow := fun l => by rw [reset_membersOf, membersOf_unused State.reset.pointCfg hunused]
  exact ⟨hcap, hbal, State.pinsFollow_of_off hquiet reset_output, hmaps, powerUp_reset ▸ powerUp_tablesInRange State.reset,
    reset_tablesDistinct, State.linesFit_of_unused hunused, State.commandsTimed_of_none hquiet⟩

/-- Settles O9: both commands are the power-on. -/
theorem powerOnRestarts : Obligations.PowerOnRestarts := fun s => ⟨powerUp s, rfl, rfl, rfl⟩

end Sys2Proof.Machine
end

