-- ==== Sys2Proof/Proofs/Starting.lean ====
section
/-! PROOFS. Start-up from the image (R177), Restart (R175) and Commit (R176), and the management deadline of the previous own
station: what each leaves, field by field. -/

namespace Sys2Proof.Machine

/-! ## The previous own station (R169) -/

theorem previousEnds_reached {s : State} {p : Byte × Time} (hp : s.port.previous = some p)
    (hd : reached s.clock p.2 = true) : previousEnds s = s.modPort fun q => { q with previous := none } := by
  simp only [previousEnds, hp, hd, if_true]

/-- Settles O22. -/
theorem previousStationForgotten : Obligations.PreviousStationForgotten := fun _ _ hp hd =>
  congrArg Host.Outcome.next (previousEnds_reached hp hd)

/-! ## Commit (R176) -/

theorem map_eq_ofFn {α β : Type} {n : Nat} (f : α → β) (v : Vector α n) :
    v.map f = Vector.ofFn fun i : Fin n => f v[i.val] := by
  ext i hi
  simp

/-- R176: the snapshot, as the configuration part of each entry. -/
theorem State.snapshot_eq (s : State) : s.snapshot =
    { device := s.device, mode := s.mode, cadences := s.cadences
      points := Vector.ofFn fun i => (s.point i).cfg, lines := Vector.ofFn fun l => (s.line l).cfg
      zones := Vector.ofFn fun z => (s.zone z).cfg, trips := Vector.ofFn fun k => (s.trip k).cfg
      doors := Vector.ofFn fun d => (s.door d).cfg, groups := Vector.ofFn fun g => (s.group g).cfg } := by
  simp only [State.snapshot, map_eq_ofFn]
  rfl

section
variable {s : State} {rq : Request}

/-- R165, R176: a Commit that passes checks 1 to 3 is busy while one runs, and starts otherwise. -/
theorem takeCommit_permitted (h : s.permits rq 0) :
    takeCommit rq s = if s.mgmt.commit.isSome = true then reply rq .busy s else reply rq .done (startCommit s) := by
  rw [takeCommit, answer_entry h rfl, h.reserved]
  cases s.mgmt.commit <;> rfl

end

/-- Settles O14. -/
theorem commitRuns : Obligations.CommitRuns := by
  refine fun s rq h => ⟨s.snapshot_eq, fun hbusy => ?busy, fun hfree => ?done⟩
  case busy => exact congrArg _ ((takeCommit_permitted h).trans (if_pos hbusy))
  case done =>
    refine congrArg _ ((takeCommit_permitted h).trans (if_neg ?_))
    rw [hfree]
    exact Bool.noConfusion

section
variable {s : State} {c : Running}

/-- R176: a correct reading back in time leaves the image in the memory. -/
theorem commitEnds_correct (hc : s.mgmt.commit = some c) (ht : overdue s.clock (some c.deadline) = false) :
    commitEnds .correct s = notify .commitDone 0 0
      { s with
        memory := .image Config.partCode c.content
        mgmt := { s.mgmt with commit := none, lastCommit := .done } } := by
  rw [commitEnds, hc]
  exact if_pos ⟨rfl, ht⟩

/-- R176: any other end, and a late one, fails. -/
theorem commitEnds_failed {r : ReadBack} (hc : s.mgmt.commit = some c)
    (hbad : r ≠ .correct ∨ overdue s.clock (some c.deadline) = true) : commitEnds r s = failCommit s := by
  rw [commitEnds, hc]
  refine if_neg fun ⟨hr, ht⟩ => ?_
  obtain hne | hlate := hbad
  · exact hne hr
  · exact Bool.noConfusion (ht.symm.trans hlate)

theorem commitLapses_reached (hc : s.mgmt.commit = some c) (hd : reached s.clock c.deadline = true) :
    commitLapses s = failCommit s := by
  simp only [commitLapses, hc, hd, if_true]


/-- Log 1: while no Commit runs, the two events that end one do nothing. -/
theorem commit_idle (hnone : s.mgmt.commit = none) : (∀ r, commitEnds r s = s) ∧ commitLapses s = s :=
  ⟨fun r => by simp only [commitEnds, hnone], by simp only [commitLapses, hnone]⟩

end

/-! ## The start of processing (R24, R68, R143) -/

section
variable (s : State)

theorem startIfActive_cfg (i : PointIx) : ((startIfActive s).point i).cfg = (s.point i).cfg := by
  unfold startIfActive
  split
  · simp only [startProcessing, State.point, Vector.getElem_map]
    split <;> rfl
  · rfl

/-- R68: processing starts with a slot-end deadline for each zone. -/
theorem startIfActive_zone (z : ZoneIx) : (startIfActive s).zone z =
    if s.active then { s.zone z with slotEndAt := some (after s.clock ((s.zone z).cfg.slotLength * 1000)) } else s.zone z := by
  unfold startIfActive
  split
  · simp only [startProcessing, State.zone, Vector.getElem_map]
  · rfl

/-- The start of processing touches points and zones alone. -/
theorem startIfActive_rest : ∃ ps zs, startIfActive s = { s with points := ps, zones := zs } := by
  unfold startIfActive
  split
  · exact ⟨_, _, rfl⟩
  · exact ⟨_, _, rfl⟩

end

section
variable (s : State)

theorem leaveLoading_cfg (i : PointIx) : ((leaveLoading s).point i).cfg = (s.point i).cfg := startIfActive_cfg _ i

theorem leaveLoading_zone (z : ZoneIx) : (leaveLoading s).zone z =
    if s.active then { s.zone z with slotEndAt := some (after s.clock ((s.zone z).cfg.slotLength * 1000)) } else s.zone z :=
  startIfActive_zone _ z

end

theorem State.active_iff (s : State) : s.active = true ↔ s.mode = .observe ∨ s.mode = .protect := by
  simp [State.active]

/-! ## The end of Loading (R177) -/

section
variable (m : Image) (s : State)

/-- R177: the part at the end of Loading, its tables an image's and its mode `n`. -/
def loadedPart (n : Mode) : State := leaveLoading { loadImage m s with mode := n }

/-- R177: what leaving Loading touches beside the points and zones of the start of processing. -/
theorem loadedPart_rest (n : Mode) : ∃ ps zs, loadedPart m s n =
    { startSampling { loadImage m s with mode := n } with
      points := ps, zones := zs
      port := { s.port with silenceAt := some (after s.clock m.device.silenceLimit) }
      mgmt := { s.mgmt with loadingAt := none } } := startIfActive_rest _

theorem loadedPart_cfg (n : Mode) (i : PointIx) : ((loadedPart m s n).point i).cfg = m.points[i.val] := by
  rw [loadedPart, leaveLoading_cfg]
  simp [loadImage, rebuildMaps, State.point]

theorem loadedPart_zone (n : Mode) (z : ZoneIx) : (loadedPart m s n).zone z =
    { cfg := m.zones[z.val]
      slotEndAt :=
        if n = .observe ∨ n = .protect then some (after s.clock ((m.zones[z.val]).slotLength * 1000)) else none } := by
  have hzone : ({ loadImage m s with mode := n } : State).zone z = { cfg := m.zones[z.val] } := by
    simp [State.zone, loadImage, rebuildMaps]
  rw [loadedPart, leaveLoading_zone, hzone]
  simp only [State.active_iff]
  exact (apply_ite (fun d => ({ cfg := m.zones[z.val], slotEndAt := d } : Zone)) _ _ _).symm

/-- R177: the configuration parts of the other tables are the image's. -/
theorem loadedPart_tables (n : Mode) :
    (∀ l, ((loadedPart m s n).line l).cfg = m.lines[l.val]) ∧ (∀ k, ((loadedPart m s n).trip k).cfg = m.trips[k.val]) ∧
      (∀ d, ((loadedPart m s n).door d).cfg = m.doors[d.val]) ∧
      ∀ g, ((loadedPart m s n).group g).cfg = m.groups[g.val] := by
  obtain ⟨ps, zs, hpart⟩ := loadedPart_rest m s n
  rw [hpart]
  refine ⟨fun l => ?_, fun k => ?_, fun d => ?_, fun g => ?_⟩
  · simp [startSampling, loadImage, rebuildMaps, State.line, Line.cleared]
  · simp [startSampling, loadImage, rebuildMaps, State.trip]
  · simp [startSampling, loadImage, rebuildMaps, State.door]
  · simp [startSampling, loadImage, rebuildMaps, State.group]

/-- R177: the Device record, the cadences and what ends Loading. -/
theorem loadedPart_fields (n : Mode) :
    (loadedPart m s n).mode = n ∧ (loadedPart m s n).device = m.device ∧ (loadedPart m s n).cadences = m.cadences ∧
      (loadedPart m s n).memory = s.memory ∧ (loadedPart m s n).mgmt.loadingAt = none ∧
      (loadedPart m s n).port.silenceAt = some (after s.clock m.device.silenceLimit) := by
  obtain ⟨ps, zs, hpart⟩ := loadedPart_rest m s n
  rw [hpart]
  exact ⟨rfl, rfl, rfl, rfl, rfl, rfl⟩

/-- R20: sampling starts with every level Off and no count. -/
theorem loadedPart_input (n : Mode) (i : InputIx) :
    ((loadedPart m s n).input i).level = false ∧ ((loadedPart m s n).input i).edges = 0 := by
  obtain ⟨ps, zs, hpart⟩ := loadedPart_rest m s n
  rw [hpart]
  simp [startSampling, State.input]

end

/-! ## Good and bad images (R177) -/

section
variable {s : State} {m : Image}

theorem imageRead_good (hm : s.mode = .loading) (hg : s.goodImage = some m)
    (ht : overdue s.clock s.mgmt.loadingAt = false) : imageRead .answered s = startGood m s := by
  simp only [imageRead, hm, hg, ht, if_true, Bool.false_eq_true, if_false]

/-- R177: a good image is one written under the part's own code that passes its validation. -/
theorem State.goodImage_of_memory (hmem : s.memory = .image Config.partCode m) (hv : m.valid = true) :
    s.goodImage = some m := by
  simp only [State.goodImage, hmem, hv, and_self, if_true]

/-- R177: whatever ends Loading otherwise starts the part with the defaults. -/
theorem exec_startBad {c : Instr} (hm : s.mode = .loading)
    (hc : c = .imageReadComplete .silent ∨ c = .imageReadComplete .damaged ∨
      (c = .imageReadComplete .answered ∧ (s.goodImage = none ∨ overdue s.clock s.mgmt.loadingAt = true)) ∨
      (c = .loadingTimeout ∧ due s.clock s.mgmt.loadingAt = true)) : exec c s = .next (startBad s) := by
  obtain rfl | rfl | ⟨rfl, hbad⟩ | ⟨rfl, hdue⟩ := hc
  · exact congrArg _ (if_pos hm)
  · exact congrArg _ (if_pos hm)
  · refine congrArg _ ((if_pos hm).trans ?_)
    obtain hnone | hlate := hbad
    · rw [hnone]
    · cases s.goodImage with
      | none => rfl
      | some m => exact if_pos hlate
  · refine congrArg _ (if_pos ?_)
    rw [hm, hdue]
    rfl

end

/-- Settles O10: the part at the end of Loading holds the image. -/
theorem goodImageStarts : Obligations.GoodImageStarts := by
  intro s m hm hmem hv ht
  obtain ⟨hmode, hdevice, hcadences, _, hloading, hsilence⟩ := loadedPart_fields m s m.mode
  obtain ⟨hlines, htrips, hdoors, hgroups⟩ := loadedPart_tables m s m.mode
  refine ⟨loadedPart m s m.mode, congrArg _ (imageRead_good hm (State.goodImage_of_memory hmem hv) ht), hmode, hdevice,
    loadedPart_cfg m s m.mode, hlines, fun z => ?_, htrips, hdoors, hgroups, hcadences,
    (leaveLoading_linesFit (s := s) m.mode hv).1, hloading, hsilence, loadedPart_input m s m.mode, fun z => ?_⟩
  · rw [loadedPart_zone]
  · rw [loadedPart_zone]

/-- Settles O11: the part at the end of Loading holds the default image. -/
theorem badImageStarts : Obligations.BadImageStarts := by
  intro s c hm hc
  obtain ⟨hmode, hdevice, hcadences, hmemory, hloading, _⟩ := loadedPart_fields {} s .bypass
  obtain ⟨hlines, htrips, hdoors, hgroups⟩ := loadedPart_tables {} s .bypass
  refine ⟨loadedPart {} s .bypass, exec_startBad hm hc, hmode, hdevice, fun i => ?_, fun l => ?_, fun z => ?_, fun k => ?_,
    fun d => ?_, fun g => ?_, fun k => ?_, hmemory, hloading⟩
  · rw [loadedPart_cfg]; exact Vector.getElem_replicate _
  · rw [hlines]; exact Vector.getElem_replicate _
  · rw [loadedPart_zone]; exact Vector.getElem_replicate _
  · rw [htrips]; exact Vector.getElem_replicate _
  · rw [hdoors]; exact Vector.getElem_replicate _
  · rw [hgroups]; exact Vector.getElem_replicate _
  · rw [State.cadence, hcadences]; exact Vector.getElem_replicate _

/-! ## Restart (R175) -/

section
variable {s : State} {rq : Request}

theorem State.restartHeld_iff (s : State) : s.restartHeld = true ↔ s.mode = .protect ∧ s.alarmed := by
  rw [State.restartHeld, Bool.and_eq_true, s.alarmed_iff, beq_iff_eq]

/-- R165, R175: a Restart that passes checks 1 to 3 is held, or clears the part. -/
theorem takeRestart_permitted (h : s.permits rq 0) :
    takeRestart rq s = if s.restartHeld = true then reply rq .held s else reply rq .done (restartPart s) := by
  rw [takeRestart, answer_entry h rfl, h.reserved]
  cases hheld : s.restartHeld <;> simp only [firstFailed, Bool.false_eq_true, if_false, if_true]

theorem restartPart_mode (s : State) : (restartPart s).mode = s.mode := by
  obtain ⟨_, _, hrest⟩ := startIfActive_rest (clearDynamic s)
  rw [restartPart, hrest]
  rfl

end

/-- Settles O13. -/
theorem restartClears : Obligations.RestartClears := by
  refine fun s rq h => ⟨fun hm ha => ?held, fun hfree => ⟨restartPart s, ?done, restartPart_mode s, ?cleared⟩⟩
  case held => exact congrArg _ ((takeRestart_permitted h).trans (if_pos (s.restartHeld_iff.2 ⟨hm, ha⟩)))
  case done =>
    refine congrArg _ ((takeRestart_permitted h).trans (if_neg fun hheld => ?_))
    obtain ⟨hm, ha⟩ := s.restartHeld_iff.1 hheld
    exact hfree hm ha
  case cleared => exact clearDynamic_clearedFrom s s.mode

/-! ## The checks of a Request (R165) -/

end Sys2Proof.Machine

/-- Settles O15. -/
theorem Sys2Proof.commitEnds : Obligations.CommitEnds := by
  refine fun s => ⟨fun hnone => ⟨fun r => ?completion, ?timeout⟩, fun c hc => ⟨fun ht => ?correct, fun r hbad => ?failed,
    fun hd => ?lapsed⟩⟩
  case completion => exact congrArg _ ((Machine.commit_idle hnone).1 r)
  case timeout => exact congrArg _ (Machine.commit_idle hnone).2
  case correct => exact congrArg _ (Machine.commitEnds_correct hc ht)
  case failed => exact congrArg _ (Machine.commitEnds_failed hc hbad)
  case lapsed => exact congrArg _ (Machine.commitLapses_reached hc hd)
end

