-- ==== Sys2Proof/Proofs/RequestChecks.lean ====
section
/-! PROOFS. The checks of a Request that stand before all others (R165): each operation answers through `answer`, and but for the
reads its checks begin with those of the sender, the table and the index. -/

namespace Sys2Proof.Machine

/-- R165: the tables an operation can name. -/
def tablesOf : Instr → List Nat
  | .resetZone _ => [3]
  | .releaseLine _ => [2]
  | .restoreDoor _ => [5]
  | .silenceGroup _ | .sirenTest _ => [6]
  | .setMode _ | .restart _ | .commit _ => [0]
  | _ => everyTable

/-- The part's answer to a Request, whatever checks and effect the operation adds to the first three checks. -/
def AnswersEntry (tables : List Nat) (rq : Request) (s t : State) : Prop :=
  ∃ more f, t = answer rq (s.entryChecks rq tables ++ more) f s

theorem answersEntry_alone (tables : List Nat) (rq : Request) (f : State → State) (s : State) :
    AnswersEntry tables rq s (answer rq (s.entryChecks rq tables) f s) :=
  ⟨[], f, by rw [List.append_nil]⟩


/-- R165: every operation but the reads begins with the checks of the sender, the table and the index. -/
theorem exec_answersEntry {c : Instr} {rq : Request} (hc : c.request? = some rq) (hread : c ≠ .read rq)
    (hgroup : c ≠ .readGroup rq) (s : State) : ∃ t, exec c s = .next t ∧ AnswersEntry (tablesOf c) rq s t := by
  cases c with
  | read r => cases hc; exact absurd rfl hread
  | readGroup r => cases hc; exact absurd rfl hgroup
  | writeFirst r | clearCounters r | restart r | commit r => cases hc; exact ⟨_, rfl, _, _, rfl⟩
  | write r =>
    cases hc
    refine ⟨_, rfl, ?_⟩
    unfold takeWrite
    exact ⟨_, _, rfl⟩
  | writeSecond r => cases hc; exact ⟨_, rfl, answersEntry_alone ..⟩
  | resetZone r | releaseLine r | restoreDoor r | silenceGroup r | sirenTest r =>
    cases hc
    refine ⟨_, rfl, ?_⟩
    simp only [takeResetZone, takeReleaseLine, takeRestoreDoor, takeSilenceGroup, takeSirenTest]
    split
    · exact ⟨_, _, rfl⟩
    · exact answersEntry_alone ..
  | setMode r =>
    cases hc
    refine ⟨_, rfl, ?_⟩
    unfold takeSetMode
    split
    · exact ⟨_, _, rfl⟩
    · exact ⟨_, _, rfl⟩
  | _ => cases hc

theorem answer_loading {s : State} {rq : Request} {ch : List (Bool × ReplyCode)} {f : State → State}
    (hm : s.mode = .loading) : answer rq ch f s = s := if_pos hm

theorem takeRead_loading {s : State} {rq : Request} (hm : s.mode = .loading) : takeRead rq s = s ∧ takeReadGroup rq s = s := by
  rw [takeRead, takeReadGroup, answer_loading hm, answer_loading hm]
  exact ⟨rfl, rfl⟩

/-- Settles O16: in Loading `answer` discards the Request, whatever the operation. -/
theorem loadingDiscardsRequests : Obligations.LoadingDiscardsRequests := by
  intro s c rq hc hm
  by_cases hread : c = .read rq ∨ c = .readGroup rq
  · obtain rfl | rfl := hread
    · exact congrArg _ (takeRead_loading hm).1
    · exact congrArg _ (takeRead_loading hm).2
  · obtain ⟨hr, hg⟩ := not_or.1 hread
    obtain ⟨t, ht, more, f, rfl⟩ := exec_answersEntry hc hr hg s
    rw [ht, answer_loading hm]

section
variable {s t : State} {rq : Request} {tables : List Nat}

/-- R165, check 1. -/
theorem AnswersEntry.notPermitted (h : AnswersEntry tables rq s t) (hm : s.mode ≠ .loading)
    (hsource : rq.source ≠ s.device.supervisor) : t = reply rq .notPermitted s := by
  obtain ⟨more, f, rfl⟩ := h
  refine answer_refused hm ?_
  simp only [State.entryChecks, List.cons_append, firstFailed, bne_iff_ne.2 hsource, if_true]

/-- R165, check 2. -/
theorem AnswersEntry.table (h : AnswersEntry tables rq s t) (hm : s.mode ≠ .loading)
    (hsource : rq.source = s.device.supervisor) (htable : tables.contains rq.table = false) :
    t = reply rq .table s := by
  obtain ⟨more, f, rfl⟩ := h
  refine answer_refused hm ?_
  simp only [State.entryChecks, List.cons_append, firstFailed, hsource, bne_self_eq_false, Bool.false_eq_true, if_false,
    htable, Bool.not_false, if_true]

/-- R165, check 3. -/
theorem AnswersEntry.index (h : AnswersEntry tables rq s t) (hm : s.mode ≠ .loading)
    (hsource : rq.source = s.device.supervisor) (htable : tables.contains rq.table = true)
    (hindex : tableSize rq.table ≤ rq.ix) : t = reply rq .index s := by
  obtain ⟨more, f, rfl⟩ := h
  refine answer_refused hm ?_
  simp only [State.entryChecks, List.cons_append, firstFailed, hsource, bne_self_eq_false, Bool.false_eq_true, if_false,
    htable, Bool.not_true, Request.outside, hindex, decide_true, if_true]

/-- R165, checks 2 and 3 of an operation on any table. -/
theorem AnswersEntry.anyTable (h : AnswersEntry everyTable rq s t) (hm : s.mode ≠ .loading)
    (hsource : rq.source = s.device.supervisor) :
    (7 < rq.table → t = reply rq .table s) ∧
      (rq.table ≤ 7 → tableSize rq.table ≤ rq.ix → t = reply rq .index s) :=
  ⟨fun ht => h.table hm hsource (everyTable_lacks ht), fun ht => h.index hm hsource (everyTable_contains ht)⟩

/-- R165, checks 2 and 3 of an operation on one table. -/
theorem AnswersEntry.oneTable {n : Nat} (h : AnswersEntry [n] rq s t) (hm : s.mode ≠ .loading)
    (hsource : rq.source = s.device.supervisor) :
    (rq.table ≠ n → t = reply rq .table s) ∧
      (rq.table = n → tableSize n ≤ rq.ix → t = reply rq .index s) := by
  refine ⟨fun ht => h.table hm hsource ?_, fun ht hi => h.index hm hsource ?_ (ht ▸ hi)⟩
  · simpa using ht
  · simpa using ht

/-- R165: a Read or ReadGroup of no table is refused by its first check. -/
theorem takeRead_table (hm : s.mode ≠ .loading) (ht : 7 < rq.table) :
    takeRead rq s = reply rq .table s ∧ takeReadGroup rq s = reply rq .table s := by
  have hfirst : ∀ more, firstFailed ((!everyTable.contains rq.table, ReplyCode.table) :: more) = some .table :=
    fun more => if_pos (by rw [everyTable_lacks ht]; rfl)
  rw [takeRead, takeReadGroup, answer_refused hm (hfirst _), answer_refused hm (hfirst _)]
  exact ⟨rfl, rfl⟩

/-- R165: a Read outside its table is refused by its second check. -/
theorem takeRead_index (hm : s.mode ≠ .loading) (ht : rq.table ≤ 7) (hi : tableSize rq.table ≤ rq.ix) :
    takeRead rq s = reply rq .index s := by
  have hfirst : ∀ more,
      firstFailed ((!everyTable.contains rq.table, ReplyCode.table) :: (rq.outside, .index) :: more) = some .index := fun more => by
    simp only [firstFailed, everyTable_contains ht, Bool.not_true, Bool.false_eq_true, if_false, Request.outside, hi,
      decide_true, if_true]
  rw [takeRead, answer_refused hm (hfirst _)]

end

/-- Settles O17: the first three checks of each operation, in their order. -/
theorem requestsChecked : Obligations.RequestsChecked := by
  intro s rq hm
  refine ⟨fun hsource c hc hread hgroup => ?sender, fun ht => ?readTable, fun ht hi => ?readIndex, fun hsource =>
    ⟨fun c hc => ?anyTable, fun c n hc => ?oneTable⟩⟩
  case sender =>
    obtain ⟨t, ht, hanswer⟩ := exec_answersEntry hc hread hgroup s
    rw [ht, hanswer.notPermitted hm hsource]
  case readTable =>
    obtain ⟨hread, hgroup⟩ := takeRead_table (s := s) hm ht
    exact ⟨congrArg _ hread, congrArg _ hgroup⟩
  case readIndex => exact congrArg _ (takeRead_index hm ht hi)
  case anyTable =>
    have hform : c.request? = some rq ∧ c ≠ .read rq ∧ c ≠ .readGroup rq ∧ tablesOf c = everyTable := by
      obtain rfl | rfl | rfl | rfl := hc <;> exact ⟨rfl, Instr.noConfusion, Instr.noConfusion, rfl⟩
    obtain ⟨hrq, hread, hgroup, htables⟩ := hform
    obtain ⟨t, ht, hanswer⟩ := exec_answersEntry hrq hread hgroup s
    rw [ht, Host.Outcome.next.injEq, Host.Outcome.next.injEq]
    exact (htables ▸ hanswer).anyTable hm hsource
  case oneTable =>
    have hform : c.request? = some rq ∧ c ≠ .read rq ∧ c ≠ .readGroup rq ∧ tablesOf c = [n] := by
      obtain ⟨rfl, rfl⟩ | ⟨rfl, rfl⟩ | ⟨rfl, rfl⟩ | ⟨rfl, rfl⟩ | ⟨rfl, rfl⟩ | ⟨rfl, rfl⟩ | ⟨rfl, rfl⟩ | ⟨rfl, rfl⟩ := hc <;>
        exact ⟨rfl, Instr.noConfusion, Instr.noConfusion, rfl⟩
    obtain ⟨hrq, hread, hgroup, htables⟩ := hform
    obtain ⟨t, ht, hanswer⟩ := exec_answersEntry hrq hread hgroup s
    rw [ht, Host.Outcome.next.injEq, Host.Outcome.next.injEq]
    exact (htables ▸ hanswer).oneTable hm hsource

end Sys2Proof.Machine
end

