-- ==== Sys2Proof/Proofs/WriteChecks.lean ====
section
/-! PROOFS. Writes in one piece (R169, R172): the Device record set or refused, what stands in the way of any of them, and what
an accepted point write has been checked for (R8, R9). -/

namespace Sys2Proof.Machine

/-! ## The Device record (R169) -/

theorem within_iff {lo hi v : Nat} : within lo hi v = true ↔ lo ≤ v ∧ v ≤ hi := by
  rw [within, Bool.and_eq_true, decide_eq_true_iff, decide_eq_true_iff]

theorem DeviceCfg.rangesOk_iff (c : DeviceCfg) : c.rangesOk = true ↔
    1 ≤ c.own.toNat ∧ c.own.toNat ≤ 126 ∧ 1 ≤ c.supervisor.toNat ∧ c.supervisor.toNat ≤ 126 ∧ c.own ≠ c.supervisor ∧
      10 ≤ c.silenceLimit ∧ c.silenceLimit ≤ 2000 ∧ 5 ≤ c.returnLimit ∧ c.returnLimit ≤ 500 := by
  simp only [DeviceCfg.rangesOk, Bool.and_eq_true, within_iff, bne_iff_ne, and_assoc]

/-- R169, R11: what a Device write is accepted for. -/
theorem State.deviceOk_iff (s : State) (c : DeviceCfg) : s.deviceOk c = true ↔
    1 ≤ c.own.toNat ∧ c.own.toNat ≤ 126 ∧ 1 ≤ c.supervisor.toNat ∧ c.supervisor.toNat ≤ 126 ∧ c.own ≠ c.supervisor ∧
      10 ≤ c.silenceLimit ∧ c.silenceLimit ≤ 2000 ∧ 5 ≤ c.returnLimit ∧ c.returnLimit ≤ 500 ∧
      (c.own = s.device.own ∨ ∀ i, (s.point i).cfg.kind ≠ .unused →
        (s.point i).cfg.station ≠ s.device.own ∧ (s.point i).cfg.station ≠ c.own) := by
  simp only [State.deviceOk, Bool.and_eq_true, c.rangesOk_iff, s.ownChangeOk_iff, and_assoc]

theorem writeDevice_eq (c : DeviceCfg) (s : State) : writeDevice c s =
    { s with
      device := c
      port :=
        { s.port with
          previous := if c.own = s.device.own then s.port.previous
            else some (s.device.own, after s.clock c.returnLimit) } } := by
  unfold writeDevice
  split
  · rfl
  · rfl

/-- A Write of the Device record that no check refuses; its Reply comes after it. -/
theorem takeWrite_device {s : State} {rq : Request} {f : State → State} (h : s.permits rq 0)
    (hn : rq.namesState = false) (hc : s.mgmt.commit = none) (he : s.writeEffect rq = some f) :
    exec (.write rq) s = .next (reply rq .done (f s)) := by
  rw [takeWrite_permitted h, he]
  simp only [firstFailed, h.twoHalves, hc, s.writeBusy_device h.table, hn, h.reserved, Option.isSome_none, Bool.or_self,
    Option.isNone_some, Bool.false_eq_true, if_false, h.table, if_true]
  rfl

/-- Settles O21: the record is tested against the ranges and the point table, and then set. -/
theorem deviceWritten : Obligations.DeviceWritten := by
  intro s rq c h hn hc hdata ok
  have hok : s.deviceOk c = true ↔ ok := s.deviceOk_iff c
  have heffect := State.writeEffect_device (s := s) h.table hdata
  refine ⟨fun hbad => ?refused, fun hgood => ?written⟩
  case refused =>
    rw [if_neg (mt hok.1 hbad)] at heffect
    exact takeWrite_value h rfl hc (s.writeBusy_device h.table) heffect
  case written =>
    rw [if_pos (hok.2 hgood)] at heffect
    rw [takeWrite_device h hn hc heffect, writeDevice_eq]

/-! ## What stands in the way of a Write (R170, R172) -/

section
variable {s : State} {rq : Request} {n : Nat}

/-- R170: a table written in halves takes no Write in one piece. -/
theorem takeWrite_sequence (h : s.permits rq n) (hn : n ∈ [2, 3, 4, 5]) :
    exec (.write rq) s = .next (reply rq .sequence s) := by
  rw [takeWrite_permitted h, h.halves hn]
  rfl

/-- R172: a Commit, or work in progress at the entry, makes a Write busy. -/
theorem takeWrite_busy (h : s.permits rq n) (hn : n ∈ [0, 1, 6, 7])
    (hb : s.mgmt.commit.isSome = true ∨ s.writeBusy rq = true) : exec (.write rq) s = .next (reply rq .busy s) := by
  have hbusy : (s.mgmt.commit.isSome || s.writeBusy rq) = true := Bool.or_eq_true_iff.2 hb
  rw [takeWrite_permitted h, h.not_twoHalves hn, hbusy]
  rfl

/-- R169: a Write that names a state part, or whose data is no entry the table takes. -/
theorem takeWrite_refused (h : s.permits rq n) (hn : n ∈ [0, 1, 6, 7]) (hc : s.mgmt.commit = none)
    (hb : s.writeBusy rq = false) (hbad : rq.namesState = true ∨ s.writeEffect rq = none) :
    exec (.write rq) s = .next (reply rq .value s) := by
  have hvalue : (rq.reservedSet || rq.namesState || (s.writeEffect rq).isNone) = true := by
    obtain hstate | hnone := hbad
    · rw [hstate, Bool.or_true, Bool.true_or]
    · rw [hnone]; exact Bool.or_true _
  rw [takeWrite_permitted h, h.not_twoHalves hn, hc, hb, hvalue]
  rfl

/-- R169: data that is no entry of its table has no effect to apply. -/
theorem State.writeEffect_none (ht : rq.table = n)
    (hbad : (n = 0 ∧ readDevice rq.data = none) ∨ (n = 1 ∧ readPoint rq.data = none) ∨
      (n = 6 ∧ readGroupCfg rq.data = none) ∨ (n = 7 ∧ readCadence rq.data = none)) : s.writeEffect rq = none := by
  obtain ⟨rfl, hd⟩ | ⟨rfl, hd⟩ | ⟨rfl, hd⟩ | ⟨rfl, hd⟩ := hbad <;> simp only [State.writeEffect, ht, hd]
  · cases indexBelow 256 rq.ix <;> rfl
  · cases indexBelow 8 rq.ix <;> rfl
  · cases indexBelow 8 rq.ix <;> rfl

theorem indexBelow_some {k v : Nat} {i : Fin k} : indexBelow k v = some i ↔ v = i.val := by
  refine ⟨fun h => ?_, fun h => indexBelow_val i h.symm⟩
  unfold indexBelow at h
  split at h
  · cases h; rfl
  · cases h

/-- R172, log 33: the line that point data name, from the kind byte and the line byte. -/
theorem newLine_iff (d : List Byte) (l : LineIx) : newLine d = some l ↔
    ∃ a b k, d[0]? = some a ∧ d[4]? = some b ∧ kindOf a.toNat = some k ∧ k.hasLine = true ∧ b.toNat = l.val := by
  match d with
  | [] => simp [newLine]
  | a :: rest =>
    have hfirst : at1 (a :: rest) 0 = a.toNat := rfl
    simp only [newLine, hfirst]
    constructor
    · intro h
      split at h
      · rename_i k b hk hb
        split at h
        · rename_i hline
          exact ⟨a, b, k, rfl, hb, hk, hline, indexBelow_some.1 h⟩
        · cases h
      · cases h
    · rintro ⟨_, b, k, ha, hb, hk, hline, hv⟩
      cases ha
      simp only [hk, hb, hline, if_true, indexBelow_some.2 hv]

theorem newLine_short {d : List Byte} (h : d.length ≤ 4) : newLine d = none := by
  cases hline : newLine d with
  | none => rfl
  | some l =>
    obtain ⟨_, b, _, _, hb, _⟩ := (newLine_iff d l).1 hline
    rw [List.getElem?_eq_none h] at hb
    cases hb

theorem State.lineBusy_iff (s : State) (l : LineIx) :
    s.lineBusy l = true ↔ (s.line l).state ≠ .normal ∨ (s.line l).tracks ≠ [] := by
  simp [State.lineBusy]

theorem State.mem_doorsOfPoint {i : PointIx} {d : DoorIx} :
    d ∈ s.doorsOfPoint i ↔ (s.door d).cfg.point = some i ∧ (s.point i).cfg.kind = .door := by
  simp only [State.doorsOfPoint, List.mem_filter, List.mem_finRange, true_and, Bool.and_eq_true, beq_iff_eq,
    State.doorActive]
  refine ⟨fun ⟨hactive, hp⟩ => ⟨hp, ?_⟩, fun ⟨hp, hk⟩ => ⟨?_, hp⟩⟩
  · rw [hp] at hactive
    exact beq_iff_eq.1 hactive
  · rw [hp]
    exact beq_iff_eq.2 hk

/-- R172: the work in progress that a point write meets, its two lines read alike. -/
theorem State.pointBusy_eq (s : State) (i : PointIx) (d : List Byte) : s.pointBusy i d =
    ((s.point i).cfg.line.any s.lineBusy || (newLine d).any s.lineBusy
      || (((s.point i).cfg.kind == .fan || (s.point i).cfg.kind == .conveyor) && !(s.point i).drive.claims.isEmpty)
      || ((s.point i).cfg.kind == .valve && (s.point i).valve.state != .closed)
      || (s.doorsOfPoint i).any fun e => (s.door e).state != .opened && (s.door e).state != .unknown) := by
  simp only [State.pointBusy]
  cases (s.point i).cfg.line <;> cases newLine d <;> rfl

/-- R172: the work in progress that a point write meets. -/
theorem State.pointBusy_iff (s : State) (i : PointIx) (d : List Byte) : s.pointBusy i d = true ↔
    (∃ l, ((s.point i).cfg.line = some l ∨ newLine d = some l) ∧
        ((s.line l).state ≠ .normal ∨ (s.line l).tracks ≠ [])) ∨
      (((s.point i).cfg.kind = .fan ∨ (s.point i).cfg.kind = .conveyor) ∧ (s.point i).drive.claims ≠ []) ∨
      ((s.point i).cfg.kind = .valve ∧ (s.point i).valve.state ≠ .closed) ∨
      ∃ e, (s.door e).cfg.point = some i ∧ (s.point i).cfg.kind = .door ∧ (s.door e).state ≠ .opened ∧
        (s.door e).state ≠ .unknown := by
  have hline : ∀ o : Option LineIx, o.any s.lineBusy = true ↔
      ∃ l, o = some l ∧ ((s.line l).state ≠ .normal ∨ (s.line l).tracks ≠ []) := fun o => by
    simp only [Option.any_eq_true, s.lineBusy_iff]
  simp only [s.pointBusy_eq, Bool.or_eq_true, hline, Bool.and_eq_true, beq_iff_eq, bne_iff_ne, Bool.not_eq_true',
    List.isEmpty_eq_false_iff, List.any_eq_true, State.mem_doorsOfPoint, or_and_right, exists_or, or_assoc, and_assoc, ne_eq]

/-- R172: work in progress at the point that a Write names. -/
theorem State.writeBusy_point {i : PointIx} (ht : rq.table = 1) (hi : i.val = rq.ix) :
    s.writeBusy rq = s.pointBusy i rq.data := by
  simp only [State.writeBusy, ht, indexBelow_val i hi]

end

/-- Settles O23: each check of a Write, in its order. -/
theorem writesRefused : Obligations.WritesRefused := by
  intro s rq n h
  refine ⟨takeWrite_sequence h, fun hn hc => takeWrite_busy h hn (.inl hc),
    fun d => ⟨newLine_short, newLine_iff d⟩, fun hn i hi hbusy => ?busy, fun hn hc hb hbad => ?value⟩
  case busy =>
    subst hn
    have hpoint := (s.pointBusy_iff i rq.data).2 hbusy
    rw [← State.writeBusy_point h.table hi] at hpoint
    exact takeWrite_busy h (by decide) (.inr hpoint)
  case value => exact takeWrite_refused h hn hc hb (hbad.imp_right (State.writeEffect_none h.table))

/-! ## What a point write has been checked for (R8, R9) -/

/-- R8: the parts of the check of a used entry. -/
theorem State.pointOk_used {s : State} {i : PointIx} {c : PointCfg} (hok : s.pointOk i c = true) (hk : c.kind ≠ .unused) :
    c.fits s.device.own = true ∧ keyFree s.pointCfg i c = true ∧
      ∀ l, c.line = some l →
        membersOk (s.trialCfg i c) (Machine.membersOf (s.trialCfg i c) l) (s.line l).cfg.endPosition = true := by
  have hused : c.used = true := bne_iff_ne.2 hk
  simp only [State.pointOk, hused, Bool.not_true, Bool.false_or, Bool.and_eq_true] at hok
  obtain ⟨⟨hfits, hkey⟩, hline⟩ := hok
  refine ⟨hfits, hkey, fun l hl => ?_⟩
  rw [hl] at hline
  exact hline

/-- R8, checks 1, 3 and 4, as they read by the station and the channel. -/
theorem PointCfg.fits_place {c : PointCfg} {own : Byte} (h : c.fits own = true) :
    (c.station = own → c.channel.toNat < 8 → c.kind = .input ∨ c.kind = .call ∨ c.kind = .flame) ∧
      (c.station = own → 8 ≤ c.channel.toNat → c.kind = .output ∨ c.kind = .siren) ∧
      (c.station ≠ own → c.kind ≠ .input ∧ c.kind ≠ .output) ∧ c.channel.toNat ≤ 15 := by
  simp only [PointCfg.fits, Bool.and_eq_true] at h
  obtain ⟨⟨_, hranges⟩, hplace⟩ := h
  simp only [PointCfg.rangesOk, Bool.and_eq_true, within_iff] at hranges
  refine ⟨fun hown hlow => ?_, fun hown hhigh => ?_, fun hother => ?_, hranges.1.1.1.1.1.1.1.1.2.2⟩
  · simpa [PointCfg.placeOk, hown, hlow, or_assoc] using hplace
  · simpa [PointCfg.placeOk, hown, Nat.not_lt.2 hhigh] using hplace
  · simpa [PointCfg.placeOk, hother] using hplace

/-- Settles O25: the check of the entry, and of its line's lists as they would stand. -/
theorem pointChecked : Obligations.PointChecked := by
  intro s i c hok hk
  obtain ⟨hfits, hkey, hline⟩ := State.pointOk_used hok hk
  obtain ⟨hlow, hhigh, hother, hchannel⟩ := PointCfg.fits_place hfits
  refine ⟨fun j hj hused => keyFree_iff.1 hkey j hj (bne_iff_ne.2 hused), hlow, hhigh, hother, hchannel, fun l hl => ?_⟩
  intro cfg m
  have htrial : s.trialCfg i c = cfg := rfl
  rw [htrial] at hline
  obtain ⟨h1, h2, h3, h4, h5, h6, hpos, hend⟩ := Members.Fit.of_membersOk (hline l hl)
  have hused : ∀ {k : PointKind} {j : PointIx}, (cfg j).kind = k → k ≠ .unused → (cfg j).used = true :=
    fun hjk hne => bne_iff_ne.2 (hjk ▸ hne)
  have hvalve : ∀ j, (cfg j).kind = .valve → (cfg j).line = some l → j ∈ m.valves := fun j hjk hjl =>
    mem_valves.2 ⟨⟨hused hjk (by decide), hjl⟩, hjk⟩
  refine ⟨h1, h2, h3, h4, h5, h6, fun v w hne hv hw hvl hwl => hpos v (hvalve v hv hvl) w (hvalve w hw hwl) hne,
    fun v hv hvl => hend v ?_⟩
  obtain hv | hv | hv := hv
  · exact .inr (hvalve v hv hvl)
  · exact .inl (mem_detectors.2 ⟨⟨hused hv (by decide), hvl⟩, .inl hv⟩)
  · exact .inl (mem_detectors.2 ⟨⟨hused hv (by decide), hvl⟩, .inr hv⟩)

end Sys2Proof.Machine
end

