-- ==== Sys2Proof/Proofs/SecondHalves.lean ====
section
/-! PROOFS. The second half of a two-half write (R171, R172): its match with the staged half, its busy conditions, and what an
accepted line, zone or trip entry does (R14, R50, R66, R81, R82). -/

namespace Sys2Proof.Machine

/-! ## The match and the busy conditions -/

section
variable {s : State} {rq : Request} {n : Nat} {x : Staging}

/-- The part with an empty staging record is as busy as before. -/
theorem emptyStaging_secondBusy : (emptyStaging s).secondBusy rq = s.secondBusy rq := rfl

theorem State.stagedFor_none (h : s.permits rq n)
    (hx : ∀ x, s.mgmt.staging = some x → x.tag ≠ rq.tag ∨ x.table ≠ n ∨ x.index ≠ rq.ix) : s.stagedFor rq = none := by
  unfold State.stagedFor
  cases hst : s.mgmt.staging with
  | none => rfl
  | some x =>
    refine if_neg fun ⟨htag, htable, hindex⟩ => ?_
    obtain hne | hne | hne := hx x hst
    · exact hne htag
    · exact hne (htable.trans h.table)
    · exact hne hindex

/-- R171: a second half whose first is not staged is refused, and empties the staging record. -/
theorem takeWriteSecond_sequence (h : s.permits rq n)
    (hx : ∀ x, s.mgmt.staging = some x → x.tag ≠ rq.tag ∨ x.table ≠ n ∨ x.index ≠ rq.ix) :
    exec (.writeSecond rq) s = .next (reply rq .sequence (emptyStaging s)) := by
  rw [takeWriteSecond_permitted h, State.stagedFor_none h hx]

/-- R172: a second half meets a Commit, or work in progress at its entry. -/
theorem takeWriteSecond_busy (h : s.permits rq n) (hx : s.mgmt.staging = some x) (h1 : x.tag = rq.tag) (h2 : x.table = n)
    (h3 : x.index = rq.ix) (hb : s.mgmt.commit.isSome = true ∨ s.secondBusy rq = true) :
    exec (.writeSecond rq) s = .next (reply rq .busy (emptyStaging s)) := by
  have hbusy : ((emptyStaging s).mgmt.commit.isSome || (emptyStaging s).secondBusy rq) = true :=
    Bool.or_eq_true_iff.2 hb
  rw [takeWriteSecond_permitted h, State.stagedFor_some h hx h1 h2 h3]
  simp only [firstFailed, hbusy, if_true]

/-- R171, log 23: two halves that are no entry of their table, or a half that names a state part. -/
theorem takeWriteSecond_refused (h : s.permits rq n) (hc : s.mgmt.commit = none) (hx : s.mgmt.staging = some x)
    (h1 : x.tag = rq.tag) (h2 : x.table = n) (h3 : x.index = rq.ix) (hb : s.secondBusy rq = false)
    (hbad : rq.namesState = true ∨ (emptyStaging s).secondEffect rq x.half = none) :
    exec (.writeSecond rq) s = .next (reply rq .value (emptyStaging s)) := by
  have hvalue : (rq.reservedSet || rq.namesState || ((emptyStaging s).secondEffect rq x.half).isNone) = true := by
    obtain hstate | hnone := hbad
    · rw [hstate, Bool.or_true, Bool.true_or]
    · rw [hnone]; exact Bool.or_true _
  have hfree : ((emptyStaging s).mgmt.commit.isSome || (emptyStaging s).secondBusy rq) = false := by
    rw [emptyStaging_secondBusy, hb, Bool.or_false]
    exact congrArg Option.isSome hc
  rw [takeWriteSecond_permitted h, State.stagedFor_some h hx h1 h2 h3]
  simp only [firstFailed, hfree, hvalue, Bool.false_eq_true, if_false, if_true]

theorem State.secondBusy_line (ht : rq.table = 2) {l : LineIx} (hl : l.val = rq.ix) :
    s.secondBusy rq = s.lineBusy l := by
  simp only [State.secondBusy, ht, indexBelow_val l hl]

theorem State.secondBusy_zone (ht : rq.table = 3) {z : ZoneIx} (hz : z.val = rq.ix) :
    s.secondBusy rq = decide (2 ≤ (s.zone z).level.rank) := by
  simp only [State.secondBusy, ht, indexBelow_val z hz]
  rfl

theorem State.secondBusy_trip (ht : rq.table = 4) : s.secondBusy rq = false := by
  simp only [State.secondBusy, ht]

theorem State.secondBusy_door (ht : rq.table = 5) {d : DoorIx} (hd : d.val = rq.ix) :
    s.secondBusy rq = ((s.door d).state != .opened && (s.door d).state != .unknown) := by
  simp only [State.secondBusy, ht, indexBelow_val d hd]

/-- R171: two halves that no entry of their table reads as. -/
theorem State.secondEffect_none {a : List Byte} (ht : rq.table = n)
    (hbad : (n = 2 ∧ readLine a rq.data = none) ∨ (n = 3 ∧ readZone a rq.data = none) ∨
      (n = 4 ∧ readTrip a rq.data = none) ∨ (n = 5 ∧ readDoor a rq.data = none)) : s.secondEffect rq a = none := by
  obtain ⟨rfl, hd⟩ | ⟨rfl, hd⟩ | ⟨rfl, hd⟩ | ⟨rfl, hd⟩ := hbad <;> simp only [State.secondEffect, ht, hd]
  · cases indexBelow 12 rq.ix <;> rfl
  · cases indexBelow 32 rq.ix <;> rfl
  · cases indexBelow 64 rq.ix <;> rfl
  · cases indexBelow 24 rq.ix <;> rfl

end

/-- Settles O29: the match, the busy conditions table by table, and the halves that are no entry. -/
theorem secondHalfMatched : Obligations.SecondHalfMatched := by
  intro s rq n h u
  refine ⟨takeWriteSecond_sequence h, fun x hx h1 h2 h3 => ?_⟩
  have hbusy : s.mgmt.commit.isSome = true ∨ s.secondBusy rq = true → exec (.writeSecond rq) s = .next (reply rq .busy u) :=
    takeWriteSecond_busy h hx h1 h2 h3
  refine ⟨fun hc => hbusy (.inl hc), fun l hn hl hwork => hbusy (.inr ?line), fun z hn hz hlevel => hbusy (.inr ?zone),
    fun d hn hd hopen hunknown => hbusy (.inr ?door), fun hc hb hbad => ?value⟩
  case line => rw [State.secondBusy_line (h.table.trans hn) hl]; exact (s.lineBusy_iff l).2 hwork
  case zone => rw [State.secondBusy_zone (h.table.trans hn) hz]; exact decide_eq_true hlevel
  case door =>
    rw [State.secondBusy_door (h.table.trans hn) hd, bne_iff_ne.2 hopen, bne_iff_ne.2 hunknown]
    rfl
  case value =>
    exact takeWriteSecond_refused h hc hx h1 h2 h3 hb (hbad.imp_right (State.secondEffect_none h.table))

/-- A second half that no check refuses, as an effect answered by a Done Reply. -/
theorem takeWriteSecond_answered {s : State} {rq : Request} {n : Nat} {f : State → State} {x : Staging}
    (h : s.permits rq n) (hn : rq.namesState = false) (hc : s.mgmt.commit = none) (hx : s.mgmt.staging = some x)
    (h1 : x.tag = rq.tag) (h2 : x.table = n) (h3 : x.index = rq.ix) (hb : s.secondBusy rq = false)
    (he : (emptyStaging s).secondEffect rq x.half = some f) :
    ∃ t, exec (.writeSecond rq) s = .next t ∧ Answered rq f (emptyStaging s) t :=
  ⟨_, takeWriteSecond_done h hn hc hx h1 h2 h3 hb he, doneWith_answered rq f _⟩

/-! ## Trips (R82) -/

theorem State.secondEffect_trip {s : State} {rq : Request} {a : List Byte} {k : TripIx} {c : TripCfg} (ht : rq.table = 4)
    (hk : k.val = rq.ix) (hc : readTrip a rq.data = some c) : s.secondEffect rq a = some (writeTrip k c) := by
  simp only [State.secondEffect, ht, indexBelow_val k hk, hc, readTrip_ok hc, if_true]

/-- Settles O32: the entry is replaced, and the Reply does not bear on it. -/
theorem tripWritten : Obligations.TripWritten := by
  intro s rq x k c h hn hc hx h1 h2 h3 hk hdata
  rw [takeWriteSecond_done h hn hc hx h1 h2 h3 (State.secondBusy_trip (h.table))
    (State.secondEffect_trip h.table hk hdata)]
  exact congrArg Host.Outcome.next (doneWith_eq rfl)

/-! ## Lines (R14, R50) -/

theorem State.secondEffect_line {s : State} {rq : Request} {a : List Byte} {l : LineIx} {c : LineCfg} (ht : rq.table = 2)
    (hl : l.val = rq.ix) (hc : readLine a rq.data = some c) :
    s.secondEffect rq a = if lineOk s.pointCfg (s.membersOf l) c then some (writeLine l c) else none := by
  simp only [State.secondEffect, ht, indexBelow_val l hl, hc]

theorem State.active_of_bypass {s : State} (hm : s.mode = .bypass) : s.active = false := by
  rw [State.active, hm]
  rfl

theorem writeLine_bypass {l : LineIx} {c : LineCfg} {s : State} (hm : s.mode = .bypass) :
    writeLine l c s = s.modLine l fun r => { r with cfg := c } :=
  if_neg (Bool.eq_false_iff.1 (State.active_of_bypass hm))

/-- R26: the effective speed a line would have with another configuration part. -/
theorem effectiveSpeed_modCfg (s : State) (l : LineIx) (c : LineCfg) :
    (s.modLine l fun r => { r with cfg := c }).effectiveSpeed l =
      match c.source with
      | .design => c.design
      | .calibrated => (s.line l).calibrated.getD c.design
      | .sampled => if s.freshSpeeds l = [] then c.design
        else max 1 ((s.freshSpeeds l).sum / (s.freshSpeeds l).length) := by
  have hfresh : (s.modLine l fun r => { r with cfg := c }).freshSpeeds l = s.freshSpeeds l := rfl
  simp only [State.effectiveSpeed, State.line_modLine, hfresh]
  cases c.source with
  | design => rfl
  | calibrated => rfl
  | sampled =>
    cases s.freshSpeeds l with
    | nil => rfl
    | cons v vs => rfl

/-- Settles O30: the entry is set, and in Observe and Protect the speed of a line without tracks is computed from it. -/
theorem lineWritten : Obligations.LineWritten := by
  intro s rq x l c h hn hc hx h1 h2 h3 hl hstate htracks hdata u
  have heffect := State.secondEffect_line (s := emptyStaging s) h.table hl hdata
  have hbusy : s.secondBusy rq = false := by
    rw [State.secondBusy_line h.table hl, Bool.eq_false_iff, ne_eq, s.lineBusy_iff]
    simp [hstate, htracks]
  refine ⟨fun hbad => ?refused, fun hok hm => ?bypass, fun hok ha => ?active⟩
  case refused => exact takeWriteSecond_value h hc hx h1 h2 h3 hbusy (heffect.trans (if_neg (Bool.eq_false_iff.1 hbad)))
  case bypass =>
    rw [takeWriteSecond_done h hn hc hx h1 h2 h3 hbusy (heffect.trans (if_pos hok)), doneWith_eq, writeLine_bypass]
    · rfl
    · exact hm
    · rw [writeLine_bypass, writeLine_bypass]
      · rfl
      · exact hm
      · exact hm
  case active =>
    obtain ⟨t, ht, hans⟩ := takeWriteSecond_answered h hn hc hx h1 h2 h3 hbusy (heffect.trans (if_pos hok))
    refine ⟨t, ht, ?_⟩
    apply hans.fact
    · exact fun _ _ _ hu => hu
    intro p
    generalize hw : ({ emptyStaging s with port := p } : State) = w
    have hline : ∀ k, w.line k = s.line k := fun k => by rw [← hw]; rfl
    have hpoint : ∀ i, w.point i = s.point i := fun i => by rw [← hw]; rfl
    have hfresh : w.freshSpeeds l = s.freshSpeeds l := by rw [← hw]; rfl
    have hactive : w.active = true := by rw [← hw]; exact ha
    obtain ⟨r, q, hspeed, hcfg, hnormal, hempty, hv, hflood⟩ :=
      recomputeSpeed_empty (l := l) (s := w.modLine l fun r => { r with cfg := c })
        (by rw [State.line_modLine, hline]; exact htracks) (by rw [State.line_modLine, hline]; exact hstate)
    have hresult : writeLine l c w = { w.modLine l (fun _ => r) with port := q } := by
      rw [writeLine, if_pos hactive, hspeed, State.modLine_modLine]
    have hown : (writeLine l c w).line l = r := by
      rw [hresult]
      exact State.line_modLine w l fun _ => r
    rw [State.line_modLine] at hcfg hflood
    rw [effectiveSpeed_modCfg, hline, hfresh] at hv
    refine ⟨by rw [hown, hcfg], by rw [hown, hnormal], by rw [hown, hempty], fun k hk => ?_, fun i => ?_, ?speed,
      by rw [hown, hflood]⟩
    · rw [hresult, ← hline k]
      exact State.line_modLine_ne w l (fun _ => r) k hk
    · rw [hresult, ← hpoint i]
      rfl
    case speed =>
      refine (congrArg Line.speed hown).trans (hv.trans ?_)
      cases c.source <;> rfl

/-! ## Zones (R66, R81) -/

theorem State.secondEffect_zone {s : State} {rq : Request} {a : List Byte} {z : ZoneIx} {c : ZoneCfg} (ht : rq.table = 3)
    (hz : z.val = rq.ix) (hc : readZone a rq.data = some c) : s.secondEffect rq a = some (writeZone z c) := by
  simp only [State.secondEffect, ht, indexBelow_val z hz, hc, readZone_ok hc, if_true]

/-- R66: what the ranges of a zone entry say of its levels. -/
theorem ZoneCfg.rangesOk_spec {c : ZoneCfg} (h : c.rangesOk = true) :
    1 ≤ c.slotLength ∧ c.slotLength ≤ 60 ∧ (∀ n, c.divert = some n ∨ c.shut = some n → 2 ≤ n.rank) ∧
      1 ≤ c.escape.rank := by
  simp only [ZoneCfg.rangesOk, Bool.and_eq_true, Level.between, within_iff] at h
  obtain ⟨⟨⟨⟨hlo, hhi⟩, hdivert⟩, hshut⟩, hescape, _⟩ := h
  refine ⟨hlo, hhi, fun n hn => ?_, hescape⟩
  obtain hn | hn := hn
  · rw [hn] at hdivert
    exact (within_iff.1 hdivert).1
  · rw [hn] at hshut
    exact (within_iff.1 hshut).1

/-- R81: the written zone entry: its window starts afresh with a new slot length. -/
def Zone.rewritten (r : Zone) (c : ZoneCfg) (now : Time) : Zone :=
  if r.cfg.slotLength = c.slotLength then { r with cfg := c }
  else { r.clearWindow with cfg := c, current := 0, slotEndAt := some (after now (c.slotLength * 1000)) }

theorem Zone.rewritten_level (r : Zone) (c : ZoneCfg) (now : Time) :
    (r.rewritten c now).cfg = c ∧ (r.rewritten c now).level = r.level := by
  unfold Zone.rewritten
  split
  · exact ⟨rfl, rfl⟩
  · exact ⟨rfl, rfl⟩

theorem moveRequest_yardWork (z : ZoneIx) (old : Option GroupIx) (s : State) : YardWork s (moveRequest z old s) := by
  unfold moveRequest
  cases old with
  | none => exact respondSirens_yardWork z _ s
  | some g => exact (changeRequest_yardWork g z none s).trans (respondSirens_yardWork z _ _)

/-- R81: the part with the zone entry rewritten, before its request moves. -/
def rewriteZone (z : ZoneIx) (c : ZoneCfg) (s : State) : State := s.modZone z fun r => r.rewritten c s.clock

theorem writeZone_eq (z : ZoneIx) (c : ZoneCfg) (s : State) : writeZone z c s =
    if s.active then moveRequest z (s.zone z).cfg.group (rewriteZone z c s) else rewriteZone z c s := by
  unfold writeZone rewriteZone State.modZone Zone.rewritten
  rfl

/-- R81: a zone write leaves the zones as the rewriting of the entry does, but for their fault counts. -/
theorem writeZone_zone (z w : ZoneIx) (c : ZoneCfg) (s : State) : (writeZone z c s).zone w =
    { (rewriteZone z c s).zone w with faults := ((writeZone z c s).zone w).faults } := by
  rw [writeZone_eq]
  split
  · exact (moveRequest_yardWork z _ _).zone w
  · rfl

/-- R81: in Observe and Protect the zone's request moves; the other modes leave the groups. -/
theorem writeZone_groups (z : ZoneIx) (c : ZoneCfg) (s : State) :
    (s.active = false → (writeZone z c s).groups = s.groups) ∧
    (s.active = true →
      (∀ g, c.group = some g →
        ((writeZone z c s).group g).requests[z.val] = c.cadenceFor (s.zone z).level) ∧
      (∀ g, (s.zone z).cfg.group = some g → c.group ≠ some g → ((writeZone z c s).group g).requests[z.val] = none) ∧
      (∀ g, (s.zone z).cfg.group ≠ some g → c.group ≠ some g → (writeZone z c s).group g = s.group g) ∧
      ∀ g (w : ZoneIx), w ≠ z → ((writeZone z c s).group g).requests[w.val] = (s.group g).requests[w.val]) := by
  obtain ⟨hcfg, hlevel⟩ := (s.zone z).rewritten_level c s.clock
  have hzone : (rewriteZone z c s).zone z = (s.zone z).rewritten c s.clock := State.zone_modZone s z _
  refine ⟨fun ha => ?_, fun ha => ?_⟩
  · rw [writeZone_eq, if_neg (Bool.eq_false_iff.1 ha)]
    rfl
  · have hmove := moveRequest_groups z (s.zone z).cfg.group (rewriteZone z c s)
    rw [hzone, hcfg, hlevel] at hmove
    obtain ⟨hnew, hold, hother, hrest⟩ := hmove
    rw [writeZone_eq, if_pos ha]
    exact ⟨hnew, hold, hother, hrest⟩

/-- Settles O31: the entry by its slot length, and the groups by the request that moves. -/
theorem zoneWritten : Obligations.ZoneWritten := by
  intro s rq x z c h hn hc hx h1 h2 h3 hz hlevel hdata
  have hbusy : s.secondBusy rq = false := by
    rw [State.secondBusy_zone h.table hz]
    exact decide_eq_false (Nat.not_le.2 hlevel)
  obtain ⟨hlo, hhi, hlevels, hescape⟩ := ZoneCfg.rangesOk_spec (readZone_ok hdata)
  obtain ⟨t, ht, hans⟩ := takeWriteSecond_answered h hn hc hx h1 h2 h3 hbusy (State.secondEffect_zone h.table hz hdata)
  refine ⟨hlo, hhi, hlevels, hescape, t, ht, ?_⟩
  apply hans.fact
  · exact fun _ _ _ hu => hu
  intro p
  generalize hw : ({ emptyStaging s with port := p } : State) = w
  have hzone : ∀ y, w.zone y = s.zone y := fun y => by rw [← hw]; rfl
  have hgroups : w.groups = s.groups := by rw [← hw]; rfl
  have hgroup : ∀ g, w.group g = s.group g := fun g => by rw [← hw]; rfl
  have hactive : w.active = s.active := by rw [← hw]; rfl
  have hclock : w.clock = s.clock := by rw [← hw]; rfl
  have hown : (writeZone z c w).zone z =
      { (s.zone z).rewritten c s.clock with faults := ((writeZone z c w).zone z).faults } := by
    rw [← hzone z, ← hclock, ← State.zone_modZone w z fun r => r.rewritten c w.clock]
    exact writeZone_zone z z c w
  have hothers : ∀ y, y ≠ z → (writeZone z c w).zone y = { s.zone y with faults := ((writeZone z c w).zone y).faults } :=
    fun y hy => by
      rw [← hzone y, ← State.zone_modZone_ne w z (fun r => r.rewritten c w.clock) y hy]
      exact writeZone_zone z y c w
  obtain ⟨hcfg, hsame⟩ := (s.zone z).rewritten_level c s.clock
  obtain ⟨hidle, hmoved⟩ := writeZone_groups z c w
  rw [hactive, hgroups] at hidle
  simp only [hactive, hzone, hgroup] at hmoved
  refine ⟨by rw [hown, hcfg], fun y => ?level, fun y hy => by rw [hothers y hy], hidle, hmoved, fun hs => ?stands,
    fun hs => ?afresh⟩
  case level =>
    by_cases hy : y = z
    · rw [hy, hown, hsame]
    · rw [hothers y hy]
  case stands =>
    rw [hown, Zone.rewritten, if_pos hs]
    exact ⟨rfl, rfl, rfl, rfl⟩
  case afresh =>
    rw [hown, Zone.rewritten, if_neg hs]
    exact ⟨rfl, rfl, rfl, rfl⟩

end Sys2Proof.Machine
end

