-- ==== Sys2Proof/Proofs/Frames.lean ====
section
/-! PROOFS. What commands leave alone: an event command whose deadline is not reached changes nothing (log 1), and each command
changes no kind of state but its own. -/

namespace Sys2Proof.Machine

/-! ## Events that are not due -/

section
variable {s : State}

theorem exec_imageReadComplete_idle (hm : s.mode ≠ .loading) (a : MemoryAnswer) :
    exec (.imageReadComplete a) s = .next s := congrArg Host.Outcome.next (if_neg hm : imageRead a s = s)

theorem exec_loadingTimeout_idle (h : (s.mode == .loading && due s.clock s.mgmt.loadingAt) = false) :
    exec .loadingTimeout s = .next s :=
  congrArg Host.Outcome.next (if_neg (Bool.eq_false_iff.1 h) : loadingEnds s = s)

/-- R27: a sample that is stale already, or not yet two seconds old, does not expire. -/
theorem sampleExpires_idle {i : PointIx}
    (h : ∀ a, (s.point i).sample = some a → a.fresh = false ∨ elapsed s.clock a.arrival < 2000) : sampleExpires i s = s := by
  unfold sampleExpires
  cases ha : (s.point i).sample with
  | none => rfl
  | some a =>
    cases (s.point i).cfg.line with
    | none => rfl
    | some l =>
      refine if_neg fun hdue => ?_
      simp only [Bool.and_eq_true, decide_eq_true_eq] at hdue
      obtain ⟨⟨_, hfresh⟩, hage⟩ := hdue
      obtain hstale | hyoung := h a ha
      · exact absurd hfresh (Bool.eq_false_iff.1 hstale)
      · exact absurd hyoung (Nat.not_lt.2 hage)

theorem strikeFires_idle (h : ∀ e, s.strikes.head? = some e → reached s.clock e.fire = false) : strikeFires s = s := by
  unfold strikeFires
  cases hl : s.strikes with
  | nil => rfl
  | cons e es => exact if_neg (by rw [h e (by rw [hl]; rfl), Bool.and_false]; exact Bool.false_ne_true)

theorem phaseEnds_idle {g : GroupIx} (h : due s.clock (s.group g).phaseAt = false) : phaseEnds g s = s := by
  unfold phaseEnds
  cases hd : (s.group g).phaseAt with
  | none => rfl
  | some d =>
    rw [hd] at h
    cases (s.group g).sounding with
    | none => rfl
    | some c => exact if_neg (by rw [show reached s.clock d = false from h, Bool.and_false]; exact Bool.false_ne_true)

theorem returnEnds_idle (h : ∀ r, s.port.returns.head? = some r → reached s.clock r.deadline = false) :
    returnEnds s = s := by
  unfold returnEnds
  cases hl : s.port.returns with
  | nil => rfl
  | cons r rs => exact if_neg (Bool.eq_false_iff.1 (h r (by rw [hl]; rfl)))

theorem previousEnds_idle (h : ∀ p, s.port.previous = some p → reached s.clock p.2 = false) : previousEnds s = s := by
  unfold previousEnds
  cases hp : s.port.previous with
  | none => rfl
  | some p => exact if_neg (Bool.eq_false_iff.1 (h p hp))

theorem stagingEnds_idle (h : ∀ x, s.mgmt.staging = some x → reached s.clock x.deadline = false) : stagingEnds s = s := by
  unfold stagingEnds
  cases hx : s.mgmt.staging with
  | none => rfl
  | some x => exact if_neg (Bool.eq_false_iff.1 (h x hx))

theorem commitLapses_idle (h : ∀ c, s.mgmt.commit = some c → reached s.clock c.deadline = false) : commitLapses s = s := by
  unfold commitLapses
  cases hc : s.mgmt.commit with
  | none => rfl
  | some c => exact if_neg (Bool.eq_false_iff.1 (h c hc))

theorem transmissionEnds_idle (h : s.port.sending = none) : transmissionEnds s = s :=
  if_neg (by rw [h]; exact Bool.false_ne_true)

/-- The deadlines that a handler tests last, after the mode and the state of its entry. -/
theorem guarded_idle {α : Type} {a b : Bool} {x y : α} (h : b = false) : (if (a && b) = true then x else y) = y := by
  rw [h, Bool.and_false]
  exact if_neg Bool.false_ne_true

/-- R20: a change of the raw level to what it is, and a debounce deadline that is not reached. -/
theorem input_idle (i : InputIx) :
    (∀ on, (s.input i).raw = on → exec (.rawLevelChange i on) s = .next s) ∧
      (due s.clock (s.input i).debounceAt = false → exec (.debounceDeadline i) s = .next s) := by
  refine ⟨fun on hraw => ?_, fun h => ?_⟩
  · exact congrArg Host.Outcome.next (if_pos hraw : rawLevelChanges i on s = s)
  · exact congrArg Host.Outcome.next (guarded_idle h : debounceEnds i s = s)

end

/-- Settles O35: the test of each handler fails, and with no trigger event raised none is taken. -/
theorem notDueChangesNothing : Obligations.NotDueChangesNothing := by
  intro s ht
  have hsettle : settle s = s := settle_idle ht
  refine ⟨fun hm c hc => ?modes, fun hm a => ⟨exec_imageReadComplete_idle hm a, ?notLoading⟩, fun h => ?loading,
    fun i h => ?sample, fun l => ⟨fun h => ?retire, fun h => ?gate, fun h => ?runDown⟩, fun h => ?strike,
    fun v => ⟨fun h => ?hold, fun h => ?recovery, fun h => ?feedback, fun h => ?repeated, fun h => ?disagree⟩,
    fun z h => ?slot, fun h => ?tick, fun d => ⟨fun h => ?runOut, fun h => ?clearing, fun h => ?closing⟩,
    fun g => ⟨fun h => ?cadence, fun h => ?phase⟩, input_idle, fun h => ?transmission, fun h => ?returns,
    fun h => ?silence, fun h => ?previous, fun h => ?staging, fun h => ?commit⟩
  case modes =>
    refine plantEvent_idle hsettle ?_ ?_ c hc
    · rw [State.active]; obtain hm | hm := hm <;> rw [hm] <;> rfl
    · obtain hm | hm := hm <;> rw [hm] <;> decide
  case notLoading => exact exec_loadingTimeout_idle (by rw [beq_false_of_ne hm, Bool.false_and])
  case loading => exact exec_loadingTimeout_idle (by rw [h, Bool.and_false])
  case sample => exact congrArg Host.Outcome.next ((congrArg settle (sampleExpires_idle h)).trans hsettle)
  case retire => exact congrArg Host.Outcome.next (guarded_idle h : retireEnds l s = s)
  case gate => exact congrArg Host.Outcome.next (guarded_idle h : gateTravelEnds l s = s)
  case runDown => exact congrArg Host.Outcome.next (guarded_idle h : runDownEnds l s = s)
  case strike => exact congrArg Host.Outcome.next (strikeFires_idle h)
  case hold => exact congrArg Host.Outcome.next (guarded_idle h : holdEnds v s = s)
  case recovery => exact congrArg Host.Outcome.next (guarded_idle h : recoveryEnds v s = s)
  case feedback => exact congrArg Host.Outcome.next (guarded_idle h : feedbackEnds v s = s)
  case repeated => exact congrArg Host.Outcome.next (guarded_idle h : repeatEnds v s = s)
  case disagree => exact congrArg Host.Outcome.next (guarded_idle h : disagreementEnds v s = s)
  case slot => exact congrArg Host.Outcome.next ((congrArg settle (guarded_idle h : slotEnds z s = s)).trans hsettle)
  case tick => exact congrArg Host.Outcome.next (guarded_idle (decide_eq_false h) : tickTaken s = s)
  case runOut => exact congrArg Host.Outcome.next (guarded_idle h : runOutEnds d s = s)
  case clearing => exact congrArg Host.Outcome.next (guarded_idle h : clearingEnds d s = s)
  case closing => exact congrArg Host.Outcome.next (guarded_idle h : closingEnds d s = s)
  case cadence => exact congrArg Host.Outcome.next (guarded_idle h : cadenceEnds g s = s)
  case phase => exact congrArg Host.Outcome.next (phaseEnds_idle h)
  case transmission => exact congrArg Host.Outcome.next (transmissionEnds_idle h)
  case returns => exact congrArg Host.Outcome.next (returnEnds_idle h)
  case silence => exact congrArg Host.Outcome.next (if_neg (Bool.eq_false_iff.1 h) : silenceEnds s = s)
  case previous => exact congrArg Host.Outcome.next (previousEnds_idle h)
  case staging => exact congrArg Host.Outcome.next (stagingEnds_idle h)
  case commit => exact congrArg Host.Outcome.next (commitLapses_idle h)

/-! ## Which commands may change which kind of state -/

theorem ordinary_of_not_sweeping {c : Instr} (h : sweeping c = false) : ordinary c = true := by
  cases c with
  | write rq =>
    have hle : ¬rq.table ≤ 1 := of_decide_eq_false h
    exact decide_eq_true ⟨by omega, by omega⟩
  | clearCounters rq => exact decide_eq_true (of_decide_eq_false h)
  | powerOn | resetPin | imageReadComplete | loadingTimeout | frameArrival | setMode | restart => cases h
  | _ => rfl

section
variable {c : Instr}

theorem allowOf_classifier : ¬(allowOf c).classifier := by
  cases c <;> exact id

theorem allowOf_tables (h : (allowOf c).tables) : ∃ rq, c = .write rq ∨ c = .writeSecond rq := by
  cases c with
  | write rq => exact ⟨rq, .inl rfl⟩
  | writeSecond rq => exact ⟨rq, .inr rfl⟩
  | _ => exact False.elim h

theorem allowOf_cadences (h : (allowOf c).cadences) : ∃ rq, c = .write rq := by
  cases c with
  | write rq => exact ⟨rq, rfl⟩
  | _ => exact False.elim h

theorem allowOf_quiet (h : (allowOf c).quiet) : ∃ rq, c = .resetZone rq := by
  cases c with
  | resetZone rq => exact ⟨rq, rfl⟩
  | _ => exact False.elim h

theorem allowOf_window (h : (allowOf c).window) :
    (∃ rq, c = .resetZone rq ∨ c = .writeSecond rq) ∨ ∃ z, c = .slotEnd z := by
  cases c with
  | resetZone rq => exact .inl ⟨rq, .inl rfl⟩
  | writeSecond rq => exact .inl ⟨rq, .inr rfl⟩
  | slotEnd z => exact .inr ⟨z, rfl⟩
  | _ => exact False.elim h

theorem allowOf_inputs (h : (allowOf c).inputs) : ∃ i on, c = .rawLevelChange i on ∨ c = .debounceDeadline i := by
  cases c with
  | rawLevelChange i on => exact ⟨i, on, .inl rfl⟩
  | debounceDeadline i => exact ⟨i, true, .inr rfl⟩
  | _ => exact False.elim h

theorem allowOf_mgmt (h : (allowOf c).mgmt) :
    (∃ rq, c = .writeFirst rq ∨ c = .writeSecond rq ∨ c = .commit rq) ∨ c = .stagingDeadline ∨ c = .commitTimeout ∨
      ∃ r, c = .commitCompletion r := by
  cases c with
  | writeFirst rq => exact .inl ⟨rq, .inl rfl⟩
  | writeSecond rq => exact .inl ⟨rq, .inr (.inl rfl)⟩
  | commit rq => exact .inl ⟨rq, .inr (.inr rfl)⟩
  | stagingDeadline => exact .inr (.inl rfl)
  | commitTimeout => exact .inr (.inr (.inl rfl))
  | commitCompletion r => exact .inr (.inr (.inr ⟨r, rfl⟩))
  | _ => exact False.elim h

theorem allowOf_loop (h : (allowOf c).loop) :
    c = .returnDeadline ∨ c = .silenceDeadline ∨ c = .previousStationDeadline := by
  cases c with
  | returnDeadline => exact .inl rfl
  | silenceDeadline => exact .inr (.inl rfl)
  | previousStationDeadline => exact .inr (.inr rfl)
  | _ => exact False.elim h

end

/-- Settles O36: a command that is not sweeping is a run of moves within its allowance. -/
theorem restUntouched : Obligations.RestUntouched := by
  intro c s t hc he
  obtain ⟨t', he', hmoves⟩ := exec_moves c s (ordinary_of_not_sweeping hc)
  obtain rfl : t' = t := Host.Outcome.next.inj (he'.symm.trans he)
  refine ⟨⟨hmoves.mode, hmoves.device, hmoves.members, hmoves.classifier allowOf_classifier, hmoves.cfg⟩, fun h => ?tables,
    fun h => ?cadences, fun h => ?levels, fun h1 h2 => ?windows, fun h => ?inputs, fun h1 h2 h3 h4 => ?mgmt,
    fun h1 h2 h3 => ?loop⟩
  case tables =>
    have hno : ¬(allowOf c).tables := fun ha => by
      obtain ⟨rq, hw | hw⟩ := allowOf_tables ha
      · exact (h rq).1 hw
      · exact (h rq).2 hw
    obtain ⟨hlines, htrips, hdoors, hgroups, hzones⟩ := hmoves.tables hno
    exact ⟨hlines, hzones, htrips, hdoors, hgroups⟩
  case cadences =>
    refine hmoves.cadences fun ha => ?_
    obtain ⟨rq, hw⟩ := allowOf_cadences ha
    exact h rq hw
  case levels =>
    refine hmoves.levels fun ha => ?_
    obtain ⟨rq, hw⟩ := allowOf_quiet ha
    exact h rq hw
  case windows =>
    refine hmoves.windows fun ha => ?_
    obtain ⟨rq, hw | hw⟩ | ⟨z, hw⟩ := allowOf_window ha
    · exact (h1 rq).1 hw
    · exact (h1 rq).2 hw
    · exact h2 z hw
  case inputs =>
    refine hmoves.inputs fun ha => ?_
    obtain ⟨i, on, hw | hw⟩ := allowOf_inputs ha
    · exact (h i on).1 hw
    · exact (h i true).2 hw
  case mgmt =>
    refine hmoves.mgmt fun ha => ?_
    obtain ⟨rq, hw⟩ | hw | hw | ⟨r, hw⟩ := allowOf_mgmt ha
    · obtain ⟨hfirst, hsecond, hcommit⟩ := h1 rq
      obtain hw | hw | hw := hw
      · exact hfirst hw
      · exact hsecond hw
      · exact hcommit hw
    · exact h2 hw
    · exact h3 hw
    · exact h4 r hw
  case loop =>
    refine hmoves.loop fun ha => ?_
    obtain hw | hw | hw := allowOf_loop ha
    · exact h1 hw
    · exact h2 hw
    · exact h3 hw

end Sys2Proof.Machine
end

