-- ==== Sys2Proof/Proofs/LoopPort.lean ====
section
/-! PROOFS. The Loop Port: what the arbiter starts (R156, R157, R159), its deadlines (R161 to R163), and what becomes of a frame
that arrives (R153, R154, R158, R160, R169). -/

namespace Sys2Proof.Machine

/-! ## The arbiter -/

section
variable {s : State}

theorem exec_transmissionCompletion_busy (h : s.port.sending ≠ none) :
    exec .transmissionCompletion s = .next { s with port := s.port.arbitrate s.clock s.device.returnLimit } :=
  congrArg Host.Outcome.next (if_pos (Option.isSome_iff_ne_none.2 h))

theorem exec_transmissionCompletion_chooses {p : Port} (h : s.port.sending ≠ none)
    (hp : s.port.arbitrate s.clock s.device.returnLimit = p) :
    exec .transmissionCompletion s = .next { s with port := p } := by
  rw [exec_transmissionCompletion_busy h, hp]

theorem joinUrgent_of_port {f : Frame} {p : Port} (h : s.port.joinUrgent s.clock s.device.returnLimit f = p) :
    joinUrgent f s = { s with port := p } := by
  rw [joinUrgent_eq, State.modPort, h]

theorem joinRoutine_of_port {f : Frame} {p : Port} (h : s.port.joinRoutine s.clock s.device.returnLimit f = p) :
    joinRoutine f s = { s with port := p } := by
  rw [joinRoutine_eq, State.modPort, h]

end

/-- R157: a frame that alone was due for the urgent queue starts from an empty one. -/
theorem Port.startUrgent_alone {p : Port} {now : Time} {limit : Nat} {q : Queued} (h : p.urgent = []) :
    p.startUrgent now limit q [] =
      ({ p with counters := { p.counters with urgentInserted := bump p.counters.urgentInserted } } : Port).startInserted
        now limit q.frame := by
  rw [Port.startUrgent, ← h]

theorem Port.startRoutine_alone {p : Port} {now : Time} {limit : Nat} {q : Queued} (h : p.routine = []) :
    p.startRoutine now limit q [] =
      ({ p with counters := { p.counters with routineInserted := bump p.counters.routineInserted } } : Port).startInserted
        now limit q.frame := by
  rw [Port.startRoutine, ← h]

/-- Settles O37: the arbiter and the queues, case by case. -/
theorem portChooses : Obligations.PortChooses := by
  intro s tracked urgentOut routineOut
  refine ⟨fun hb => ?busy, fun hs hu hr f => ⟨?urgent, fun ht => ?routine⟩⟩
  case urgent => exact joinUrgent_of_port ((Port.joinUrgent_idle hs hu).trans (Port.startUrgent_alone hu))
  case routine => exact joinRoutine_of_port ((Port.joinRoutine_idle hs hu hr ht).trans (Port.startRoutine_alone hr))
  have hbusy : s.port.sending.isNone = false := Bool.eq_false_iff.2 fun h => hb (Option.isNone_iff_eq_none.1 h)
  exact ⟨fun u us hu => exec_transmissionCompletion_chooses hb (Port.arbitrate_urgent _ _ hu),
    fun hu r rs hr hlate => exec_transmissionCompletion_chooses hb (Port.arbitrate_routine hu hr hlate),
    fun hu f fs hf hearly => exec_transmissionCompletion_chooses hb (Port.arbitrate_through hu hf hearly),
    fun hu hr hf => exec_transmissionCompletion_chooses hb (Port.arbitrate_idle hu hr hf),
    fun f => ⟨joinUrgent_of_port (Port.joinUrgent_busy hbusy), joinRoutine_of_port (Port.joinRoutine_busy hbusy)⟩⟩

/-! ## Loop conditions (R161 to R163, R97) -/

theorem setDownstream_same {b : Bool} {u : State} (h : u.port.downstreamOpen = b) : setDownstream b u = u := if_pos h

theorem setDownstream_changes {b : Bool} {u : State} (h : u.port.downstreamOpen ≠ b) :
    setDownstream b u =
      notify .loopCondition 1 (if b then 1 else 0) { u with port := { u.port with downstreamOpen := b } } := if_neg h

/-- R161: the oldest entry leaves the return list. -/
theorem returnEnds_due {s : State} {r : Return} {rest : List Return} (hl : s.port.returns = r :: rest)
    (hr : reached s.clock r.deadline = true) :
    returnEnds s = setDownstream true
      { s with port :=
        { s.port with
          returns := rest, counters := { s.port.counters with missing := bump s.port.counters.missing } } } := by
  unfold returnEnds
  rw [hl]
  exact if_pos hr

theorem silenceEnds_due {s : State} (h : due s.clock s.port.silenceAt = true) :
    silenceEnds s =
      if s.port.upstreamLost then { s with port := { s.port with silenceAt := none } }
      else upstreamChanged true { s with port := { s.port with silenceAt := none } } := if_pos h

/-- R163, R97: the loss of the upstream neighbour, taken by the zones and the lines. -/
theorem upstreamChanged_lost {u : State} (ha : u.active = true) :
    upstreamChanged true u = eitherOrder recountFaults blindAction
      (notify .loopCondition 0 1 { u with port := { u.port with upstreamLost := true } }) := if_pos ha

theorem upstreamChanged_cleared {u : State} :
    upstreamChanged false u =
      if u.active then recountFaults (notify .loopCondition 0 0 { u with port := { u.port with upstreamLost := false } })
      else notify .loopCondition 0 0 { u with port := { u.port with upstreamLost := false } } := rfl

theorem upstreamChanged_bypass {lost : Bool} {u : State} (hm : u.mode = .bypass) :
    upstreamChanged lost u =
      notify .loopCondition 0 (if lost then 1 else 0) { u with port := { u.port with upstreamLost := lost } } :=
  if_neg (Bool.eq_false_iff.1 (State.active_of_bypass hm))

section
variable {u t : State}

/-- R97: the zones' count of faults and the blind action, in either order, act on the lines with blind action alone. -/
theorem blindAction_order_lineWork (h : InSomeOrder [recountFaults, blindAction] u t) :
    LineWork (fun l => (u.line l).cfg.blindShut = true) u t := by
  refine h.keeps (P := LineWork _ u) (fun _ _ hv => hv.trans .draws) (fun f hf v hv => hv.trans ?_) (.refl u)
  obtain rfl | rfl := List.mem_pair.1 hf
  · exact .drive (p := anyPoint) (recountFaults_driveOnly (.refl v)) fun i => by rw [recountFaults_point]
  · have hon : (fun l => (u.line l).cfg.blindShut = true) = fun l => (v.line l).cfg.blindShut = true :=
      funext fun l => by rw [hv.cfg l]
    rw [hon]
    exact blindAction_lineWork v

/-- R97: every line with blind action is shut. -/
theorem blindAction_order_state (h : InSomeOrder [recountFaults, blindAction] u t) {l : LineIx}
    (hl : (u.line l).cfg.blindShut = true) : (t.line l).state = .stopping ∨ (t.line l).state = .shut := by
  refine h.once (B := fun v => (v.line l).cfg.blindShut = true)
    (A := fun v => (v.line l).state = .stopping ∨ (v.line l).state = .shut) (rest := [recountFaults]) (fun _ _ hv => hv)
    (fun _ _ hv => hv) (.swap ..) (fun v hv => blindAction_state v l hv) (fun f hf v => ?_) hl
  obtain rfl := List.mem_singleton.1 hf
  have hline : (recountFaults v).line l = v.line l := (recountFaults_driveOnly (on := anyPoint) (.refl v)).line l
  rw [hline]
  exact ⟨id, id⟩

/-- The work at a loss leaves the loop conditions and deadlines. -/
theorem blindAction_order_loop (h : InSomeOrder [recountFaults, blindAction] u t) : u.port.SameLoop t.port := by
  have hmoves : Moves plain u t := by
    refine h.keeps (P := Moves plain u) (fun _ _ hv => .step hv (.draws _)) (fun f hf v hv => ?_) .refl
    obtain rfl | rfl := List.mem_pair.1 hf
    · exact recountFaults_moves hv
    · exact blindAction_moves hv
  exact hmoves.loop id

theorem notify_sameLoop (k : NoticeKind) (o : Nat) (v : Int) (u : State) : u.port.SameLoop (notify k o v u).port :=
  Port.joinRoutine_sameLoop ..

end

/-- Settles O38: the return deadline, the silence deadline, and the blind action in some order of the lines. -/
theorem loopDeadlines : Obligations.LoopDeadlines := by
  intro s
  refine ⟨fun r rest hl hr => ⟨fun ho => ?stays, fun ho => ?opens⟩, fun hd => ⟨fun hlost => ?lost, fun hup hm => ?bypass,
    fun hup ha => ?active⟩, fun u => inAnyOrder_someOrder _ u⟩
  case stays => exact congrArg Host.Outcome.next ((returnEnds_due hl hr).trans (setDownstream_same ho))
  case opens =>
    refine congrArg Host.Outcome.next ((returnEnds_due hl hr).trans (setDownstream_changes ?_))
    exact ne_of_eq_of_ne ho Bool.false_ne_true
  case lost =>
    refine congrArg Host.Outcome.next ((silenceEnds_due hd).trans ((if_pos hlost).trans ?_))
    rw [← hlost]
  case bypass =>
    exact congrArg Host.Outcome.next
      ((silenceEnds_due hd).trans ((if_neg (Bool.eq_false_iff.1 hup)).trans (upstreamChanged_bypass hm)))
  case active =>
    have heq := (silenceEnds_due hd).trans ((if_neg (Bool.eq_false_iff.1 hup)).trans (upstreamChanged_lost ha))
    refine ⟨_, congrArg Host.Outcome.next heq, ?_⟩
    have horder := eitherOrder_someOrder recountFaults blindAction
      (notify .loopCondition 0 1 { s with port := { s.port with silenceAt := none, upstreamLost := true } })
    generalize eitherOrder recountFaults blindAction
      (notify .loopCondition 0 1 { s with port := { s.port with silenceAt := none, upstreamLost := true } }) = t at horder
    have hwork := blindAction_order_lineWork horder
    obtain ⟨hlost, -, hsilence, -⟩ := (notify_sameLoop ..).trans (blindAction_order_loop horder)
    exact ⟨horder, hlost, hsilence, fun l hl => blindAction_order_state horder hl,
      fun l hl => hwork.line l (Bool.eq_false_iff.1 hl), hwork.level, hwork.doors, hwork.groups, hwork.reported⟩

/-! ## Stripping and passing on (R154, R158, R160, R169) -/

section
variable {f : Frame} {u : State}

theorem State.ownFrame_iff : u.ownFrame f = true ↔ f.src = u.device.own ∨ ∃ q, u.port.previous = some q ∧ f.src = q.1 := by
  unfold State.ownFrame
  rw [Bool.or_eq_true, beq_iff_eq]
  cases u.port.previous with
  | none => simp
  | some q => simp

theorem State.ownRequest_iff : u.ownRequest f = true ↔ f.kind = 10 ∧ f.dst = u.device.own ∧ f.src ≠ u.device.own := by
  unfold State.ownRequest
  rw [Bool.and_eq_true, Bool.and_eq_true, beq_iff_eq, beq_iff_eq, bne_iff_ne, and_assoc]

theorem State.ownRequest_of_own (h : f.src = u.device.own) : u.ownRequest f = false := by
  refine Bool.eq_false_iff.2 fun hr => ?_
  obtain ⟨-, -, hne⟩ := State.ownRequest_iff.1 hr
  exact hne h

theorem route_unmatched (ho : u.ownFrame f = true) (hr : ∀ r ∈ u.port.returns, r.matchedBy f = false) :
    route f u = strip u := by
  have hnone : (strip u).port.takeReturn f = none := Port.takeReturn_none hr
  rw [route, if_pos ho, matchReturn, hnone]

theorem route_matched {before rest : List Return} {r : Return} (ho : u.ownFrame f = true)
    (hp : u.port.returns = before ++ r :: rest) (hr : r.matchedBy f = true) (hb : ∀ b ∈ before, b.matchedBy f = false) :
    route f u = setDownstream false
      { u with port :=
        { (strip u).port with
          returns := rest
          counters := { (strip u).port.counters with missing := bumpBy before.length u.port.counters.missing } } } := by
  have hsome := Port.takeReturn_some (p := (strip u).port) hp hr hb
  rw [route, if_pos ho, matchReturn, hsome]
  rfl

/-- R160: a matched frame clears DownstreamOpen, with a notice where it was set. -/
theorem setDownstream_false (v : State) :
    setDownstream false v =
      if v.port.downstreamOpen then notify .loopCondition 1 0 { v with port := { v.port with downstreamOpen := false } }
      else v := by
  by_cases h : v.port.downstreamOpen = true
  · rw [if_pos h, setDownstream_changes (ne_of_eq_of_ne h (Ne.symm Bool.false_ne_true))]
    rfl
  · rw [if_neg h, setDownstream_same (Bool.eq_false_iff.2 h)]

theorem route_request (ho : u.ownFrame f = false) (hr : u.ownRequest f = true) : route f u = strip u := by
  rw [route, if_neg (Bool.eq_false_iff.1 ho), if_pos hr]

theorem route_passed (ho : u.ownFrame f = false) (hr : u.ownRequest f = false) :
    route f u = { u with port := u.port.joinThrough f } := by
  rw [route, if_neg (Bool.eq_false_iff.1 ho), if_neg (Bool.eq_false_iff.1 hr)]
  rfl

end

/-- R158: the through-buffer holds four frames; while the port is idle its head starts at once. -/
theorem Port.joinThrough_eq (f : Frame) (p : Port) :
    p.joinThrough f =
      if 4 ≤ p.through.length then { p with counters := { p.counters with throughOverrun := bump p.counters.throughOverrun } }
      else
        match p.sending, p.through ++ [f] with
        | none, h :: rest =>
          { p with through := rest, sending := some h, counters := { p.counters with repeated := bump p.counters.repeated } }
        | _, buffer => { p with through := buffer } := by
  unfold Port.joinThrough
  by_cases h : p.through.length < 4
  · rw [if_pos h, if_neg (Nat.not_le.2 h)]
    cases p.sending with
    | some x => rfl
    | none =>
      cases p.through ++ [f] with
      | nil => rfl
      | cons x xs => rfl
  · rw [if_neg h, if_pos (Nat.not_lt.1 h)]

/-! ## Arrival (R153, R162) -/

section
variable {f : Frame} {u : State}

theorem restartSilence_loading (hm : u.mode = .loading) : restartSilence u = u := if_pos hm

theorem restartSilence_hearing (hm : u.mode ≠ .loading) (hl : u.port.upstreamLost = false) :
    restartSilence u =
      { u with port := { u.port with silenceAt := some (after u.clock u.device.silenceLimit) } } := by
  rw [restartSilence, if_neg hm]
  exact if_neg (Bool.eq_false_iff.1 hl)

theorem restartSilence_clears (hm : u.mode ≠ .loading) (hl : u.port.upstreamLost = true) :
    restartSilence u =
      upstreamChanged false
        { u with port := { u.port with silenceAt := some (after u.clock u.device.silenceLimit) } } := by
  rw [restartSilence, if_neg hm]
  exact if_pos hl

/-- R162: while UpstreamLost is clear, a good frame changes at most the silence deadline. -/
theorem restartSilence_port (hl : u.port.upstreamLost = false) :
    ∃ d, restartSilence u = { u with port := { u.port with silenceAt := d } } := by
  by_cases hm : u.mode = .loading
  · exact ⟨u.port.silenceAt, restartSilence_loading hm⟩
  · exact ⟨_, restartSilence_hearing hm hl⟩

/-- R16: the classifier takes reports of other stations, in Observe and Protect. -/
theorem classifyFrame_idle (h : f.src = u.device.own ∨ f.isReport = false ∨ u.active = false) : classifyFrame f u = u := by
  unfold classifyFrame classify
  split
  · rfl
  · refine if_neg ?_
    rw [Bool.and_eq_true]
    rintro ⟨ha, hr⟩
    obtain hown | hno | hidle := h
    · contradiction
    · exact absurd hr (Bool.eq_false_iff.1 hno)
    · exact absurd ha (Bool.eq_false_iff.1 hidle)

theorem goodFrame_other (hr : u.ownRequest f = false) (hl : u.port.upstreamLost = false) :
    goodFrame f u = eitherOrder (classifyFrame f) (route f) (restartSilence u) := by
  rw [goodFrame, if_neg (Bool.eq_false_iff.1 hr), if_neg (Bool.eq_false_iff.1 hl)]

/-- R153: a frame that the classifier does not take is stripped or passed on. -/
theorem goodFrame_unclassified (hr : u.ownRequest f = false) (hl : u.port.upstreamLost = false)
    (hc : f.src = u.device.own ∨ f.isReport = false ∨ u.active = false) : goodFrame f u = route f (restartSilence u) := by
  obtain ⟨d, hd⟩ := restartSilence_port hl
  obtain ⟨p, hp⟩ := route_port f (restartSilence u)
  rw [goodFrame_other hr hl]
  refine eitherOrder_left ?_ ?_
  · rw [hd]
    exact classifyFrame_idle hc
  · rw [hp, hd]
    exact classifyFrame_idle hc

theorem goodFrame_request (hr : u.ownRequest f = true) :
    goodFrame f u = takeFrameRequest f (eitherOrder restartSilence (route f) u) := if_pos hr

/-- R153: a frame that is no Request to the part, by its three parts in any order. -/
theorem goodFrame_someOrder (hr : u.ownRequest f = false) :
    InSomeOrder [restartSilence, classifyFrame f, route f] u (goodFrame f u) := by
  cases hl : u.port.upstreamLost with
  | true =>
    have heq : goodFrame f u = inAnyOrder [restartSilence, classifyFrame f, route f] u := by
      rw [goodFrame, if_neg (Bool.eq_false_iff.1 hr), if_pos hl]
    rw [heq]
    exact inAnyOrder_someOrder _ u
  | false =>
    rw [goodFrame_other hr hl]
    exact .take_at 0 (Nat.succ_pos _) u.draws (eitherOrder_someOrder _ _ _)

theorem eitherOrder_agree {g h : State → State} (e : h (g u) = g (h u)) : eitherOrder g h u = h (g u) := by
  unfold eitherOrder
  exact if_pos e

/-- R153: the two parts of the Loop Port at a Request, which commute while UpstreamLost is clear. -/
theorem restartSilence_route (hl : u.port.upstreamLost = false) (ho : u.ownFrame f = false) (hr : u.ownRequest f = true) :
    eitherOrder restartSilence (route f) u = route f (restartSilence u) := by
  refine eitherOrder_agree ?_
  rw [route_request ho hr]
  by_cases hm : u.mode = .loading
  · have hstrip : restartSilence (strip u) = strip u := restartSilence_loading hm
    rw [restartSilence_loading hm, hstrip, route_request ho hr]
  · have hstrip : restartSilence (strip u) =
        { strip u with port := { (strip u).port with silenceAt := some (after u.clock u.device.silenceLimit) } } :=
      restartSilence_hearing hm hl
    rw [restartSilence_hearing hm hl, hstrip]
    exact route_request ho hr

end

/-! ## Requests by their operation code (R184) -/

/-- R184: the operation codes, each with the command that carries the Request. -/
def requestRows (rq : Request) : List (Byte × Instr) :=
  [(1, .read rq), (2, .readGroup rq), (3, .write rq), (4, .writeFirst rq), (5, .writeSecond rq), (16, .resetZone rq),
    (17, .releaseLine rq), (18, .restoreDoor rq), (19, .silenceGroup rq), (20, .sirenTest rq), (21, .clearCounters rq),
    (22, .setMode rq), (23, .restart rq), (24, .commit rq)]

theorem takeRequest_row (rq : Request) (u : State) :
    ∀ row ∈ requestRows rq, .next (takeRequest row.1 rq u) = exec row.2 u := by
  intro row hrow
  fin_cases hrow <;> rfl

/-- R165: a Request of no known operation is refused, by its source or for its table. -/
theorem takeUnknown_eq (rq : Request) (u : State) :
    takeUnknown rq u =
      if u.mode = .loading then u
      else reply rq (if rq.source = u.device.supervisor then .table else .notPermitted) u := by
  unfold takeUnknown answer
  refine if_congr Iff.rfl rfl ?_
  by_cases hsrc : rq.source = u.device.supervisor
  · rw [if_pos hsrc]
    simp [State.entryChecks, firstFailed, hsrc]
  · rw [if_neg hsrc]
    simp [State.entryChecks, firstFailed, hsrc]

theorem takeRequest_unknown {rq : Request} {op : Byte} (u : State) (h : ∀ row ∈ requestRows rq, op ≠ row.1) :
    takeRequest op rq u = takeUnknown rq u := by
  have hcode : ∀ row ∈ requestRows rq, op.toNat ≠ row.1.toNat :=
    fun row hrow e => h row hrow (BitVec.eq_of_toNat_eq e)
  simp only [requestRows, List.forall_mem_cons, BitVec.ofNat_eq_ofNat, BitVec.reduceToNat] at hcode
  unfold takeRequest
  split
  case h_15 => rfl
  all_goals omega

theorem takeFrameRequest_short {f : Frame} (u : State) (h : f.payload.length < 4) : takeFrameRequest f u = u := by
  unfold takeFrameRequest readRequest
  split
  · rename_i hread
    split at hread
    · rename_i hp
      rw [hp] at h
      simp only [List.length_cons] at h
      omega
    · cases hread
  · rfl

theorem takeFrameRequest_read {f : Frame} {tag op selector index : Byte} {data : List Byte} (u : State)
    (h : f.payload = tag :: op :: selector :: index :: data) :
    takeFrameRequest f u = takeRequest op { source := f.src, tag, selector, index, data } u := by
  unfold takeFrameRequest
  rw [h]
  rfl

/-! ## Frames sorted -/

/-- The part once an arrival is counted (R153). -/
def countArrival (s : State) : State :=
  { s with port := { s.port with counters := { s.port.counters with received := bump s.port.counters.received } } }

/-- The part once a good frame is counted and has restarted the silence deadline (R153, R162). -/
def hearArrival (s : State) : State :=
  { s with port := { (countArrival s).port with silenceAt := some (after s.clock s.device.silenceLimit) } }

theorem exec_frameArrival_bad {s : State} {bytes : List Byte} (h : readFrame bytes = none) :
    exec (.frameArrival bytes) s =
      .next { s with
        port :=
          { s.port with
            counters :=
              { s.port.counters with
                received := bump s.port.counters.received, droppedCheck := bump s.port.counters.droppedCheck } } } := by
  refine congrArg Host.Outcome.next (?_ : frameArrives bytes s = _)
  unfold frameArrives
  rw [h]
  rfl

theorem exec_frameArrival_good {s : State} {bytes : List Byte} {f : Frame} (h : readFrame bytes = some f) :
    exec (.frameArrival bytes) s = .next (goodFrame f (countArrival s)) := by
  refine congrArg Host.Outcome.next (?_ : frameArrives bytes s = _)
  unfold frameArrives
  rw [h]
  rfl

section
variable {s : State} {bytes : List Byte} {f : Frame}

/-- R153, R162: a good frame that is no Request and that the classifier leaves alone, while UpstreamLost is clear. -/
theorem exec_frameArrival_unclassified (h : readFrame bytes = some f) (hm : s.mode ≠ .loading)
    (hl : s.port.upstreamLost = false) (hr : s.ownRequest f = false)
    (hc : f.src = s.device.own ∨ f.isReport = false ∨ s.active = false) :
    exec (.frameArrival bytes) s = .next (route f (hearArrival s)) := by
  rw [exec_frameArrival_good h]
  refine congrArg Host.Outcome.next ((goodFrame_unclassified (u := countArrival s) hr hl hc).trans ?_)
  exact congrArg (route f) (restartSilence_hearing (u := countArrival s) hm hl)

/-- A Request to the part: the state once the port has done its part, and the Request it carries (R153, log 6). -/
theorem exec_frameArrival_request (h : readFrame bytes = some f) (hr : s.ownRequest f = true) :
    exec (.frameArrival bytes) s =
      .next (takeFrameRequest f (eitherOrder restartSilence (route f) (countArrival s))) := by
  rw [exec_frameArrival_good h]
  exact congrArg Host.Outcome.next (goodFrame_request (u := countArrival s) hr)

/-- The port's two parts leave the mode and the Device record. -/
theorem eitherOrder_port_keeps (f : Frame) (u : State) :
    (eitherOrder restartSilence (route f) u).mode = u.mode ∧ (eitherOrder restartSilence (route f) u).device = u.device := by
  refine eitherOrder_keeps (P := fun v => v.mode = u.mode ∧ v.device = u.device) (fun _ _ hv => hv) (fun v hv => ?_)
    (fun v hv => ?_) ⟨rfl, rfl⟩
  · have hmoves : Moves arrival v (restartSilence v) := restartSilence_moves trivial .refl
    rw [hmoves.mode, hmoves.device]
    exact hv
  · obtain ⟨p, hp⟩ := route_port f v
    rw [hp]
    exact hv

end

/-- Settles O39: bad frames, the silence deadline, the sorting of a frame, and the Request it carries. -/
theorem framesSorted : Obligations.FramesSorted := by
  intro s bytes
  refine ⟨exec_frameArrival_bad, fun f hf hm hl => ⟨fun hsrc => ⟨fun hno => ?unmatched,
    fun before r rest hp hr hb => ?matched⟩, fun hsrc hprev hreq hidle => ?passed⟩,
    fun u => ⟨restartSilence_loading, restartSilence_hearing, fun hm hl => restartSilence_clears hm hl⟩,
    fun f u => ⟨fun ho hno => route_unmatched (State.ownFrame_iff.2 ho) hno, fun ho before r rest hp hr hb => ?routeMatched,
      fun ho hr => ?routeRequest, fun ho hr => ?routePassed⟩, fun f hf =>
      ⟨fun hr => ⟨_, exec_frameArrival_good hf, ?someOrder, fun hl => ⟨?hearing, fun hno => ?unclassified⟩⟩,
        fun hr => ?taken⟩⟩
  case unmatched =>
    rw [exec_frameArrival_unclassified hf hm hl (State.ownRequest_of_own hsrc) (.inl hsrc),
      route_unmatched (u := hearArrival s) (State.ownFrame_iff.2 (.inl hsrc)) hno]
    rfl
  case matched =>
    rw [exec_frameArrival_unclassified hf hm hl (State.ownRequest_of_own hsrc) (.inl hsrc),
      route_matched (u := hearArrival s) (State.ownFrame_iff.2 (.inl hsrc)) hp hr hb, setDownstream_false]
    rfl
  case passed =>
    have hown : s.ownFrame f = false := Bool.eq_false_iff.2 fun h => by
      obtain hs | ⟨q, hq, hs⟩ := State.ownFrame_iff.1 h
      · exact hsrc hs
      · exact hprev q hq hs
    have hno : s.ownRequest f = false := Bool.eq_false_iff.2 fun h => by
      obtain ⟨hkind, hdst, -⟩ := State.ownRequest_iff.1 h
      exact hreq ⟨hkind, hdst⟩
    rw [exec_frameArrival_unclassified hf hm hl hno (.inr hidle)]
    rw [route_passed (u := hearArrival s) hown hno]
    exact congrArg (fun q : Port => Host.Outcome.next { s with port := q }) (Port.joinThrough_eq f (hearArrival s).port)
  case routeMatched =>
    rw [route_matched (State.ownFrame_iff.2 ho) hp hr hb, setDownstream_false]
    rfl
  case routeRequest =>
    exact route_request (Bool.eq_false_iff.2 fun h => ho (State.ownFrame_iff.1 h)) (State.ownRequest_iff.2 hr)
  case routePassed =>
    refine (route_passed (Bool.eq_false_iff.2 fun h => ho (State.ownFrame_iff.1 h))
      (Bool.eq_false_iff.2 fun h => hr (State.ownRequest_iff.1 h))).trans ?_
    exact congrArg (fun q : Port => { u with port := q }) (Port.joinThrough_eq f u.port)
  case someOrder => exact goodFrame_someOrder (u := countArrival s) (Bool.eq_false_iff.2 fun h => hr (State.ownRequest_iff.1 h))
  case hearing =>
    have heq := goodFrame_other (u := countArrival s) (Bool.eq_false_iff.2 fun h => hr (State.ownRequest_iff.1 h)) hl
    rw [heq]
    exact eitherOrder_someOrder _ _ _
  case unclassified =>
    refine goodFrame_unclassified (u := countArrival s) (Bool.eq_false_iff.2 fun h => hr (State.ownRequest_iff.1 h)) hl ?_
    by_contra hc
    obtain ⟨hsrc, hreport, hactive⟩ := not_or.1 hc |>.imp_right not_or.1
    exact hno ⟨hsrc, Bool.eq_true_of_not_eq_false hreport, Bool.eq_true_of_not_eq_false hactive⟩
  case taken =>
    obtain ⟨hmode, hdevice⟩ := eitherOrder_port_keeps f (countArrival s)
    have hexec := exec_frameArrival_request hf (State.ownRequest_iff.2 hr)
    refine ⟨_, eitherOrder_someOrder restartSilence (route f) (countArrival s), hmode, hdevice, fun hl hprev => ?commutes,
      fun hshort => hexec.trans (congrArg Host.Outcome.next (takeFrameRequest_short _ hshort)),
      fun tag op selector index data hp => ⟨fun row hrow hop => ?row, fun hno => ?unknown⟩⟩
    case commutes =>
      refine restartSilence_route hl (Bool.eq_false_iff.2 fun h => ?_) (State.ownRequest_iff.2 hr)
      obtain ⟨-, -, hsrc⟩ := hr
      obtain hs | ⟨q, hq, hs⟩ := State.ownFrame_iff.1 h
      · exact hsrc hs
      · exact hprev q hq hs
    case row =>
      rw [hexec, takeFrameRequest_read _ hp, hop]
      exact takeRequest_row _ _ row hrow
    case unknown =>
      rw [hexec, takeFrameRequest_read _ hp, takeRequest_unknown _ hno, takeUnknown_eq, hmode, hdevice]
      rfl

end Sys2Proof.Machine
end

