-- ==== Sys2Proof/Proofs/Commands.lean ====
section
/-! PROOFS. The commands of the Management Unit that act on one entry: Clear Counters (R173), Reset Zone (R79, R80), Release Line
(R107 to R109) and Restore Door (R125). -/

namespace Sys2Proof.Machine

/-! ## Clear Counters (R173) -/

theorem State.modPoint_same {s : State} {i : PointIx} {f : Point → Point} (h : f (s.point i) = s.point i) :
    s.modPoint i f = s := by
  unfold State.modPoint
  rw [h]
  have hset : s.points.set i.val (s.point i) = s.points := Vector.set_getElem_self i.isLt
  rw [hset]

/-- R12: an unused entry has no counters. -/
theorem clearEntry_point (s : State) {i : PointIx} {n : Nat} (hi : i.val = n) :
    clearEntry 1 n s =
      if (s.point i).cfg.kind = .unused then s
      else s.modPoint i fun p => { p with reports := 0, drive := { p.drive with withheld := 0, repeats := 0 } } := by
  simp only [clearEntry, indexBelow_val i hi]
  by_cases hk : (s.point i).cfg.kind = .unused
  · rw [if_pos hk]
    refine State.modPoint_same (if_neg ?_)
    simp [PointCfg.used, hk]
  · rw [if_neg hk]
    have hused : (s.point i).cfg.used = true := bne_iff_ne.2 hk
    unfold State.modPoint Point.clearCounters
    rw [if_pos hused]

theorem clearEntry_line (s : State) {l : LineIx} {n : Nat} (hl : l.val = n) : clearEntry 2 n s = clearLine l s := by
  simp only [clearEntry, indexBelow_val l hl]

theorem clearEntry_zone (s : State) {z : ZoneIx} {n : Nat} (hz : z.val = n) :
    clearEntry 3 n s = s.modZone z Zone.clearCounters := by
  simp only [clearEntry, indexBelow_val z hz]

theorem clearEntry_door (s : State) {d : DoorIx} {n : Nat} (hd : d.val = n) :
    clearEntry 5 n s = s.modDoor d Door.clearCounters := by
  simp only [clearEntry, indexBelow_val d hd]

theorem clearEntry_group (s : State) {g : GroupIx} {n : Nat} (hg : g.val = n) :
    clearEntry 6 n s = s.modGroup g Group.clearCounters := by
  simp only [clearEntry, indexBelow_val g hg]

/-- R173, R59: the line's counters, and those of its valves. -/
theorem clearLine_spec (l : LineIx) (s : State) :
    (clearLine l s).line l = (s.line l).clearCounters ∧ (∀ k, k ≠ l → (clearLine l s).line k = s.line k) ∧
      ∀ v, (clearLine l s).point v =
        if v ∈ (s.membersOf l).valves then
          { s.point v with valve := { (s.point v).valve with opens := 0, reopens := 0, unsolicited := 0 } }
        else s.point v := by
  unfold clearLine
  refine ⟨?_, fun k hk => ?_, fun v => clearValves_point _ _ v⟩
  · rw [clearValves_line, State.line_modLine]
  · rw [clearValves_line, State.line_modLine_ne _ _ _ _ hk]

theorem clearLine_reply (l : LineIx) (rq : Request) (s : State) :
    clearLine l (reply rq .done s) = reply rq .done (clearLine l s) := by
  obtain ⟨hclock, hdevice, hport⟩ := clearValves_rest (s.membersOf l).valves (s.modLine l Line.clearCounters)
  have hright : reply rq .done (clearLine l s) = { clearLine l s with port := (reply rq .done s).port } :=
    reply_congr hport hdevice hclock
  rw [hright]
  exact clearValves_port (s.membersOf l).valves (s.modLine l Line.clearCounters) (reply rq .done s).port

/-- R156: a frame that joins the routine queue of a busy port leaves its through-buffer and every counter but the lost frames. -/
theorem Port.joinRoutine_sending {p : Port} {now : Time} {limit : Nat} {f : Frame} (h : p.sending ≠ none) :
    ∃ q n, p.joinRoutine now limit f = { p with routine := q, counters := { p.counters with routineLost := n } } := by
  rw [Port.joinRoutine_busy (Bool.eq_false_iff.2 fun hn => h (Option.isNone_iff_eq_none.1 hn))]
  split
  · exact ⟨_, p.counters.routineLost, rfl⟩
  · exact ⟨p.routine, _, rfl⟩

theorem reply_sending {rq : Request} {c : ReplyCode} {s : State} (h : s.port.sending ≠ none) :
    ∃ q n, (reply rq c s).port =
      { s.port with routine := q, counters := { s.port.counters with routineLost := n } } := Port.joinRoutine_sending h

/-- The Device record's counters after Clear Counters, but for the routine frames lost and, on an idle port, those the Reply
itself counts in. -/
theorem clearDevice_answered {rq : Request} {s t : State} (h : Answered rq clearDevice s t) (hs : s.port.sending ≠ none) :
    ∃ n, t.port.through = s.port.through ∧
      t.port.counters = { received := BitVec.ofNat 16 s.port.through.length, routineLost := n } := by
  obtain ⟨k, rfl | rfl⟩ := h
  · obtain ⟨q, n, hp⟩ := reply_sending (rq := rq) (c := .done) (s := clearDevice s) hs
    have hthrough : (reply rq .done (clearDevice s)).port.through = s.port.through := by rw [hp]; rfl
    have hcounters : (reply rq .done (clearDevice s)).port.counters =
        { received := BitVec.ofNat 16 s.port.through.length, routineLost := n } := by rw [hp]; rfl
    exact ⟨n, hthrough, hcounters⟩
  · obtain ⟨q, n, hp⟩ := reply_sending (rq := rq) (c := .done) (s := s) hs
    have hthrough : (reply rq .done s).port.through = s.port.through := by rw [hp]
    refine ⟨0, hthrough, ?_⟩
    rw [← hthrough]
    rfl

/-- Settles O42: the Device record, and each table's counters. -/
theorem countersCleared : Obligations.CountersCleared := by
  intro s rq n h
  have hexec := takeClearCounters_permitted h
  have hdone : ∀ u, clearEntry n rq.ix s = u → clearEntry n rq.ix (reply rq .done s) = reply rq .done u →
      exec (.clearCounters rq) s = .next (reply rq .done u) := fun u hu hc => by
    rw [hexec, doneWith_eq (hc.trans (congrArg (reply rq .done) hu).symm), hu]
  refine ⟨fun hn => ?device, fun i hn hi => ?point, fun l hn hl => ?line, fun z hn hz => ?zone, fun d hn hd => ?door,
    fun g hn hg => ?group, fun hn => ?none⟩
  case device =>
    subst hn
    have hans : Answered rq clearDevice s (doneWith rq clearDevice s) := doneWith_answered rq clearDevice s
    refine ⟨_, hexec, eitherOrder_someOrder clearDevice (reply rq .done) s, ?_, ?_, fun hs => ?_⟩
    · exact hans.fact (P := fun t => t.classifier = {}) (fun _ _ _ hu => hu) fun _ => rfl
    · exact hans.fact (P := fun t => t.mgmt = { s.mgmt with replaced := 0, expired := 0 }) (fun _ _ _ hu => hu) fun _ => rfl
    · obtain ⟨k, hthrough, hcounters⟩ := clearDevice_answered hans hs
      refine ⟨hthrough, ?_⟩
      have hc : (doneWith rq (clearEntry 0 rq.ix) s).port.counters = _ := hcounters
      rw [hc]
      exact ⟨rfl, rfl, rfl, rfl, rfl, rfl, rfl, rfl, rfl, rfl⟩
  case point =>
    subst hn
    refine hdone _ (clearEntry_point s hi) ((clearEntry_point _ hi).trans ?_)
    by_cases hk : (s.point i).cfg.kind = .unused
    · exact (if_pos hk).trans (congrArg (reply rq .done) (if_pos hk).symm)
    · rw [if_neg hk]
      exact if_neg hk
  case line =>
    subst hn
    refine ⟨clearLine l s, hdone _ (clearEntry_line s hl) ((clearEntry_line _ hl).trans (clearLine_reply l rq s)), ?_⟩
    exact clearLine_spec l s
  case zone =>
    subst hn
    exact hdone _ (clearEntry_zone s hz) (clearEntry_zone _ hz)
  case door =>
    subst hn
    exact hdone _ (clearEntry_door s hd) (clearEntry_door _ hd)
  case group =>
    subst hn
    exact hdone _ (clearEntry_group s hg) (clearEntry_group _ hg)
  case none => obtain rfl | rfl := hn <;> exact hdone s rfl rfl

/-! ## Release Line (R107 to R109) -/

section
variable {s : State} {rq : Request}

/-- A permitted Request of one table is answered by the first check that fails after the first three (R165). -/
theorem answer_elim {n : Nat} {f : State → State} (h : s.permits rq n) (more : List (Bool × ReplyCode)) :
    answer rq (s.entryChecks rq [n] ++ more) f s = (firstFailed more).elim (f s) fun c => reply rq c s := by
  have hfirst := firstFailed_entry h (tables := [n]) (by simp) more
  cases hmore : firstFailed more with
  | none => exact answer_accepted h.mode (hfirst.trans hmore)
  | some c => exact answer_refused h.mode (hfirst.trans hmore)

theorem answer_checked {n : Nat} {busy held : Bool} {f : State → State} (h : s.permits rq n) :
    answer rq (s.entryChecks rq [n] ++ [(busy, .busy), (rq.reservedSet, .value), (held, .held)]) f s =
      if busy then reply rq .busy s else if held then reply rq .held s else f s := by
  rw [answer_elim h, h.reserved]
  cases busy with
  | true => rfl
  | false => cases held <;> rfl

/-- A command that ends in its effect beside a Done Reply. -/
theorem exists_answered {c : Instr} {f : State → State} (h : exec c s = .next (doneWith rq f s)) :
    ∃ t, exec c s = .next t ∧ Answered rq f s t := ⟨_, h, doneWith_answered rq f s⟩

theorem State.releaseHeld_iff (l : LineIx) :
    s.releaseHeld l = true ↔
      (∃ z ∈ (s.membersOf l).serves,
          (s.zone z).level.reaches
            (if (s.line l).state = .diverted then (s.zone z).cfg.divert else (s.zone z).cfg.shut) = true) ∨
        ∃ v ∈ (s.membersOf l).valves, (s.point v).valve.state = .opened := by
  simp only [State.releaseHeld, Bool.or_eq_true, List.any_eq_true, beq_iff_eq]
  refine or_congr (exists_congr fun z => and_congr Iff.rfl ?_) Iff.rfl
  split <;> exact Iff.rfl

theorem takeReleaseLine_permitted {l : LineIx} (h : s.permits rq 2) (hl : l.val = rq.ix) :
    exec (.releaseLine rq) s = .next
      (if !s.active || (s.line l).state == .diverting || (s.line l).state == .stopping then reply rq .busy s
      else if (s.line l).state != .normal && s.releaseHeld l then reply rq .held s
      else doneWith rq (fun t => if (s.line l).state = .normal then t else releaseLine l t) s) := by
  refine congrArg Host.Outcome.next (?_ : takeReleaseLine rq s = _)
  unfold takeReleaseLine
  rw [indexBelow_val l hl]
  exact answer_checked h

/-- R107: the line takes a Release Line in Observe and Protect, outside Diverting and Stopping. -/
theorem takeReleaseLine_settled {l : LineIx} (h : s.permits rq 2) (hl : l.val = rq.ix) (ha : s.active = true)
    (h1 : (s.line l).state ≠ .diverting) (h2 : (s.line l).state ≠ .stopping) :
    exec (.releaseLine rq) s = .next
      (if (s.line l).state != .normal && s.releaseHeld l then reply rq .held s
      else doneWith rq (fun t => if (s.line l).state = .normal then t else releaseLine l t) s) := by
  refine (takeReleaseLine_permitted h hl).trans (congrArg Host.Outcome.next (if_neg ?_))
  rw [ha, beq_false_of_ne h1, beq_false_of_ne h2]
  exact Bool.false_ne_true

end

/-- Settles O44: the checks, and what the release of a line leaves. -/
theorem lineReleased : Obligations.LineReleased := by
  intro s rq l h hl
  refine ⟨fun hm => ?bypass, fun hst => ?moving, fun ha hst => ?normal, fun ha hst hheld => ?held,
    fun ha hst hfree => ?released⟩
  case bypass =>
    refine (takeReleaseLine_permitted h hl).trans (congrArg Host.Outcome.next (if_pos ?_))
    rw [State.active_of_bypass hm]
    rfl
  case moving =>
    refine (takeReleaseLine_permitted h hl).trans (congrArg Host.Outcome.next (if_pos ?_))
    obtain hst | hst := hst <;> rw [hst] <;> simp
  case normal =>
    rw [takeReleaseLine_settled h hl ha (by rw [hst]; decide) (by rw [hst]; decide), hst]
    refine congrArg Host.Outcome.next ((doneWith_eq ?_).trans ?_)
    · rfl
    · rfl
  case held =>
    have hne : (s.line l).state ≠ .diverting ∧ (s.line l).state ≠ .stopping ∧ (s.line l).state ≠ .normal := by
      obtain hst | hst := hst <;> rw [hst] <;> decide
    obtain ⟨h1, h2, h3⟩ := hne
    refine (takeReleaseLine_settled h hl ha h1 h2).trans (congrArg Host.Outcome.next (if_pos ?_))
    rw [bne_iff_ne.2 h3, (State.releaseHeld_iff l).2 hheld]
    rfl
  case released =>
    have hne : (s.line l).state ≠ .diverting ∧ (s.line l).state ≠ .stopping ∧ (s.line l).state ≠ .normal := by
      obtain hst | hst := hst <;> rw [hst] <;> decide
    obtain ⟨h1, h2, h3⟩ := hne
    have hexec := (takeReleaseLine_settled h hl ha h1 h2).trans (congrArg Host.Outcome.next (if_neg (by
      rw [Bool.eq_false_iff.2 fun hheld => hfree ((State.releaseHeld_iff l).1 hheld), Bool.and_false]
      exact Bool.false_ne_true)))
    obtain ⟨t, ht, hans⟩ := exists_answered hexec
    refine ⟨t, ht, ?_⟩
    apply hans.fact
    · exact fun _ _ _ hu => hu
    intro p
    rw [if_neg h3]
    obtain ⟨hline, hwork, hclaims, hgate⟩ := releaseLine_spec l { s with port := p }
    exact ⟨hline, hwork.line, hwork.doors, hwork.groups, hclaims, hgate⟩

/-! ## Restore Door (R125) -/

theorem takeRestoreDoor_permitted {s : State} {rq : Request} {d : DoorIx} (h : s.permits rq 5) (hd : d.val = rq.ix) :
    exec (.restoreDoor rq) s = .next
      (if !s.doorActive d then reply rq .index s
      else if !s.active || (s.door d).state == .clearing || (s.door d).state == .releasing then reply rq .busy s
      else if (s.door d).closeRequest then reply rq .held s
      else doneWith rq (restoreDoor d) s) := by
  refine congrArg Host.Outcome.next (?_ : takeRestoreDoor rq s = _)
  unfold takeRestoreDoor
  rw [indexBelow_val d hd]
  dsimp only
  rw [answer_elim h, h.reserved]
  cases s.doorActive d with
  | false => rfl
  | true =>
    cases !s.active || (s.door d).state == .clearing || (s.door d).state == .releasing with
    | true => rfl
    | false => cases (s.door d).closeRequest <;> rfl

/-- Settles O45: the checks, and what the restoring of a door leaves. -/
theorem doorRestored : Obligations.DoorRestored := by
  intro s rq d h hd
  have hexec := takeRestoreDoor_permitted h hd
  refine ⟨fun hno => ?inactive, fun hdoor hbusy => ?busy, fun hdoor ha h1 h2 => ?_⟩
  case inactive => rw [hexec, hno]; rfl
  case busy =>
    rw [hexec, hdoor, if_neg (by decide), if_pos ?_]
    obtain hm | hst | hst := hbusy
    · rw [State.active_of_bypass hm]
      rfl
    · rw [hst]; simp
    · rw [hst]; simp
  have hsettled : exec (.restoreDoor rq) s = .next
      (if (s.door d).closeRequest then reply rq .held s else doneWith rq (restoreDoor d) s) := by
    rw [hexec, hdoor, if_neg (by decide), if_neg ?_]
    rw [ha, beq_false_of_ne h1, beq_false_of_ne h2]
    exact Bool.false_ne_true
  refine ⟨fun hheld => hsettled.trans (congrArg Host.Outcome.next (if_pos hheld)), fun hfree => ?_⟩
  obtain ⟨t, ht, hans⟩ :=
    exists_answered (hsettled.trans (congrArg Host.Outcome.next (if_neg (Bool.eq_false_iff.1 hfree))))
  refine ⟨t, ht, ?_⟩
  apply hans.fact
  · exact fun _ _ _ hu => hu
  intro p
  obtain ⟨hwork, hdoor, hothers, hclaims, hpoint⟩ := restoreDoor_spec d { s with port := p }
  exact ⟨hdoor, hothers, hwork.lines, hwork.groups, hclaims, hpoint⟩

end Sys2Proof.Machine
end

