-- ==== Sys2Proof/Proofs/ZoneResets.lean ====
section
/-! PROOFS. The Zone Unit: Reset Zone and the changes of a zone's level (R71 to R76, R79, R80), the slot end and the tick (R70,
R84), and the taking of trigger events one after another (R92). -/

namespace Sys2Proof.Machine

/-! ## What holds a zone (R79) -/

section
variable {s : State} {rq : Request} {z : ZoneIx}

theorem State.mem_linesServing {l : LineIx} : l ∈ s.linesServing z ↔ z ∈ (s.membersOf l).serves := by
  simp [State.linesServing, State.lineServes]

theorem State.openValves_pos {l : LineIx} :
    0 < s.openValves l ↔ ∃ v ∈ (s.membersOf l).valves, (s.point v).valve.state = .opened := by
  simp [State.openValves, List.length_pos_iff_exists_mem]

theorem State.contactActive_iff :
    s.contactActive z = true ↔
      ∃ i, ((s.point i).cfg.kind = .flame ∨ (s.point i).cfg.kind = .call) ∧ (s.point i).cfg.zone = some z ∧
        (s.point i).contact = some true := by
  simp [State.contactActive, allPoints, and_assoc]

theorem State.resetHeld_iff :
    s.resetHeld z = true ↔
      (∃ i, ((s.point i).cfg.kind = .flame ∨ (s.point i).cfg.kind = .call) ∧ (s.point i).cfg.zone = some z ∧
          (s.point i).contact = some true) ∨
        ∃ l, z ∈ (s.membersOf l).serves ∧
          ((∃ v ∈ (s.membersOf l).valves, (s.point v).valve.state = .opened) ∨ (s.line l).tracks ≠ []) := by
  simp only [State.resetHeld, Bool.or_eq_true, List.any_eq_true, State.contactActive_iff, State.mem_linesServing,
    decide_eq_true_eq, State.openValves_pos, Bool.not_eq_true', ne_eq, List.isEmpty_eq_false_iff]

/-! ## Reset Zone (R79, R80) -/

theorem takeResetZone_permitted (h : s.permits rq 3) (hz : z.val = rq.ix) :
    exec (.resetZone rq) s = .next
      (if !s.active then reply rq .busy s else if s.resetHeld z then reply rq .held s
      else doneWith rq (fun t => settle (resetZone z t)) s) := by
  refine congrArg Host.Outcome.next (?_ : takeResetZone rq s = _)
  unfold takeResetZone
  rw [indexBelow_val z hz]
  exact answer_checked h

theorem takeResetZone_active (h : s.permits rq 3) (hz : z.val = rq.ix) (ha : s.active = true) :
    exec (.resetZone rq) s = .next
      (if s.resetHeld z then reply rq .held s else doneWith rq (fun t => settle (resetZone z t)) s) :=
  (takeResetZone_permitted h hz).trans (congrArg Host.Outcome.next (if_neg (by rw [ha]; exact Bool.false_ne_true)))

theorem resetZone_quiet (h : (s.zone z).level = .quiet) : resetZone z s = s.modZone z Zone.clearWindow := if_pos h

theorem resetZone_raised (h : (s.zone z).level ≠ .quiet) :
    resetZone z s = changeLevel z .quiet (s.modZone z Zone.clearWindow) := if_neg h

/-- R71: a zone enters a level: its time, its notice, its trigger. -/
def enterLevel (z : ZoneIx) (n : Level) (s : State) : State :=
  { notify .zoneLevel z.val n.rank (s.modZone z fun r => { r with level := n, changed := some s.clock }) with
    triggers := s.triggers ++ [.levelChange z] }

theorem enterLevel_zone (z w : ZoneIx) (n : Level) (s : State) :
    (enterLevel z n s).zone w =
      if w = z then { s.zone z with level := n, changed := some s.clock } else s.zone w :=
  State.zone_modZone_if s z (fun r => { r with level := n, changed := some s.clock }) w

theorem changeLevel_eq (z : ZoneIx) (n : Level) (s : State) : changeLevel z n s = respond z n (enterLevel z n s) := rfl

/-- R80: a reset zone, once its change of level is taken without a trip. -/
theorem settle_resetZone (ht : s.triggers = []) (hl : (s.zone z).level ≠ .quiet)
    (hk : ∀ k, (s.trip k).cfg.trigger = .levelChange z → (s.trip k).cfg.mode = .off)
    (hc : (s.zone z).cfg.rangesOk = true) :
    (∃ n, (settle (resetZone z s)).zone z =
      { s.zone z with
        level := .quiet, changed := some s.clock, slots := Vector.replicate 8 0, window := 0, faults := n }) ∧
    (∀ w, w ≠ z → ((settle (resetZone z s)).zone w).level = (s.zone w).level) ∧
    (settle (resetZone z s)).lines = s.lines ∧ (settle (resetZone z s)).trips = s.trips ∧
    (settle (resetZone z s)).strikes = s.strikes ∧ (settle (resetZone z s)).triggers = [] ∧
    ∀ g, (s.zone z).cfg.group = some g → ((settle (resetZone z s)).group g).requests[z.val] = none := by
  rw [resetZone_raised hl, changeLevel_eq]
  generalize hu : enterLevel z .quiet (s.modZone z Zone.clearWindow) = u
  have hzone : ∀ w, u.zone w = if w = z then
      { s.zone z with level := .quiet, changed := some s.clock, slots := Vector.replicate 8 0, window := 0 }
      else s.zone w := fun w => by
    rw [← hu, enterLevel_zone, State.zone_modZone, State.zone_modZone_if]
    split <;> rfl
  have hself := hzone z
  rw [if_pos rfl] at hself
  have hlines : u.lines = s.lines := by rw [← hu]; rfl
  have htrips : u.trips = s.trips := by rw [← hu]; rfl
  have hstrikes : u.strikes = s.strikes := by rw [← hu]; rfl
  have htriggers : u.triggers = [.levelChange z] := by rw [← hu]; exact congrArg (· ++ _) ht
  obtain ⟨hwork, hrequest⟩ := respond_quiet (z := z) (s := u) (by rw [hself]; exact hc)
  have hrest := hwork.rest
  have hsettle : settle (respond z .quiet u) = { respond z .quiet u with triggers := [] } := by
    refine settle_deaf (e := .levelChange z) ?_ fun k => ?_
    · rw [hrest]; exact htriggers
    · have htrip : (respond z .quiet u).trip k = s.trip k := by
        unfold State.trip
        rw [hrest]
        exact congrArg (·[k.val]) htrips
      rw [htrip]
      exact hk k
  rw [hsettle]
  refine ⟨⟨((respond z .quiet u).zone z).faults, ?_⟩, fun w hw => ?_, ?_, ?_, ?_, rfl, fun g hg => ?_⟩
  · refine (hwork.zone z).trans ?_
    rw [hself]
  · have hlevel : ((respond z .quiet u).zone w).level = (u.zone w).level := by rw [hwork.zone w]
    refine hlevel.trans ?_
    rw [hzone w, if_neg hw]
  · exact (congrArg State.lines hrest).trans hlines
  · exact (congrArg State.trips hrest).trans htrips
  · exact (congrArg State.strikes hrest).trans hstrikes
  · exact hrequest g (by rw [hself]; exact hg)

end

/-! ## Raises and responses (R71 to R76) -/

section
variable {s : State} {z : ZoneIx} {n : Level}

theorem Level.reaches_iff {t : Option Level} : n.reaches t = true ↔ ∃ m, t = some m ∧ m.rank ≤ n.rank := by
  cases t with
  | none => simp [Level.reaches]
  | some m => simp [Level.reaches, Level.atLeast]

/-- R74: what a line takes of a zone's level: a divert request, then a shut request. -/
theorem respondLine_eq (l : LineIx) :
    respondLine z n l s =
      if n.reaches (s.zone z).cfg.shut then
        shutLine l (if n.reaches (s.zone z).cfg.divert then divertLine l s else s)
      else if n.reaches (s.zone z).cfg.divert then divertLine l s else s := rfl

theorem respondSirens_none (h : (s.zone z).cfg.group = none) : respondSirens z n s = s := by
  unfold respondSirens
  rw [h]

theorem respondSirens_some {g : GroupIx} (h : (s.zone z).cfg.group = some g) :
    respondSirens z n s = changeRequest g z ((s.zone z).cfg.cadenceFor n) s := by
  unfold respondSirens
  rw [h]

end

/-- Settles O43: Reset Zone by its checks, and the raise of a level with its response in any order. -/
theorem zoneReset : Obligations.ZoneReset := by
  refine ⟨fun s rq z h hz ht => ⟨fun hm => ?bypass, fun ha hheld => ?held, fun ha hfree hq => ?quiet,
    fun ha hfree hq hranges hk => ?raised⟩, fun s z n => ⟨rfl, fun hlt => if_pos hlt, raiseZone_of_le, rfl,
      inAnyOrder_someOrder _ _, inAnyOrder_someOrder _ _, inAnyOrder_someOrder _ _, respondSirens_none, fun g hg => ?siren,
      fun l => ⟨fun hd hs => ?both, fun hd hs => ?diverts, fun hd hs => ?shuts, fun hd hs => ?neither⟩⟩⟩
  case bypass =>
    refine (takeResetZone_permitted h hz).trans (congrArg Host.Outcome.next (if_pos ?_))
    rw [State.active_of_bypass hm]
    rfl
  case held =>
    exact (takeResetZone_active h hz ha).trans (congrArg Host.Outcome.next (if_pos (State.resetHeld_iff.2 hheld)))
  case quiet =>
    rw [takeResetZone_active h hz ha, if_neg fun hheld => hfree (State.resetHeld_iff.1 hheld)]
    have heffect : ∀ u : State, u.triggers = [] → (u.zone z).level = .quiet →
        settle (resetZone z u) = u.modZone z Zone.clearWindow := fun u hu hl => by
      rw [resetZone_quiet hl]
      exact settle_idle hu
    refine congrArg Host.Outcome.next ((doneWith_eq ?_).trans ?_)
    · rw [heffect s ht hq, heffect (reply rq .done s) ht hq]
      rfl
    · rw [heffect s ht hq]
      rfl
  case raised =>
    have hexec := (takeResetZone_active h hz ha).trans
      (congrArg Host.Outcome.next (if_neg fun hheld => hfree (State.resetHeld_iff.1 hheld)))
    obtain ⟨-, -, hzones, -⟩ := hranges
    obtain ⟨t, he, hans⟩ := exists_answered hexec
    refine ⟨t, he, ?_⟩
    apply hans.fact
    · exact fun _ _ _ hu => hu
    intro p
    exact settle_resetZone (s := { s with port := p }) ht hq hk (hzones z)
  case siren =>
    rw [respondSirens_some hg]
    cases n <;> rfl
  case both => rw [respondLine_eq, if_pos (Level.reaches_iff.2 hs), if_pos (Level.reaches_iff.2 hd)]
  case diverts =>
    rw [respondLine_eq, if_neg fun h => hs (Level.reaches_iff.1 h), if_pos (Level.reaches_iff.2 hd)]
  case shuts =>
    rw [respondLine_eq, if_pos (Level.reaches_iff.2 hs), if_neg fun h => hd (Level.reaches_iff.1 h)]
  case neither =>
    rw [respondLine_eq, if_neg fun h => hs (Level.reaches_iff.1 h), if_neg fun h => hd (Level.reaches_iff.1 h)]

/-! ## Trigger events, one after another (R92) -/

theorem settleTriggers_cons {s : State} {e : Trigger} {rest : List Trigger} (h : s.triggers = e :: rest) (n : Nat) :
    settleTriggers (n + 1) s = settleTriggers n (takeTrigger e { s with triggers := rest }) := by
  simp only [settleTriggers, h]

/-- Fuel beyond what can come makes no difference. -/
theorem settleTriggers_enough {n m : Nat} {s : State} (hn : s.toCome ≤ n) (hm : s.toCome ≤ m) :
    settleTriggers n s = settleTriggers m s := by
  induction n generalizing m s with
  | zero =>
    have hnone : s.triggers = [] := by
      unfold State.toCome at hn
      exact List.length_eq_zero_iff.1 (by omega)
    cases m with
    | zero => rfl
    | succ m => simp only [settleTriggers, hnone]
  | succ n ih =>
    cases hs : s.triggers with
    | nil => cases m <;> simp only [settleTriggers, hs]
    | cons e rest =>
      have hlater : (takeTrigger e { s with triggers := rest }).toCome + 1 ≤ s.toCome := by
        have htake := takeTrigger_toCome e { s with triggers := rest }
        have hroom : State.room { s with triggers := rest } = s.room := State.room_congr fun _ => rfl
        unfold State.toCome at htake ⊢
        rw [hroom] at htake
        rw [hs, List.length_cons]
        exact Nat.succ_le_succ htake
      cases m with
      | zero => omega
      | succ m =>
        rw [settleTriggers_cons hs, settleTriggers_cons hs]
        exact ih (by omega) (by omega)

theorem State.toCome_le_fuel (s : State) : s.toCome ≤ s.triggers.length + 128 := by
  have hroom := s.room_le
  unfold State.toCome
  omega

theorem settle_cons {s : State} {e : Trigger} {rest : List Trigger} (h : s.triggers = e :: rest) :
    settle s = settle (takeTrigger e { s with triggers := rest }) := by
  have hfuel := s.toCome_le_fuel
  have hone : settle s = settleTriggers (s.triggers.length + 129) s := settleTriggers_enough hfuel (by omega)
  rw [hone, settleTriggers_cons h]
  refine settleTriggers_enough ((takeTrigger_toCome _ _).trans (le_trans ?_ hfuel)) (State.toCome_le_fuel _)
  have hroom : State.room { s with triggers := rest } = s.room := State.room_congr fun _ => rfl
  unfold State.toCome
  rw [hroom, h]
  simp

/-! ## Slot ends and the tick (R70, R84) -/

theorem slotEnds_due {s : State} {z : ZoneIx} (ha : s.active = true) (hd : due s.clock (s.zone z).slotEndAt = true) :
    slotEnds z s = raiseTrigger (.slotEnd z) (s.modZone z Zone.turnSlot) :=
  if_pos (by rw [ha, hd]; rfl)

theorem exec_tick_due {s : State} (ha : s.active = true) (hc : s.clock.toNat % 1000 = 0) :
    exec .tick s = .next (settle (raiseTrigger .tick s)) :=
  congrArg Host.Outcome.next (if_pos (by rw [ha, hc]; rfl))

theorem settle_raiseTrigger_deaf {s : State} {e : Trigger} (ht : s.triggers = []) (h : s.deafTo e) :
    settle (raiseTrigger e s) = s := by
  have hone : (raiseTrigger e s).triggers = [e] := congrArg (· ++ [e]) ht
  rw [settle_deaf hone h, ← ht]
  rfl

/-- Settles O51: the slot end and the tick with their triggers, and the taking of trigger events. -/
theorem slotTurns : Obligations.SlotTurns := by
  refine ⟨fun s ha ht => ⟨fun z d hd hr => ?_, fun hc => ?_⟩, fun s => ⟨settle_idle, fun e rest h => settle_cons h,
    settle_triggers s, fun _ => rfl⟩⟩
  · have hturn : s.modZone z Zone.turnSlot = s.modZone z fun r =>
        { r with
          slots := (s.zone z).slots.set ((s.zone z).current + 1).val 0, current := r.current + 1
          window := windowOf ((s.zone z).slots.set ((s.zone z).current + 1).val 0)
          slotEndAt := some (after d (r.cfg.slotLength * 1000)) } := by
      unfold State.modZone Zone.turnSlot
      rw [hd]
      rfl
    have hexec : exec (.slotEnd z) s = .next (settle (raiseTrigger (.slotEnd z) (s.modZone z Zone.turnSlot))) :=
      congrArg (fun u => Host.Outcome.next (settle u)) (slotEnds_due ha (by rw [hd]; exact hr))
    rw [hexec, hturn]
    refine ⟨?_, fun hk => congrArg Host.Outcome.next (settle_raiseTrigger_deaf ht hk)⟩
    unfold raiseTrigger
    rw [show ∀ f, (s.modZone z f).triggers = [] from fun _ => ht]
    rfl
  · rw [exec_tick_due ha hc]
    refine ⟨?_, fun hk => congrArg Host.Outcome.next (settle_raiseTrigger_deaf ht hk)⟩
    rw [raiseTrigger, ht]
    rfl

end Sys2Proof.Machine
end

