-- ==== Sys2Proof/Proofs/Sirens.lean ====
section
/-! PROOFS. The siren groups: Silence Group and Siren Test (R140, R141), the points a group commands (R131, R136, R137), and what
a change of a zone's request does by the group's phase (R134, R135, R139). -/

namespace Sys2Proof.Machine

/-! ## The points of a group (R131) -/

section
variable {s : State} {g : GroupIx}

theorem State.mem_loopSirens {i : PointIx} :
    i ∈ s.loopSirens g ↔
      i ∈ (s.group g).cfg.sirens ∧ (s.point i).cfg.kind = .siren ∧ (s.point i).cfg.station ≠ s.device.own := by
  unfold State.loopSirens State.isKind State.isLoop PointCfg.used
  rw [List.mem_filter, Bool.and_eq_true, Bool.and_eq_true, beq_iff_eq, bne_iff_ne, bne_iff_ne]
  refine and_congr_right fun _ => and_congr_right fun hkind => and_iff_right ?_
  rw [hkind]
  decide

theorem State.mem_enginePoints {i : PointIx} :
    i ∈ s.enginePoints g ↔
      ∃ q : OutputIx, (s.group g).cfg.outputs.getLsbD q.val = true ∧ s.outputPoint q = some i ∧
        (s.point i).cfg.kind = .siren := by
  unfold State.enginePoints
  simp only [List.mem_filterMap, List.mem_filter, List.mem_finRange, true_and]
  refine exists_congr fun q => and_congr_right fun _ => ?_
  cases s.outputPoint q with
  | none => simp
  | some j =>
    by_cases hj : s.isKind j .siren = true
    · simp only [hj, if_true, Option.some.injEq]
      refine ⟨fun e => ⟨e, e ▸ beq_iff_eq.1 hj⟩, fun ⟨e, _⟩ => e⟩
    · simp only [hj, Bool.false_eq_true, if_false]
      refine ⟨fun e => (Option.some_ne_none i e.symm).elim, fun ⟨e, hkind⟩ => absurd (beq_iff_eq.2 ?_) hj⟩
      cases e
      exact hkind

/-! ## Starting and quieting (R136, R137) -/

/-- R136, R137: what starting a cadence does: the sirens are commanded, then the engine starts. -/
def playCadence (g : GroupIx) (c : CadenceIx) (u : State) : State :=
  let k := u.cadence c
  let t := ((u.loopSirens g).foldl (fun t i => issue i (.sounding k.on k.off k.cycles k.tone) t) u).modGroup g fun r =>
    { r with
      sounding := some c
      endAt :=
        if k.cycles = 0 then none else some (after u.clock (k.cycles.toNat * (k.on.toNat + k.off.toNat) * 10)) }
  ((t.enginePoints g).foldl (fun t i => issue i .outOn t) t).modGroup g fun r =>
    { r with
      engineOn := true
      phaseAt := if k.off = 0 ∧ k.cycles = 0 then none else some (after t.clock (k.on.toNat * 10)) }

theorem restartEngine_eq {c : CadenceIx} {k : Cadence} {u : State} (h : u.cadence c = k) :
    restartEngine g c u =
      (commandOutputs g .outOn u).modGroup g fun r =>
        { r with
          engineOn := true
          phaseAt := if k.off = 0 ∧ k.cycles = 0 then none else some (after u.clock (k.on.toNat * 10)) } := by
  subst h
  rfl

theorem startCadence_eq (g : GroupIx) (c : CadenceIx) (s : State) : startCadence g c s = playCadence g c s := by
  refine restartEngine_eq (k := s.cadence c) ?_
  exact congrArg (·[c.val]) (issues_cadences _ (s.loopSirens g) s)

theorem startWinner_eq (w : ZoneIx × CadenceIx) (s : State) :
    startWinner g w.2 (s.modGroup g fun r => { r with winner := some w }) =
      (playCadence g w.2 (s.modGroup g fun r => { r with winner := some w })).modGroup g fun r =>
        { r with starts := bump r.starts } := by
  rw [startWinner, startCadence_eq]

/-! ## Arbitration (R135) -/

/-- R135: a request of the highest rank, of the lowest zone among equals. -/
def State.bestFor (s : State) (g : GroupIx) (w : ZoneIx × CadenceIx) : Prop :=
  (s.group g).requests[w.1.val] = some w.2 ∧
    ∀ (z : ZoneIx) (c : CadenceIx), (s.group g).requests[z.val] = some c →
      s.rankOf c < s.rankOf w.2 ∨ (s.rankOf c = s.rankOf w.2 ∧ w.1 ≤ z)

theorem State.bestFor_of_bestRequest {w : ZoneIx × CadenceIx} (h : s.bestRequest g = some w) : s.bestFor g w := by
  obtain ⟨hown, hall⟩ := (s.bestRequest_spec g).2 w.1 w.2 h
  refine ⟨hown, fun z c hc => ?_⟩
  obtain ⟨hle, hlow⟩ := hall z c hc
  exact (Nat.lt_or_eq_of_le hle).imp_right fun e => ⟨e, hlow e⟩

/-- R135: there is one best request at most. -/
theorem State.bestFor_unique {v w : ZoneIx × CadenceIx} (hv : s.bestFor g v) (hw : s.bestFor g w) : v = w := by
  obtain ⟨hvown, hvall⟩ := hv
  obtain ⟨hwown, hwall⟩ := hw
  have hzone : v.1 = w.1 := by
    obtain hlt | ⟨-, hvw⟩ := hvall w.1 w.2 hwown
    · obtain hgt | ⟨heq, -⟩ := hwall v.1 v.2 hvown <;> omega
    · obtain hgt | ⟨-, hwv⟩ := hwall v.1 v.2 hvown
      · obtain hlt | ⟨heq, -⟩ := hvall w.1 w.2 hwown <;> omega
      · exact le_antisymm hvw hwv
  refine Prod.ext hzone (Option.some.inj ?_)
  rw [← hvown, ← hwown]
  simp only [hzone]

theorem State.bestRequest_of_bestFor {w : ZoneIx × CadenceIx} (h : s.bestFor g w) : s.bestRequest g = some w := by
  cases hb : s.bestRequest g with
  | none =>
    obtain ⟨hown, -⟩ := h
    rw [(s.bestRequest_spec g).1 hb w.1] at hown
    cases hown
  | some v => rw [State.bestFor_unique (State.bestFor_of_bestRequest hb) h]

theorem State.bestRequest_none (h : ∀ z : ZoneIx, (s.group g).requests[z.val] = none) : s.bestRequest g = none := by
  cases hb : s.bestRequest g with
  | none => rfl
  | some w =>
    obtain ⟨hown, -⟩ := State.bestFor_of_bestRequest hb
    rw [h w.1] at hown
    cases hown

theorem State.bestFor_exists (h : ∃ z : ZoneIx, (s.group g).requests[z.val] ≠ none) : ∃ w, s.bestFor g w := by
  cases hb : s.bestRequest g with
  | none =>
    obtain ⟨z, hz⟩ := h
    exact absurd ((s.bestRequest_spec g).1 hb z) hz
  | some w => exact ⟨w, State.bestFor_of_bestRequest hb⟩

theorem arbitrateGroup_takes {w : ZoneIx × CadenceIx} (h : s.bestFor g w) (hw : (s.group g).winner ≠ some w) :
    arbitrateGroup g s = takeWinner g w s := by
  unfold arbitrateGroup
  rw [State.bestRequest_of_bestFor h]
  exact if_neg hw

theorem takeWinner_free {w : ZoneIx × CadenceIx} (h : (s.group g).silencedRank = none) :
    takeWinner g w s = startWinner g w.2 (s.modGroup g fun r => { r with winner := some w }) := by
  unfold takeWinner
  rw [h]

theorem takeWinner_silenced {w : ZoneIx × CadenceIx} {n : Nat} (h : (s.group g).silencedRank = some n) :
    takeWinner g w s =
      if n < s.rankOf w.2 then
        startWinner g w.2 ((s.modGroup g fun r => { r with silencedRank := none }).modGroup g fun r =>
          { r with winner := some w })
      else s.modGroup g fun r => { r with winner := some w } := by
  unfold takeWinner
  rw [h, State.modGroup_modGroup]

/-! ## A change of the requests, by the group's phase (R134, R139) -/

theorem Group.noRequests_false {r : Group} (h : ¬∀ z : ZoneIx, r.requests[z.val] = none) : r.noRequests = false :=
  Bool.eq_false_iff.2 fun hno => h (r.noRequests_iff.1 hno)

theorem requestsChanged_idle (hr : (s.group g).noRequests = false) (hp : (s.group g).phase = .idle) :
    requestsChanged g s = arbitrateGroup g (s.modGroup g fun r => { r with phase := .sounding }) := by
  unfold requestsChanged
  rw [hr, hp]

theorem requestsChanged_sounding (hr : (s.group g).noRequests = false) (hp : (s.group g).phase = .sounding) :
    requestsChanged g s = arbitrateGroup g s := by
  unfold requestsChanged
  rw [hr, hp]

theorem requestsChanged_playing (hr : (s.group g).noRequests = false)
    (hp : (s.group g).phase = .allClear ∨ (s.group g).phase = .test) :
    requestsChanged g s = arbitrateGroup g (s.modGroup g fun r => { r with phase := .sounding, endAt := none }) := by
  unfold requestsChanged
  obtain hp | hp := hp <;> rw [hr, hp]

theorem requestsChanged_emptied (hr : (s.group g).noRequests = true) (hp : (s.group g).phase = .sounding) :
    requestsChanged g s = emptiedGroup g s := by
  unfold requestsChanged
  rw [hr, hp]

theorem emptiedGroup_allClear {c : CadenceIx} (h : (s.group g).cfg.allClear = some c) :
    emptiedGroup g s =
      startCadence g c ((s.modGroup g fun r => { r with winner := none, silencedRank := none }).modGroup g fun r =>
        { r with phase := .allClear }) := by
  unfold emptiedGroup
  rw [h]

theorem emptiedGroup_quiet (h : (s.group g).cfg.allClear = none) :
    emptiedGroup g s =
      (quietGroup g (s.modGroup g fun r => { r with winner := none, silencedRank := none })).modGroup g fun r =>
        { r with phase := .idle } := by
  unfold emptiedGroup
  rw [h]

/-! ## Silence Group and Siren Test (R140, R141) -/

variable {rq : Request}

theorem takeSilenceGroup_permitted (h : s.permits rq 6) (hg : g.val = rq.ix) :
    exec (.silenceGroup rq) s = .next
      (if !s.active || s.silenceBusy g then reply rq .busy s else doneWith rq (silenceGroup g) s) := by
  refine congrArg Host.Outcome.next (?_ : takeSilenceGroup rq s = _)
  unfold takeSilenceGroup
  rw [indexBelow_val g hg]
  dsimp only
  rw [answer_elim h, h.reserved]
  cases !s.active || s.silenceBusy g <;> rfl

theorem takeSirenTest_permitted (h : s.permits rq 6) (hg : g.val = rq.ix) :
    exec (.sirenTest rq) s = .next
      (if !s.active || (s.group g).phase != .idle then reply rq .busy s
      else if (s.group g).cfg.test.isNone then reply rq .value s else doneWith rq (testGroup g) s) := by
  refine congrArg Host.Outcome.next (?_ : takeSirenTest rq s = _)
  unfold takeSirenTest
  rw [indexBelow_val g hg]
  dsimp only
  rw [answer_elim h, h.reserved]
  cases !s.active || (s.group g).phase != .idle with
  | true => rfl
  | false => cases (s.group g).cfg.test.isNone <;> rfl

theorem State.playedOut_iff :
    s.playedOut g = true ↔ ∃ c, (s.group g).sounding = some c ∧ (s.group g).endAt = none ∧ (s.cadence c).cycles ≠ 0 := by
  unfold State.playedOut
  cases (s.group g).sounding with
  | none => simp
  | some c => simp

theorem State.silenceBusy_sounding (hp : (s.group g).phase = .sounding) :
    s.silenceBusy g = ((s.group g).silencedRank.isSome || s.playedOut g) := by
  unfold State.silenceBusy
  rw [hp]

theorem silenceGroup_sounding (hp : (s.group g).phase = .sounding) :
    silenceGroup g s = (quietGroup g s).modGroup g fun r =>
      { r with silencedRank := r.winner.map fun w => s.rankOf w.2, silences := bump r.silences } := by
  unfold silenceGroup
  rw [hp]

theorem silenceGroup_playing (hp : (s.group g).phase = .allClear ∨ (s.group g).phase = .test) :
    silenceGroup g s = (quietGroup g s).modGroup g fun r => { r with phase := .idle, silences := bump r.silences } := by
  unfold silenceGroup
  obtain hp | hp := hp <;> rw [hp]

theorem testGroup_some {c : CadenceIx} (hc : (s.group g).cfg.test = some c) :
    testGroup g s = startCadence g c (s.modGroup g fun r => { r with phase := .test, tests := bump r.tests }) := by
  unfold testGroup
  rw [hc]

/-- R141: what an accepted Siren Test leaves of the groups and commands of the points. -/
theorem testGroup_spec {c : CadenceIx} (hc : (s.group g).cfg.test = some c) :
    (∀ k, k ≠ g → (testGroup g s).group k = s.group k) ∧
      (testGroup g s).group g =
        { s.group g with
          phase := .test, tests := bump (s.group g).tests, sounding := some c, engineOn := true
          endAt :=
            if (s.cadence c).cycles = 0 then none
            else some (after s.clock
              ((s.cadence c).cycles.toNat * ((s.cadence c).on.toNat + (s.cadence c).off.toNat) * 10))
          phaseAt :=
            if (s.cadence c).off = 0 ∧ (s.cadence c).cycles = 0 then none
            else some (after s.clock ((s.cadence c).on.toNat * 10)) } ∧
      (∀ i ∈ s.loopSirens g,
        ((testGroup g s).point i).drive.commanded =
          some (.sounding (s.cadence c).on (s.cadence c).off (s.cadence c).cycles (s.cadence c).tone)) ∧
      ∀ i ∈ s.enginePoints g, ((testGroup g s).point i).drive.commanded = some .outOn := by
  rw [testGroup_some hc]
  generalize hu : (s.modGroup g fun r => { r with phase := .test, tests := bump r.tests }) = u
  have hcfg : (u.group g).cfg = (s.group g).cfg := by rw [← hu, State.group_modGroup]
  have hpoints : ∀ i, (u.point i).cfg = (s.point i).cfg := fun i => by rw [← hu]; rfl
  have hdevice : u.device = s.device := by rw [← hu]; rfl
  have hcadence : u.cadence c = s.cadence c := by rw [← hu]; rfl
  have hclock : u.clock = s.clock := by rw [← hu]; rfl
  have hcommands := startCadence_commands g c u
  rw [hcadence] at hcommands
  refine ⟨fun k hk => ?_, ?_, fun i hi => hcommands.sirens i ?_, fun i hi => hcommands.outputs i ?_⟩
  · rw [startCadence_group, if_neg hk, ← hu, State.group_modGroup_ne _ _ _ _ hk]
  · rw [startCadence_group, if_pos rfl, hcadence, hclock, ← hu, State.group_modGroup]
    rfl
  · rw [State.loopSirens_congr hcfg hpoints hdevice]
    exact hi
  · rw [State.enginePoints_congr hcfg hpoints hdevice]
    exact hi

/-- R140: a group commanded quiet. -/
def Quieted (g : GroupIx) (s t : State) : Prop :=
  (∀ i ∈ s.loopSirens g, (t.point i).drive.commanded = some .quiet) ∧
    ∀ i ∈ s.enginePoints g, (t.point i).drive.commanded = some .outOff

theorem quietGroup_quieted (g : GroupIx) (s : State) : Quieted g s (quietGroup g s) :=
  ⟨(quietGroup_commands g s).sirens, (quietGroup_commands g s).outputs⟩

/-- R140: an accepted Silence Group: the other groups stand, and the group's sirens and outputs are quiet. -/
theorem takeSilenceGroup_done {f : Group → Group} (h : s.permits rq 6) (hg : g.val = rq.ix) (ha : s.active = true)
    (hb : s.silenceBusy g = false)
    (hf : ∀ u : State, u.group g = s.group g → u.cadences = s.cadences → silenceGroup g u = (quietGroup g u).modGroup g f) :
    ∃ t, exec (.silenceGroup rq) s = .next t ∧ (∀ k, k ≠ g → t.group k = s.group k) ∧
      t.group g =
        f { s.group g with sounding := none, endAt := none, engineOn := false, phaseAt := none } ∧ Quieted g s t := by
  obtain ⟨t, ht, hans⟩ := exists_answered ((takeSilenceGroup_permitted h hg).trans
    (congrArg Host.Outcome.next (if_neg (by rw [ha, hb]; exact Bool.false_ne_true))))
  refine ⟨t, ht, ?_⟩
  apply hans.fact
  · exact fun _ _ _ hu => hu
  intro p
  have heq := hf { s with port := p } rfl rfl
  rw [heq]
  refine ⟨fun k hk => ?_, ?_, quietGroup_quieted g { s with port := p }⟩
  · rw [State.group_modGroup_ne _ _ _ _ hk, quietGroup_group, if_neg hk]
    rfl
  · rw [State.group_modGroup, quietGroup_group, if_pos rfl]
    rfl

end


/-- Settles O46: the two commands by their checks and effects, the commands to points, and the requests by phase. -/
theorem sirensCommanded : Obligations.SirensCommanded := by
  refine ⟨fun s rq g h hg => ?commands, fun s g => ?requests⟩
  case commands =>
    refine ⟨fun hm => ?bypass, fun hb => ?busy, fun ha hp hfree hplays => ?sounding, fun ha hp => ?playing, fun hp => ?testBusy,
      fun ha hp => ⟨fun hnone => ?noTest, fun c hc => ?test⟩⟩
    case bypass =>
      have hbusy : ∀ b : Bool, (!s.active || b) = true := fun b => by rw [State.active_of_bypass hm]; rfl
      exact ⟨(takeSilenceGroup_permitted h hg).trans (congrArg Host.Outcome.next (if_pos (hbusy _))),
        (takeSirenTest_permitted h hg).trans (congrArg Host.Outcome.next (if_pos (hbusy _)))⟩
    case busy =>
      refine (takeSilenceGroup_permitted h hg).trans (congrArg Host.Outcome.next (if_pos ?_))
      have hsilence : s.silenceBusy g = true := by
        obtain hidle | ⟨hsounding, hheld | hplayed⟩ := hb
        · unfold State.silenceBusy
          rw [hidle]
        · rw [State.silenceBusy_sounding hsounding, Option.isSome_iff_ne_none.2 hheld]
          rfl
        · rw [State.silenceBusy_sounding hsounding, State.playedOut_iff.2 hplayed]
          exact Bool.or_true _
      rw [hsilence]
      exact Bool.or_true _
    case sounding =>
      have hfreed : s.silenceBusy g = false := by
        rw [State.silenceBusy_sounding hp, hfree, Bool.eq_false_iff.2 fun hplayed => hplays (State.playedOut_iff.1 hplayed)]
        rfl
      refine takeSilenceGroup_done (f := fun r =>
        { r with silencedRank := r.winner.map fun w => s.rankOf w.2, silences := bump r.silences }) h hg ha hfreed
        fun u hu hcad => ?_
      rw [silenceGroup_sounding (by rw [hu]; exact hp)]
      simp only [State.rankOf, State.cadence, hcad]
    case playing =>
      have hfreed : s.silenceBusy g = false := by
        unfold State.silenceBusy
        obtain hp | hp := hp <;> rw [hp]
      refine takeSilenceGroup_done (f := fun r => { r with phase := .idle, silences := bump r.silences }) h hg ha hfreed
        fun u hu _ => ?_
      exact silenceGroup_playing (by rw [hu]; exact hp)
    case testBusy =>
      refine (takeSirenTest_permitted h hg).trans (congrArg Host.Outcome.next (if_pos ?_))
      rw [bne_iff_ne.2 hp]
      exact Bool.or_true _
    case noTest =>
      rw [takeSirenTest_permitted h hg, ha, hp, hnone]
      rfl
    case test =>
      have hexec : exec (.sirenTest rq) s = .next (doneWith rq (testGroup g) s) := by
        rw [takeSirenTest_permitted h hg, ha, hp, hc]
        rfl
      obtain ⟨t, ht, hans⟩ := exists_answered hexec
      refine ⟨t, ht, ?_⟩
      apply hans.fact
      · exact fun _ _ _ hu => hu
      intro p
      exact testGroup_spec (s := { s with port := p }) hc
  case requests =>
    refine ⟨fun i => State.mem_loopSirens, fun i => State.mem_enginePoints, rfl, fun c => startCadence_eq g c s,
      fun z c => ⟨fun heq => if_pos heq, fun hne => if_neg hne⟩,
      ⟨fun hr hp => requestsChanged_idle (Group.noRequests_false hr) hp,
        fun hr hp => requestsChanged_sounding (Group.noRequests_false hr) hp,
        fun hr hp => requestsChanged_playing (Group.noRequests_false hr) hp, fun hr hp => ⟨fun c hc => ?allClear, fun hc => ?quiet⟩⟩,
      fun hr => ?nothing, State.bestFor_exists, fun w hw => ⟨fun heq => ?stands, fun hne hfree => ?won, fun hne n hn =>
        ⟨fun hlt => ?above, fun hle => ?below⟩⟩⟩
    case allClear =>
      rw [requestsChanged_emptied ((s.group g).noRequests_iff.2 hr) hp, emptiedGroup_allClear hc, startCadence_eq]
      rfl
    case quiet =>
      rw [requestsChanged_emptied ((s.group g).noRequests_iff.2 hr) hp, emptiedGroup_quiet hc]
      rfl
    case nothing => exact arbitrateGroup_idle (.inl (State.bestRequest_none hr))
    case stands => exact arbitrateGroup_idle (.inr ((State.bestRequest_of_bestFor hw).trans heq.symm))
    case won =>
      rw [arbitrateGroup_takes hw hne, takeWinner_free hfree]
      exact startWinner_eq w s
    case above =>
      rw [arbitrateGroup_takes hw hne, takeWinner_silenced hn, if_pos (show n < s.rankOf w.2 from hlt)]
      exact startWinner_eq w _
    case below =>
      rw [arbitrateGroup_takes hw hne, takeWinner_silenced hn, if_neg (show ¬n < s.rankOf w.2 from Nat.not_lt.2 hle)]

end Sys2Proof.Machine
end

