-- ==== Sys2Proof/Proofs/Tracks.lean ====
section
/-! PROOFS. The Spark Tracker's lists: the end of Storm and the retirements (R31 to R33), the clearing at a Flood entry (R29), and
the speed that a stale sample changes (R25 to R28). -/

namespace Sys2Proof.Machine

/-! ## The end of Storm (R33) -/

theorem State.modLine_same {s : State} {l : LineIx} {f : Line → Line} (h : f (s.line l) = s.line l) : s.modLine l f = s := by
  unfold State.modLine
  rw [h]
  have hset : s.lines.set l.val (s.line l) = s.lines := Vector.set_getElem_self l.isLt
  rw [hset]

theorem State.modLine_congr {s : State} {l : LineIx} {f g : Line → Line} (h : f (s.line l) = g (s.line l)) :
    s.modLine l f = s.modLine l g := by
  unfold State.modLine
  rw [h]

/-- R33: Storm stands where it stood and more than eight records are left. -/
def Line.drained (r : Line) : Line := { r with storm := r.storm && decide (8 < r.tracks.length) }

/-- R32: a line whose list a retirement has left, the retire deadline at its head. -/
def Line.retired (left : List Track) (r : Line) : Line :=
  { r with
    tracks := left, retireAt := left.head?.map (·.endTime), storm := r.storm && decide (8 < left.length) }

section
variable {l : LineIx}

theorem testStormEnd_eq (u : State) :
    testStormEnd l u =
      if (u.line l).storm = true ∧ (u.line l).tracks.length ≤ 8 then
        notify .storm l.val 0 (u.modLine l fun r => { r with storm := false })
      else u := by
  unfold testStormEnd
  simp only [Bool.and_eq_true, decide_eq_true_eq]

theorem testStormEnd_modLine (u : State) :
    ∃ p, testStormEnd l u = { u.modLine l Line.drained with port := p } := by
  rw [testStormEnd_eq]
  by_cases h : (u.line l).storm = true ∧ (u.line l).tracks.length ≤ 8
  · have hdrained : (u.line l).drained = { u.line l with storm := false } := by
      obtain ⟨hstorm, hfew⟩ := h
      rw [Line.drained, hstorm, decide_eq_false (Nat.not_lt.2 hfew)]
      rfl
    rw [if_pos h, State.modLine_congr (f := Line.drained) (g := fun r => { r with storm := false }) hdrained]
    exact ⟨_, rfl⟩
  · have hdrained : (u.line l).drained = u.line l := by
      unfold Line.drained
      cases hs : (u.line l).storm with
      | false => rw [Bool.false_and, ← hs]
      | true =>
        have hmany : 8 < (u.line l).tracks.length := Nat.not_le.1 fun hfew => h ⟨hs, hfew⟩
        rw [Bool.true_and, decide_eq_true hmany, ← hs]
    rw [if_neg h, State.modLine_same hdrained]
    exact ⟨u.port, rfl⟩

/-! ## Retirement (R32) -/

/-- R31, R32: the records that are retired, and those that are left. -/
def State.ended (s : State) (l : LineIx) : List Track := (s.line l).tracks.takeWhile fun k => reached s.clock k.endTime

def State.kept (s : State) (l : LineIx) : List Track := (s.line l).tracks.dropWhile fun k => reached s.clock k.endTime

/-- R32, R33: a retirement, as an update of the line, of the strike list and of the notices placed. -/
theorem retireReached_modLine (u : State) :
    ∃ p, retireReached l u =
      { u.modLine l (Line.retired (u.kept l)) with
        strikes := u.strikes.map fun e =>
          if e.line = l ∧ e.track ∈ (u.ended l).map (·.number) then { e with detached := true } else e
        port := p } := by
  have heq : retireReached l u = testStormEnd l
      { u.modLine l fun r => { r with tracks := u.kept l, retireAt := (u.kept l).head?.map (·.endTime) } with
        strikes := u.strikes.map fun e =>
          if e.line = l ∧ e.track ∈ (u.ended l).map (·.number) then { e with detached := true } else e } :=
    retireReached_eq l u
  rw [heq]
  generalize (u.strikes.map fun e =>
    if e.line = l ∧ e.track ∈ (u.ended l).map (·.number) then { e with detached := true } else e) = es
  obtain ⟨p, hp⟩ := testStormEnd_modLine (l := l)
    { u.modLine l fun r => { r with tracks := u.kept l, retireAt := (u.kept l).head?.map (·.endTime) } with strikes := es }
  refine ⟨p, hp.trans ?_⟩
  have htwice := State.modLine_modLine u l
    (fun r => { r with tracks := u.kept l, retireAt := (u.kept l).head?.map (·.endTime) }) Line.drained
  have hlines : ((u.modLine l fun r =>
      { r with tracks := u.kept l, retireAt := (u.kept l).head?.map (·.endTime) }).modLine l Line.drained).lines =
      (u.modLine l (Line.retired (u.kept l))).lines := congrArg State.lines htwice
  exact congrArg (fun ls => { u with lines := ls, strikes := es, port := p }) hlines

theorem exec_retireDeadline_due {s : State} (ha : s.active = true) (hd : due s.clock (s.line l).retireAt = true) :
    exec (.retireDeadline l) s = .next (retireReached l s) :=
  congrArg Host.Outcome.next (if_pos (by rw [ha, hd]; rfl))

theorem exec_recordEndTime_cons {s : State} {n : Cyc} {head : Track} {rest : List Track} (ha : s.active = true)
    (h : (s.line l).tracks = head :: rest) :
    exec (.recordEndTime l n) s =
      .next (s.modLine l fun r =>
        { r with
          tracks := head :: rest.map fun k =>
            if k.number = n ∧ reached s.clock k.endTime = true then { k with state := .passed } else k }) := by
  refine congrArg Host.Outcome.next (?_ : recordEnds l n s = _)
  unfold recordEnds
  rw [h]
  exact if_pos ha

/-- Settles O48: the retirement at the deadline, and the end time of another record. -/
theorem recordsRetire : Obligations.RecordsRetire := by
  intro s l ha
  refine ⟨fun hd => ⟨_, exec_retireDeadline_due ha hd, ?_⟩, fun n head rest h => exec_recordEndTime_cons ha h⟩
  obtain ⟨p, hp⟩ := retireReached_modLine (l := l) s
  rw [hp]
  refine ⟨?_, fun k hk => ?_, rfl, rfl, rfl, rfl, rfl, rfl⟩
  · exact State.line_modLine s l (Line.retired (s.kept l))
  · exact State.line_modLine_ne s l (Line.retired (s.kept l)) k hk

/-! ## Flood entries (R29) -/

/-- R29: the part when the records that are not Passed are off the list, their strikes withdrawn and the valves beyond opened. -/
def floodCleared (l : LineIx) (gone left : List Track) (p : Nat) (s : State) : State :=
  let t := testStormEnd l (s.modLine l fun r => { r with tracks := left }.setRetire)
  let u := withdrawStrikes l (gone.map (·.number)) t
  openNow (u.valvesBeyond l p) u

theorem clearForFlood_none {s : State} (h : ((s.line l).tracks.filter fun k => k.state != .passed) = []) :
    clearForFlood l s = retireReached l s := by
  unfold clearForFlood
  rw [h]
  rfl

theorem clearForFlood_some {s : State} {p : Nat}
    (h : leastOrigin ((s.line l).tracks.filter fun k => k.state != .passed) = some p) :
    clearForFlood l s =
      retireReached l (floodCleared l ((s.line l).tracks.filter fun k => k.state != .passed)
        ((s.line l).tracks.filter fun k => k.state == .passed) p s) := by
  unfold clearForFlood
  dsimp only
  rw [h]
  rfl

theorem retireReached_emptied {u : State} (h : ∀ k ∈ (u.line l).tracks, reached u.clock k.endTime = true) :
    ((retireReached l u).line l).tracks = [] ∧ ((retireReached l u).line l).retireAt = none ∧
      ((retireReached l u).line l).storm = false ∧ ((retireReached l u).line l).nextTrack = (u.line l).nextTrack := by
  have hkept : u.kept l = [] := List.dropWhile_eq_nil_iff.2 h
  obtain ⟨p, hp⟩ := retireReached_modLine (l := l) u
  have hline : (retireReached l u).line l = (u.line l).retired (u.kept l) :=
    (congrArg (State.line · l) hp).trans (State.line_modLine u l (Line.retired (u.kept l)))
  rw [hline, hkept]
  exact ⟨rfl, rfl, Bool.and_false _, rfl⟩

/-- R29: the clearing leaves of the line's list the Passed records, and the numbers of the records to come. -/
theorem floodCleared_line (gone left : List Track) (p : Nat) (s : State) :
    ((floodCleared l gone left p s).line l).tracks = left ∧ (floodCleared l gone left p s).clock = s.clock ∧
      ((floodCleared l gone left p s).line l).nextTrack = (s.line l).nextTrack := by
  unfold floodCleared
  dsimp only
  generalize hu : (s.modLine l fun r => { r with tracks := left }.setRetire) = u
  have hown : u.line l = { s.line l with tracks := left }.setRetire := by rw [← hu, State.line_modLine]
  obtain ⟨q, hq⟩ := testStormEnd_modLine (l := l) u
  generalize testStormEnd l u = t at hq ⊢
  have hline : (withdrawStrikes l (gone.map (·.number)) t).line l = (u.line l).drained :=
    (congrArg (State.line · l) hq).trans (State.line_modLine u l Line.drained)
  have hclock : (withdrawStrikes l (gone.map (·.number)) t).clock = s.clock := by
    rw [← hu] at hq
    exact (congrArg State.clock hq :)
  generalize withdrawStrikes l (gone.map (·.number)) t = w at hline hclock ⊢
  have hopen := openNow_openWork (w.valvesBeyond l p) w
  have hkeep := hopen.line l
  rw [hline, hown] at hkeep
  exact ⟨(congrArg Line.tracks hkeep :), hopen.clock.trans hclock, (congrArg Line.nextTrack hkeep :)⟩

/-- R57: a strike that a withdrawal of these records leaves. -/
def Strike.kept (l : LineIx) (gone : List Track) (e : Strike) : Bool :=
  ¬(e.line = l ∧ e.detached = false ∧ e.track ∈ gone.map (·.number))

theorem withdrawStrikes_eq (l : LineIx) (gone : List Track) (t : State) :
    withdrawStrikes l (gone.map (·.number)) t = { t with strikes := t.strikes.filter (Strike.kept l gone) } := by
  unfold withdrawStrikes
  refine congrArg (fun es => { t with strikes := es }) (List.filter_congr fun e _ => ?_)
  have hgone : (e.line == l && !e.detached && (gone.map (·.number)).contains e.track) =
      decide (e.line = l ∧ e.detached = false ∧ e.track ∈ gone.map (·.number)) := by
    rw [Bool.eq_iff_iff]
    simp [and_assoc]
  rw [hgone]
  exact (decide_not ..).symm

/-- R29, R57: the withdrawal reads the strike list, and the openings the valves, as they stood before the end of Storm. -/
theorem floodCleared_eq (gone left : List Track) (p : Nat) (s : State) :
    floodCleared l gone left p s =
      openNow ((s.membersOf l).valves.filter fun v => p < (s.point v).cfg.position.getD 0)
        { testStormEnd l (s.modLine l fun r => { r with tracks := left, retireAt := left.head?.map (·.endTime) }) with
          strikes := s.strikes.filter (Strike.kept l gone) } := by
  unfold floodCleared
  dsimp only [Line.setRetire]
  generalize hu : (s.modLine l fun r => { r with tracks := left, retireAt := left.head?.map (·.endTime) }) = u
  obtain ⟨q, hq⟩ := testStormEnd_modLine (l := l) u
  generalize testStormEnd l u = t at hq ⊢
  subst hu
  have hstrikes : t.strikes = s.strikes := by rw [hq]; rfl
  rw [withdrawStrikes_eq, hstrikes]
  have hvalves : State.valvesBeyond { t with strikes := s.strikes.filter (Strike.kept l gone) } l p =
      (s.membersOf l).valves.filter fun v => p < (s.point v).cfg.position.getD 0 := by
    rw [hq]
    rfl
  rw [hvalves]

theorem retireReached_point (u : State) (v : PointIx) : (retireReached l u).point v = u.point v := by
  obtain ⟨p, hp⟩ := retireReached_modLine (l := l) u
  rw [hp]
  rfl

end

/-! ## Speeds (R25 to R28) -/

theorem State.effectiveSpeed_eq {s : State} {l : LineIx} {fresh : List Nat} (h : s.freshSpeeds l = fresh) :
    s.effectiveSpeed l =
      match (s.line l).cfg.source with
      | .design => (s.line l).cfg.design
      | .calibrated => (s.line l).calibrated.getD (s.line l).cfg.design
      | .sampled => if fresh = [] then (s.line l).cfg.design else max 1 (fresh.sum / fresh.length) := by
  unfold State.effectiveSpeed
  rw [h]
  dsimp only
  cases (s.line l).cfg.source with
  | design => rfl
  | calibrated => rfl
  | sampled => cases fresh <;> rfl

/-- R27: the sample of a sensor that is fresh no longer. -/
def staleSample (i : PointIx) (a : Sample) (s : State) : State :=
  s.modPoint i fun p => { p with sample := some { a with fresh := false } }

theorem staleSample_freshSpeeds (i : PointIx) (a : Sample) (s : State) (l : LineIx) :
    (staleSample i a s).freshSpeeds l =
      (s.membersOf l).sensors.filterMap fun j =>
        if j = i then none
        else match (s.point j).sample with
          | some b => if b.fresh then some b.speed else none
          | none => none := by
  refine List.filterMap_congr fun j _ => ?_
  have hpoint : (staleSample i a s).point j = _ := State.point_modPoint_if s i _ j
  rw [hpoint]
  by_cases hj : j = i
  · rw [if_pos hj, if_pos hj]
    rfl
  · rewrite [if_neg hj, if_neg hj]
    cases (s.point j).sample <;> rfl

theorem sampleExpires_due {s : State} {i : PointIx} {l : LineIx} {a : Sample} (ha : s.active = true)
    (hl : (s.point i).cfg.line = some l) (hs : (s.point i).sample = some a) (hf : a.fresh = true)
    (hd : 2000 ≤ elapsed s.clock a.arrival) : sampleExpires i s = recomputeSpeed l (staleSample i a s) := by
  unfold sampleExpires
  rw [hs, hl]
  refine if_pos ?_
  rw [ha, hf, decide_eq_true (show Config.airSampleAge ≤ elapsed s.clock a.arrival from hd)]
  rfl

end Sys2Proof.Machine

namespace Sys2Proof
open Machine

/-- Settles O47: the speed computed again from the other samples, and the clearing at a Flood entry. -/
theorem sampleExpires : Obligations.SampleExpires := by
  refine ⟨fun s i l a ha ht hl hs hf hd => ?expires, fun s l => ?clears⟩
  case expires =>
    have hfresh := staleSample_freshSpeeds i a s l
    obtain ⟨hspeed, hstale, hflood, hcfg, hpoint, hzone, htrips, hdoors, hgroups, htriggers⟩ :=
      recomputeSpeed_line l (staleSample i a s)
    have hexec : exec (.sampleExpiry i) s = .next (recomputeSpeed l (staleSample i a s)) := by
      refine congrArg Host.Outcome.next ((congrArg settle (sampleExpires_due ha hl hs hf hd)).trans (settle_idle ?_))
      exact htriggers.trans ht
    have hsample : ∀ j, ((recomputeSpeed l (staleSample i a s)).point j).sample = ((staleSample i a s).point j).sample :=
      fun j => by rw [hpoint j]
    refine ⟨_, hexec, rfl, ?_, fun j hj => ?_, ?_, ?_, ?_, hcfg, htrips, hdoors, hgroups, fun z => ?_⟩
    · rw [hsample i, staleSample, State.point_modPoint]
    · rw [hsample j, staleSample, State.point_modPoint_ne _ _ _ _ hj]
    · refine hspeed.trans ((State.effectiveSpeed_eq hfresh).trans ?_)
      have hline : (staleSample i a s).line l = s.line l := rfl
      rewrite [hline]
      cases (s.line l).cfg.source <;> rfl
    · refine hstale.trans ?_
      unfold State.staleSpeed
      rw [hfresh]
      rfl
    · rw [hflood, hspeed]
      rfl
    · rw [hzone z]
      rfl
  case clears =>
    intro gone kept stormTest retire
    have hgone : ((s.line l).tracks.filter fun k => k.state != .passed) = gone :=
      List.filter_congr fun k _ => by by_cases hk : k.state = .passed <;> simp [hk]
    have hkept : ((s.line l).tracks.filter fun k => k.state == .passed) = kept :=
      List.filter_congr fun k _ => by by_cases hk : k.state = .passed <;> simp [hk]
    have hretire : ∀ u, retireReached l u = retire u := fun u => (retireReached_eq l u).trans (testStormEnd_eq _)
    have hsome : ∀ first ∈ gone, (∀ k ∈ gone, first.originPosition ≤ k.originPosition) →
        clearForFlood l s = retireReached l (floodCleared l gone kept first.originPosition s) := fun first hf hm => by
      rw [clearForFlood_some (by rw [hgone]; exact leastOrigin_eq hf hm), hgone, hkept]
    refine ⟨fun hnone => ?none, fun first hf hm => ⟨?cleared, fun v hv => ?opened⟩, fun hreached => ?emptied⟩
    case none => exact (clearForFlood_none (hgone.trans hnone)).trans (hretire s)
    case cleared =>
      rw [hsome first hf hm, floodCleared_eq, testStormEnd_eq]
      exact hretire _
    case opened =>
      rw [hsome first hf hm, retireReached_point, floodCleared_eq]
      exact openNow_state _ _ v hv
    case emptied =>
      cases hg : gone with
      | nil =>
        have hpassed : ∀ k ∈ (s.line l).tracks, k ∈ kept := fun k hk => by
          refine List.mem_filter.2 ⟨hk, decide_eq_true (by_contra fun hne => ?_)⟩
          have hmem : k ∈ gone := List.mem_filter.2 ⟨hk, decide_eq_true hne⟩
          rw [hg] at hmem
          cases hmem
        rw [clearForFlood_none (hgone.trans hg)]
        exact retireReached_emptied fun k hk => hreached k (hpassed k hk)
      | cons first rest =>
        obtain ⟨p, hp⟩ : ∃ p, leastOrigin gone = some p := by
          rw [hg]
          exact ⟨_, rfl⟩
        obtain ⟨htracks, hclock, hnext⟩ := floodCleared_line gone kept p s
        rw [clearForFlood_some (by rw [hgone]; exact hp), hgone, hkept]
        rw [← hnext]
        refine retireReached_emptied fun k hk => ?_
        rw [hclock]
        exact hreached k (htracks ▸ hk)

end Sys2Proof
end

