-- ==== Sys2Proof/Proofs/Strikes.lean ====
section
/-! PROOFS. The Strike Scheduler: the strike that fires, strike requests by the first case that applies, and a strike by its
valve's state (R51 to R56, R60, R64); the valve's deadlines and the test of its reported state (R61 to R63). -/

namespace Sys2Proof.Machine

/-! ## A strike, by the valve's state (R60) -/

section
variable {s : State} {v : PointIx}

theorem strikeValve_closed (h : (s.point v).valve.state = .closed) :
    strikeValve v s =
      commandValve v .opened ((countStrike v s).modPoint v fun p =>
        { p with
          valve :=
            { p.valve with
              state := .opened, holdAt := some (after s.clock (s.point v).cfg.holdMs), opens := bump p.valve.opens } }) := by
  unfold strikeValve
  rw [h]
  dsimp only
  rw [State.modValve_eq]

theorem State.modPoint_congr {i : PointIx} {f g : Point → Point} (h : f (s.point i) = g (s.point i)) :
    s.modPoint i f = s.modPoint i g := by
  unfold State.modPoint
  rw [h]

/-- R60: the hold deadline of a valve that is Open already, after a strike. -/
theorem strikeValve_opened {hold : Time} (h : (s.point v).valve.state = .opened)
    (hh : hold = match (s.point v).valve.holdAt with
      | some d => later d (after s.clock (s.point v).cfg.holdMs)
      | none => after s.clock (s.point v).cfg.holdMs) :
    strikeValve v s = (countStrike v s).modPoint v fun p => { p with valve := { p.valve with holdAt := some hold } } := by
  unfold strikeValve
  rw [h]
  dsimp only
  rw [State.modValve_eq]
  refine State.modPoint_congr ?_
  rewrite [countStrike_point, hh]
  cases (s.point v).valve.holdAt <;> rfl

theorem strikeValve_recovering (h : (s.point v).valve.state = .recovering) :
    strikeValve v s =
      notify .valveFault v.val 0 (commandValve v .opened ((countStrike v s).modPoint v fun p =>
        { p with
          valve :=
            { p.valve with
              state := .opened, recoveryAt := none, holdAt := some (after s.clock (s.point v).cfg.holdMs)
              opens := bump p.valve.opens, reopens := bump p.valve.reopens } })) := by
  unfold strikeValve
  rw [h]
  dsimp only
  rw [State.modValve_eq]

/-- R60: a strike on a valve that is Open moves its hold deadline alone. -/
theorem strikeValve_point_opened (h : (s.point v).valve.state = .opened) :
    ((strikeValve v s).point v).drive = (s.point v).drive ∧
      ((strikeValve v s).point v).valve =
        { (s.point v).valve with
          holdAt :=
            some (match (s.point v).valve.holdAt with
              | some h => later h (after s.clock (s.point v).cfg.holdMs)
              | none => after s.clock (s.point v).cfg.holdMs) } := by
  rw [strikeValve_opened h rfl, State.point_modPoint, countStrike_point]
  exact ⟨rfl, rfl⟩

theorem Valve.struck_closed {r : Valve} {hold : Time} (h : r.state = .closed) :
    r.struck hold = { r with state := .opened, holdAt := some hold, opens := bump r.opens } := by
  unfold Valve.struck
  rw [h]

theorem Valve.struck_recovering {r : Valve} {hold : Time} (h : r.state = .recovering) :
    r.struck hold =
      { r with
        state := .opened, recoveryAt := none, holdAt := some hold, opens := bump r.opens, reopens := bump r.reopens } := by
  unfold Valve.struck
  rw [h]

/-- R60, R62: the valve's entry after a strike that opens it. -/
theorem strikeValve_point_closed (h : (s.point v).valve.state = .closed) :
    ((strikeValve v s).point v).drive.commanded = some .opened ∧
      ((strikeValve v s).point v).valve =
        { (s.point v).valve with
          state := .opened, holdAt := some (after s.clock (s.point v).cfg.holdMs), opens := bump (s.point v).valve.opens
          feedbackAt := ((strikeValve v s).point v).valve.feedbackAt
          faulted := ((strikeValve v s).point v).valve.faulted } := by
  refine ⟨(strikeValve_commanded v s).trans (if_neg (ne_of_eq_of_ne h (by decide))), ?_⟩
  have hvalve := strikeValve_valve v s
  rw [Valve.struck_closed h] at hvalve
  exact hvalve

theorem strikeValve_point_recovering (h : (s.point v).valve.state = .recovering) :
    ((strikeValve v s).point v).drive.commanded = some .opened ∧
      ((strikeValve v s).point v).valve =
        { (s.point v).valve with
          state := .opened, recoveryAt := none, holdAt := some (after s.clock (s.point v).cfg.holdMs)
          opens := bump (s.point v).valve.opens, reopens := bump (s.point v).valve.reopens
          feedbackAt := ((strikeValve v s).point v).valve.feedbackAt
          faulted := ((strikeValve v s).point v).valve.faulted } := by
  refine ⟨(strikeValve_commanded v s).trans (if_neg (ne_of_eq_of_ne h (by decide))), ?_⟩
  have hvalve := strikeValve_valve v s
  rw [Valve.struck_recovering h] at hvalve
  exact hvalve

/-- R64: the counting of a strike, by the valve's line. -/
theorem countStrike_eq : countStrike v s = match (s.point v).cfg.line with
    | some k => s.modLine k fun r => { r with strikes := bump r.strikes }
    | none => s := by
  unfold countStrike
  cases (s.point v).cfg.line <;> rfl

/-- R60: a strike by the valve's state, `u` being the part once the strike is counted. -/
theorem strikeValve_states {u : State} (hu : countStrike v s = u) :
    let r := (s.point v).valve
    let hold := after s.clock (s.point v).cfg.holdMs
    (r.state = .closed →
      strikeValve v s =
        commandValve v .opened
          (u.modPoint v fun p =>
            { p with valve := { p.valve with state := .opened, holdAt := some hold, opens := bump p.valve.opens } })) ∧
    (r.state = .opened →
      strikeValve v s =
        u.modPoint v fun p =>
          { p with valve := { p.valve with holdAt := some (match r.holdAt with | some h => later h hold | none => hold) } }) ∧
    (r.state = .recovering →
      strikeValve v s =
        notify .valveFault v.val 0
          (commandValve v .opened
            (u.modPoint v fun p =>
              { p with
                valve :=
                  { p.valve with
                    state := .opened, recoveryAt := none, holdAt := some hold, opens := bump p.valve.opens
                    reopens := bump p.valve.reopens } }))) := by
  subst hu
  exact ⟨strikeValve_closed, fun hst => strikeValve_opened hst rfl, strikeValve_recovering⟩

/-! ## The strike that fires (R51, R56) -/

/-- R51, R56: the strike's valve takes it, and its record becomes Struck unless the strike is detached. -/
def fireStrike (e : Strike) (s : State) : State :=
  if e.detached then strikeValve e.valve s else reportFired e.line e.track (strikeValve e.valve s)

theorem strikeFires_due {e : Strike} {rest : List Strike} (ha : s.active = true) (hl : s.strikes = e :: rest)
    (hr : reached s.clock e.fire = true) : strikeFires s = fireStrike e { s with strikes := rest } := by
  unfold strikeFires
  rw [hl]
  exact if_pos (by rw [ha, hr]; rfl)

theorem fireStrike_point (e : Strike) (s : State) (j : PointIx) : (fireStrike e s).point j = (strikeValve e.valve s).point j := by
  unfold fireStrike
  split <;> rfl

/-- The part but for lines: what a firing strike leaves is what its valve's strike leaves. -/
theorem fireStrike_rest (e : Strike) (s : State) :
    (fireStrike e s).strikes = s.strikes ∧ (fireStrike e s).doors = s.doors ∧ (fireStrike e s).groups = s.groups ∧
      (fireStrike e s).trips = s.trips := by
  have hrest := (strikeValve_openWork e.valve s).rest
  have hfire : (fireStrike e s).strikes = (strikeValve e.valve s).strikes ∧
      (fireStrike e s).doors = (strikeValve e.valve s).doors ∧ (fireStrike e s).groups = (strikeValve e.valve s).groups ∧
      (fireStrike e s).trips = (strikeValve e.valve s).trips := by
    unfold fireStrike
    split <;> exact ⟨rfl, rfl, rfl, rfl⟩
  rw [hrest] at hfire
  exact hfire

theorem fireStrike_line (e : Strike) (s : State) (k : LineIx) :
    (fireStrike e s).line k =
      { s.line k with
        strikes := if (s.point e.valve).cfg.line = some k then bump (s.line k).strikes else (s.line k).strikes
        tracks :=
          if k = e.line ∧ e.detached = false then
            (s.line k).tracks.map fun x =>
              if x.number = e.track ∧ x.state = .inFlight then { x with state := .struck } else x
          else (s.line k).tracks } := by
  have hstrike : (strikeValve e.valve s).line k =
      { s.line k with
        strikes := if (s.point e.valve).cfg.line = some k then bump (s.line k).strikes else (s.line k).strikes } := by
    rw [strikeValve_line]
    split <;> rfl
  unfold fireStrike
  cases hd : e.detached with
  | true =>
    rw [if_pos rfl, if_neg fun h => Bool.noConfusion h.2]
    exact hstrike
  | false =>
    rw [if_neg Bool.false_ne_true, reportFired, State.line_modLine_if]
    by_cases hk : k = e.line
    · rw [if_pos hk, if_pos ⟨hk, rfl⟩, ← hk, hstrike]
    · rw [if_neg hk, if_neg fun h => hk h.1, hstrike]

/-! ## Strike requests (R52 to R55) -/

variable {l : LineIx} {n : Cyc} {w : PointIx} {rest : List PointIx} {fire : Time}

/-- R54: a late request strikes now and counts. -/
def strikeLate (l : LineIx) (n : Cyc) (v : PointIx) (s : State) : State :=
  reportFired l n ((strikeValve v s).modLine l fun r => { r with late := bump r.late })

def insertRequest (l : LineIx) (n : Cyc) (v : PointIx) (fire : Time) (s : State) : State :=
  { s with strikes := insertStrike { fire := fire, valve := v, line := l, track := n, detached := false } s.strikes }

theorem requestStrike_late_last (h : reached s.clock fire = true) :
    requestStrike l n [v] fire s = strikeLate l n v s := by
  rw [requestStrike]
  exact if_pos h

theorem requestStrike_late (h : reached s.clock fire = true) :
    requestStrike l n (v :: w :: rest) fire s =
      requestStrike l n (w :: rest) (onwardFire l v w fire (strikeLate l n v s)) (strikeLate l n v s) := by
  rw [requestStrike]
  exact if_pos h

theorem requestStrike_full (h : reached s.clock fire = false) (hf : 32 ≤ s.strikes.length) :
    requestStrike l n (v :: rest) fire s =
      reportFired l n ((strikeValve v s).modLine l fun r => { r with early := bump r.early }) := by
  rw [requestStrike]
  exact (if_neg (Bool.eq_false_iff.1 h)).trans (if_pos hf)

theorem requestStrike_normal (h : reached s.clock fire = false) (hf : s.strikes.length < 32)
    (hv : (s.point v).valve.faulted = false) :
    requestStrike l n (v :: rest) fire s = insertRequest l n v fire s := by
  rw [requestStrike]
  exact (if_neg (Bool.eq_false_iff.1 h)).trans ((if_neg (Nat.not_le.2 hf)).trans (if_neg (Bool.eq_false_iff.1 hv)))

theorem requestStrike_faulted_last (h : reached s.clock fire = false) (hf : s.strikes.length < 32)
    (hv : (s.point v).valve.faulted = true) : requestStrike l n [v] fire s = insertRequest l n v fire s := by
  rw [requestStrike]
  exact (if_neg (Bool.eq_false_iff.1 h)).trans ((if_neg (Nat.not_le.2 hf)).trans (if_pos hv))

theorem requestStrike_faulted (h : reached s.clock fire = false) (hf : s.strikes.length < 32)
    (hv : (s.point v).valve.faulted = true) :
    requestStrike l n (v :: w :: rest) fire s =
      requestStrike l n (w :: rest) (onwardFire l v w fire s) (insertRequest l n v fire s) := by
  rw [requestStrike]
  exact (if_neg (Bool.eq_false_iff.1 h)).trans ((if_neg (Nat.not_le.2 hf)).trans (if_pos hv))

/-- R52: the onward fire time reads nothing that a strike changes. -/
theorem onwardFire_strikeLate : onwardFire l v w fire (strikeLate l n v s) = onwardFire l v w fire s := by
  have hopen := strikeValve_openWork v s
  have hcfg : ∀ i, ((strikeLate l n v s).point i).cfg = (s.point i).cfg := hopen.cfg
  have hspeed : ((strikeLate l n v s).line l).speed = (s.line l).speed := by
    rw [strikeLate, reportFired, State.line_modLine, State.line_modLine, hopen.line l]
  unfold onwardFire
  rw [hcfg, hcfg, hspeed]

/-- R53: an entry is inserted behind every entry that is not later. -/
theorem insertStrike_split (e : Strike) (es : List Strike) :
    ∃ before behind, es = before ++ behind ∧ insertStrike e es = before ++ e :: behind ∧
      (∀ x ∈ before, reached e.fire x.fire = true) ∧ ∀ x, behind.head? = some x → reached e.fire x.fire = false := by
  induction es with
  | nil => exact ⟨[], [], rfl, rfl, nofun, nofun⟩
  | cons x xs ih =>
    rw [insertStrike]
    by_cases hx : reached e.fire x.fire = true
    · obtain ⟨before, behind, hxs, hinsert, hbefore, hbehind⟩ := ih
      refine ⟨x :: before, behind, by rw [hxs, List.cons_append], by rw [if_pos hx, hinsert, List.cons_append], ?_, hbehind⟩
      exact List.forall_mem_cons.2 ⟨hx, hbefore⟩
    · refine ⟨[], x :: xs, rfl, if_neg hx, nofun, fun y hy => ?_⟩
      obtain rfl := Option.some.inj hy
      exact Bool.eq_false_iff.2 hx

end

end Sys2Proof.Machine

namespace Sys2Proof
open Machine

/-- Settles O49: the strike that fires, requests by their cases, and a strike by its valve's state. -/
theorem strikeFires : Obligations.StrikeFires := by
  refine ⟨fun s e rest ha hl hr => ?fires, fun s l n v rest fire => ?requests⟩
  case fires =>
    obtain ⟨hstrikes, hdoors, hgroups, htrips⟩ := fireStrike_rest e { s with strikes := rest }
    refine ⟨_, congrArg Host.Outcome.next (strikeFires_due ha hl hr), hstrikes, ?_, fun j hj => ?_, fun k => ?_, hdoors,
      hgroups, htrips⟩
    · rw [fireStrike_point]
      refine ⟨strikeValve_point_closed (s := { s with strikes := rest }), fun hst => ?opened,
        strikeValve_point_recovering (s := { s with strikes := rest })⟩
      obtain ⟨hdrive, hrecord⟩ := strikeValve_point_opened (s := { s with strikes := rest }) hst
      refine ⟨hdrive, hrecord.trans ?_⟩
      have hpoint : State.point { s with strikes := rest } e.valve = s.point e.valve := rfl
      rewrite [hpoint]
      cases (s.point e.valve).valve.holdAt <;> rfl
    · rw [fireStrike_point]
      exact strikeValve_point_ne _ _ _ hj
    · exact fireStrike_line e { s with strikes := rest } k
  case requests =>
    refine ⟨rfl, fun h => ⟨requestStrike_late_last h, fun w => ?onward⟩, requestStrike_full, requestStrike_normal,
      fun h hf hv => ⟨requestStrike_faulted_last h hf hv, fun w => requestStrike_faulted h hf hv⟩, insertStrike_split, ?states⟩
    case onward =>
      rw [requestStrike_late h, onwardFire_strikeLate]
      rfl
    case states =>
      have hcount := countStrike_eq (s := s) (v := v)
      cases hline : (s.point v).cfg.line with
      | none =>
        rw [hline] at hcount
        exact strikeValve_states hcount
      | some k =>
        rw [hline] at hcount
        exact strikeValve_states hcount

end Sys2Proof
end

