-- ==== Sys2Proof/Proofs/Valves.lean ====
section
/-! PROOFS. A valve's deadlines and the test of its reported state (R61 to R63). -/

namespace Sys2Proof.Machine

section
variable {s : State} {v : PointIx} {before : Bool}

/-! ## The test of the reported state (R62) -/

/-- R62: the record differs from what its valve was commanded. -/
def State.valveDiffers (s : State) (v : PointIx) : Prop :=
  ∃ c, (s.point v).drive.commanded = some c ∧
    ∀ code, (s.point v).drive.reported = some code → c.matchedBy s.clock (s.point v).drive.lastCommand code = false

theorem State.valveDisagrees_of_differs (h : s.valveDiffers v) : s.valveDisagrees v = true := (s.valveDisagrees_iff v).2 h

theorem State.valveDisagrees_false (h : ¬s.valveDiffers v) : s.valveDisagrees v = false :=
  Bool.eq_false_iff.2 fun hd => h ((s.valveDisagrees_iff v).1 hd)

theorem testValve_begins (h : s.valveDiffers v) (hm : s.mode = .protect) (hb : before = false)
    (hf : (s.point v).valve.feedbackAt = none) :
    testValve before v s =
      s.modPoint v fun p => { p with valve := { p.valve with feedbackAt := some (after s.clock p.cfg.feedbackMs) } } := by
  unfold testValve
  rw [if_pos (State.valveDisagrees_of_differs h), if_pos ⟨hm, hb, hf⟩, State.modValve_eq]
  exact State.modPoint_congr rfl

theorem testValve_stands (h : s.valveDiffers v)
    (hno : s.mode ≠ .protect ∨ before = true ∨ (s.point v).valve.feedbackAt ≠ none) : testValve before v s = s := by
  unfold testValve
  rw [if_pos (State.valveDisagrees_of_differs h), if_neg]
  rintro ⟨hm, hb, hf⟩
  obtain hne | hbefore | hset := hno
  · exact hne hm
  · rw [hb] at hbefore
    cases hbefore
  · exact hset hf

theorem testValve_agrees (h : ¬s.valveDiffers v) (hb : before = false) : testValve before v s = s := by
  unfold testValve
  rw [if_neg (Bool.eq_false_iff.1 (State.valveDisagrees_false h)), hb]
  rfl

theorem testValve_ends (h : ¬s.valveDiffers v) (hb : before = true) :
    testValve before v s =
      if (s.point v).valve.faulted then
        notify .valveFault v.val 2
          (s.modPoint v fun p => { p with valve := { p.valve with feedbackAt := none, faulted := false } })
      else s.modPoint v fun p => { p with valve := { p.valve with feedbackAt := none, faulted := false } } := by
  unfold testValve
  rw [if_neg (Bool.eq_false_iff.1 (State.valveDisagrees_false h)), hb, State.modValve_eq]
  rfl

/-- R63: an Open report of a valve that is Closed and was not commanded Open. -/
def State.opensAlone (s : State) (v : PointIx) : Prop :=
  (s.point v).drive.reported = some .opened ∧ (s.point v).valve.state = .closed ∧
    (s.point v).drive.commanded ≠ some .opened

theorem valveReported_alone (h : s.opensAlone v) :
    valveReported before v s =
      testValve before v
        (notify .valveFault v.val 3
          (s.modPoint v fun p => { p with valve := { p.valve with unsolicited := bump p.valve.unsolicited } })) := by
  unfold State.opensAlone at h
  unfold valveReported
  dsimp only
  rw [if_pos h, State.modValve_eq]

theorem valveReported_commanded (h : ¬s.opensAlone v) : valveReported before v s = testValve before v s := by
  unfold State.opensAlone at h
  unfold valveReported
  dsimp only
  rw [if_neg h]

/-! ## The deadlines (R61, R62) -/

/-- R61: the valve's record at its hold deadline. -/
def Valve.holdEnded (r : Valve) (recoveryMs : Nat) (now : Time) : Valve :=
  if 0 < recoveryMs then { r with state := .recovering, holdAt := none, recoveryAt := some (after now recoveryMs) }
  else { r with state := .closed, holdAt := none }

theorem exec_holdDeadline_due (ha : s.active = true) (hst : (s.point v).valve.state = .opened)
    (hd : due s.clock (s.point v).valve.holdAt = true) :
    exec (.holdDeadline v) s =
      .next (commandValve v .closed (s.modValve v fun r => r.holdEnded (s.point v).cfg.recoveryMs s.clock)) := by
  refine congrArg Host.Outcome.next (if_pos ?_)
  rw [ha, hst, hd]
  rfl

theorem exec_recoveryDeadline_due (ha : s.active = true) (hst : (s.point v).valve.state = .recovering)
    (hd : due s.clock (s.point v).valve.recoveryAt = true) :
    exec (.recoveryDeadline v) s =
      .next (s.modPoint v fun p =>
        { p with valve := { (s.point v).valve with state := .closed, recoveryAt := none } }) := by
  refine congrArg Host.Outcome.next ((if_pos ?_).trans ?_)
  · rw [ha, hst, hd]
    rfl
  · rw [State.modValve_eq]
    exact State.modPoint_congr rfl

theorem feedbackEnds_due (hm : s.mode = .protect) (hd : due s.clock (s.point v).valve.feedbackAt = true) :
    feedbackEnds v s =
      if (s.valveDisagrees v && !(s.point v).valve.faulted) = true then
        notify .valveFault v.val 1
          (s.modPoint v fun p => { p with valve := { (s.point v).valve with feedbackAt := none, faulted := true } })
      else s.modPoint v fun p => { p with valve := { (s.point v).valve with feedbackAt := none } } := by
  have hcleared : (s.modValve v fun r => { r with feedbackAt := none }) =
      s.modPoint v fun p => { p with valve := { (s.point v).valve with feedbackAt := none } } := by
    rw [State.modValve_eq]
    exact State.modPoint_congr rfl
  have hfaulted : ((s.modValve v fun r => { r with feedbackAt := none }).modValve v fun r => { r with faulted := true }) =
      s.modPoint v fun p => { p with valve := { (s.point v).valve with feedbackAt := none, faulted := true } } := by
    rw [State.modValve_eq, State.modValve_eq, State.modPoint_modPoint]
    exact State.modPoint_congr rfl
  unfold feedbackEnds
  dsimp only
  rw [hm, hd, hfaulted, hcleared]
  rfl

end

/-- Settles O50: the three deadlines, and the test of a command or a report case by case. -/
theorem valveDeadlines : Obligations.ValveDeadlines := by
  refine ⟨fun s v => ⟨fun ha hst hd => ?hold, exec_recoveryDeadline_due, fun hm hd => ⟨fun hdiffers hf => ?faults,
    fun hno => ?cleared⟩⟩, fun s v before => ⟨s.valveDisagrees_iff v, testValve_begins, testValve_stands, testValve_agrees,
      testValve_ends, fun q => rfl, valveReported_alone, valveReported_commanded⟩⟩
  case hold =>
    have hdrive : DriveOnly (fun k => k = v)
        (s.modValve v fun r => r.holdEnded (s.point v).cfg.recoveryMs s.clock) _ :=
      commandValve_driveOnly (r := .closed) rfl (.refl _)
    obtain ⟨hcommanded, hvalve⟩ :=
      commandValve_valve v .closed (s.modValve v fun r => r.holdEnded (s.point v).cfg.recoveryMs s.clock)
    rw [State.point_modValve] at hvalve
    refine ⟨_, exec_holdDeadline_due ha hst hd, hcommanded, hvalve.trans ?_, fun j hj => ?_, hdrive.lines, hdrive.strikes,
      hdrive.doors, hdrive.groups, ?_⟩
    · unfold Valve.holdEnded
      split <;> rfl
    · rw [hdrive.point j hj, State.modValve_eq, State.point_modPoint_ne _ _ _ _ hj]
    · rw [hdrive.rest]
      rfl
  case faults =>
    refine congrArg Host.Outcome.next ((feedbackEnds_due hm hd).trans (if_pos ?_))
    rw [State.valveDisagrees_of_differs hdiffers, hf]
    rfl
  case cleared =>
    refine congrArg Host.Outcome.next ((feedbackEnds_due hm hd).trans (if_neg ?_))
    rw [Bool.and_eq_true]
    rintro ⟨hdisagrees, hfree⟩
    obtain hagrees | hfaulted := hno
    · exact hagrees ((s.valveDisagrees_iff v).1 hdisagrees)
    · rw [hfaulted] at hfree
      cases hfree

end Sys2Proof.Machine
end

