-- ==== Sys2Proof/Proofs/Faults.lean ====
section
/-! PROOFS. The fault counts of the zones (R77, R78): O60. -/

namespace Sys2Proof.Machine

/-- What each zone's update keeps, the recount keeps. -/
theorem recountFaults_keeps {P : State → Prop} {s : State} (hs : P s)
    (hP : ∀ z n u, P u → P (updateFaults z n u)) : P (recountFaults s) := by
  unfold recountFaults
  dsimp only
  split
  · generalize List.finRange 32 = l
    refine List.foldlRecOn l _ hs fun u hu z _ => hP z _ u hu
  · exact hs

/-- R78: an update of a zone's fault count leaves the lines, doors and groups, and every zone's level. -/
theorem updateFaults_rest (z : ZoneIx) (n : Nat) (u : State) :
    (updateFaults z n u).lines = u.lines ∧ (updateFaults z n u).doors = u.doors ∧
      (updateFaults z n u).groups = u.groups ∧ ∀ y, ((updateFaults z n u).zone y).level = (u.zone y).level := by
  unfold updateFaults
  split
  · exact ⟨rfl, rfl, rfl, fun _ => rfl⟩
  · refine ⟨rfl, rfl, rfl, fun y => ?_⟩
    have hzone : ∀ v : State, (notify .zoneFault z.val n v).zone y = v.zone y := fun _ => rfl
    rw [hzone, State.zone_modZone_if]
    split
    · next hy => rw [hy]
    · rfl

theorem recountFaults_active {s : State} (ha : s.active = true) :
    recountFaults s = (List.finRange 32).foldl (fun t z => updateFaults z (s.faultCount z) t) s := by
  unfold recountFaults
  exact if_pos ha

theorem recountFaults_inactive {s : State} (ha : s.active = false) : recountFaults s = s := by
  unfold recountFaults
  exact if_neg (by simp [ha])

/-- R77: the three contributions to a zone's count, each counted over the whole table. -/
theorem State.faultCount_eq (s : State) (z : ZoneIx) :
    s.faultCount z =
      ((List.finRange 256).filter fun i =>
          ((s.point i).cfg.used && (s.point i).drive.faulty) && s.countsIn i z).length +
        ((List.finRange 24).filter fun d => (s.door d).state == .jammed && (s.door d).borders z).length +
        (if s.port.upstreamLost then 1 else 0) := by
  unfold State.faultCount State.faultSum State.faultyPoints State.jammedDoors allPoints
  rw [List.filter_filter, List.filter_filter]
  simp only [Bool.and_comm]

/-- Settles O60. -/
theorem faultsCounted : Obligations.FaultsCounted := by
  intro s flagged jammed count
  have hflagged : ∀ z i, flagged z i = (((s.point i).cfg.used && (s.point i).drive.faulty) && s.countsIn i z) := by
    intro z i
    refine congrArg ((s.point i).cfg.used && (s.point i).drive.faulty && ·) ?_
    unfold State.countsIn
    dsimp only
    cases (s.point i).cfg.kind <;> rfl
  have hcount : ∀ z, s.faultCount z = count z := fun z => by
    rw [State.faultCount_eq]
    simp only [← hflagged]
    rfl
  have hkept := recountFaults_keeps (s := s)
    (P := fun u => u.lines = s.lines ∧ u.doors = s.doors ∧ u.groups = s.groups ∧
      ∀ y, (u.zone y).level = (s.zone y).level)
    ⟨rfl, rfl, rfl, fun _ => rfl⟩ fun z n u ⟨hlines, hdoors, hgroups, hlevel⟩ => by
      obtain ⟨kl, kd, kg, kz⟩ := updateFaults_rest z n u
      exact ⟨kl.trans hlines, kd.trans hdoors, kg.trans hgroups, fun y => (kz y).trans (hlevel y)⟩
  obtain ⟨hlines, hdoors, hgroups, hlevel⟩ := hkept
  refine ⟨fun ha => ⟨?_, fun z => ?_, fun hsame => ?_⟩, recountFaults_inactive, fun z =>
    ⟨recountFaults_points s, hlines, hdoors, hgroups, hlevel z⟩⟩
  · rw [recountFaults_active ha]
    simp only [hcount]
    exact List.foldl_ext _ _ _ fun _ _ _ => rfl
  · rw [recountFaults_active ha, updateFaults_fold s.faultCount _ (List.nodup_finRange 32) s z,
      if_pos (List.mem_finRange z)]
    exact hcount z
  · rw [recountFaults_active ha]
    exact updateFaults_fold_same s.faultCount _ s fun z => (hsame z).trans (hcount z).symm

end Sys2Proof.Machine
end

