-- ==== Sys2Proof/Proofs/Drives.lean ====
section
/-! PROOFS. Commands, their frames and the stop claims (R144, R145), and the deadlines of a drive record (R147 to R150):
O59, O58. -/

namespace Sys2Proof.Machine

/-! ## Issuing a command (R144, R183) -/

section
variable {s : State} {i : PointIx} {r : Requested}

/-- The frame of a command is the one built before the command is recorded. -/
theorem commandFrame_recordCommand (s : State) (i : PointIx) (r : Requested) :
    commandFrame (recordCommand i r s) i r = commandFrame s i r := by
  unfold commandFrame recordCommand
  rw [State.point_modDrive]
  exact rfl

theorem issue_local (h : s.isLocal i = true) :
    issue i r s =
      syncPins (if s.mode = .observe then withhold i (recordCommand i r s) else recordCommand i r s) := by
  unfold issue
  exact if_pos h

theorem issue_loop_resting (h : s.isLocal i = false) (hm : s.mode = .bypass ∨ s.mode = .loading) :
    issue i r s = recordCommand i r s := by
  unfold issue
  dsimp only
  rw [if_neg (by rw [h]; decide)]
  obtain hm | hm := hm
  · rw [hm]
  · rw [hm]

theorem issue_loop_observe (h : s.isLocal i = false) (hm : s.mode = .observe) :
    issue i r s = withhold i (recordCommand i r s) := by
  unfold issue
  dsimp only
  rw [if_neg (by rw [h]; decide), hm]

theorem issue_loop_protect (h : s.isLocal i = false) (hm : s.mode = .protect) :
    issue i r s = testDisagreement true i (joinUrgent (commandFrame s i r) (recordCommand i r s)) := by
  unfold issue
  dsimp only
  rw [if_neg (by rw [h]; decide), hm, commandFrame_recordCommand]

end

/-- R183: the payload of a command that is one code. -/
theorem commandFrame_drive {r : Requested} {code : Byte} (s : State) (i : PointIx)
    (h : (r, code) ∈ [(Requested.opened, 1#8), (.closed, 2), (.normal, 3), (.divert, 4), (.stop, 5), (.permit, 6),
      (.hold, 7), (.release, 8)]) :
    commandFrame s i r =
      { dst := (s.point i).cfg.station, src := s.device.own, kind := 7, channel := (s.point i).cfg.channel
        payload := [code] } := by
  simp only [List.mem_cons, List.not_mem_nil, or_false, Prod.mk.injEq] at h
  rcases h with ⟨rfl, rfl⟩ | ⟨rfl, rfl⟩ | ⟨rfl, rfl⟩ | ⟨rfl, rfl⟩ | ⟨rfl, rfl⟩ | ⟨rfl, rfl⟩ | ⟨rfl, rfl⟩ | ⟨rfl, rfl⟩ <;>
    rfl

/-- The channel of the Replies and Notices is one of the 16 of a header (log 9). -/
theorem managementChannel_le : (BitVec.ofNat 8 Config.managementChannel.val).toNat ≤ 15 := by
  rw [BitVec.toNat_ofNat]
  omega

/-! ## Stop claims (R145) -/

section
variable {s : State} {i : PointIx} {m : Claim}

theorem addClaim_held (h : m ∈ (s.point i).drive.claims) : addClaim m i s = s := by
  unfold addClaim
  exact if_pos h

theorem addClaim_new (h : m ∉ (s.point i).drive.claims) :
    addClaim m i s =
      if (s.point i).drive.claims.isEmpty then issue i .stop (s.modDrive i fun d => { d with claims := d.claims ++ [m] })
      else s.modDrive i fun d => { d with claims := d.claims ++ [m] } := by
  unfold addClaim
  exact if_neg h

theorem removeClaim_absent (h : m ∉ (s.point i).drive.claims) : removeClaim m i s = s := by
  unfold removeClaim
  exact if_neg h

theorem removeClaim_held (h : m ∈ (s.point i).drive.claims) :
    removeClaim m i s =
      if ((s.point i).drive.claims.filter (· != m)).isEmpty then
        issue i .permit (s.modDrive i fun d => { d with claims := d.claims.filter (· != m) })
      else s.modDrive i fun d => { d with claims := d.claims.filter (· != m) } := by
  unfold removeClaim
  exact if_pos h

/-- The claim set of a point written as the set it had with one claim more. -/
theorem State.modDrive_added (s : State) (i : PointIx) (m : Claim) :
    (s.modDrive i fun d => { d with claims := d.claims ++ [m] }) =
      s.modPoint i fun p => { p with drive := { p.drive with claims := (s.point i).drive.claims ++ [m] } } :=
  State.modPoint_congr rfl

theorem State.modDrive_removed (s : State) (i : PointIx) (m : Claim) :
    (s.modDrive i fun d => { d with claims := d.claims.filter (· != m) }) =
      s.modPoint i fun p =>
        { p with drive := { p.drive with claims := (s.point i).drive.claims.filter (· != m) } } :=
  State.modPoint_congr rfl

end

/-- Settles O59. -/
theorem commandIssued : Obligations.CommandIssued := by
  refine ⟨fun s i r => ⟨issue_local, issue_loop_resting, issue_loop_observe, issue_loop_protect,
      fun code => commandFrame_drive s i, fun on off cycles tone hr => ?_, fun hr => ?_, fun m =>
      ⟨addClaim_held, fun hm hne => ?_, fun hnil => ?_, removeClaim_absent, fun hm hne => ?_, fun hm hnil => ?_⟩⟩,
    ⟨BitVec.ofNat 8 Config.managementChannel.val, managementChannel_le, fun s => ⟨fun rq code position data => ⟨rfl, rfl⟩,
      fun kind object value => ⟨rfl, rfl⟩⟩⟩,
    ⟨rfl, rfl, rfl, rfl, rfl⟩, fun s => ⟨syncPins_pinsFollow s, rfl⟩⟩
  · rw [hr]
    exact rfl
  · rw [hr]
    exact rfl
  · rw [addClaim_new hm, if_neg (by simpa using hne), State.modDrive_added]
  · rw [addClaim_new (by rw [hnil]; simp), if_pos (by rw [hnil]; rfl), State.modDrive_added]
  · rw [removeClaim_held hm, if_neg (by simpa using hne), State.modDrive_removed]
  · rw [removeClaim_held hm, if_pos (List.isEmpty_iff.2 hnil), State.modDrive_removed]

/-! ## Disagreement (R147 to R149) -/

section
variable {s : State} {i : PointIx}

/-- R147: the commanded state `r` of the record is reconciled and its reported state does not match. -/
def State.driveDiffers (s : State) (i : PointIx) (r : Requested) : Prop :=
  (s.point i).drive.commanded = some r ∧ r.reconciled = true ∧
    ∀ code, (s.point i).drive.reported = some code → r.matchedBy s.clock (s.point i).drive.lastCommand code = false

theorem State.inDisagreement_of_differs {r : Requested} (hl : s.isLoop i = true) (h : s.driveDiffers i r) :
    s.inDisagreement i = true := by
  unfold State.inDisagreement
  rw [hl, Bool.true_and]
  exact (Drive.disagrees_iff _ _).2 ⟨r, h⟩

theorem State.inDisagreement_false (h : ∀ r, ¬s.driveDiffers i r) : s.inDisagreement i = false := by
  unfold State.inDisagreement
  rw [Bool.and_eq_false_iff]
  refine Or.inr (Bool.eq_false_iff.2 fun hd => ?_)
  obtain ⟨r, hr⟩ := (Drive.disagrees_iff _ _).1 hd
  exact h r hr

theorem testDisagreement_unprotected {b : Bool} (hm : s.mode ≠ .protect) : testDisagreement b i s = s := by
  unfold testDisagreement
  exact if_neg fun h => hm h.1

theorem testDisagreement_ends {b : Bool} (hm : s.mode = .protect) (hl : s.isLoop i = true)
    (h : ∀ r, ¬s.driveDiffers i r) : testDisagreement b i s = endDisagreement i s := by
  unfold testDisagreement
  rw [if_pos ⟨hm, hl⟩, if_neg (by rw [State.inDisagreement_false h]; decide)]

theorem testDisagreement_begins {b : Bool} {r : Requested} (hm : s.mode = .protect) (hl : s.isLoop i = true)
    (h : s.driveDiffers i r) (hrep : (s.point i).drive.repeatAt = none) :
    testDisagreement b i s = beginDisagreement i s := by
  unfold testDisagreement
  rw [if_pos ⟨hm, hl⟩, if_pos (State.inDisagreement_of_differs hl h), if_pos (by rw [hrep]; rfl)]

theorem testDisagreement_goesOn {b : Bool} {r : Requested} (hm : s.mode = .protect) (hl : s.isLoop i = true)
    (h : s.driveDiffers i r) (hrep : (s.point i).drive.repeatAt ≠ none) :
    testDisagreement b i s =
      if b then s.modDrive i fun d => { d with repeatAt := some (after s.clock Config.repeatInterval) } else s := by
  unfold testDisagreement
  rw [if_pos ⟨hm, hl⟩, if_pos (State.inDisagreement_of_differs hl h), if_neg (by simpa using hrep)]

/-- R147: of the reconciled states Disagree leaves out Release alone. -/
theorem Requested.flagged_iff {r : Requested} (h : r.reconciled = true) : r.flagged = true ↔ r ≠ .release := by
  cases r with
  | permit | hold | outOn | outOff => exact absurd h (by decide)
  | release => decide
  | opened | closed | normal | divert | stop | quiet | sounding on off cycles tone => simp [Requested.flagged]

theorem beginDisagreement_eq {r : Requested} (h : s.driveDiffers i r) :
    beginDisagreement i s =
      s.modPoint i fun p =>
        { p with
          drive :=
            { p.drive with
              repeatAt := some (s.clock + 1000#32)
              disagreeAt := if r = .release then none else some (after s.clock p.cfg.feedbackMs) } } := by
  obtain ⟨hcmd, hrec, -⟩ := h
  unfold beginDisagreement
  rw [State.modDrive_eq]
  refine State.modPoint_congr ?_
  simp only [hcmd]
  by_cases hrel : r = .release
  · rw [if_neg (fun hf => (Requested.flagged_iff hrec).1 hf hrel), if_pos hrel]
    exact rfl
  · rw [if_pos ((Requested.flagged_iff hrec).2 hrel), if_neg hrel]
    exact rfl

/-- R147, R148: a reported state that does not match a command sent earlier does not match the command sent now. -/
theorem Requested.matchedBy_resent {r : Requested} {now t : Time} {code : Code}
    (h : r.matchedBy now (some t) code = false) : r.matchedBy now (some now) code = false := by
  have hnow : elapsed now now ≤ elapsed now t := by unfold elapsed; simp
  cases r with
  | sounding on off cycles tone =>
    simp only [Requested.matchedBy, Bool.or_eq_false_iff, Bool.and_eq_false_iff, decide_eq_false_iff_not] at h ⊢
    exact ⟨h.1, h.2.imp_right fun hlen hle => hlen (hle.trans hnow)⟩
  | opened | closed | normal | divert | stop | permit | hold | release | quiet | outOn | outOff => exact h

/-- R148: a record whose command `r` is issued again at `now`, before the test that follows. -/
def Point.resent (now : Time) (r : Requested) (p : Point) : Point :=
  { p with
    drive := { p.drive with repeats := bump p.drive.repeats, commanded := some r, lastCommand := some now } }

theorem recordCommand_resent (s : State) (i : PointIx) (r : Requested) :
    recordCommand i r (s.modDrive i fun d => { d with repeats := bump d.repeats }) =
      s.modPoint i (Point.resent s.clock r) := by
  unfold recordCommand
  rw [State.modDrive_eq, State.modDrive_eq, State.modPoint_modPoint]
  exact rfl

/-- A change of a record outside its configuration leaves which points are on the loop. -/
theorem State.isLoop_modPoint {f : Point → Point} (hf : (f (s.point i)).cfg = (s.point i).cfg) :
    (s.modPoint i f).isLoop i = s.isLoop i := by
  unfold State.isLoop
  rw [State.point_modPoint, hf]
  exact rfl

theorem State.driveDiffers_resent {r : Requested} (h : s.driveDiffers i r) (htimed : s.commandsTimed) :
    (s.modPoint i (Point.resent s.clock r)).driveDiffers i r := by
  obtain ⟨hcmd, hrec, hdiff⟩ := h
  obtain ⟨sent, hsent⟩ := Option.ne_none_iff_exists'.1 (htimed i (by rw [hcmd]; exact Option.some_ne_none r))
  unfold State.driveDiffers
  rw [State.point_modPoint]
  refine ⟨rfl, hrec, fun code hcode => Requested.matchedBy_resent (t := sent) ?_⟩
  rw [← hsent]
  exact hdiff code hcode

/-- R148: the command goes out again, and the repeat deadline is set one interval on. -/
theorem repeatCommand_eq {r : Requested} (hm : s.mode = .protect) (hl : s.isLoop i = true) (h : s.driveDiffers i r)
    (htimed : s.commandsTimed) (hrep : (s.point i).drive.repeatAt ≠ none) :
    repeatCommand i s =
      (joinUrgent (commandFrame s i r) s).modPoint i fun p =>
        { p with
          drive :=
            { p.drive with
              repeats := bump p.drive.repeats, lastCommand := some s.clock, repeatAt := some (s.clock + 1000#32) } } := by
  have hdiffers := State.driveDiffers_resent h htimed
  obtain ⟨hcmd, -, -⟩ := h
  have hframe : commandFrame (s.modDrive i fun d => { d with repeats := bump d.repeats }) i r = commandFrame s i r := by
    unfold commandFrame
    rw [State.point_modDrive]
    exact rfl
  have hloop : ∀ f : Drive → Drive, (s.modDrive i f).isLoop i = true := fun f => by
    rw [State.modDrive_eq, State.isLoop_modPoint, hl]
    exact rfl
  generalize hw : (joinUrgent (commandFrame s i r) s).modPoint i (Point.resent s.clock r) = w
  have hpoint : w.point i = (s.point i).resent s.clock r := by
    rw [← hw, State.point_modPoint]
    exact rfl
  calc repeatCommand i s
      = issue i r (s.modDrive i fun d => { d with repeats := bump d.repeats }) := by
        unfold repeatCommand
        rw [hcmd]
    _ = testDisagreement true i w := by
        rw [issue_loop_protect (State.isLoop_not_local (hloop _)) hm, recordCommand_resent, hframe, ← hw]
        exact rfl
    _ = w.modDrive i fun d => { d with repeatAt := some (after w.clock Config.repeatInterval) } := by
        refine (testDisagreement_goesOn (r := r) (by rw [← hw]; exact hm) ?_ ?_ ?_).trans (if_pos rfl)
        · rw [← hw, State.isLoop_modPoint rfl]
          exact hl
        · rw [← hw]
          exact hdiffers
        · rw [hpoint]
          exact hrep
    _ = _ := by
        rw [← hw, State.modDrive_eq, State.modPoint_modPoint]
        refine State.modPoint_congr ?_
        unfold Point.resent
        rw [← hcmd]
        exact rfl

/-- R148: a repeat deadline reached in Protect. -/
theorem repeatEnds_due (hm : s.mode = .protect) (hdue : due s.clock (s.point i).drive.repeatAt = true) :
    repeatEnds i s = if s.inDisagreement i then repeatCommand i s else endDisagreement i s := by
  unfold repeatEnds
  exact if_pos (by rw [hm, hdue]; decide)

/-- R149: a disagreement deadline reached in Protect. -/
theorem disagreementEnds_due (hm : s.mode = .protect) (hdue : due s.clock (s.point i).drive.disagreeAt = true) :
    disagreementEnds i s = if s.inDisagreement i then setDisagree i s else endDisagreement i s := by
  unfold disagreementEnds
  exact if_pos (by rw [hm, hdue]; decide)

theorem ne_none_of_due {now : Time} {o : Option Time} (h : due now o = true) : o ≠ none := by
  rintro rfl
  cases h

/-! ## The states that match a command (R147) -/

theorem Requested.matchedBy_plain {r : Requested} {wanted : Code} (now : Time) (sent : Option Time) (code : Code)
    (h : (r, wanted) ∈ [(Requested.opened, Code.opened), (.closed, .closed), (.divert, .diverted), (.normal, .normal),
      (.stop, .stopped), (.release, .closed), (.quiet, .quiet)]) :
    r.reconciled = true ∧ (r.matchedBy now sent code = true ↔ code = wanted) := by
  simp only [List.mem_cons, List.not_mem_nil, or_false, Prod.mk.injEq] at h
  rcases h with ⟨rfl, rfl⟩ | ⟨rfl, rfl⟩ | ⟨rfl, rfl⟩ | ⟨rfl, rfl⟩ | ⟨rfl, rfl⟩ | ⟨rfl, rfl⟩ | ⟨rfl, rfl⟩ <;>
    exact ⟨rfl, beq_iff_eq⟩

theorem Requested.matchedBy_sounding (now : Time) (sent : Option Time) (code : Code) (on off cycles tone : Byte) :
    (Requested.sounding on off cycles tone).matchedBy now sent code = true ↔
      code = .sounding ∨
        (code = .quiet ∧ cycles ≠ 0 ∧
          ∃ t, sent = some t ∧ cycles.toNat * (on.toNat + off.toNat) * 10 ≤ (now - t).toNat) := by
  unfold Requested.matchedBy cadenceLength elapsed
  cases sent <;> simp [and_assoc]

/-! ## Supervision (R150) -/

theorem State.silentFor_of {ms : Nat} (h : (s.point i).drive.unsupervised = true ∨
    ∃ t, (s.point i).drive.lastHeard = some t ∧ ms ≤ elapsed s.clock t) : s.silentFor i ms = true := by
  unfold State.silentFor
  obtain hset | ⟨t, ht, hms⟩ := h
  · simp [hset]
  · simp [ht, hms]

theorem State.pollLapsed_of (h : ∀ t, (s.point i).drive.pollPlaced = some t →
    (s.point i).cfg.supervisionMs / 2 ≤ elapsed s.clock t) : s.pollLapsed i = true := by
  unfold State.pollLapsed Point.pollLapsed
  cases hp : (s.point i).drive.pollPlaced with
  | none => rfl
  | some t => exact decide_eq_true (h t hp)

theorem State.supervised_of (ha : s.active = true) (hl : s.isLoop i = true)
    (hsup : (s.point i).cfg.supervision ≠ none) : s.supervised i = true := by
  unfold State.supervised
  rw [ha, hl, Option.isSome_iff_ne_none.2 hsup]
  rfl

theorem pollDue_silent (hsup : s.supervised i = true) (hsil : s.silentFor i ((s.point i).cfg.supervisionMs / 2) = true)
    (hpoll : s.pollLapsed i = true) :
    pollDue i s =
      (joinRoutine (pollFrame s i) s).modDrive i fun d => { d with pollPlaced := some s.clock } := by
  unfold pollDue
  exact if_pos (by rw [hsup, hsil, hpoll]; rfl)

theorem supervisionEnds_silent (hsup : s.supervised i = true) (hun : (s.point i).drive.unsupervised = false)
    (hsil : s.silentFor i (s.point i).cfg.supervisionMs = true) :
    supervisionEnds i s = recountFaults (s.modDrive i fun d => { d with unsupervised := true }) := by
  unfold supervisionEnds
  exact if_pos (by rw [hsup, hun, hsil]; rfl)

end

/-- Settles O58. -/
theorem driveDeadlines : Obligations.DriveDeadlines := by
  intro s i hl
  refine ⟨fun hm hdue => ⟨fun r hr htimed => ?_, fun hno => ?_⟩, fun hm hdue => ⟨fun r hr => ?_, fun hno => ?_⟩,
    fun hm b => testDisagreement_unprotected hm, fun hm hno b => testDisagreement_ends hm hl hno,
    fun hm r hr => ⟨fun hrep b => ?_, fun hrep => ?_⟩,
    fun now sent code => ⟨fun r wanted => Requested.matchedBy_plain now sent code,
      fun on off cycles tone => ⟨rfl, Requested.matchedBy_sounding now sent code on off cycles tone⟩, by decide⟩,
    fun ha hsup => ⟨fun hsil hpoll => ?_, fun h hun hheard hlim => ?_⟩⟩
  · refine congrArg Host.Outcome.next (?_ : repeatEnds i s = _)
    rw [repeatEnds_due hm hdue, if_pos (State.inDisagreement_of_differs hl hr)]
    exact repeatCommand_eq hm hl hr htimed (ne_none_of_due hdue)
  · refine congrArg Host.Outcome.next (?_ : repeatEnds i s = _)
    rw [repeatEnds_due hm hdue, if_neg (by rw [State.inDisagreement_false hno]; decide)]
    exact rfl
  · refine congrArg Host.Outcome.next (?_ : disagreementEnds i s = _)
    rw [disagreementEnds_due hm hdue, if_pos (State.inDisagreement_of_differs hl hr)]
    exact rfl
  · refine congrArg Host.Outcome.next (?_ : disagreementEnds i s = _)
    rw [disagreementEnds_due hm hdue, if_neg (by rw [State.inDisagreement_false hno]; decide)]
    exact rfl
  · exact (testDisagreement_begins hm hl hr hrep).trans (beginDisagreement_eq hr)
  · exact ⟨testDisagreement_goesOn hm hl hr hrep, testDisagreement_goesOn hm hl hr hrep⟩
  · exact congrArg Host.Outcome.next
      (pollDue_silent (State.supervised_of ha hl hsup) (State.silentFor_of hsil) (State.pollLapsed_of hpoll))
  · exact congrArg Host.Outcome.next
      (supervisionEnds_silent (State.supervised_of ha hl hsup) hun (State.silentFor_of (Or.inr ⟨h, hheard, hlim⟩)))

end Sys2Proof.Machine
end

