-- ==== Sys2Proof/Proofs/SirenTimes.lean ====
section
/-! PROOFS. The deadlines of a siren group: the engine's phases and the end of a cadence (R137, R138): O56. -/

namespace Sys2Proof.Machine

section
variable {s : State} {g : GroupIx}

/-! ## The engine's phases (R137) -/

theorem phaseEnds_due {c : CadenceIx} {d : Time} (ha : s.active = true) (hc : (s.group g).sounding = some c)
    (hd : (s.group g).phaseAt = some d) (hr : reached s.clock d = true) :
    phaseEnds g s = enginePhase g (s.cadence c) d s := by
  unfold phaseEnds
  rw [hd, hc]
  exact if_pos (by rw [ha, hr]; rfl)

/-- R137: the engine commands its outputs and its group takes its next phase; the other groups, the lines and the doors
stand. -/
theorem commandOutputs_turned (s : State) (g : GroupIx) (r : Requested) (f : Group → Group) :
    ((commandOutputs g r s).modGroup g f).group g = f (s.group g) ∧
      (∀ h, h ≠ g → ((commandOutputs g r s).modGroup g f).group h = s.group h) ∧
      ((commandOutputs g r s).modGroup g f).lines = s.lines ∧
      ((commandOutputs g r s).modGroup g f).doors = s.doors ∧
      ∀ i ∈ s.enginePoints g, (((commandOutputs g r s).modGroup g f).point i).drive.commanded = some r := by
  have hdrive := commandOutputs_driveOnly (g := g) (r := r) (.refl s)
  refine ⟨?_, fun h hne => ?_, hdrive.lines, hdrive.doors, commandOutputs_commanded g r s⟩
  · rw [State.group_modGroup, commandOutputs_group]
  · rw [State.group_modGroup_ne _ _ _ _ hne, commandOutputs_group]

/-! ## The end of a cadence (R138) -/

/-- R138: the group with its engine stopped and its loop sirens recorded as Quiet. -/
def endCadence (g : GroupIx) (s : State) : State :=
  (s.loopSirens g).foldl (fun t i => recordQuiet i t) (stopEngine g (s.modGroup g fun r => { r with endAt := none }))

theorem cadenceEnds_due (ha : s.active = true) (hd : due s.clock (s.group g).endAt = true) :
    cadenceEnds g s =
      if (s.group g).phase = .allClear ∨ (s.group g).phase = .test then
        (endCadence g s).modGroup g fun r => { r with sounding := none, phase := .idle }
      else endCadence g s := by
  unfold cadenceEnds
  refine (if_pos (by rw [ha, hd]; rfl)).trans ?_
  cases (s.group g).phase <;> rfl

theorem endCadence_driveOnly (g : GroupIx) (s : State) :
    DriveOnly anyPoint (stopEngine g (s.modGroup g fun r => { r with endAt := none })) (endCadence g s) :=
  foldl_driveOnly (fun _ _ _ hu => recordQuiet_driveOnly trivial hu) (.refl _)

theorem endCadence_group (g h : GroupIx) (s : State) :
    (endCadence g s).group h =
      if h = g then { s.group g with endAt := none, engineOn := false, phaseAt := none } else s.group h := by
  rw [(endCadence_driveOnly g s).group h, stopEngine_group]
  by_cases he : h = g
  · rw [if_pos he, if_pos he, State.group_modGroup]
  · rw [if_neg he, if_neg he, State.group_modGroup_ne _ _ _ _ he]

theorem stopEngine_lines (g : GroupIx) (u : State) : (stopEngine g u).lines = u.lines :=
  (commandOutputs_driveOnly (g := g) (r := .outOff) (.refl u)).lines

theorem stopEngine_doors (g : GroupIx) (u : State) : (stopEngine g u).doors = u.doors :=
  (commandOutputs_driveOnly (g := g) (r := .outOff) (.refl u)).doors

theorem stopEngine_clock (g : GroupIx) (u : State) : (stopEngine g u).clock = u.clock :=
  (commandOutputs_driveOnly (g := g) (r := .outOff) (.refl u)).clock

/-- Stopping the engine leaves the points on the loop: its outputs are local. -/
theorem stopEngine_loopPoint {i : PointIx} {u : State} (hl : u.isLoop i = true) : (stopEngine g u).point i = u.point i :=
  (commandOutputs_on g .outOff u).point i fun hi =>
    Bool.false_ne_true ((State.isLoop_not_local hl).symm.trans (enginePoints_isLocal hi))

/-- R138: each loop siren is recorded as Quiet now, and no command is withheld. -/
theorem endCadence_siren {i : PointIx} (hi : i ∈ s.loopSirens g) :
    ((endCadence g s).point i).drive.commanded = some .quiet ∧
      ((endCadence g s).point i).drive.lastCommand = some s.clock ∧
        ((endCadence g s).point i).drive.withheld = (s.point i).drive.withheld := by
  obtain ⟨hcmd, htime⟩ := recordQuiets_commanded (s.loopSirens g)
    (stopEngine g (s.modGroup g fun r => { r with endAt := none })) i hi
  refine ⟨hcmd, htime.trans (congrArg some (stopEngine_clock g _)), ?_⟩
  unfold endCadence
  rw [recordQuiets_withheld, stopEngine_loopPoint (u := s.modGroup g _) (loopSirens_isLoop (g := g) (s := s) hi)]
  exact rfl

end

/-- Settles O56. -/
theorem sirenDeadlines : Obligations.SirenDeadlines := by
  intro s g ha
  refine ⟨fun c d hc hd hr => ?_, fun hdue => ?_⟩
  · have hexec : exec (.phaseDeadline g) s = .next (enginePhase g (s.cadence c) d s) :=
      congrArg Host.Outcome.next (phaseEnds_due ha hc hd hr)
    unfold enginePhase at hexec
    refine ⟨fun hon hoff => ?_, fun hon hoff => ?_, fun hon => ?_⟩
    · rw [if_pos hon, if_pos hoff] at hexec
      exact hexec
    · rw [if_pos hon, if_neg hoff] at hexec
      exact ⟨_, hexec, commandOutputs_turned s g .outOff _⟩
    · rw [if_neg (by rw [hon]; decide)] at hexec
      exact ⟨_, hexec, commandOutputs_turned s g .outOn _⟩
  · have hexec : exec (.cadenceEndDeadline g) s = .next _ := congrArg Host.Outcome.next (cadenceEnds_due ha hdue)
    have hlines : (endCadence g s).lines = s.lines :=
      (endCadence_driveOnly g s).lines.trans (stopEngine_lines g _)
    have hdoors : (endCadence g s).doors = s.doors :=
      (endCadence_driveOnly g s).doors.trans (stopEngine_doors g _)
    refine ⟨_, hexec, ?_⟩
    by_cases hends : (s.group g).phase = .allClear ∨ (s.group g).phase = .test
    · simp only [if_pos hends]
      refine ⟨?_, fun h hne => ?_, hlines, hdoors, fun i hi => endCadence_siren hi⟩
      · rw [State.group_modGroup, endCadence_group, if_pos rfl]
      · rw [State.group_modGroup_ne _ _ _ _ hne, endCadence_group, if_neg hne]
    · simp only [if_neg hends]
      refine ⟨?_, fun h hne => ?_, hlines, hdoors, fun i hi => endCadence_siren hi⟩
      · rw [endCadence_group, if_pos rfl]
      · rw [endCadence_group, if_neg hne]

end Sys2Proof.Machine
end

