-- ==== Sys2Proof/Proofs/DoorWrites.lean ====
section
/-! PROOFS. The write of a door (R113, R128): O33. -/

namespace Sys2Proof.Machine

theorem State.modDoor_same {s : State} {d : DoorIx} {f : Door → Door} (h : f (s.door d) = s.door d) :
    s.modDoor d f = s := by
  unfold State.modDoor
  rw [h]
  have hset : s.doors.set d.val (s.door d) = s.doors := Vector.set_getElem_self d.isLt
  rw [hset]

/-! ## The first report after a write (R128, R118) -/

section
variable {s : State} {d : DoorIx}

theorem firstReport_inactive (ha : s.doorActive d = false) : firstReport d s = s := by
  unfold firstReport
  exact if_neg (by rw [ha]; decide)

theorem firstReport_active (ha : s.doorActive d = true) :
    firstReport d s =
      if s.doorReported d = some .opened then
        doorReported d .opened (s.modDoor d fun r => { r with closeRequest := s.closeStands d })
      else if s.doorReported d = some .closed then
        doorReported d .closed (s.modDoor d fun r => { r with closeRequest := s.closeStands d })
      else if s.closeStands d then closeBegins d (s.modDoor d fun r => { r with closeRequest := s.closeStands d })
      else s.modDoor d fun r => { r with closeRequest := s.closeStands d } := by
  unfold firstReport
  refine (if_pos ha).trans ?_
  cases s.doorReported d with
  | none => rfl
  | some code => cases code <;> rfl

/-- R118: the first report Opened of a door in Unknown. -/
theorem doorReported_unknown_opened (h : (s.door d).state = .unknown) :
    doorReported d .opened s = if (s.door d).closeRequest then closeFromOpen d (enterOpen d s) else enterOpen d s := by
  unfold doorReported
  dsimp only
  rw [h]
  exact if_pos rfl

/-- R118: the first report Closed of a door in Unknown. -/
theorem doorReported_unknown_closed (h : (s.door d).state = .unknown) :
    doorReported d .closed s =
      if (s.door d).closeRequest then closeFromClosed d (enterDoorState d .closed (s.modDoor d Door.clearFlags))
      else enterDoorState d .closed (s.modDoor d Door.clearFlags) := by
  unfold doorReported
  dsimp only
  rw [h]
  exact (if_neg (by decide)).trans (if_pos rfl)

theorem closeBegins_unknown (h : (s.door d).state = .unknown) : closeBegins d s = closeFromOpen d s := by
  unfold closeBegins
  rw [h]

theorem enterOpen_eq (d : DoorIx) (s : State) : enterOpen d s = enterDoorState d .opened (s.modDoor d Door.clearFlags) :=
  rfl

/-- The entry into a state with every flag cleared. -/
theorem enterCleared_door (d e : DoorIx) (st : DoorState) (s : State) :
    (enterDoorState d st (s.modDoor d Door.clearFlags)).door e =
      if e = d then { (s.door d).clearFlags with state := st } else s.door e := by
  rw [enterDoorState_door]
  by_cases he : e = d
  · rw [if_pos he, if_pos he, State.door_modDoor]
  · rw [if_neg he, if_neg he, State.door_modDoor_ne _ _ _ _ he]

theorem enterCleared_point (d : DoorIx) (st : DoorState) (s : State) (i : PointIx) :
    (enterDoorState d st (s.modDoor d Door.clearFlags)).point i = s.point i := by
  rw [enterDoorState_point]
  exact rfl

theorem closeFromClosed_door (d e : DoorIx) (s : State) : (closeFromClosed d s).door e = s.door e := by
  unfold closeFromClosed
  rw [commandDoor_door, claimDoor_door]

/-- R118: a door in Unknown whose close request stands begins to close, whatever it reports. -/
theorem firstReport_closing (ha : s.doorActive d = true) (hst : (s.door d).state = .unknown)
    (hc : s.closeStands d = true) :
    Closing d (s.modDoor d fun r => { r with closeRequest := true }) (firstReport d s) := by
  rw [firstReport_active ha, hc, if_pos rfl]
  generalize hw : (s.modDoor d fun r => { r with closeRequest := true }) = w
  have hdoor : w.door d = { s.door d with closeRequest := true } := by rw [← hw, State.door_modDoor]
  have hunknown : (w.door d).state = .unknown := by rw [hdoor]; exact hst
  have hrequest : (w.door d).closeRequest = true := by rw [hdoor]
  rw [doorReported_unknown_opened hunknown, doorReported_unknown_closed hunknown, closeBegins_unknown hunknown,
    if_pos hrequest, if_pos hrequest]
  have hcleared : ∀ {st : DoorState} {t : State},
      Closing d (enterDoorState d st (w.modDoor d Door.clearFlags)) t → Closing d w t := fun {st t} h => by
    refine ⟨h.state, h.request.trans ?_, h.cfg.trans ?_, fun e he => (h.others e he).trans ?_⟩
    · rw [enterCleared_door, if_pos rfl]
      exact rfl
    · rw [enterCleared_door, if_pos rfl]
      exact rfl
    · rw [enterCleared_door, if_neg he]
  by_cases ho : s.doorReported d = some .opened
  · rw [if_pos ho]
    exact hcleared (closeFromOpen_closing d _)
  rw [if_neg ho]
  by_cases hcl : s.doorReported d = some .closed
  · rw [if_pos hcl]
    refine hcleared (st := .closed) ⟨.inr (.inr ?_), ?_, ?_, fun e _ => closeFromClosed_door d e _⟩
    · rw [closeFromClosed_door, enterCleared_door, if_pos rfl]
    · rw [closeFromClosed_door]
    · rw [closeFromClosed_door]
  · rw [if_neg hcl]
    exact closeFromOpen_closing d w

/-- R118: a door in Unknown with its flags clear and no close request takes its reported state, and no point changes. -/
theorem firstReport_resting (hst : (s.door d).state = .unknown) (hflags : (s.door d).clearFlags = s.door d)
    (hreq : (s.door d).closeRequest = false) (hno : s.doorActive d = false ∨ s.closeStands d = false) :
    (∀ e, (firstReport d s).door e =
        if e = d then
          { s.door d with
            state :=
              if s.doorActive d = true ∧ s.doorReported d = some .opened then .opened
              else if s.doorActive d = true ∧ s.doorReported d = some .closed then .closed
              else .unknown }
        else s.door e) ∧
      ∀ i, (firstReport d s).point i = s.point i := by
  cases ha : s.doorActive d with
  | false =>
    rw [firstReport_inactive ha]
    refine ⟨fun e => ?_, fun _ => rfl⟩
    by_cases he : e = d
    · rw [if_pos he, if_neg (by simp), if_neg (by simp), ← hst, he]
    · rw [if_neg he]
  | true =>
    have hc : s.closeStands d = false := hno.resolve_left (by rw [ha]; decide)
    have hsame : (s.modDoor d fun r => { r with closeRequest := false }) = s := by
      refine State.modDoor_same ?_
      rw [← hreq]
    rw [firstReport_active ha, hc, hsame, doorReported_unknown_opened hst, doorReported_unknown_closed hst, hreq,
      enterOpen_eq]
    have htaken : ∀ st : DoorState, ∀ e,
        (enterDoorState d st (s.modDoor d Door.clearFlags)).door e =
          if e = d then { s.door d with state := st } else s.door e := fun st e => by
      rw [enterCleared_door, hflags]
    by_cases ho : s.doorReported d = some .opened
    · refine ⟨fun e => ?_, fun i => ?_⟩
      · rw [if_pos ho, if_neg Bool.false_ne_true, htaken, if_pos (And.intro rfl ho : true = true ∧ _)]
      · rw [if_pos ho, if_neg Bool.false_ne_true, enterCleared_point]
    have hnot : ¬(true = true ∧ s.doorReported d = some .opened) := fun h => ho h.2
    by_cases hcl : s.doorReported d = some .closed
    · refine ⟨fun e => ?_, fun i => ?_⟩
      · rw [if_neg ho, if_pos hcl, if_neg Bool.false_ne_true, htaken, if_neg hnot,
          if_pos (And.intro rfl hcl : true = true ∧ _)]
      · rw [if_neg ho, if_pos hcl, if_neg Bool.false_ne_true, enterCleared_point]
    · have hnot' : ¬(true = true ∧ s.doorReported d = some .closed) := fun h => hcl h.2
      refine ⟨fun e => ?_, fun i => ?_⟩
      · rw [if_neg ho, if_neg hcl, if_neg Bool.false_ne_true, if_neg hnot, if_neg hnot', ← hst]
        split
        · next he => rw [he]
        · rfl
      · rw [if_neg ho, if_neg hcl, if_neg Bool.false_ne_true]

end

/-! ## The write (R113, R128) -/

section
variable {s : State} {d : DoorIx} {c : DoorCfg}

theorem State.secondEffect_door {rq : Request} {a : List Byte} (ht : rq.table = 5) (hd : d.val = rq.ix)
    (hc : readDoor a rq.data = some c) :
    s.secondEffect rq a = if doorOk s.pointCfg s.doorCfg d c then some (writeDoor d c) else none := by
  simp only [State.secondEffect, ht, indexBelow_val d hd, hc]

theorem writeDoor_bypass (hm : s.mode = .bypass) : writeDoor d c s = s.modDoor d fun r => { r with cfg := c } :=
  if_neg (Bool.eq_false_iff.1 (State.active_of_bypass hm))

/-- R128: the door as a write leaves it, before its first report. -/
def rewriteDoor (d : DoorIx) (c : DoorCfg) (s : State) : State := (resetDoor d s).modDoor d fun r => { r with cfg := c }

theorem writeDoor_active (ha : s.active = true) :
    writeDoor d c s = recountFaults (firstReport d (rewriteDoor d c s)) := by
  unfold writeDoor
  exact if_pos ha

/-- R128: the reset door keeps its event counters alone. -/
theorem rewriteDoor_door (d : DoorIx) (c : DoorCfg) (s : State) :
    (rewriteDoor d c s).door d =
      { cfg := c, releases := (s.door d).releases, forcedCount := (s.door d).forcedCount, jams := (s.door d).jams
        breaches := (s.door d).breaches } := by
  unfold rewriteDoor resetDoor
  rw [State.door_modDoor, State.door_modDoor, unclaimDoor_door]
  exact rfl

theorem rewriteDoor_other {e : DoorIx} (he : e ≠ d) : (rewriteDoor d c s).door e = s.door e := by
  unfold rewriteDoor resetDoor
  rw [State.door_modDoor_ne _ _ _ _ he, State.door_modDoor_ne _ _ _ _ he, unclaimDoor_door]

theorem rewriteDoor_claims (d : DoorIx) (c : DoorCfg) (s : State) (i : PointIx) :
    Claim.door d ∉ ((rewriteDoor d c s).point i).drive.claims := unclaimDoor_claims d s i

/-- What a door's activity, reported state and close request depend on is untouched by the taking away of its claims. -/
theorem rewriteDoor_reads (d : DoorIx) (c : DoorCfg) (s : State) :
    let v := s.modDoor d fun r => { r with cfg := c }
    (rewriteDoor d c s).doorActive d = v.doorActive d ∧ (rewriteDoor d c s).closeStands d = v.closeStands d ∧
      (rewriteDoor d c s).doorReported d = v.doorReported d := by
  intro v
  have hmoves : Moves plain s (unclaimDoor d s) := unclaimDoor_moves .refl
  have hcfg : ∀ i, ((rewriteDoor d c s).point i).cfg = (v.point i).cfg := hmoves.cfg
  have hreported : ∀ i, ((rewriteDoor d c s).point i).drive.reported = (v.point i).drive.reported :=
    fun i => unclaimDoor_reported d i s
  have hlevel : ∀ z, ((rewriteDoor d c s).zone z).level = (v.zone z).level := hmoves.sameLevels id id
  have hdoor : ((rewriteDoor d c s).door d).cfg = (v.door d).cfg := by
    rw [rewriteDoor_door, State.door_modDoor]
  refine ⟨?_, ?_, ?_⟩
  · simp only [State.doorActive, State.isKind, hdoor, hcfg]
  · simp only [State.closeStands, hdoor, hlevel]
  · simp only [State.doorReported, hdoor, hreported]

/-- R128, R118: an active write: the door starts afresh, and closes at once where its close request stands. -/
theorem writeDoor_spec (ha : s.active = true) :
    let v := s.modDoor d fun r => { r with cfg := c }
    let t := writeDoor d c s
    (t.door d).cfg = c ∧ (∀ e, e ≠ d → t.door e = s.door e) ∧
      (v.doorActive d = false ∨ v.closeStands d = false →
        (∀ i, Claim.door d ∉ (t.point i).drive.claims) ∧
        t.door d =
          { cfg := c
            state :=
              if v.doorActive d = true ∧ v.doorReported d = some .opened then .opened
              else if v.doorActive d = true ∧ v.doorReported d = some .closed then .closed
              else .unknown
            releases := (s.door d).releases, forcedCount := (s.door d).forcedCount, jams := (s.door d).jams
            breaches := (s.door d).breaches }) ∧
      (v.doorActive d = true → v.closeStands d = true →
        (t.door d).closeRequest = true ∧
          ((t.door d).state = .clearing ∨ (t.door d).state = .releasing ∨ (t.door d).state = .closed)) := by
  intro v t
  obtain ⟨hact, hstands, hreported⟩ := rewriteDoor_reads d c s
  have hown := rewriteDoor_door d c s
  have hdoor : ∀ e, t.door e = (firstReport d (rewriteDoor d c s)).door e := fun e =>
    (congrArg (State.door · e) (writeDoor_active ha)).trans (recountFaults_door e _)
  have hpoint : ∀ i, t.point i = (firstReport d (rewriteDoor d c s)).point i := fun i =>
    (congrArg (State.point · i) (writeDoor_active ha)).trans (recountFaults_point _ i)
  have hrest := firstReport_resting (d := d) (s := rewriteDoor d c s) (by rw [hown]) (by rw [hown]; rfl) (by rw [hown])
  have hclose := fun h => firstReport_closing (d := d) (s := rewriteDoor d c s) h (by rw [hown])
  rw [hact, hstands, hreported, hown] at hrest
  rw [hact, hstands] at hclose
  have hown' := State.door_modDoor (rewriteDoor d c s) d fun r => { r with closeRequest := true }
  rw [hown] at hown'
  by_cases hno : v.doorActive d = false ∨ v.closeStands d = false
  · obtain ⟨hd, hp⟩ := hrest hno
    refine ⟨?_, fun e he => ?_, fun _ => ⟨fun i => ?_, ?_⟩, fun ha' hc' => ?_⟩
    · rw [hdoor, hd, if_pos rfl]
    · rw [hdoor, hd, if_neg he, rewriteDoor_other he]
    · rw [hpoint, hp]
      exact rewriteDoor_claims d c s i
    · rw [hdoor, hd, if_pos rfl]
    · obtain hf | hf := hno
      · exact absurd (ha'.symm.trans hf) (by decide)
      · exact absurd (hc'.symm.trans hf) (by decide)
  · obtain ⟨hna, hnc⟩ := not_or.1 hno
    have hclosing := hclose (Bool.eq_true_of_not_eq_false hna) (Bool.eq_true_of_not_eq_false hnc)
    refine ⟨?_, fun e he => ?_, fun h => absurd h hno, fun _ _ => ⟨?_, ?_⟩⟩
    · rw [hdoor, hclosing.cfg, hown']
    · rw [hdoor, hclosing.others e he, State.door_modDoor_ne _ _ _ _ he, rewriteDoor_other he]
    · rw [hdoor, hclosing.request, hown']
    · rw [hdoor]
      exact hclosing.state

end

/-- Settles O33. -/
theorem doorWritten : Obligations.DoorWritten := by
  intro s rq x d c h hn hc hx h1 h2 h3 hd hstate hdata u v
  have heffect := State.secondEffect_door (s := emptyStaging s) h.table hd hdata
  have hbusy : s.secondBusy rq = false := by
    rw [State.secondBusy_door h.table hd]
    obtain hst | hst := hstate <;> rw [hst] <;> rfl
  refine ⟨fun hbad => ?refused, fun hok hm => ?bypass, fun hok ha => ?active⟩
  case refused => exact takeWriteSecond_value h hc hx h1 h2 h3 hbusy (heffect.trans (if_neg (Bool.eq_false_iff.1 hbad)))
  case bypass =>
    rw [takeWriteSecond_done h hn hc hx h1 h2 h3 hbusy (heffect.trans (if_pos hok)), doneWith_eq, writeDoor_bypass]
    · rfl
    · exact hm
    · rw [writeDoor_bypass, writeDoor_bypass]
      · rfl
      · exact hm
      · exact hm
  case active =>
    obtain ⟨t, ht, hans⟩ := takeWriteSecond_answered h hn hc hx h1 h2 h3 hbusy (heffect.trans (if_pos hok))
    refine ⟨t, ht, ?_⟩
    apply hans.fact
    · exact fun _ _ _ hu => hu
    intro p
    exact writeDoor_spec (s := { emptyStaging s with port := p }) (d := d) (c := c) ha

end Sys2Proof.Machine
end

