-- ==== Sys2Proof/Proofs/GroupWrites.lean ====
section
/-! PROOFS. The writes of a siren group and of a cadence (R130, R131, R142): O26, O27. -/

namespace Sys2Proof.Machine

section
variable {s : State} {g : GroupIx} {c : GroupCfg} {rq : Request}

/-! ## The check of a group write (R131) -/

theorem State.writeEffect_group (ht : rq.table = 6) (hg : g.val = rq.ix) (hc : readGroupCfg rq.data = some c) :
    s.writeEffect rq = if groupOk s.device.own s.pointCfg s.groupCfg g c then some (writeGroup g c) else none := by
  simp only [State.writeEffect, ht, indexBelow_val g hg, hc]

theorem State.writeBusy_group (ht : rq.table = 6) : s.writeBusy rq = false := by
  simp only [State.writeBusy, ht]

theorem writeGroup_bypass (hm : s.mode = .bypass) : writeGroup g c s = s.modGroup g fun r => { r with cfg := c } :=
  if_neg (Bool.eq_false_iff.1 (State.active_of_bypass hm))

/-! ## The group afresh (R142) -/

/-- R142: a quieted group with its new configuration part, and no winner, silence or cadence. -/
def Group.afresh (r : Group) (c : GroupCfg) (p : Phase) : Group :=
  { r with cfg := c, silencedRank := none, winner := none, sounding := none, endAt := none, phase := p }

/-- R142: the group as it stood is quieted and its configuration part applied. -/
def renewGroup (g : GroupIx) (c : GroupCfg) (p : Phase) (s : State) : State :=
  (quietGroup g s).modGroup g (Group.afresh · c p)

theorem writeGroup_active (ha : s.active = true) :
    writeGroup g c s =
      if (s.group g).noRequests then renewGroup g c .idle s else arbitrateGroup g (renewGroup g c .sounding s) := by
  unfold writeGroup
  refine (if_pos ha).trans ?_
  dsimp only
  rw [State.modGroup_modGroup, State.modGroup_modGroup]
  exact rfl

theorem renewGroup_group (g : GroupIx) (c : GroupCfg) (p : Phase) (s : State) :
    (renewGroup g c p s).group g =
      { s.group g with
        cfg := c, silencedRank := none, winner := none, sounding := none, endAt := none, phase := p, engineOn := false
        phaseAt := none } := by
  unfold renewGroup
  rw [State.group_modGroup, quietGroup_group, if_pos rfl]
  exact rfl

theorem renewGroup_other {h : GroupIx} {p : Phase} (hne : h ≠ g) : (renewGroup g c p s).group h = s.group h := by
  unfold renewGroup
  rw [State.group_modGroup_ne _ _ _ _ hne, quietGroup_group, if_neg hne]

theorem renewGroup_cadences (g : GroupIx) (c : GroupCfg) (p : Phase) (s : State) :
    (renewGroup g c p s).cadences = s.cadences := quietGroup_cadences g s

theorem renewGroup_clock (g : GroupIx) (c : GroupCfg) (p : Phase) (s : State) :
    (renewGroup g c p s).clock = s.clock := (quietGroup_moves (q := plain) (g := g) (.refl (s := s))).clock

/-- R136: the points the group commanded before its write are quiet. -/
theorem renewGroup_commands (g : GroupIx) (c : GroupCfg) (p : Phase) (s : State) :
    Commands g .quiet .outOff s (renewGroup g c p s) :=
  ⟨(quietGroup_commands g s).sirens, (quietGroup_commands g s).outputs, (quietGroup_commands g s).others,
    (quietGroup_commands g s).cfg, (quietGroup_commands g s).device⟩

/-- R142, R135: where requests stand, the best of them starts its cadence. -/
theorem arbitrateGroup_renewed {w : ZoneIx × CadenceIx} (hw : s.bestFor g w) :
    arbitrateGroup g (renewGroup g c .sounding s) =
      startWinner g w.2 ((renewGroup g c .sounding s).modGroup g fun r => { r with winner := some w }) := by
  have hbest : (renewGroup g c .sounding s).bestRequest g = some w := by
    rw [← State.bestRequest_of_bestFor hw]
    exact State.bestRequest_congr g (by rw [renewGroup_group]) (renewGroup_cadences g c .sounding s)
  have hgroup := renewGroup_group g c .sounding s
  rw [arbitrateGroup_takes (State.bestFor_of_bestRequest hbest) (by rw [hgroup]; exact Option.some_ne_none w ∘ Eq.symm),
    takeWinner_free (by rw [hgroup])]

/-- R142, R136: what the start of the winner's cadence leaves of the group. -/
theorem startWinner_renewed {w : ZoneIx × CadenceIx} :
    (startWinner g w.2 ((renewGroup g c .sounding s).modGroup g fun r => { r with winner := some w })).group g =
      { s.group g with
        cfg := c, silencedRank := none, winner := some w, phase := .sounding, sounding := some w.2
        starts := bump (s.group g).starts, engineOn := true
        endAt := if (s.cadence w.2).cycles = 0 then none else some (after s.clock (s.cadence w.2).length)
        phaseAt := enginePhaseAt s.clock (s.cadence w.2) } := by
  have hcadence : ∀ f, ((renewGroup g c .sounding s).modGroup g f).cadence w.2 = s.cadence w.2 := fun f =>
    congrArg (·[w.2.val]) (renewGroup_cadences g c .sounding s)
  have hclock : ∀ f, ((renewGroup g c .sounding s).modGroup g f).clock = s.clock := fun f =>
    renewGroup_clock g c .sounding s
  rw [startWinner_group, if_pos rfl, startCadence_group, if_pos rfl, State.group_modGroup, renewGroup_group, hcadence,
    hclock]

/-- R142, R136: the new sirens and outputs play, and the old ones that are not among them are quiet. -/
theorem startWinner_commands {w : ZoneIx × CadenceIx} :
    let u := s.modGroup g fun r => { r with cfg := c }
    let f := s.cadence w.2
    let t := startWinner g w.2 ((renewGroup g c .sounding s).modGroup g fun r => { r with winner := some w })
    (∀ i ∈ u.loopSirens g, (t.point i).drive.commanded = some (.sounding f.on f.off f.cycles f.tone)) ∧
      (∀ i ∈ s.loopSirens g, i ∉ u.loopSirens g → (t.point i).drive.commanded = some .quiet) ∧
      (∀ i ∈ u.enginePoints g, (t.point i).drive.commanded = some .outOn) ∧
      ∀ i ∈ s.enginePoints g, i ∉ u.enginePoints g → (t.point i).drive.commanded = some .outOff := by
  intro u f t
  have hold := renewGroup_commands g c .sounding s
  generalize hx : ((renewGroup g c .sounding s).modGroup g fun r => { r with winner := some w }) = x
  have hcadence : x.cadence w.2 = f := by
    rw [← hx]
    exact congrArg (·[w.2.val]) (renewGroup_cadences g c .sounding s)
  have hgroup : (x.group g).cfg = (u.group g).cfg := by
    rw [← hx, State.group_modGroup, renewGroup_group, State.group_modGroup]
  have hpoint : ∀ i, x.point i = (renewGroup g c .sounding s).point i := fun i => by rw [← hx]; rfl
  have hcfg : ∀ i, (x.point i).cfg = (u.point i).cfg := fun i => by
    rw [hpoint]
    exact hold.cfg i
  have hdevice : x.device = u.device := by
    rw [← hx]
    exact hold.device
  have hnew := startCadence_commands g w.2 x
  rw [hcadence] at hnew
  have ht : ∀ i, t.point i = (startCadence g w.2 x).point i := fun i => by rw [← hx]; rfl
  rw [← State.loopSirens_congr hgroup hcfg hdevice, ← State.enginePoints_congr hgroup hcfg hdevice]
  have hlocal : ∀ i, x.isLocal i = s.isLocal i := fun i => by
    unfold State.isLocal
    rw [hcfg, hdevice]
    exact rfl
  have hloop : ∀ i, x.isLoop i = s.isLoop i := fun i => by
    unfold State.isLoop
    rw [hcfg, hdevice]
    exact rfl
  refine ⟨fun i hi => ?_, fun i hi hno => ?_, fun i hi => ?_, fun i hi hno => ?_⟩
  · rw [ht]
    exact hnew.sirens i hi
  · have hengine : i ∉ x.enginePoints g := fun he => by
      have hl := enginePoints_isLocal he
      rw [hlocal, State.isLoop_not_local (loopSirens_isLoop hi)] at hl
      cases hl
    rw [ht, hnew.others i hno hengine, hpoint]
    exact hold.sirens i hi
  · rw [ht]
    exact hnew.outputs i hi
  · have hsiren : i ∉ x.loopSirens g := fun he => by
      have hl := State.isLoop_not_local ((hloop i).symm.trans (loopSirens_isLoop he))
      rw [enginePoints_isLocal hi] at hl
      cases hl
    rw [ht, hnew.others i hsiren hno, hpoint]
    exact hold.outputs i hi

/-- R142: an active group write, by whether requests stand. -/
theorem writeGroup_spec (ha : s.active = true) :
    let t := writeGroup g c s
    (t.group g).cfg = c ∧ (t.group g).requests = (s.group g).requests ∧ (t.group g).silencedRank = none ∧
      (t.group g).silences = (s.group g).silences ∧ (t.group g).tests = (s.group g).tests ∧
      ((∀ z : ZoneIx, (s.group g).requests[z.val] = none) →
        (t.group g).phase = .idle ∧ (t.group g).winner = none ∧ (t.group g).sounding = none ∧
          (t.group g).endAt = none ∧ (t.group g).engineOn = false ∧ (t.group g).phaseAt = none ∧
          (t.group g).starts = (s.group g).starts ∧
          (∀ i ∈ s.loopSirens g, (t.point i).drive.commanded = some .quiet) ∧
          ∀ i ∈ s.enginePoints g, (t.point i).drive.commanded = some .outOff) ∧
      ((∃ z : ZoneIx, (s.group g).requests[z.val] ≠ none) →
        (t.group g).phase = .sounding ∧ (t.group g).winner = s.bestRequest g ∧
          ∃ z k, s.bestRequest g = some (z, k) ∧
            (let f := s.cadence k
            let u := s.modGroup g fun r => { r with cfg := c }
            (t.group g).sounding = some k ∧ (t.group g).starts = bump (s.group g).starts ∧ (t.group g).engineOn = true ∧
              (t.group g).endAt =
                (if f.cycles = 0 then none
                else some (after s.clock (f.cycles.toNat * (f.on.toNat + f.off.toNat) * 10))) ∧
              (t.group g).phaseAt =
                (if f.off = 0 ∧ f.cycles = 0 then none else some (after s.clock (f.on.toNat * 10))) ∧
              (∀ i ∈ u.loopSirens g, (t.point i).drive.commanded = some (.sounding f.on f.off f.cycles f.tone)) ∧
              (∀ i ∈ s.loopSirens g, i ∉ u.loopSirens g → (t.point i).drive.commanded = some .quiet) ∧
              (∀ i ∈ u.enginePoints g, (t.point i).drive.commanded = some .outOn) ∧
              ∀ i ∈ s.enginePoints g, i ∉ u.enginePoints g → (t.point i).drive.commanded = some .outOff)) ∧
      ∀ h, h ≠ g → t.group h = s.group h := by
  intro t
  have htaken : t = _ := writeGroup_active ha
  by_cases hno : (s.group g).noRequests = true
  · have hnone := (s.group g).noRequests_iff.1 hno
    have hcommands := renewGroup_commands g c .idle s
    rw [if_pos hno] at htaken
    rw [htaken, renewGroup_group]
    exact ⟨rfl, rfl, rfl, rfl, rfl, fun _ => ⟨rfl, rfl, rfl, rfl, rfl, rfl, rfl, hcommands.sirens, hcommands.outputs⟩,
      fun ⟨z, hz⟩ => absurd (hnone z) hz, fun h hne => renewGroup_other hne⟩
  · have hsome : ∃ z : ZoneIx, (s.group g).requests[z.val] ≠ none :=
      not_forall.1 fun hnone => hno ((s.group g).noRequests_iff.2 hnone)
    obtain ⟨w, hw⟩ := State.bestFor_exists hsome
    rw [if_neg hno, arbitrateGroup_renewed hw] at htaken
    have hgroup : t.group g = _ := (congrArg (State.group · g) htaken).trans startWinner_renewed
    have hcommands := startWinner_commands (s := s) (g := g) (c := c) (w := w)
    rw [hgroup, State.bestRequest_of_bestFor hw, htaken]
    refine ⟨rfl, rfl, rfl, rfl, rfl, fun hnone => absurd hsome (not_exists.2 fun z hz => hz (hnone z)),
      fun _ => ⟨rfl, rfl, w.1, w.2, rfl, rfl, rfl, rfl, rfl, rfl, hcommands⟩, fun h hne => ?_⟩
    rw [startWinner_group, if_neg hne, State.group_modGroup_ne _ _ _ _ hne, renewGroup_other hne]

/-- A Write that no check refuses, of a table other than the Device record, as an effect answered by a Done Reply. -/
theorem takeWrite_answered {n : Nat} {f : State → State} (h : s.permits rq n) (hn : rq.namesState = false)
    (hc : s.mgmt.commit = none) (hb : s.writeBusy rq = false) (he : s.writeEffect rq = some f)
    (ht : [2, 3, 4, 5].contains n = false) (h0 : n ≠ 0) :
    ∃ t, exec (.write rq) s = .next t ∧ Answered rq f s t :=
  ⟨_, takeWrite_done h hn hc hb he ht h0, doneWith_answered rq f _⟩

end

/-- Settles O26. -/
theorem groupWritten : Obligations.GroupWritten := by
  intro s rq g c h hn hc hg hdata ok
  have heffect := State.writeEffect_group (s := s) h.table hg hdata
  have hbusy : s.writeBusy rq = false := State.writeBusy_group h.table
  refine ⟨fun hbad => ?refused, fun hok hm => ?bypass, fun hok ha => ?active⟩
  case refused => exact takeWrite_value h rfl hc hbusy (heffect.trans (if_neg (Bool.eq_false_iff.1 hbad)))
  case bypass =>
    rw [takeWrite_done h hn hc hbusy (heffect.trans (if_pos hok)) rfl (by decide), doneWith_eq, writeGroup_bypass hm]
    rw [writeGroup_bypass hm, writeGroup_bypass (s := reply rq .done s) hm]
    exact rfl
  case active =>
    obtain ⟨t, ht, hans⟩ := takeWrite_answered h hn hc hbusy (heffect.trans (if_pos hok)) rfl (by decide)
    refine ⟨t, ht, ?_⟩
    apply hans.fact
    · exact fun _ _ _ hu => hu
    intro p
    exact writeGroup_spec (s := { s with port := p }) (g := g) (c := c) ha

/-! ## Cadences (R130, R142) -/

section
variable {s : State} {k : CadenceIx} {c : Cadence} {rq : Request}

theorem State.writeEffect_cadence (ht : rq.table = 7) (hk : k.val = rq.ix) (hc : readCadence rq.data = some c) :
    s.writeEffect rq = some (writeCadence k c) := by
  simp only [State.writeEffect, ht, indexBelow_val k hk, hc, readCadence_ok hc, if_true]

theorem State.writeBusy_cadence (ht : rq.table = 7) : s.writeBusy rq = false := by
  simp only [State.writeBusy, ht]

theorem Cadence.rangesOk_spec (h : c.rangesOk = true) :
    1 ≤ c.rank.toNat ∧ c.rank.toNat ≤ 15 ∧ 1 ≤ c.on.toNat ∧ c.tone.toNat ≤ 3 := by
  simp only [Cadence.rangesOk, Bool.and_eq_true, within_iff, decide_eq_true_iff] at h
  obtain ⟨⟨⟨hlo, hhi⟩, hon⟩, -, htone⟩ := h
  exact ⟨hlo, hhi, Nat.one_le_iff_ne_zero.2 fun h0 => hon (BitVec.eq_of_toNat_eq h0), htone⟩

theorem writeCadence_inactive (ha : s.active = false) :
    writeCadence k c s = { s with cadences := s.cadences.set k.val c } :=
  if_neg (Bool.eq_false_iff.1 ha)

/-- R142: the groups that played the cadence, and what starting it again leaves of each. -/
def Group.replayed (k : CadenceIx) (c : Cadence) (now : Time) (r : Group) : Group :=
  { r with
    starts := if r.phase = .sounding then bump r.starts else r.starts
    sounding := some k
    endAt := if c.cycles = 0 then none else some (after now c.length)
    engineOn := true
    phaseAt := enginePhaseAt now c }

/-- R142: the first part of the work of a cadence write: the groups that play it start it again, in any order. -/
theorem replayed_groups (k : CadenceIx) (c : Cadence) (playing : GroupIx → Bool) (s : State)
    (hk : s.cadence k = c) :
    let t := inAnyOrder (((List.finRange 8).filter playing).map fun g => restartPlaying g k) s
    t.cadences = s.cadences ∧
      ∀ g, t.group g = if playing g = true then (s.group g).replayed k c s.clock else s.group g := by
  intro t
  have hkeeps : ∀ g u, u.cadences = s.cadences ∧ u.clock = s.clock →
      (restartPlaying g k u).cadences = s.cadences ∧ (restartPlaying g k u).clock = s.clock := fun g u ⟨hc, ht⟩ => by
    refine ⟨?_, (restartPlaying_moves (q := plain) (g := g) (c := k) (.refl (s := u))).clock.trans ht⟩
    unfold restartPlaying
    split
    · exact (startCadence_cadences g k u).trans hc
    · exact (startCadence_cadences g k u).trans hc
  have hown : ∀ g u, u.cadences = s.cadences ∧ u.clock = s.clock →
      (restartPlaying g k u).group g = (u.group g).replayed k c s.clock := fun g u ⟨hc, ht⟩ => by
    have hcad : u.cadence k = c := (congrArg (·[k.val]) hc).trans hk
    refine (restartPlaying_group k g u).trans ?_
    rw [hcad, ht, Group.replayed]
  have hdone := InSomeOrder.groups (fun g => restartPlaying g k) (fun _ r r' => r' = r.replayed k c s.clock)
    (fun u => u.cadences = s.cadences ∧ u.clock = s.clock) (fun _ _ hu => hu) hkeeps hown
    (fun g h u hne => restartPlaying_other k g h u hne) (inAnyOrder_someOrder _ s) _
    ((List.nodup_finRange 8).filter playing) rfl ⟨rfl, rfl⟩
  obtain ⟨⟨hcadences, -⟩, hgroups⟩ := hdone
  refine ⟨hcadences, fun g => ?_⟩
  obtain ⟨hin, hout⟩ := hgroups g
  by_cases hg : playing g = true
  · rw [if_pos hg]
    exact hin (List.mem_filter.2 ⟨List.mem_finRange g, hg⟩)
  · rw [if_neg hg]
    exact hout fun hm => hg (List.mem_filter.1 hm).2

/-- R142, R135: the second part: the sounding groups are arbitrated, in any order. -/
theorem rearbitrated_groups (sounds : GroupIx → Bool) (s : State) :
    let t := inAnyOrder (((List.finRange 8).filter sounds).map arbitrateGroup) s
    t.cadences = s.cadences ∧
      ∀ g, (t.group g).cfg = (s.group g).cfg ∧
        (s.bestRequest g = none ∨ s.bestRequest g = (s.group g).winner → t.group g = s.group g) ∧
        (sounds g = false → t.group g = s.group g) ∧
        (sounds g = true → s.bestRequest g ≠ none → (t.group g).winner = s.bestRequest g) := by
  intro t
  have hown : ∀ g u, u.cadences = s.cadences →
      ((arbitrateGroup g u).group g).cfg = (u.group g).cfg ∧ ((u.group g).requests = (s.group g).requests →
        (s.bestRequest g = none ∨ s.bestRequest g = (u.group g).winner → (arbitrateGroup g u).group g = u.group g) ∧
          (s.bestRequest g ≠ none → ((arbitrateGroup g u).group g).winner = s.bestRequest g)) := fun g u hc => by
    obtain ⟨-, hcfg, -, -, -, -, -, hwinner⟩ := arbitrateGroup_group g g u
    refine ⟨hcfg, fun hrequests => ?_⟩
    have hbest : u.bestRequest g = s.bestRequest g := State.bestRequest_congr g hrequests hc
    rw [← hbest]
    refine ⟨fun h => ?_, fun h => hwinner (Option.isSome_iff_ne_none.2 h)⟩
    rw [arbitrateGroup_idle h]
  have hkeeps : ∀ g u, u.cadences = s.cadences → (arbitrateGroup g u).cadences = s.cadences := fun g u hc => by
    rw [(arbitrateGroup_yardWork g u).rest]
    exact hc
  have hdone := InSomeOrder.groups arbitrateGroup
    (fun g r r' => r'.cfg = r.cfg ∧ (r.requests = (s.group g).requests →
      (s.bestRequest g = none ∨ s.bestRequest g = r.winner → r' = r) ∧
        (s.bestRequest g ≠ none → r'.winner = s.bestRequest g)))
    (fun u => u.cadences = s.cadences) (fun _ _ hu => hu) hkeeps hown
    (fun g h u hne => (arbitrateGroup_group g h u).1 hne) (inAnyOrder_someOrder _ s) _
    ((List.nodup_finRange 8).filter sounds) rfl rfl
  obtain ⟨hcadences, hgroups⟩ := hdone
  refine ⟨hcadences, fun g => ?_⟩
  obtain ⟨hin, hout⟩ := hgroups g
  by_cases hg : sounds g = true
  · obtain ⟨hcfg, hwork⟩ := hin (List.mem_filter.2 ⟨List.mem_finRange g, hg⟩)
    obtain ⟨hidle, htakes⟩ := hwork rfl
    exact ⟨hcfg, hidle, fun hno => absurd (hg.symm.trans hno) (by decide), fun _ => htakes⟩
  · have hsame := hout fun hm => hg (List.mem_filter.1 hm).2
    exact ⟨congrArg Group.cfg hsame, fun _ => hsame, fun _ => hsame, fun hs => absurd hs hg⟩

/-- R142: an active cadence write: the groups that played it start it again, and then the sounding groups are arbitrated. -/
theorem writeCadence_spec (ha : s.active = true) :
    let t := writeCadence k c s
    t.cadences = s.cadences.set k.val c ∧ ∀ g,
      let r := s.group g
      let q := if s.playing k (s.cadence k) g = true then r.replayed k c s.clock else r
      let best := ({ s with cadences := s.cadences.set k.val c } : State).bestRequest g
      (t.group g).cfg = r.cfg ∧ (r.phase ≠ .sounding ∨ best = none ∨ best = r.winner → t.group g = q) ∧
        (r.phase = .sounding → best ≠ none → (t.group g).winner = best) := by
  intro t
  generalize hw : ({ s with cadences := s.cadences.set k.val c } : State) = w
  have hactive : w.active = true := by rw [← hw]; exact ha
  have hcadence : w.cadence k = c := by
    rw [← hw]
    exact Vector.getElem_set_self k.isLt
  have htaken : t = cadenceWritten k (s.cadence k) w := by rw [← hw]; rfl
  unfold cadenceWritten at htaken
  rw [if_pos hactive] at htaken
  dsimp only at htaken
  obtain ⟨hfirst, hreplayed⟩ := replayed_groups k c (w.playing k (s.cadence k)) w hcadence
  generalize inAnyOrder (((List.finRange 8).filter (w.playing k (s.cadence k))).map fun g => restartPlaying g k) w = v
    at htaken hfirst hreplayed
  obtain ⟨hsecond, harbitrated⟩ := rearbitrated_groups (fun g => (v.group g).phase == .sounding) v
  rw [← htaken] at hsecond harbitrated
  refine ⟨hsecond.trans (hfirst.trans (by rw [← hw])), fun g => ?_⟩
  have hgroup := hreplayed g
  have hsame : w.group g = s.group g := by rw [← hw]; rfl
  have hplays : w.playing k (s.cadence k) g = s.playing k (s.cadence k) g := by rw [← hw]; rfl
  have hclock : w.clock = s.clock := by rw [← hw]
  rw [hsame, hplays, hclock] at hgroup
  have hkept : (v.group g).phase = (s.group g).phase ∧ (v.group g).winner = (s.group g).winner ∧
      (v.group g).requests = (s.group g).requests ∧ (v.group g).cfg = (s.group g).cfg := by
    rw [hgroup]
    split
    · exact ⟨rfl, rfl, rfl, rfl⟩
    · exact ⟨rfl, rfl, rfl, rfl⟩
  obtain ⟨hphase, hwinner, hrequests, hcfg⟩ := hkept
  have hbest : v.bestRequest g = w.bestRequest g := State.bestRequest_congr g (hrequests.trans (by rw [hsame])) hfirst
  obtain ⟨tcfg, tidle, tsilent, ttakes⟩ := harbitrated g
  rw [hbest, hwinner] at tidle
  rw [hbest] at ttakes
  rw [hphase] at tsilent ttakes
  refine ⟨tcfg.trans hcfg, fun h => Eq.trans ?_ hgroup, fun hs => ttakes (beq_iff_eq.2 hs)⟩
  obtain hs | hb := h
  · exact tsilent (beq_false_of_ne hs)
  · exact tidle hb

/-- R142: the group is playing the cadence. -/
theorem State.playing_iff {old : Cadence} {g : GroupIx} :
    s.playing k old g = true ↔
      (s.group g).sounding = some k ∧ ((s.group g).endAt ≠ none ∨ old.cycles = 0) := by
  unfold State.playing
  rw [Bool.and_eq_true, Bool.or_eq_true, beq_iff_eq, beq_iff_eq, Option.isSome_iff_ne_none]

end

end Sys2Proof.Machine

namespace Sys2Proof

open Machine

/-- Settles O27. -/
theorem cadenceWritten : Obligations.CadenceWritten := by
  intro s rq k c h hn hc hk hdata
  have heffect := State.writeEffect_cadence (s := s) h.table hk hdata
  have hbusy : s.writeBusy rq = false := State.writeBusy_cadence h.table
  obtain ⟨hrank, hrank', hon, htone⟩ := Cadence.rangesOk_spec (readCadence_ok hdata)
  refine ⟨hrank, hrank', hon, htone, fun hm => ?bypass, ?written⟩
  case bypass =>
    have ha := State.active_of_bypass hm
    rw [takeWrite_done h hn hc hbusy heffect rfl (by decide), doneWith_eq, writeCadence_inactive ha]
    rw [writeCadence_inactive ha, writeCadence_inactive (s := reply rq .done s) ha]
    exact rfl
  case written =>
    obtain ⟨t, ht, hans⟩ := takeWrite_answered h hn hc hbusy heffect rfl (by decide)
    refine ⟨t, ht, ?_⟩
    apply hans.fact
    · exact fun _ _ _ hu => hu
    intro p
    generalize hw : ({ s with port := p } : State) = w
    cases ha : s.active with
    | false =>
      rw [writeCadence_inactive (s := w) (by rw [← hw]; exact ha), ← hw]
      exact ⟨rfl, fun _ => rfl, fun h => absurd h (by decide)⟩
    | true =>
      obtain ⟨hcadences, hgroups⟩ := writeCadence_spec (s := w) (k := k) (c := c) (by rw [← hw]; exact ha)
      subst hw
      refine ⟨hcadences, fun g => (hgroups g).1, fun _ g => ?_⟩
      obtain ⟨-, hplain, htakes⟩ := hgroups g
      refine ⟨fun hno => ⟨fun hplays => ?_, fun hplays => ?_⟩, htakes⟩
      · exact (hplain hno).trans (if_neg fun hp => hplays (State.playing_iff.1 hp))
      · refine (hplain hno).trans ((if_pos (State.playing_iff.2 hplays)).trans ?_)
        obtain ⟨hsounding, -⟩ := hplays
        unfold Group.replayed
        rw [← hsounding]
        exact rfl

end Sys2Proof
end

