-- ==== Sys2Proof/Proofs/GroupReads.lean ====
section
/-! PROOFS. The reading of an aligned group of entries (R168): O19. -/

namespace Sys2Proof.Machine

/-! ## The indices of a group (R168) -/

theorem Request.groupSize_pos (rq : Request) : 0 < rq.groupSize := Nat.pow_pos (by decide)

theorem Request.groupSize_mem (rq : Request) : rq.groupSize ∈ [1, 2, 4, 8] := by
  have hlt : rq.selector.toNat / 32 % 4 < 4 := Nat.mod_lt _ (by decide)
  unfold Request.groupSize
  generalize rq.selector.toNat / 32 % 4 = k at hlt
  interval_cases k <;> decide

theorem groupOrder_lt {start size i : Nat} (hs : 0 < size) (h : i ∈ groupOrder start size) :
    i < start / size * size + size := by
  obtain ⟨k, -, rfl⟩ := List.mem_map.1 h
  exact Nat.add_lt_add_left (Nat.mod_lt _ hs) _

theorem last_mem_groupOrder {start size : Nat} (hs : 0 < size) :
    start / size * size + (size - 1) ∈ groupOrder start size := by
  have hoffset : start - start / size * size = start % size := by
    have := Nat.div_add_mod' start size
    omega
  have hlt := Nat.mod_lt start hs
  refine List.mem_map.2 ⟨size - 1 - start % size, List.mem_range.2 (by omega), ?_⟩
  rw [hoffset, Nat.add_sub_cancel' (by omega : start % size ≤ size - 1), Nat.mod_eq_of_lt (by omega)]

theorem length_groupOrder (start size : Nat) : (groupOrder start size).length = size := by
  unfold groupOrder
  rw [List.length_map, List.length_range]

/-! ## What the entries of a group return (R166, R167) -/

section
variable {s : State} {rq : Request}

theorem State.readEntries_none {l : List Nat} {i : Nat} (hi : i ∈ l) (hnone : s.readEntry rq i = none) :
    s.readEntries rq l = none := by
  induction l with
  | nil => cases hi
  | cons j l ih =>
    unfold State.readEntries
    obtain rfl | hi := List.mem_cons.1 hi
    · rw [hnone]
    · rw [ih hi]
      cases s.readEntry rq j <;> rfl

theorem State.readEntry_section {b : Byte} {rest : List Byte} (hn : rq.namesState = true) (hd : rq.data = b :: rest)
    (i : Nat) : s.readEntry rq i = (s.section? rq.table i b.toNat).map fun d => [d] := by
  unfold State.readEntry Request.section?
  rewrite [if_pos hn, hd]
  exact rfl

theorem State.readEntry_unnamed (hn : rq.namesState = true) (hd : rq.data = []) (i : Nat) : s.readEntry rq i = none := by
  unfold State.readEntry Request.section?
  rewrite [if_pos hn, hd]
  exact rfl

theorem State.readEntries_sections {b : Byte} {rest : List Byte} (hn : rq.namesState = true) (hd : rq.data = b :: rest)
    {l : List Nat} {ds : List (List Byte)} (h : l.map (fun i => s.section? rq.table i b.toNat) = ds.map some) :
    s.readEntries rq l = some ds := by
  induction l generalizing ds with
  | nil =>
    cases ds with
    | nil => rfl
    | cons d ds => cases h
  | cons i l ih =>
    cases ds with
    | nil => cases h
    | cons d ds =>
      obtain ⟨hi, hl⟩ := List.cons.inj h
      have hentry : s.readEntry rq i = some [d] :=
        (State.readEntry_section hn hd i).trans (congrArg (Option.map fun d => [d]) hi)
      unfold State.readEntries
      rewrite [hentry, ih hl]
      exact rfl

theorem State.repliesNeeded_config (hn : rq.namesState = false) (l : List Nat) :
    (l.map (s.repliesNeeded rq)).sum = (l.flatMap fun i => s.configParts rq.table i).length := by
  rw [List.length_flatMap]
  refine congrArg List.sum (List.map_congr_left fun i _ => ?_)
  unfold State.repliesNeeded
  rw [if_neg (by rw [hn]; decide)]

theorem State.repliesNeeded_sections (hn : rq.namesState = true) (l : List Nat) :
    (l.map (s.repliesNeeded rq)).sum = l.length := by
  have hone : s.repliesNeeded rq = fun _ => 1 := funext fun i => by
    unfold State.repliesNeeded
    rw [if_pos hn]
  rw [hone, List.map_const', List.sum_replicate, smul_eq_mul, mul_one]

/-! ## The checks and the Replies (R168) -/

/-- R168: the checks of a ReadGroup of a table. -/
theorem takeReadGroup_checked (hm : s.mode ≠ .loading) (ht : rq.table ≤ 7) (hr : rq.reservedSet = false) :
    let order := groupOrder rq.ix rq.groupSize
    takeReadGroup rq s =
      if order.any fun i => decide (tableSize rq.table ≤ i) then reply rq .index s
      else if s.routineFree < (order.map (s.repliesNeeded rq)).sum then reply rq .busy s
      else if rq.groupSize = 1 ∨ s.readEntries rq order = none then reply rq .value s
      else replyData rq s ((s.readEntries rq order).getD []) := by
  intro order
  have hvalue : (rq.groupSize == 1 || rq.reservedSet || (s.readEntries rq order).isNone) = true ↔
      rq.groupSize = 1 ∨ s.readEntries rq order = none := by
    rw [hr, Bool.or_false, Bool.or_eq_true, beq_iff_eq, Option.isNone_iff_eq_none]
  have hchecks : ∀ {c : Option ReplyCode},
      firstFailed [(order.any fun i => decide (tableSize rq.table ≤ i), .index),
          (decide (s.routineFree < (order.map (s.repliesNeeded rq)).sum), .busy),
          (rq.groupSize == 1 || rq.reservedSet || (s.readEntries rq order).isNone, .value)] = c →
        takeReadGroup rq s = c.elim (replyData rq s ((s.readEntries rq order).getD [])) fun c => reply rq c s :=
    fun {c} hc => by
      have hfirst : ∀ more, firstFailed ((!everyTable.contains rq.table, ReplyCode.table) :: more) = firstFailed more :=
        fun more => if_neg (by rw [everyTable_contains ht]; decide)
      unfold takeReadGroup
      cases c with
      | none => exact answer_accepted hm ((hfirst _).trans hc)
      | some c => exact answer_refused hm ((hfirst _).trans hc)
  by_cases hindex : (order.any fun i => decide (tableSize rq.table ≤ i)) = true
  · rw [if_pos hindex, hchecks (if_pos hindex)]
    exact rfl
  by_cases hbusy : s.routineFree < (order.map (s.repliesNeeded rq)).sum
  · rw [if_neg hindex, if_pos hbusy, hchecks ((if_neg hindex).trans (if_pos (decide_eq_true hbusy)))]
    exact rfl
  have hfree : ¬decide (s.routineFree < (order.map (s.repliesNeeded rq)).sum) = true := mt of_decide_eq_true hbusy
  by_cases hbad : rq.groupSize = 1 ∨ s.readEntries rq order = none
  · rw [if_neg hindex, if_neg hbusy, if_pos hbad,
      hchecks ((if_neg hindex).trans ((if_neg hfree).trans (if_pos (hvalue.2 hbad))))]
    exact rfl
  · rw [if_neg hindex, if_neg hbusy, if_neg hbad,
      hchecks ((if_neg hindex).trans ((if_neg hfree).trans (if_neg (mt hvalue.1 hbad))))]
    exact rfl

/-- R168: the indices of a group are those from its base on. -/
theorem groupOrder_outside {size start n : Nat} (hs : 0 < size) :
    ((groupOrder start size).any fun i => decide (n ≤ i)) = true ↔ n < start / size * size + size := by
  rw [List.any_eq_true]
  refine ⟨fun ⟨i, hi, hn⟩ => (of_decide_eq_true hn).trans_lt (groupOrder_lt hs hi),
    fun h => ⟨_, last_mem_groupOrder hs, decide_eq_true (by omega)⟩⟩

theorem replyData_append (rq : Request) (s : State) (ds : List (List Byte)) (d : List Byte) :
    replyData rq s (ds ++ [d]) = joinRoutine (replyFrame s rq .done ds.length d) (replyData rq s ds) := by
  unfold replyData
  rw [List.zipIdx_append, List.map_append, List.foldl_append, Nat.zero_add]
  exact rfl

end

/-- Settles O19. -/
theorem readGroupReplies : Obligations.ReadGroupReplies := by
  intro s rq hm ht hr n base order parts
  have hpos := Request.groupSize_pos rq
  have hexec : exec (.readGroup rq) s = .next _ := congrArg Host.Outcome.next (takeReadGroup_checked hm ht hr)
  have hinside : base + n ≤ tableSize rq.table →
      ¬(groupOrder rq.ix rq.groupSize).any (fun i => decide (tableSize rq.table ≤ i)) = true := fun hle h =>
    absurd ((groupOrder_outside hpos).1 h) (Nat.not_lt.2 hle)
  refine ⟨Request.groupSize_mem rq, fun hlt => ?_, fun hle hn => ?config, fun hle hn => ?sections, rfl,
    replyData_append rq s⟩
  · rw [hexec, if_pos ((groupOrder_outside hpos).2 hlt)]
  case config =>
    rw [if_neg (hinside hle), State.repliesNeeded_config hn, s.readEntries_config rq hn] at hexec
    refine ⟨fun hfew => ?_, fun hfit h1 => ?_, fun hfit h1 => ?_⟩
    · exact hexec.trans (congrArg Host.Outcome.next (if_pos hfew))
    · exact hexec.trans (congrArg Host.Outcome.next ((if_neg (Nat.not_lt.2 hfit)).trans (if_pos (.inl h1))))
    · exact hexec.trans (congrArg Host.Outcome.next ((if_neg (Nat.not_lt.2 hfit)).trans
        (if_neg (not_or.2 ⟨h1, Option.some_ne_none _⟩))))
  case sections =>
    rw [if_neg (hinside hle), State.repliesNeeded_sections hn, length_groupOrder] at hexec
    refine ⟨fun hfew => ?_, fun hfit hbad => ?_, fun hfit b rest hdata => ⟨fun ⟨i, hi, hnone⟩ => ?_, fun ds h1 hds => ?_⟩⟩
    · rw [hexec, if_pos hfew]
    · rw [hexec, if_neg (Nat.not_lt.2 hfit), if_pos (hbad.imp_right fun hempty =>
        State.readEntries_none (last_mem_groupOrder hpos) (State.readEntry_unnamed hn hempty _))]
    · have hentry : s.readEntry rq i = none :=
        (State.readEntry_section hn hdata i).trans (congrArg (Option.map fun d => [d]) hnone)
      rw [hexec, if_neg (Nat.not_lt.2 hfit), if_pos (.inr (State.readEntries_none hi hentry))]
    · have hread : s.readEntries rq (groupOrder rq.ix rq.groupSize) = some ds :=
        State.readEntries_sections (s := s) hn hdata hds
      rw [hexec, if_neg (Nat.not_lt.2 hfit)]
      refine congrArg Host.Outcome.next ((if_neg (not_or.2 ⟨h1, ?_⟩)).trans ?_)
      · rw [hread]
        exact Option.some_ne_none ds
      · exact congrArg (fun found => replyData rq s (Option.getD found [])) hread

end Sys2Proof.Machine
end

