-- ==== Sys2Proof/Proofs/DoorStates.lean ====
section
/-! PROOFS. The states of a door: its entries, its close request, its deadlines, and the reports of its point and conveyors
(R116 to R124): O55. -/

namespace Sys2Proof.Machine

section
variable {s : State} {d : DoorIx}

theorem State.modDoor_congr {f g : Door → Door} (h : f (s.door d) = g (s.door d)) : s.modDoor d f = s.modDoor d g := by
  unfold State.modDoor
  rw [h]

/-! ## What a door reads (R113, R116, R120) -/

theorem State.doorActive_iff :
    s.doorActive d = true ↔ ∃ i, (s.door d).cfg.point = some i ∧ (s.point i).cfg.kind = .door := by
  unfold State.doorActive State.isKind
  cases (s.door d).cfg.point with
  | none => simp
  | some i => simp

theorem State.closeStands_iff :
    s.closeStands d = true ↔
      (s.door d).cfg.release.rank ≤ (s.zone (s.door d).cfg.sideA).level.rank ∨
        ∃ z, (s.door d).cfg.sideB = some z ∧ (s.door d).cfg.release.rank ≤ (s.zone z).level.rank := by
  unfold State.closeStands Level.atLeast
  dsimp only
  cases (s.door d).cfg.sideB with
  | none => simp
  | some z => simp

theorem State.clearingCondition_iff :
    s.clearingCondition d = true ↔ ∀ i ∈ s.doorConveyors d, (s.point i).drive.reported = some .stopped := by
  unfold State.clearingCondition
  simp only [List.all_eq_true, beq_iff_eq]

theorem State.clearingCondition_false
    (h : ¬∀ i ∈ s.doorConveyors d, (s.point i).drive.reported = some .stopped) : s.clearingCondition d = false :=
  Bool.eq_false_iff.2 (mt State.clearingCondition_iff.1 h)

/-! ## Entries into a state (R118, R122, R127) -/

/-- A change of a door with an entry into a state, in one piece. -/
theorem enterDoorState_modDoor (st : DoorState) (f : Door → Door) :
    enterDoorState d st (s.modDoor d f) =
      notify .doorState d.val st.code (s.modDoor d fun r => { f r with state := st }) := by
  unfold enterDoorState
  rw [State.modDoor_modDoor]

theorem enterReleasing_eq (d : DoorIx) (s : State) :
    let t := notify .doorState d.val 3
      ((commandDoor d .release s).modDoor d fun r =>
        { r with
          state := .releasing, closingAt := some (after s.clock (r.cfg.closing * 1000)), releases := bump r.releases })
    enterReleasing d s =
      if s.doorReported d = some .closed then
        notify .doorState d.val 4 (t.modDoor d fun r => { r with state := .closed, closingAt := none })
      else t := by
  intro t
  have hentry : enterDoorState d .releasing
      ((commandDoor d .release s).modDoor d fun r =>
        { r with closingAt := some (after s.clock (r.cfg.closing * 1000)), releases := bump r.releases }) = t :=
    enterDoorState_modDoor _ _
  unfold enterReleasing
  dsimp only
  rw [hentry]
  exact if_congr Iff.rfl (enterDoorState_modDoor _ _) rfl

/-- R120: the door in Clearing, before its clearing condition is looked at. -/
def startClearing (d : DoorIx) (s : State) : State :=
  notify .doorState d.val 2
    ((claimDoor d s).modDoor d fun q =>
      { q with state := .clearing, clearingAt := some (after s.clock ((s.door d).cfg.clearing * 1000)) })

theorem startClearing_door (d : DoorIx) (s : State) :
    (startClearing d s).door d =
      { s.door d with state := .clearing, clearingAt := some (after s.clock ((s.door d).cfg.clearing * 1000)) } := by
  have hnotify : ∀ u : State, (notify .doorState d.val 2 u).door d = u.door d := fun _ => rfl
  unfold startClearing
  rw [hnotify, State.door_modDoor, claimDoor_door]

/-- The claims leave what the conveyors are and report, and so the clearing condition. -/
theorem startClearing_condition (d : DoorIx) (s : State) :
    (startClearing d s).clearingCondition d = s.clearingCondition d := by
  have hcfg : ∀ i, ((startClearing d s).point i).cfg = (s.point i).cfg :=
    (claimDoor_moves (q := plain) (d := d) (Moves.refl (s := s))).cfg
  have hreported : ∀ i, ((startClearing d s).point i).drive.reported = (s.point i).drive.reported :=
    claimDoor_reported d s
  simp only [State.clearingCondition, State.doorConveyors, State.isKind, startClearing_door, hcfg, hreported]

theorem startClearing_clock (d : DoorIx) (s : State) : (startClearing d s).clock = s.clock :=
  (claimDoor_driveOnly (d := d) (.refl s)).clock

theorem enterClearing_eq (d : DoorIx) (s : State) :
    enterClearing d s =
      if s.clearingCondition d then
        if (s.door d).cfg.runOut = 0 ∧ (s.door d).cfg.clearing = 0 then
          freely (finishRunOut d) (forceRelease d) (startClearing d s)
        else startRunOut d (startClearing d s)
      else startClearing d s := by
  have hentry : enterDoorState d .clearing
      ((claimDoor d s).modDoor d fun r =>
        { r with clearingAt := some (after s.clock ((s.door d).cfg.clearing * 1000)) }) = startClearing d s :=
    enterDoorState_modDoor _ _
  unfold enterClearing
  dsimp only
  rw [hentry, startClearing_condition]

theorem startRunOut_startClearing :
    startRunOut d (startClearing d s) =
      if (s.door d).cfg.runOut = 0 then finishRunOut d (startClearing d s)
      else (startClearing d s).modDoor d fun q =>
        { q with runOutAt := some (after s.clock ((s.door d).cfg.runOut * 1000)) } := by
  unfold startRunOut
  rw [startClearing_clock, startClearing_door]
  refine if_congr Iff.rfl rfl (State.modDoor_congr ?_)
  rw [startClearing_door]

theorem freely_either (f g : State → State) (s : State) :
    ∃ n, freely f g s = f { s with draws := n } ∨ freely f g s = g { s with draws := n } := by
  refine ⟨s.draws + 1, ?_⟩
  unfold freely
  split
  · exact .inl rfl
  · exact .inr rfl

/-! ## The close request (R116) -/

theorem decideClose_eq (ha : s.doorActive d = true) :
    decideClose d s =
      if s.closeStands d = (s.door d).closeRequest then s
      else if s.closeStands d then closeBegins d (s.modDoor d fun r => { r with closeRequest := s.closeStands d })
      else s.modDoor d fun r => { r with closeRequest := s.closeStands d } := by
  unfold decideClose
  exact if_pos ha

theorem decideClose_inactive (ha : s.doorActive d = false) : decideClose d s = s := by
  unfold decideClose
  exact if_neg (by rw [ha]; decide)

theorem closeBegins_fromOpen (h : (s.door d).state = .unknown ∨ (s.door d).state = .opened) :
    closeBegins d s = if (s.door d).cfg.conveyors = [] then enterReleasing d s else enterClearing d s := by
  have hopen : closeBegins d s = closeFromOpen d s := by
    unfold closeBegins
    obtain h | h := h
    · rw [h]
    · rw [h]
  rw [hopen]
  unfold closeFromOpen
  exact if_congr List.isEmpty_iff rfl rfl

/-- A command to the door point that a door had in an earlier state. -/
def commandPoint (o : Option PointIx) (r : Requested) (u : State) : State :=
  match o with
  | some i => issue i r u
  | none => u

theorem commandDoor_eq (d : DoorIx) (r : Requested) (u : State) :
    commandDoor d r u = commandPoint (u.door d).cfg.point r u := by
  unfold commandDoor commandPoint
  cases (u.door d).cfg.point <;> rfl

/-- R123: a Closed door claims its conveyors and commands its point. -/
theorem closeFromClosed_eq (d : DoorIx) (s : State) :
    closeFromClosed d s = commandPoint (s.door d).cfg.point .release (claimDoor d s) := by
  unfold closeFromClosed
  rw [commandDoor_eq, claimDoor_door]

theorem closeBegins_closed (h : (s.door d).state = .closed) :
    closeBegins d s = commandPoint (s.door d).cfg.point .release (claimDoor d s) := by
  rw [← closeFromClosed_eq]
  unfold closeBegins
  rw [h]

theorem closeBegins_restoring (h : (s.door d).state = .restoring) :
    closeBegins d s = enterReleasing d (claimDoor d s) := by
  unfold closeBegins
  rw [h]

theorem closeBegins_waiting
    (h : (s.door d).state = .clearing ∨ (s.door d).state = .releasing ∨ (s.door d).state = .jammed) :
    closeBegins d s = s := by
  unfold closeBegins
  obtain h | h | h := h
  · rw [h]
  · rw [h]
  · rw [h]

/-! ## Reports (R118 to R126) -/

theorem enterOpen_opens (d : DoorIx) (s : State) :
    enterOpen d s =
      notify .doorState d.val 1
        (s.modDoor d fun r =>
          { r with state := .opened, forced := false, wasJammed := false, manualClosed := false, breached := false }) :=
  enterDoorState_modDoor _ _

theorem closeFromOpen_eq (d : DoorIx) (s : State) :
    closeFromOpen d s = if (s.door d).cfg.conveyors = [] then enterReleasing d s else enterClearing d s := by
  unfold closeFromOpen
  exact if_congr List.isEmpty_iff rfl rfl

/-- What a door with its flags cleared claims and commands is what it would have before. -/
theorem enterCleared_cfg (st : DoorState) :
    ((enterDoorState d st (s.modDoor d Door.clearFlags)).door d).cfg = (s.door d).cfg := by
  rw [enterCleared_door, if_pos rfl]
  exact rfl

theorem enterCleared_conveyors (st : DoorState) :
    (enterDoorState d st (s.modDoor d Door.clearFlags)).doorConveyors d = s.doorConveyors d := by
  unfold State.doorConveyors State.isKind
  rw [enterCleared_cfg]
  exact rfl

/-- R118: a door that first reports Closed while its close request stands. -/
theorem closeFromClosed_cleared :
    closeFromClosed d (enterDoorState d .closed (s.modDoor d Door.clearFlags)) =
      commandPoint (s.door d).cfg.point .release
        ((s.doorConveyors d).foldl (fun u i => addClaim (.door d) i u)
          (enterDoorState d .closed (s.modDoor d Door.clearFlags))) := by
  rw [closeFromClosed_eq, enterCleared_cfg]
  unfold claimDoor
  rw [enterCleared_conveyors]

theorem conveyorReported_clearing (h : (s.door d).state = .clearing) :
    conveyorReported d s =
      if s.clearingCondition d then
        if (s.door d).runOutAt.isNone then startRunOut d s else s
      else s.modDoor d fun r => { r with runOutAt := none } := by
  unfold conveyorReported
  exact if_pos h

theorem doorReported_unknown_other {code : Code} (h : (s.door d).state = .unknown) (ho : code ≠ .opened)
    (hc : code ≠ .closed) : doorReported d code s = s := by
  unfold doorReported
  dsimp only
  rw [h]
  exact (if_neg ho).trans (if_neg hc)

theorem doorReported_opened {code : Code} (h : (s.door d).state = .opened) :
    doorReported d code s =
      if code = .closed then
        notify .doorState d.val 4 (s.modDoor d fun r => { r with state := .closed, manualClosed := true })
      else s := by
  unfold doorReported
  dsimp only
  rw [h]
  exact if_congr Iff.rfl (enterDoorState_modDoor _ _) rfl

theorem doorReported_clearing {code : Code} (h : (s.door d).state = .clearing) : doorReported d code s = s := by
  unfold doorReported
  dsimp only
  rw [h]

theorem doorReported_releasing {code : Code} (h : (s.door d).state = .releasing) :
    doorReported d code s =
      if code = .closed then
        notify .doorState d.val 4 (s.modDoor d fun r => { r with state := .closed, closingAt := none })
      else s := by
  unfold doorReported
  dsimp only
  rw [h]
  exact if_congr Iff.rfl (enterDoorState_modDoor _ _) rfl

theorem doorReported_closed {code : Code} (h : (s.door d).state = .closed) :
    doorReported d code s =
      if (s.door d).closeRequest then
        if code = .opened ∨ code = .moving then
          enterReleasing d (s.modDoor d fun r => { r with breached := true, breaches := bump r.breaches })
        else s
      else if code = .opened then enterOpen d s
      else s := by
  unfold doorReported
  dsimp only
  rw [h]

theorem doorReported_jammed {code : Code} (h : (s.door d).state = .jammed) :
    doorReported d code s =
      if code = .closed then
        recountFaults (notify .doorState d.val 4 (s.modDoor d fun r => { r with state := .closed, wasJammed := true }))
      else s := by
  unfold doorReported
  dsimp only
  rw [h]
  exact if_congr Iff.rfl (congrArg recountFaults (enterDoorState_modDoor _ _)) rfl

theorem doorReported_restoring {code : Code} (h : (s.door d).state = .restoring) :
    doorReported d code s = if code = .opened then enterOpen d s else s := by
  unfold doorReported
  dsimp only
  rw [h]

/-! ## Deadlines (R120 to R122) -/

/-- What a door's passage into Releasing leaves: the other doors, the lines, groups and trips and the levels stand, and the
door point is commanded Release. -/
theorem enterReleasing_keeps (f : Door → Door) (hf : (f (s.door d)).cfg = (s.door d).cfg) :
    let t := enterReleasing d (s.modDoor d f)
    (∀ e, e ≠ d → t.door e = s.door e) ∧ t.lines = s.lines ∧ t.groups = s.groups ∧ t.trips = s.trips ∧
      (∀ z, (t.zone z).level = (s.zone z).level) ∧
      ∀ i, (s.door d).cfg.point = some i → (t.point i).drive.commanded = some .release := by
  intro t
  have hwork : DoorWork s t := DoorWork.modDoor.trans (enterReleasing_doorWork d _)
  refine ⟨fun e he => ?_, hwork.lines, hwork.groups, ?_, fun z => ?_, fun i hi => enterReleasing_commanded d _ i ?_⟩
  · exact (enterReleasing_door d e _).trans ((if_neg he).trans (State.door_modDoor_ne _ _ _ _ he))
  · rw [hwork.rest]
  · rw [hwork.zone z]
  · rw [State.door_modDoor, hf]
    exact hi

theorem enterReleasing_own (f : Door → Door) (hf : (f (s.door d)).cfg = (s.door d).cfg) :
    (enterReleasing d (s.modDoor d f)).door d =
      { f (s.door d) with
        state := if s.doorReported d = some .closed then .closed else .releasing
        closingAt :=
          if s.doorReported d = some .closed then none else some (after s.clock ((s.door d).cfg.closing * 1000))
        releases := bump (f (s.door d)).releases } := by
  have hreported : (s.modDoor d f).doorReported d = s.doorReported d := by
    unfold State.doorReported
    rw [State.door_modDoor, hf]
    exact rfl
  rw [enterReleasing_door, if_pos rfl, hreported, State.door_modDoor, hf]
  exact rfl

theorem runOutEnds_due (ha : s.active = true) (hd : s.doorActive d = true) (hst : (s.door d).state = .clearing)
    (hdue : due s.clock (s.door d).runOutAt = true) : runOutEnds d s = finishRunOut d s := by
  unfold runOutEnds
  exact if_pos (by rw [ha, hd, hst, hdue]; rfl)

theorem clearingEnds_due (ha : s.active = true) (hd : s.doorActive d = true) (hst : (s.door d).state = .clearing)
    (hdue : due s.clock (s.door d).clearingAt = true) : clearingEnds d s = forceRelease d s := by
  unfold clearingEnds
  exact if_pos (by rw [ha, hd, hst, hdue]; rfl)

theorem closingEnds_due (ha : s.active = true) (hd : s.doorActive d = true) (hst : (s.door d).state = .releasing)
    (hdue : due s.clock (s.door d).closingAt = true) :
    closingEnds d s =
      recountFaults
        (notify .doorState d.val 5
          (s.modDoor d fun r => { r with state := .jammed, closingAt := none, jams := bump r.jams })) := by
  unfold closingEnds
  refine (if_pos (by rw [ha, hd, hst, hdue]; rfl)).trans (congrArg recountFaults ?_)
  exact enterDoorState_modDoor _ _

end

/-- Settles O55: the deadlines, then the decision of the close request, the entries and the reports, state by state. -/
theorem doorDeadlines : Obligations.DoorDeadlines := by
  refine ⟨fun s d ha hact => ⟨fun hst hdue => ?_, fun hst hdue => ?_, fun hst hdue => ?_⟩, fun s d => ?_⟩
  · exact ⟨_, congrArg Host.Outcome.next (runOutEnds_due ha hact hst hdue), enterReleasing_keeps _ rfl,
      enterReleasing_own _ rfl⟩
  · exact ⟨_, congrArg Host.Outcome.next (clearingEnds_due ha hact hst hdue), enterReleasing_keeps _ rfl,
      enterReleasing_own _ rfl⟩
  · exact congrArg Host.Outcome.next (closingEnds_due ha hact hst hdue)
  have hstill := State.clearingCondition_iff (s := s) (d := d)
  refine ⟨State.doorActive_iff, fun h => ?decided, fun ha hst hno => ?begins, fun ha hst hno => ?ends,
    closeBegins_fromOpen, closeBegins_closed, closeBegins_restoring, closeBegins_waiting, enterReleasing_eq d s,
    ⟨fun hno => ?moving, fun hyes hrun => ?runs, fun hyes hrun hlim => ?passes, fun hyes hrun hlim => ?both⟩,
    rfl, rfl, fun hst => ?elsewhere, fun hst hno => ?dropped, fun hst hyes hrun => ?goesOn, fun hst hyes hrun => ?starts,
    fun code => ⟨fun hst hc => ?unknownOpened, fun hst hc => ?unknownClosed, doorReported_unknown_other,
      doorReported_opened, doorReported_clearing, doorReported_releasing, fun hst hreq => ?breach, fun hst hreq => ?reopens,
      doorReported_jammed, fun hst => (doorReported_restoring hst).trans (if_congr Iff.rfl (enterOpen_opens d s) rfl)⟩⟩
  case decided =>
    cases ha : s.doorActive d with
    | false => exact decideClose_inactive ha
    | true =>
      obtain hf | hiff := h
      · exact absurd (ha.symm.trans hf) (by decide)
      · exact (decideClose_eq ha).trans (if_pos (Bool.eq_iff_iff.2 (State.closeStands_iff.trans hiff)))
  case begins =>
    have hstands : s.closeStands d = true := State.closeStands_iff.2 hst
    rw [decideClose_eq ha, hstands, hno, if_neg (by decide), if_pos rfl]
  case ends =>
    have hstands : s.closeStands d = false := Bool.eq_false_iff.2 (mt State.closeStands_iff.1 hst)
    rw [decideClose_eq ha, hstands, hno, if_neg (by decide), if_neg (by decide)]
  case moving => exact (enterClearing_eq d s).trans (if_neg (mt hstill.1 hno))
  case runs =>
    exact (enterClearing_eq d s).trans ((if_pos (hstill.2 hyes)).trans ((if_neg fun h => hrun h.1).trans
      (startRunOut_startClearing.trans (if_neg hrun))))
  case passes =>
    exact (enterClearing_eq d s).trans ((if_pos (hstill.2 hyes)).trans ((if_neg fun h => hlim h.2).trans
      (startRunOut_startClearing.trans (if_pos hrun))))
  case both =>
    have hentry := (enterClearing_eq d s).trans ((if_pos (hstill.2 hyes)).trans (if_pos ⟨hrun, hlim⟩))
    rw [hentry]
    exact freely_either _ _ _
  case elsewhere =>
    unfold conveyorReported
    exact if_neg hst
  case dropped => exact (conveyorReported_clearing hst).trans (if_neg (mt hstill.1 hno))
  case goesOn =>
    exact (conveyorReported_clearing hst).trans ((if_pos (hstill.2 hyes)).trans
      (if_neg fun h => hrun (Option.isNone_iff_eq_none.1 h)))
  case starts =>
    exact (conveyorReported_clearing hst).trans ((if_pos (hstill.2 hyes)).trans
      ((if_pos (Option.isNone_iff_eq_none.2 hrun)).trans
        (if_congr Iff.rfl rfl (State.modDoor_congr rfl))))
  case unknownOpened =>
    have hconveyors : ((enterOpen d s).door d).cfg = (s.door d).cfg := enterCleared_cfg .opened
    rw [hc, doorReported_unknown_opened hst, closeFromOpen_eq, hconveyors, enterOpen_opens]
  case unknownClosed =>
    have hentry := enterDoorState_modDoor (s := s) (d := d) .closed Door.clearFlags
    rw [hc, doorReported_unknown_closed hst, closeFromClosed_cleared, hentry]
    exact rfl
  case breach => exact (doorReported_closed hst).trans (if_pos hreq)
  case reopens =>
    have hentry := enterOpen_opens d s
    rw [doorReported_closed hst, if_neg (by rw [hreq]; decide), hentry]

end Sys2Proof.Machine
end

