-- ==== Sys2Proof/Proofs/Inputs.lean ====
section
/-! PROOFS. The debounced inputs and their edges (R20, R21): O57. -/

namespace Sys2Proof.Machine

section
variable {s : State} {i : InputIx} {on : Bool}

theorem State.modInput_congr {f g : Input → Input} (h : f (s.input i) = g (s.input i)) :
    s.modInput i f = s.modInput i g := by
  unfold State.modInput
  rw [h]

theorem State.modInput_same {f : Input → Input} (h : f (s.input i) = s.input i) : s.modInput i f = s := by
  unfold State.modInput
  rw [h]
  have hset : s.inputs.set i.val (s.input i) = s.inputs := Vector.set_getElem_self i.isLt
  rw [hset]

/-! ## The raw level (R20) -/

theorem rawLevelChanges_loading (hraw : (s.input i).raw ≠ on) (hm : s.mode = .loading) :
    rawLevelChanges i on s = s.modInput i fun r => { r with raw := on } := by
  unfold rawLevelChanges
  exact (if_neg hraw).trans (if_pos hm)

theorem rawLevelChanges_sampled (hraw : (s.input i).raw ≠ on) (hm : s.mode ≠ .loading) :
    rawLevelChanges i on s =
      if (s.input i).level = on then s.modInput i fun r => { r with raw := on, debounceAt := none }
      else startDebounce i (s.modInput i fun r => { r with raw := on }) := by
  unfold rawLevelChanges
  rw [if_neg hraw]
  dsimp only
  rw [if_neg hm, State.modInput_modInput]

theorem startDebounce_raw :
    startDebounce i (s.modInput i fun r => { r with raw := on }) =
      if s.debounceOf i = 0 then inputEdge i (s.modInput i fun r => { r with raw := on })
      else s.modInput i fun r => { r with raw := on, debounceAt := some (after s.clock (s.debounceOf i)) } := by
  unfold startDebounce
  rw [State.modInput_modInput]
  exact rfl

theorem debounceEnds_due (hm : s.mode ≠ .loading) (hdue : due s.clock (s.input i).debounceAt = true) :
    debounceEnds i s = inputEdge i s := by
  unfold debounceEnds
  exact if_pos (by rw [hdue, bne_iff_ne.2 hm]; rfl)

/-! ## An edge (R21) -/

/-- R20: the input as an edge leaves it. -/
def Input.edged (r : Input) (on : Bool) (now : Time) : Input :=
  { raw := on, level := on, edges := r.edges + 1, lastEdge := some now, debounceAt := none }

/-- R20, R21: an edge sets the input, and acts in Observe and Protect. -/
theorem inputEdge_raw {f : Input → Input} (hraw : (f (s.input i)).raw = on)
    (hedges : (f (s.input i)).edges = (s.input i).edges) :
    inputEdge i (s.modInput i f) =
      if s.active then edgeActs i on (s.modInput i fun r => r.edged on s.clock)
      else s.modInput i fun r => r.edged on s.clock := by
  have hafter : ((s.modInput i f).modInput i fun r =>
      { r with level := on, edges := r.edges + 1, lastEdge := some s.clock, debounceAt := none }) =
        s.modInput i fun r => r.edged on s.clock := by
    rw [State.modInput_modInput]
    refine State.modInput_congr ?_
    unfold Input.edged
    rw [← hedges, ← hraw]
  unfold inputEdge
  dsimp only
  rw [State.input_modInput, hraw]
  exact if_congr Iff.rfl (congrArg (edgeActs i on) hafter) hafter

theorem edgeActs_plain (h : ∀ p, s.inputPoint i = some p → (s.point p).cfg.kind ≠ .call ∧ (s.point p).cfg.kind ≠ .flame) :
    edgeActs i on s = settle (raiseTrigger (.inputEdge i) s) := by
  unfold edgeActs
  cases hp : s.inputPoint i with
  | none => rfl
  | some p =>
    obtain ⟨hcall, hflame⟩ := h p hp
    dsimp only
    cases hk : (s.point p).cfg.kind with
    | call => exact absurd hk hcall
    | flame => exact absurd hk hflame
    | input | unused | spark | airflow | valve | gate | fan | conveyor | door | siren | output => rfl

theorem edgeActs_call {p : PointIx} (hp : s.inputPoint i = some p) (hk : (s.point p).cfg.kind = .call) :
    InSomeOrder [fun u => settle (raiseTrigger (.inputEdge i) u), fun u => settle (deliverCall p on u)]
      (contactEdge p on s) (edgeActs i on s) := by
  have hacts : edgeActs i on s =
      eitherOrder (fun u => settle (raiseTrigger (.inputEdge i) u)) (fun u => settle (deliverCall p on u))
        (contactEdge p on s) := by
    unfold edgeActs
    rw [hp]
    dsimp only
    rw [hk]
  rw [hacts]
  exact eitherOrder_someOrder _ _ _

theorem edgeActs_flame {p : PointIx} (hp : s.inputPoint i = some p) (hk : (s.point p).cfg.kind = .flame) :
    InSomeOrder
      [fun u => settle (raiseTrigger (.inputEdge i) u), fun u => settle (deliverFlame p on u), trackFlame p on]
      (contactEdge p on s) (edgeActs i on s) := by
  have hacts : edgeActs i on s =
      inAnyOrder
        [fun u => settle (raiseTrigger (.inputEdge i) u), fun u => settle (deliverFlame p on u), trackFlame p on]
        (contactEdge p on s) := by
    unfold edgeActs
    rw [hp]
    dsimp only
    rw [hk]
  rw [hacts]
  exact inAnyOrder_someOrder _ _

/-! ## The reports of a contact (R44, R72) -/

theorem deliverCall_clear (p : PointIx) (u : State) : deliverCall p false u = u := by
  unfold deliverCall zoneCall
  cases (u.point p).cfg.zone <;> rfl

theorem deliverFlame_clear (p : PointIx) (u : State) : deliverFlame p false u = u := by
  unfold deliverFlame zoneFlame
  cases (u.point p).cfg.zone <;> rfl

theorem trackFlame_clear (p : PointIx) (u : State) : trackFlame p false u = u := by
  unfold trackFlame flameReport
  cases (u.point p).cfg.line <;> rfl

theorem deliverCall_active {p : PointIx} {u : State} {z : ZoneIx} (hz : (u.point p).cfg.zone = some z) :
    deliverCall p true u = raiseZone z .evacuate (u.modZone z fun r => { r with calls := bump r.calls }) := by
  unfold deliverCall
  rw [hz]
  exact if_pos rfl

theorem deliverFlame_active {p : PointIx} {u : State} {z : ZoneIx} (hz : (u.point p).cfg.zone = some z) :
    deliverFlame p true u = raiseZone z .fire (u.modZone z fun r => { r with flames := bump r.flames }) := by
  unfold deliverFlame
  rw [hz]
  exact if_pos rfl

theorem trackFlame_active {p : PointIx} {u : State} {l : LineIx} (hl : (u.point p).cfg.line = some l) :
    trackFlame p true u = (u.valvesBeyond l (u.point p).cfg.pos).foldl (fun w v => strikeValve v w) u := by
  unfold trackFlame
  rw [hl]
  exact if_pos rfl

theorem raiseZone_reaches (z : ZoneIx) (n : Level) (u : State) : n.rank ≤ ((raiseZone z n u).zone z).level.rank := by
  by_cases h : (u.zone z).level.rank < n.rank
  · rw [raiseZone_level h]
  · rw [raiseZone_of_le (Nat.le_of_not_lt h)]
    exact Nat.le_of_not_lt h

/-- What an edge may do besides plain work: raise levels and trigger events. -/
def raising : Allow := { plain with raise := True }

/-- The part of an edge that brings the zone to level `n`, the others keeping or raising it. -/
theorem InSomeOrder.reaches {p : PointIx} {z : ZoneIx} {n : Level} {fs rest : List (State → State)} {g : State → State}
    {u t : State} (h : InSomeOrder fs u t) (hz : (u.point p).cfg.zone = some z) (hp : fs.Perm (g :: rest))
    (hg : ∀ w, (w.point p).cfg.zone = some z → n.rank ≤ ((g w).zone z).level.rank)
    (hr : ∀ f ∈ rest, ∀ w, Moves raising w (f w)) : n.rank ≤ (t.zone z).level.rank :=
  h.once (B := fun w => (w.point p).cfg.zone = some z) (A := fun w => n.rank ≤ (w.zone z).level.rank)
    (fun _ _ hw => hw) (fun _ _ hw => hw) hp hg
    (fun f hf w => ⟨fun hw => (congrArg PointCfg.zone ((hr f hf w).cfg p)).trans hw,
      fun hw => hw.trans ((hr f hf w).levels id z)⟩) hz

theorem settle_reaches {z : ZoneIx} {n : Level} {u : State} (h : n.rank ≤ (u.zone z).level.rank) :
    n.rank ≤ ((settle u).zone z).level.rank :=
  h.trans ((settle_moves (q := raising) trivial (.refl (s := u))).levels id z)

theorem settle_raise_moves (i : InputIx) (w : State) : Moves raising w (settle (raiseTrigger (.inputEdge i) w)) :=
  settle_moves trivial (raiseTrigger_moves (.inl trivial) .refl)

theorem edgeActs_call_reaches {p : PointIx} {z : ZoneIx} (hp : s.inputPoint i = some p)
    (hk : (s.point p).cfg.kind = .call) (hz : (s.point p).cfg.zone = some z) :
    Level.evacuate.rank ≤ ((edgeActs i true s).zone z).level.rank := by
  refine (edgeActs_call hp hk).reaches (p := p) ?_ (.swap _ _ []) (fun w hw => settle_reaches ?_) fun f hf w => ?_
  · exact (congrArg PointCfg.zone ((contactEdge_moves (q := raising) (.refl (s := s))).cfg p)).trans hz
  · rw [deliverCall_active hw]
    exact raiseZone_reaches z .evacuate _
  · rw [List.mem_singleton.1 hf]
    exact settle_raise_moves i w

theorem edgeActs_flame_reaches {p : PointIx} {z : ZoneIx} (hp : s.inputPoint i = some p)
    (hk : (s.point p).cfg.kind = .flame) (hz : (s.point p).cfg.zone = some z) :
    Level.fire.rank ≤ ((edgeActs i true s).zone z).level.rank := by
  refine (edgeActs_flame hp hk).reaches (p := p) ?_ (.swap _ _ _) (fun w hw => settle_reaches ?_) fun f hf w => ?_
  · exact (congrArg PointCfg.zone ((contactEdge_moves (q := raising) (.refl (s := s))).cfg p)).trans hz
  · rw [deliverFlame_active hw]
    exact raiseZone_reaches z .fire _
  · obtain rfl | hf := List.mem_cons.1 hf
    · exact settle_raise_moves i w
    · rw [List.mem_singleton.1 hf]
      exact trackFlame_moves .refl

/-- Events that change nothing of `u`, whatever the count of free choices, leave that count alone different. -/
theorem InSomeOrder.idle {fs : List (State → State)} {u t : State} (h : InSomeOrder fs u t)
    (hf : ∀ f ∈ fs, ∀ n, f { u with draws := n } = { u with draws := n }) : ∃ n, t = { u with draws := n } := by
  refine h.keeps (P := fun w => ∃ n, w = { u with draws := n }) ?_ ?_ ⟨u.draws, rfl⟩
  · rintro w n ⟨m, rfl⟩
    exact ⟨n, rfl⟩
  · rintro f hm w ⟨m, rfl⟩
    exact ⟨m, hf f hm m⟩

/-- R21: an edge to Off, for which no trip waits, counts a report and nothing more. -/
theorem edgeActs_clear {p : PointIx} (ht : s.triggers = []) (hp : s.inputPoint i = some p)
    (hk : (s.point p).cfg.kind = .call ∨ (s.point p).cfg.kind = .flame)
    (hdeaf : ∀ k, (s.trip k).cfg.trigger = .inputEdge i → (s.trip k).cfg.mode = .off) :
    ∃ n, edgeActs i false s = { contactEdge p false s with draws := n } := by
  have hsettled : ∀ w : State, w.triggers = [] → w.trips = s.trips →
      settle (raiseTrigger (.inputEdge i) w) = w := fun w hw htrips =>
    settle_inputEdge_deaf hw fun k => by
      rw [show w.trip k = s.trip k from congrArg (·[k.val]) htrips]
      exact hdeaf k
  have htrip : ∀ n, settle (raiseTrigger (.inputEdge i) { contactEdge p false s with draws := n }) =
      { contactEdge p false s with draws := n } := fun n => hsettled _ ht rfl
  obtain hk | hk := hk
  · refine (edgeActs_call hp hk).idle fun f hf n => ?_
    obtain rfl | hf := List.mem_cons.1 hf
    · exact htrip n
    · rw [List.mem_singleton.1 hf]
      exact (congrArg settle (deliverCall_clear p _)).trans (settle_idle ht)
  · refine (edgeActs_flame hp hk).idle fun f hf n => ?_
    obtain rfl | hf := List.mem_cons.1 hf
    · exact htrip n
    · obtain rfl | hf := List.mem_cons.1 hf
      · exact (congrArg settle (deliverFlame_clear p _)).trans (settle_idle ht)
      · rw [List.mem_singleton.1 hf, trackFlame_clear]

theorem edgeActs_inputs (on : Bool) (u : State) : (edgeActs i on u).inputs = u.inputs :=
  (edgeActs_moves (q := raising) trivial (.refl (s := u))).inputs id

end

/-- Settles O57: the raw level first, then an edge however it comes about. -/
theorem inputsDebounced : Obligations.InputsDebounced := by
  intro s i ht wait
  refine ⟨fun on hraw => ⟨fun hm => ?_, fun hm hlevel => ?_, fun hm hlevel hwait => ?_⟩, fun c on hm hc => ?_⟩
  · exact congrArg Host.Outcome.next (rawLevelChanges_loading hraw hm)
  · exact congrArg Host.Outcome.next ((rawLevelChanges_sampled hraw hm).trans (if_pos hlevel))
  · exact congrArg Host.Outcome.next ((rawLevelChanges_sampled hraw hm).trans
      ((if_neg hlevel).trans (startDebounce_raw.trans (if_neg hwait))))
  have hexec : exec c s =
      .next (if s.active then edgeActs i on (s.modInput i fun _ => (s.input i).edged on s.clock)
        else s.modInput i fun _ => (s.input i).edged on s.clock) := by
    have hafter : (s.modInput i fun r => r.edged on s.clock) = s.modInput i fun _ => (s.input i).edged on s.clock :=
      State.modInput_congr rfl
    rw [← hafter]
    obtain ⟨rfl, hraw, hlevel, hwait⟩ | ⟨rfl, hraw, hdue⟩ := hc
    · exact congrArg Host.Outcome.next ((rawLevelChanges_sampled hraw hm).trans
        ((if_neg hlevel).trans (startDebounce_raw.trans ((if_pos hwait).trans (inputEdge_raw rfl rfl)))))
    · have hsame : s.modInput i id = s := State.modInput_same rfl
      exact congrArg Host.Outcome.next ((debounceEnds_due hm hdue).trans
        ((congrArg (inputEdge i) hsame.symm).trans (inputEdge_raw hraw rfl)))
  generalize hedged : (s.modInput i fun _ => (s.input i).edged on s.clock) = edged at hexec
  have hown : edged.input i = (s.input i).edged on s.clock := by rw [← hedged, State.input_modInput]
  have hquiet : edged.triggers = [] := by rw [← hedged]; exact ht
  have hpoint : edged.inputPoint i = s.inputPoint i := by rw [← hedged]; rfl
  have hcfg : ∀ p, edged.point p = s.point p := fun p => by rw [← hedged]; rfl
  have htrips : ∀ k, edged.trip k = s.trip k := fun k => by rw [← hedged]; rfl
  simp only [← hpoint, ← hcfg, ← htrips]
  have hacts : s.active = true → exec c s = .next (edgeActs i on edged) := fun ha =>
    hexec.trans (congrArg Host.Outcome.next (if_pos ha))
  refine ⟨fun hb => ?_, fun ha hkind hdeaf => ?_, fun ha p hp hkind => ⟨fun hoff hdeaf => ?_, fun hon => ?_⟩,
    fun ha => ⟨fun hkind => ?_, fun p hp => ⟨fun hk => ?_, fun hk => ?_, fun u => ?_, fun u z hz => ?_, fun u l hl => ?_⟩⟩⟩
  · exact hexec.trans (congrArg Host.Outcome.next ((if_neg (Bool.eq_false_iff.1 (State.active_of_bypass hb))).trans hedged.symm))
  · rw [hacts ha, edgeActs_plain hkind, settle_inputEdge_deaf hquiet hdeaf]
    exact congrArg Host.Outcome.next hedged.symm
  · obtain ⟨n, hn⟩ := edgeActs_clear hquiet hp hkind hdeaf
    subst hoff
    refine ⟨n, (hacts ha).trans (congrArg Host.Outcome.next (hn.trans ?_))⟩
    rw [← hedged]
    exact rfl
  · subst hon
    refine ⟨_, hacts ha, ?_, edgeActs_triggers hquiet, fun z hz => ?_⟩
    · exact (congrArg (·[i.val]) (edgeActs_inputs true edged)).trans hown
    · obtain hk | hk := hkind
      · rw [if_pos hk]
        exact edgeActs_call_reaches hp hk hz
      · rw [if_neg (by rw [hk]; decide)]
        exact edgeActs_flame_reaches hp hk hz
  · rw [hacts ha, edgeActs_plain hkind, ← hedged]
    exact rfl
  · refine ⟨_, hacts ha, ?_⟩
    have horder := edgeActs_call (on := on) hp hk
    rw [← hedged] at horder ⊢
    exact horder
  · refine ⟨_, hacts ha, ?_⟩
    have horder := edgeActs_flame (on := on) hp hk
    rw [← hedged] at horder ⊢
    exact horder
  · exact ⟨deliverCall_clear p u, deliverFlame_clear p u, trackFlame_clear p u⟩
  · exact ⟨deliverCall_active hz, deliverFlame_active hz⟩
  · exact trackFlame_active hl

end Sys2Proof.Machine
end

