-- ==== Sys2Proof/Proofs/Detections.lean ====
section
/-! PROOFS. Detections: the three cases (R34 to R38), and the checks of a second detector (R39 to R43): O53. -/

namespace Sys2Proof.Machine

section
variable {s : State} {l : LineIx} {i : PointIx} {p : Nat} {arrival : Time}

/-! ## Storm and Flood (R36, R37) -/

theorem detectionCases_storm (h : 16 ≤ (s.line l).tracks.length ∨ (s.line l).storm = true) :
    detectionCases l i p arrival s = stormCase l s := by
  unfold detectionCases
  exact if_pos h

theorem detectionCases_flood (hlen : (s.line l).tracks.length < 16) (hstorm : (s.line l).storm = false)
    (hflood : (s.line l).flood = true) : detectionCases l i p arrival s = floodCase l p s := by
  unfold detectionCases
  refine (if_neg (not_or.2 ⟨Nat.not_le.2 hlen, ?_⟩)).trans (if_pos hflood)
  exact Bool.eq_false_iff.1 hstorm

theorem detectionCases_tracked (hlen : (s.line l).tracks.length < 16) (hstorm : (s.line l).storm = false)
    (hflood : (s.line l).flood = false) : detectionCases l i p arrival s = trackedCase l i p arrival s := by
  unfold detectionCases
  refine (if_neg (not_or.2 ⟨Nat.not_le.2 hlen, ?_⟩)).trans (if_neg (Bool.eq_false_iff.1 hflood))
  exact Bool.eq_false_iff.1 hstorm

/-- R36, R37: openings counted as an untracked detection leave the line's strikes counter free and the strike list alone. -/
theorem countUntracked_opened (l : LineIx) (vs : List PointIx) (u : State) :
    let t := countUntracked l (openNow vs u)
    t.line l = { u.line l with untracked := bump (u.line l).untracked, strikes := (t.line l).strikes } ∧
      (∀ v ∈ vs, (t.point v).valve.state = .opened) ∧ t.strikes = u.strikes := by
  intro t
  have hopen := openNow_openWork vs u
  have hline : t.line l = { (openNow vs u).line l with untracked := bump ((openNow vs u).line l).untracked } :=
    State.line_modLine _ l _
  refine ⟨?_, fun v hv => openNow_state vs u v hv, hopen.strikes⟩
  rw [hline, hopen.line l]

theorem enterStorm_line (l : LineIx) (s : State) :
    (enterStorm l s).line l = { s.line l with storm := true } ∧ (enterStorm l s).strikes = s.strikes := by
  unfold enterStorm
  by_cases h : (s.line l).storm = true
  · rw [if_pos h]
    refine ⟨?_, rfl⟩
    rw [← h]
  · rw [if_neg h]
    exact ⟨State.line_modLine s l fun r => { r with storm := true }, rfl⟩

theorem stormCase_spec (l : LineIx) (s : State) :
    let t := stormCase l s
    t.line l =
        { s.line l with storm := true, untracked := bump (s.line l).untracked, strikes := (t.line l).strikes } ∧
      (∀ v ∈ (s.membersOf l).valves, (t.point v).valve.state = .opened) ∧ t.strikes = s.strikes := by
  intro t
  obtain ⟨hline, hvalves, hstrikes⟩ := countUntracked_opened l (s.membersOf l).valves (enterStorm l s)
  obtain ⟨hstorm, hsame⟩ := enterStorm_line l s
  rw [hstorm] at hline
  exact ⟨hline, hvalves, hstrikes.trans hsame⟩

/-! ## The target of a record (R36) -/

theorem State.targetValve_none
    (h : ∀ v ∈ (s.membersOf l).valves,
      ¬(p ≤ (s.point v).cfg.pos ∧ (s.point v).cfg.arming.getD 0 ≤ (s.point v).cfg.pos - p)) :
    s.targetValve l p = none := by
  unfold State.targetValve
  rw [List.find?_eq_none]
  intro v hv hfar
  rw [Bool.and_eq_true, decide_eq_true_iff, decide_eq_true_iff] at hfar
  exact h v hv hfar

theorem State.targetValve_first {before rest : List PointIx} {v : PointIx}
    (hsplit : (s.membersOf l).valves = before ++ v :: rest)
    (hbefore : ∀ w ∈ before,
      ¬(p ≤ (s.point w).cfg.pos ∧ (s.point w).cfg.arming.getD 0 ≤ (s.point w).cfg.pos - p))
    (hfar : p ≤ (s.point v).cfg.pos ∧ (s.point v).cfg.arming.getD 0 ≤ (s.point v).cfg.pos - p) :
    s.targetValve l p = some v := by
  unfold State.targetValve
  rw [List.find?_eq_some_iff_append, Bool.and_eq_true, decide_eq_true_iff, decide_eq_true_iff]
  refine ⟨hfar, before, rest, hsplit, fun w hw => ?_⟩
  rw [Bool.not_eq_true', Bool.and_eq_false_iff, decide_eq_false_iff_not, decide_eq_false_iff_not]
  exact not_and_or.1 (hbefore w hw)

theorem fromIndex_mem {v : PointIx} {vs : List PointIx} (h : v ∈ vs) : ∃ rest, fromIndex v vs = v :: rest := by
  induction vs with
  | nil => cases h
  | cons w ws ih =>
    unfold fromIndex
    by_cases hw : w = v
    · refine ⟨ws, ?_⟩
      rw [List.dropWhile_cons_of_neg (by simp [hw]), hw]
    · obtain ⟨rest, hrest⟩ := ih ((List.mem_cons.1 h).resolve_left (Ne.symm hw))
      refine ⟨rest, ?_⟩
      rw [List.dropWhile_cons_of_pos (by simp [hw])]
      exact hrest

/-! ## A strike request of a new record (R53 to R55) -/

/-- Two lists of records that are the same have the same record at the tail. -/
theorem tail_unique {old old' : List Track} {k k' : Track} (h : old ++ [k] = old' ++ [k']) : k = k' :=
  (List.cons.inj (List.append_inj_right' h rfl)).1

/-- R54, R55: a request that is late, or finds the list full, strikes its valve at once and its record is Struck. -/
theorem requestStrike_struck {n : Cyc} {v : PointIx} {rest : List PointIx} {fire : Time} {old : List Track} {k : Track}
    (hnow : reached s.clock fire = true ∨ 32 ≤ s.strikes.length) (htracks : (s.line l).tracks = old ++ [k])
    (hn : k.number = n) (hst : k.state = .inFlight) :
    ((requestStrike l n (v :: rest) fire s).point v).valve.state = .opened ∧
      ∃ old', ((requestStrike l n (v :: rest) fire s).line l).tracks = old' ++ [{ k with state := .struck }] := by
  have hfired : ∀ f : Line → Line, (∀ r, (f r).tracks = r.tracks) →
      ∃ old', ((reportFired l n ((strikeValve v s).modLine l f)).line l).tracks = old' ++ [{ k with state := .struck }] :=
    fun f hf => by
      have hsame : (((strikeValve v s).modLine l f).line l).tracks = old ++ [k] := by
        rw [State.line_modLine, hf, (strikeValve_openWork v s).line l]
        exact htracks
      obtain ⟨old', h, -⟩ := reportFired_tracks l n _ old k hsame hn
      rw [if_pos hst] at h
      exact ⟨old', h⟩
  have hopen : ∀ f : Line → Line,
      ((reportFired l n ((strikeValve v s).modLine l f)).point v).valve.state = .opened := fun f =>
    strikeValve_state v s
  by_cases hlate : reached s.clock fire = true
  · obtain ⟨old', hold⟩ := hfired (fun r => { r with late := bump r.late }) fun _ => rfl
    have hv := hopen fun r => { r with late := bump r.late }
    cases rest with
    | nil =>
      rw [requestStrike_late_last hlate]
      exact ⟨hv, old', hold⟩
    | cons w ws =>
      have hwork := requestStrike_work (l := l) (n := n) (w :: ws) (onwardFire l v w fire (strikeLate l n v s))
        (strikeLate l n v s)
      obtain ⟨old'', st, htr, hor, -⟩ := hwork.tr old' _ hold hn
      rw [requestStrike_late hlate]
      refine ⟨hwork.opened v hv, old'', htr.trans ?_⟩
      rw [or_self_iff.1 hor]
  · have hfull := hnow.resolve_left hlate
    rw [requestStrike_full (Bool.eq_false_iff.2 hlate) hfull]
    exact ⟨hopen _, hfired _ fun _ => rfl⟩

/-! ## The Tracked case (R36, R38) -/

theorem trackedCase_untargeted (h : s.targetValve l p = none) :
    trackedCase l i p arrival s = s.modLine l (·.join (s.newTrack l i p arrival)) := by
  unfold trackedCase State.newTrack
  rw [h]
  exact rfl

theorem trackedCase_targeted {v : PointIx} (h : s.targetValve l p = some v) :
    trackedCase l i p arrival s =
      requestStrike l (s.line l).nextTrack (fromIndex v (s.membersOf l).valves) (s.fireTime l p arrival v)
        (s.modLine l (·.join (s.newTrack l i p arrival))) := by
  unfold trackedCase State.newTrack
  rw [h]
  exact rfl

/-- R36: a new record joins the tail, and what the strike request then does leaves it there but for its state. -/
theorem trackedCase_work (l : LineIx) (i : PointIx) (p : Nat) (arrival : Time) (s : State) :
    RequestWork l (s.line l).nextTrack (s.modLine l (·.join (s.newTrack l i p arrival)))
      (trackedCase l i p arrival s) := by
  cases h : s.targetValve l p with
  | none =>
    rw [trackedCase_untargeted h]
    exact .refl _
  | some v =>
    rw [trackedCase_targeted h]
    exact requestStrike_work _ _ _

/-- R36: the line with its new record, before the strike request. -/
theorem State.line_joined (s : State) (l : LineIx) (k : Track) :
    ((s.modLine l (·.join k)).line l).tracks = (s.line l).tracks ++ [k] ∧
      ((s.modLine l (·.join k)).line l).nextTrack = (s.line l).nextTrack + 1 ∧
      ((s.modLine l (·.join k)).line l).untracked = (s.line l).untracked ∧
      ((s.modLine l (·.join k)).line l).retireAt =
        if (s.line l).tracks = [] then some k.endTime else (s.line l).retireAt := by
  rw [State.line_modLine]
  exact ⟨rfl, rfl, rfl, if_congr List.isEmpty_iff rfl rfl⟩

/-- R38, R53: what becomes of the record aimed at a valve. -/
theorem trackedCase_aimed {v : PointIx} {old : List Track} {st : TrackState}
    (htarget : s.targetValve l p = some v)
    (htracks : ((trackedCase l i p arrival s).line l).tracks = old ++ [{ s.newTrack l i p arrival with state := st }]) :
    (reached s.clock (s.fireTime l p arrival v) = true ∨ 32 ≤ s.strikes.length →
      st = .struck ∧ ((trackedCase l i p arrival s).point v).valve.state = .opened) ∧
    (reached s.clock (s.fireTime l p arrival v) = false → s.strikes.length < 32 → (s.point v).valve.faulted = false →
      st = .inFlight ∧ (trackedCase l i p arrival s).points = s.points ∧
        (trackedCase l i p arrival s).strikes =
          insertStrike
            { fire := s.fireTime l p arrival v, valve := v, line := l, track := (s.line l).nextTrack, detached := false }
            s.strikes) := by
  obtain ⟨rest, hrest⟩ := fromIndex_mem (List.mem_of_find?_eq_some htarget)
  obtain ⟨hjoined, -, -, -⟩ := State.line_joined s l (s.newTrack l i p arrival)
  rw [trackedCase_targeted htarget, hrest] at htracks ⊢
  refine ⟨fun hnow => ?_, fun hreach hlen hfault => ?_⟩
  · obtain ⟨hv, old', hold⟩ := requestStrike_struck (s := s.modLine l (·.join (s.newTrack l i p arrival)))
      (v := v) (rest := rest) hnow hjoined rfl rfl
    exact ⟨congrArg Track.state (tail_unique (htracks.symm.trans hold)), hv⟩
  · rw [requestStrike_normal (s := s.modLine l (·.join (s.newTrack l i p arrival))) hreach hlen hfault] at htracks ⊢
    exact ⟨congrArg Track.state (tail_unique (htracks.symm.trans hjoined)), rfl, rfl⟩

/-! ## Check detections (R39 to R43) -/

variable {t : Time} {z : Option ZoneIx} {k : Track}

theorem Track.matchesCheck_iff {margin : Nat} :
    k.matchesCheck p margin t = true ↔
      k.state ≠ .passed ∧ k.originPosition < p ∧ (∀ q, k.lastMatched = some q → q < p) ∧
        ((t - (k.detected + BitVec.ofNat 32 ((p - k.originPosition) * 1000 / k.speed))).toNat ≤ margin ∨
          ((k.detected + BitVec.ofNat 32 ((p - k.originPosition) * 1000 / k.speed)) - t).toNat ≤ margin) := by
  unfold Track.matchesCheck after transit
  cases k.lastMatched with
  | none => simp [and_assoc]
  | some q => simp [and_assoc]

theorem State.isEscape_iff :
    s.isEscape k p = true ↔ k.state = .struck ∧ ∃ v fire, k.target = some (v, fire) ∧ (s.point v).cfg.pos < p := by
  unfold State.isEscape
  cases k.target with
  | none => simp
  | some w =>
    obtain ⟨v, fire⟩ := w
    simp

theorem State.findTrack_none (h : ∀ k ∈ (s.line l).tracks, ¬k.matchesCheck p (s.line l).cfg.margin t = true) :
    s.findTrack l p t = none := List.find?_eq_none.2 h

theorem State.findTrack_first {before rest : List Track} (hsplit : (s.line l).tracks = before ++ k :: rest)
    (hbefore : ∀ x ∈ before, ¬x.matchesCheck p (s.line l).cfg.margin t = true)
    (hk : k.matchesCheck p (s.line l).cfg.margin t = true) : s.findTrack l p t = some k :=
  List.find?_eq_some_iff_append.2 ⟨hk, before, rest, hsplit, fun x hx => by
    rw [Bool.eq_false_iff.2 (hbefore x hx)]
    rfl⟩

theorem sparkReport_primary (h : (s.point i).cfg.role ≠ some .check) :
    sparkReport i l t s =
      raiseTrigger (.sparkOnLine l)
        (detectionCases l i (s.point i).cfg.pos t (s.modLine l fun r => { r with sparks := bump r.sparks })) := by
  unfold sparkReport
  dsimp only
  cases hr : (s.point i).cfg.role with
  | none => rfl
  | some r =>
    cases r with
    | primary => rfl
    | check => exact absurd hr h

theorem sparkReport_check (h : (s.point i).cfg.role = some .check) :
    sparkReport i l t s =
      checkDetection l i (s.point i).cfg.pos t (s.point i).cfg.zone
        (s.modLine l fun r => { r with sparks := bump r.sparks }) := by
  unfold sparkReport
  dsimp only
  rw [h]

theorem checkDetection_unmatched (h : s.findTrack l p t = none) :
    checkDetection l i p t z s =
      if (s.line l).storm = true ∨ (s.line l).flood = true then
        raiseTrigger (.sparkOnLine l) (detectionCases l i p t s)
      else raiseEscapeAndSpark l (detectionCases l i p t (countEscape l z s)) := by
  unfold checkDetection
  rw [h]
  exact if_congr Bool.or_eq_true_iff rfl rfl

theorem checkDetection_escape (h : s.findTrack l p t = some k) (he : s.isEscape k p = true) :
    checkDetection l i p t z s = raiseEscapeAndSpark l (countEscape l z (markMatched l k.number p s)) := by
  unfold checkDetection
  rw [h]
  exact if_pos he

theorem checkDetection_confirmed (h : s.findTrack l p t = some k) (he : ¬s.isEscape k p = true) :
    checkDetection l i p t z s = raiseTrigger (.sparkOnLine l) (confirmTrack l k p t (markMatched l k.number p s)) := by
  unfold checkDetection
  rw [h]
  exact if_neg he

/-- R41, R42: a confirmation without a measurement. -/
theorem confirmTrack_plain
    (h : (s.line l).cfg.calibration = .off ∨ (t - k.detected).toNat = 0 ∨
      (p - k.originPosition) * 1000 / (t - k.detected).toNat < 20 ∨
      600 < (p - k.originPosition) * 1000 / (t - k.detected).toNat) :
    confirmTrack l k p t s = s.modLine l fun r => { r with confirmations := bump r.confirmations } := by
  unfold confirmTrack
  by_cases hoff : (s.line l).cfg.calibration = .off
  · exact if_pos hoff
  · refine (if_neg hoff).trans (if_neg ?_)
    rintro ⟨hspent, hlo, hhi⟩
    obtain h0 | hlow | hhigh := h.resolve_left hoff
    · exact hspent h0
    · exact absurd hlow (Nat.not_lt.2 hlo)
    · exact absurd hhigh (Nat.not_lt.2 hhi)

/-- R42: a confirmation that measures the speed. -/
theorem confirmTrack_measured (hcal : (s.line l).cfg.calibration ≠ .off) (hspent : (t - k.detected).toNat ≠ 0)
    (hlo : 20 ≤ (p - k.originPosition) * 1000 / (t - k.detected).toNat)
    (hhi : (p - k.originPosition) * 1000 / (t - k.detected).toNat ≤ 600) :
    confirmTrack l k p t s =
      recomputeSpeed l
        ((s.modLine l fun r => { r with confirmations := bump r.confirmations }).modLine l fun r =>
          { r with
            calibrated := some ((p - k.originPosition) * 1000 / (t - k.detected).toNat)
            calibrationCount := r.calibrationCount + 1
            cfg := { r.cfg with calibration := if r.cfg.calibration = .single then .off else r.cfg.calibration } }) := by
  unfold confirmTrack
  refine (if_neg hcal).trans ((if_pos ⟨hspent, hlo, hhi⟩).trans (congrArg (recomputeSpeed l) (State.modLine_congr ?_)))
  generalize (s.modLine l fun r => { r with confirmations := bump r.confirmations }).line l = r
  by_cases hs : r.cfg.calibration = .single
  · rw [if_pos hs, if_pos hs]
    exact rfl
  · rw [if_neg hs, if_neg hs]
    exact rfl

end

end Sys2Proof.Machine

namespace Sys2Proof

open Machine

/-- Settles O53: first the three cases, then a detection by its detector's role and the record it finds. -/
theorem detectionCases : Obligations.DetectionCases := by
  refine ⟨fun s l i p arrival => ⟨fun h => ?storm, fun hlen hst hfl => ?flood, fun hlen hst hfl => ?tracked⟩,
    fun s l i p t z => ⟨sparkReport_primary, sparkReport_check, fun hno => ?unmatched,
      fun before k rest hsplit hbefore hfits => ?matched⟩⟩
  case storm =>
    rw [detectionCases_storm h]
    exact stormCase_spec l s
  case flood =>
    rw [detectionCases_flood hlen hst hfl]
    obtain ⟨hline, hvalves, hstrikes⟩ := countUntracked_opened l (s.valvesBeyond l p) s
    exact ⟨hline, fun v hv hpos => hvalves v (List.mem_filter.2 ⟨hv, decide_eq_true hpos⟩), hstrikes⟩
  case tracked =>
    rw [detectionCases_tracked hlen hst hfl]
    have hwork := trackedCase_work l i p arrival s
    obtain ⟨hjoined, hnext, huntracked, hretire⟩ := State.line_joined s l (s.newTrack l i p arrival)
    obtain ⟨old, st, htracks, -, hlength, hold⟩ := hwork.tr _ _ hjoined rfl
    refine ⟨hwork.next.trans hnext, hwork.untr.trans huntracked, old, _, htracks, hlength, hold, rfl, rfl, rfl, rfl, rfl,
      rfl, rfl, hwork.ret.trans hretire, fun hnone => ?_, fun before v rest hsplit hbefore hfar => ?_⟩
    · have htarget := State.targetValve_none hnone
      rw [trackedCase_untargeted htarget] at htracks ⊢
      refine ⟨?_, congrArg Track.state (tail_unique (htracks.symm.trans hjoined)), rfl⟩
      exact congrArg (Option.map fun v => (v, s.fireTime l p arrival v)) htarget
    · have htarget := State.targetValve_first hsplit hbefore hfar
      obtain ⟨hstruck, hnormal⟩ := trackedCase_aimed htarget htracks
      refine ⟨s.fireTime l p arrival v, ?_, ?_, hstruck, hnormal⟩
      · exact congrArg (Option.map fun v => (v, s.fireTime l p arrival v)) htarget
      · unfold State.fireTime
        cases (s.line l).cfg.timing <;> rfl
  case unmatched =>
    have hnone := State.findTrack_none fun k hk hm => hno k hk (Track.matchesCheck_iff.1 hm)
    refine (checkDetection_unmatched hnone).trans ?_
    cases z <;> rfl
  case matched =>
    have hfirst := State.findTrack_first hsplit (fun x hx hm => hbefore x hx (Track.matchesCheck_iff.1 hm))
      (Track.matchesCheck_iff.2 hfits)
    intro matched escape confirmed spent speed
    have hescape : s.isEscape k p = true ↔ escape := State.isEscape_iff
    have hcal : (matched.line l).cfg.calibration = (s.line l).cfg.calibration := by
      rw [State.line_modLine]
    refine ⟨fun he => ?_, fun he hplain => ?_, fun he hon hspent hlo hhi => ?_⟩
    · refine (checkDetection_escape hfirst (hescape.2 he)).trans ?_
      cases z <;> rfl
    · refine (checkDetection_confirmed hfirst (mt hescape.1 he)).trans ?_
      exact congrArg (raiseTrigger (.sparkOnLine l)) (confirmTrack_plain (s := matched) (by rw [hcal]; exact hplain))
    · refine (checkDetection_confirmed hfirst (mt hescape.1 he)).trans ?_
      exact congrArg (raiseTrigger (.sparkOnLine l))
        (confirmTrack_measured (s := matched) (by rw [hcal]; exact hon) hspent hlo hhi)

end Sys2Proof
end

