-- ==== Sys2Proof/Proofs/Reports.lean ====
section
/-! PROOFS. Reports of other stations: how they are read (R17, R181, R182), counted and delivered (R16 to R19), and what each
block takes of them (R146, R150): O40. -/

namespace Sys2Proof.Machine

/-! ## Reading a report (R181, R182) -/

theorem flagByte_eq_some {b : Byte} {x : Bool} : flagByte b = some x ↔ b = if x then 1 else 0 := by
  unfold flagByte
  by_cases h1 : b = 1
  · subst h1
    cases x <;> decide
  · by_cases h0 : b = 0
    · subst h0
      cases x <;> decide
    · rw [if_neg h1, if_neg h0]
      cases x with
      | true => exact iff_of_false (Option.some_ne_none true).symm h1
      | false => exact iff_of_false (Option.some_ne_none false).symm h0

theorem codeOf_eq_some {n : Nat} {c : Code} : codeOf n = some c ↔ n = c.number := by
  constructor
  · intro h
    unfold codeOf at h
    split at h <;> cases h <;> rfl
  · rintro rfl
    cases c <;> rfl

theorem be16_read {hi lo : Byte} {v : Nat} (hv : v < 65536) :
    [hi, lo] = be16 v ↔ hi.toNat * 256 + lo.toNat = v := by
  unfold be16
  rw [List.cons.injEq, List.cons.injEq, ← BitVec.toNat_inj, ← BitVec.toNat_inj, BitVec.toNat_ofNat, BitVec.toNat_ofNat]
  have hhi := hi.isLt
  have hlo := lo.isLt
  refine ⟨fun ⟨h1, h2, _⟩ => by omega, fun h => ⟨by omega, by omega, rfl⟩⟩

/-- R17, R182: the frame kind, point kind and payload that a report is read from. -/
def Report.readFrom (kind : PointKind) (k : Byte) (payload : List Byte) : Report → Prop
  | .spark v => k = 2 ∧ kind = .spark ∧ payload = [v] ∧ v ≠ 0
  | .flame b => k = 3 ∧ kind = .flame ∧ payload = [if b then 1 else 0]
  | .air v => k = 4 ∧ kind = .airflow ∧ payload = be16 v ∧ v ≤ 600
  | .call b => k = 5 ∧ kind = .call ∧ payload = [if b then 1 else 0]
  | .status code fault =>
    k = 6 ∧ code ∈ kind.codes ∧ payload = [BitVec.ofNat 8 code.number, if fault then 1 else 0]

theorem readReport_some {kind : PointKind} {k : Byte} {payload : List Byte} {r : Report}
    (h : readReport kind k payload = some r) : r.readFrom kind k payload := by
  have hkind : ∀ n : Byte, k.toNat = n.toNat → k = n := fun _ => BitVec.eq_of_toNat_eq
  unfold readReport at h
  split at h
  · next v hk =>
    by_cases hv : v = 0
    · rw [if_pos hv] at h
      cases h
    · rw [if_neg hv] at h
      cases h
      exact ⟨hkind 2 hk, rfl, rfl, hv⟩
  · next b hk =>
    obtain ⟨x, hx, rfl⟩ := Option.map_eq_some_iff.1 h
    exact ⟨hkind 3 hk, rfl, congrArg (fun b => [b]) (flagByte_eq_some.1 hx)⟩
  · next hi lo hk =>
    dsimp only at h
    by_cases hv : hi.toNat * 256 + lo.toNat ≤ 600
    · rw [if_pos hv] at h
      cases h
      exact ⟨hkind 4 hk, rfl, (be16_read (by omega)).2 rfl, hv⟩
    · rw [if_neg hv] at h
      cases h
  · next b hk =>
    obtain ⟨x, hx, rfl⟩ := Option.map_eq_some_iff.1 h
    exact ⟨hkind 5 hk, rfl, congrArg (fun b => [b]) (flagByte_eq_some.1 hx)⟩
  · next kind _ _ _ c f hk =>
    split at h
    · next code fault hcode hfault =>
      by_cases hc : kind.codes.contains code = true
      · rw [if_pos hc] at h
        cases h
        refine ⟨hkind 6 hk, List.contains_iff_mem.1 hc, ?_⟩
        rw [← flagByte_eq_some.1 hfault, ← codeOf_eq_some.1 hcode, BitVec.ofNat_toNat, BitVec.setWidth_eq]
      · rw [if_neg hc] at h
        cases h
    · cases h
  · cases h

theorem readReport_status {kind : PointKind} {c f : Byte} {code : Code} {fault : Bool} (hc : codeOf c.toNat = some code)
    (hf : flagByte f = some fault) :
    readReport kind 6 [c, f] = if kind.codes.contains code then some (.status code fault) else none := by
  have hread : ∀ (a : Option Code) (b : Option Bool), codeOf c.toNat = a → flagByte f = b →
      readReport kind 6 [c, f] =
        match a, b with
        | some code, some fault => if kind.codes.contains code then some (.status code fault) else none
        | _, _ => none := by
    rintro _ _ rfl rfl
    cases kind <;> rfl
  exact hread _ _ hc hf

theorem readReport_iff (kind : PointKind) (k : Byte) (payload : List Byte) (r : Report) :
    readReport kind k payload = some r ↔
      r.readFrom kind k payload := by
  refine ⟨readReport_some, ?_⟩
  cases r with
  | spark v =>
    rintro ⟨rfl, rfl, rfl, hv⟩
    exact if_neg hv
  | flame b =>
    rintro ⟨rfl, rfl, rfl⟩
    cases b <;> rfl
  | air v =>
    rintro ⟨rfl, rfl, rfl, hv⟩
    have hread := (be16_read (v := v) (by omega)).1 rfl
    refine (if_pos (?_ : _ ≤ 600)).trans (congrArg (fun v => some (Report.air v)) hread)
    rw [hread]
    exact hv
  | call b =>
    rintro ⟨rfl, rfl, rfl⟩
    cases b <;> rfl
  | status code fault =>
    rintro ⟨rfl, hcode, rfl⟩
    have hnumber : codeOf (BitVec.ofNat 8 code.number).toNat = some code := by cases code <;> rfl
    have hfault : flagByte (if fault then 1 else 0) = some fault := flagByte_eq_some.2 rfl
    exact (readReport_status hnumber hfault).trans (if_pos (List.contains_iff_mem.2 hcode))

/-! ## The point a report names (R17) -/

section
variable {s : State} {f : Frame} {i : PointIx}

theorem State.findPoint_none {a c : Byte} :
    s.findPoint a c = none ↔
      ∀ i, (s.point i).cfg.kind = .unused ∨ (s.point i).cfg.station ≠ a ∨ (s.point i).cfg.channel ≠ c := by
  unfold State.findPoint allPoints PointCfg.used
  simp only [List.find?_eq_none, List.mem_finRange, forall_const, Bool.and_eq_true, bne_iff_ne, beq_iff_eq, not_and_or,
    not_not, or_assoc, ne_eq]

theorem State.findPoint_some {a c : Byte} (h : s.findPoint a c = some i) :
    (s.point i).cfg.kind ≠ .unused ∧ (s.point i).cfg.station = a ∧ (s.point i).cfg.channel = c := by
  have hfound := List.find?_some h
  simp only [PointCfg.used, Bool.and_eq_true, bne_iff_ne, beq_iff_eq, and_assoc] at hfound
  exact hfound

theorem Frame.isReport_iff (f : Frame) : f.isReport = true ↔ f.kind ∈ [2#8, 3, 4, 5, 6] := by
  unfold Frame.isReport
  simp only [decide_eq_true_iff, List.mem_cons, List.not_mem_nil, or_false, ← BitVec.toNat_inj, BitVec.toNat_ofNat,
    BitVec.ofNat_eq_ofNat]
  omega

theorem State.ownRequest_of_report (h : f.isReport = true) : s.ownRequest f = false := by
  refine Bool.eq_false_iff.2 fun hr => ?_
  obtain ⟨hkind, -, -⟩ := State.ownRequest_iff.1 hr
  have hmem := (Frame.isReport_iff f).1 h
  rw [hkind] at hmem
  exact absurd hmem (by decide)

/-! ## Counting and delivering a report (R16 to R19) -/

theorem classifyFrame_report (hsrc : f.src ≠ s.device.own) (hr : f.isReport = true) (ha : s.active = true) :
    classifyFrame f s = takeReport f s := by
  unfold classifyFrame classify
  exact (if_neg hsrc).trans (if_pos (by rw [ha, hr]; rfl))

theorem takeReport_unmapped (h : s.findPoint f.src f.channel = none) :
    takeReport f s = { s with classifier := { s.classifier with unmapped := bump s.classifier.unmapped } } := by
  unfold takeReport
  rewrite [h]
  exact rfl

theorem takeReport_bad (h : s.findPoint f.src f.channel = some i)
    (hr : readReport (s.point i).cfg.kind f.kind f.payload = none) : takeReport f s = badValue i s.clock s := by
  unfold takeReport
  rw [h]
  dsimp only
  rw [hr]

theorem takeReport_delivered {r : Report} (h : s.findPoint f.src f.channel = some i)
    (hr : readReport (s.point i).cfg.kind f.kind f.payload = some r) : takeReport f s = deliver i r s.clock s := by
  unfold takeReport
  rw [h]
  dsimp only
  rw [hr]

/-- R19: the report of a point is counted there, and leaves its contact state. -/
theorem deliver_eq (i : PointIx) (r : Report) (a : Time) (s : State) :
    deliver i r a s =
      handOn i r a
        (heard i a
          { s.modPoint i fun p =>
              { p with reports := bump p.reports, contact := r.contact (s.point i).contact } with
            classifier := { s.classifier with delivered := bump s.classifier.delivered } }) := by
  have hcontact :
      (s.modPoint i fun p => { p with reports := bump p.reports, contact := r.contact p.contact }) =
        s.modPoint i fun p => { p with reports := bump p.reports, contact := r.contact (s.point i).contact } :=
    State.modPoint_congr rfl
  rw [← hcontact]
  exact rfl

/-- R150: what hearing a point leaves of it, and that no other point changes. -/
theorem heard_point (i : PointIx) (a : Time) (s : State) :
    (heard i a s).point i =
      { s.point i with
        drive := { (s.point i).drive with lastHeard := some a, pollPlaced := none, unsupervised := false } } := by
  unfold heard
  dsimp only
  split
  · rw [recountFaults_point, State.point_modDrive]
  · rw [State.point_modDrive]

/-- R16 to R19: what a report of another station leaves of the classifier's counters and of the points. -/
structure ReportCounted (f : Frame) (s t : State) : Prop where
  unmapped : s.findPoint f.src f.channel = none →
    t.classifier = { s.classifier with unmapped := bump s.classifier.unmapped } ∧ t.points = s.points
  bad : ∀ i, s.findPoint f.src f.channel = some i → readReport (s.point i).cfg.kind f.kind f.payload = none →
    t.classifier = { s.classifier with badValue := bump s.classifier.badValue } ∧
      (t.point i).drive.lastHeard = some s.clock ∧ (t.point i).drive.unsupervised = false ∧
      (t.point i).drive.pollPlaced = none ∧ ∀ j, j ≠ i → t.point j = s.point j
  delivered : ∀ i, s.findPoint f.src f.channel = some i → readReport (s.point i).cfg.kind f.kind f.payload ≠ none →
    t.classifier = { s.classifier with delivered := bump s.classifier.delivered }

/-- What a report may do besides plain work: raise levels and trigger events, and count in the spark windows. -/
def reporting : Allow := { plain with raise := True, window := True }

theorem heard_classifier (i : PointIx) (a : Time) (s : State) : (heard i a s).classifier = s.classifier :=
  (heard_moves (q := reporting) (.refl (s := s))).classifier id

theorem classifyFrame_counted (hsrc : f.src ≠ s.device.own) (hr : f.isReport = true) (ha : s.active = true) :
    ReportCounted f s (classifyFrame f s) where
  unmapped hnone := by
    rw [classifyFrame_report hsrc hr ha, takeReport_unmapped hnone]
    exact ⟨rfl, rfl⟩
  bad i hi hbad := by
    rw [classifyFrame_report hsrc hr ha, takeReport_bad hi hbad]
    unfold badValue
    rw [heard_point, heard_classifier]
    refine ⟨rfl, rfl, rfl, rfl, fun j hj => ?_⟩
    exact (heard_driveOnly (on := fun k => k = i) rfl (.refl _)).point j hj
  delivered i hi hgood := by
    obtain ⟨r, hread⟩ := Option.ne_none_iff_exists'.1 hgood
    rw [classifyFrame_report hsrc hr ha, takeReport_delivered hi hread, deliver_eq]
    have hmoves := handOn_moves (q := reporting) (i := i) (r := r) (a := s.clock) trivial trivial
      (.refl (s := heard i s.clock
        { s.modPoint i fun p => { p with reports := bump p.reports, contact := r.contact (s.point i).contact } with
          classifier := { s.classifier with delivered := bump s.classifier.delivered } }))
    exact (hmoves.classifier id).trans (heard_classifier _ _ _)

/-- R153, R16: an arriving report is counted as it would be alone: the port's part leaves the classifier and the points. -/
theorem frameArrival_counted {bytes : List Byte} (hread : readFrame bytes = some f) (ha : s.active = true)
    (hl : s.port.upstreamLost = false) (hsrc : f.src ≠ s.device.own) (hr : f.isReport = true) :
    ∃ t, exec (.frameArrival bytes) s = .next t ∧ ReportCounted f s t := by
  refine ⟨_, exec_frameArrival_good hread, ?_⟩
  have hno : (countArrival s).ownRequest f = false := State.ownRequest_of_report hr
  rw [goodFrame_other hno hl]
  obtain ⟨d, hd⟩ := restartSilence_port (u := countArrival s) hl
  refine (eitherOrder_someOrder (classifyFrame f) (route f) (restartSilence (countArrival s))).once
    (B := fun u => ∃ p n, u = { s with port := p, draws := n }) (A := ReportCounted f s) ?_ ?_ (.refl _) ?_ ?_ ?_
  · rintro u n ⟨p, m, rfl⟩
    exact ⟨p, n, rfl⟩
  · exact fun u n hu => ⟨hu.unmapped, hu.bad, hu.delivered⟩
  · rintro u ⟨p, n, rfl⟩
    obtain ⟨hun, hbad, hdel⟩ := classifyFrame_counted (f := f) (s := { s with port := p, draws := n }) hsrc hr ha
    exact ⟨hun, hbad, hdel⟩
  · intro g hg u
    rw [List.mem_singleton.1 hg]
    obtain ⟨q, hq⟩ := route_port f u
    rw [hq]
    refine ⟨?_, fun hu => ⟨hu.unmapped, hu.bad, hu.delivered⟩⟩
    rintro ⟨p, n, rfl⟩
    exact ⟨q, n, rfl⟩
  · rw [hd]
    exact ⟨_, s.draws, rfl⟩

/-! ## What the blocks take of a report (R19, R25 to R29, R44, R146) -/

theorem trackFlame_opens {l : LineIx} (h : (s.point i).cfg.line = some l) :
    trackFlame i true s = openNow (s.valvesBeyond l (s.point i).cfg.pos) s := trackFlame_active h

/-- R19: a point without a line has nothing to track. -/
theorem track_unlined (h : (s.point i).cfg.line = none) (a : Time) :
    trackSpark i a s = s ∧ (∀ v, deliverAir i v a s = s) ∧ trackFlame i true s = s := by
  unfold trackSpark deliverAir trackFlame
  rw [h]
  exact ⟨rfl, fun _ => rfl, rfl⟩

/-- R19: a point without a zone has nothing to deliver. -/
theorem deliver_unzoned (h : (s.point i).cfg.zone = none) :
    deliverSpark i s = s ∧ deliverFlame i true s = s ∧ deliverCall i true s = s := by
  unfold deliverSpark deliverFlame deliverCall
  rw [h]
  exact ⟨rfl, rfl, rfl⟩

theorem track_lined {l : LineIx} (h : (s.point i).cfg.line = some l) (a : Time) :
    trackSpark i a s = sparkReport i l a s ∧ ∀ v, deliverAir i v a s = airReport i l v a s := by
  unfold trackSpark deliverAir
  rw [h]
  exact ⟨rfl, fun _ => rfl⟩

theorem deliverSpark_zoned {z : ZoneIx} (h : (s.point i).cfg.zone = some z) : deliverSpark i s = countSpark z s := by
  unfold deliverSpark
  rw [h]

/-- R27: the effective speed is stored. -/
def storeSpeed (l : LineIx) (s : State) : State :=
  s.modLine l fun r => { r with speed := s.effectiveSpeed l, speedStale := s.staleSpeed l }

theorem recomputeSpeed_eq (l : LineIx) (s : State) :
    recomputeSpeed l s =
      if decide (s.effectiveSpeed l < (s.line l).cfg.floor) = (s.line l).flood then storeSpeed l s
      else if s.effectiveSpeed l < (s.line l).cfg.floor then enterFlood l (storeSpeed l s)
      else leaveFlood l (storeSpeed l s) := by
  unfold recomputeSpeed
  exact if_congr Iff.rfl rfl (if_congr decide_eq_true_iff rfl rfl)

/-- R28: a speed on the side of the floor where the line already is. -/
theorem recomputeSpeed_stays {l : LineIx} (h : s.effectiveSpeed l < (s.line l).cfg.floor ↔ (s.line l).flood = true) :
    recomputeSpeed l s = storeSpeed l s := by
  rw [recomputeSpeed_eq, if_pos]
  rw [Bool.eq_iff_iff, decide_eq_true_iff]
  exact h

theorem recomputeSpeed_floods {l : LineIx} (h : s.effectiveSpeed l < (s.line l).cfg.floor)
    (hf : (s.line l).flood = false) : recomputeSpeed l s = enterFlood l (storeSpeed l s) := by
  rw [recomputeSpeed_eq, hf, decide_eq_true h, if_neg (by decide), if_pos h]

theorem recomputeSpeed_leaves {l : LineIx} (h : (s.line l).cfg.floor ≤ s.effectiveSpeed l)
    (hf : (s.line l).flood = true) : recomputeSpeed l s = leaveFlood l (storeSpeed l s) := by
  rw [recomputeSpeed_eq, hf, decide_eq_false (Nat.not_lt.2 h), if_neg (by decide), if_neg (Nat.not_lt.2 h)]

/-! ## Status reports (R146) -/

variable {code : Code}

/-- R146: the reported state of a record taken, before it is passed on. -/
def takeReported (i : PointIx) (code : Code) (s : State) : State :=
  s.modPoint i fun p => { p with drive := { p.drive with reported := some code } }

theorem takeCode_same (h : (s.point i).drive.reported = some code) : takeCode i code s = s := by
  unfold takeCode
  exact if_pos h

theorem takeCode_changed (h : (s.point i).drive.reported ≠ some code) :
    takeCode i code s = passOn (s.valveDisagrees i) i code (takeReported i code s) := by
  unfold takeCode
  exact if_neg h

theorem takeReported_cfg (i : PointIx) (code : Code) (s : State) (j : PointIx) :
    ((takeReported i code s).point j).cfg = (s.point j).cfg := by
  unfold takeReported
  rw [State.point_modPoint_if]
  split
  · next h => rw [h]
  · rfl

theorem takeReported_doorActive (i : PointIx) (code : Code) (s : State) (d : DoorIx) :
    (takeReported i code s).doorActive d = s.doorActive d := by
  unfold State.doorActive State.isKind
  simp only [takeReported_cfg]
  exact rfl

theorem takeReported_doorsListing (i : PointIx) (code : Code) (s : State) :
    (takeReported i code s).doorsListing i =
      (List.finRange 24).filter fun d => s.doorActive d && (s.door d).cfg.conveyors.contains i := by
  unfold State.doorsListing
  refine List.filter_congr fun d _ => ?_
  rw [takeReported_doorActive]
  exact rfl

theorem takeReported_doorsOfPoint (i : PointIx) (code : Code) (s : State) :
    (takeReported i code s).doorsOfPoint i =
      (List.finRange 24).filter fun d => s.doorActive d && (s.door d).cfg.point == some i := by
  unfold State.doorsOfPoint
  refine List.filter_congr fun d _ => ?_
  rw [takeReported_doorActive]
  exact rfl

section
variable {before : Bool} {u : State} {l : LineIx}

theorem passOn_valve (hk : (u.point i).cfg.kind = .valve) : passOn before i code u = valveReported before i u := by
  unfold passOn
  dsimp only
  rw [hk]

theorem passOn_gate (hk : (u.point i).cfg.kind = .gate) (hl : (u.point i).cfg.line = some l) :
    passOn before i code u = gateReported l code u := by
  unfold passOn
  dsimp only
  rw [hk]
  dsimp only
  rw [hl]

theorem passOn_fan (hk : (u.point i).cfg.kind = .fan) (hl : (u.point i).cfg.line = some l) :
    passOn before i code u = testShut l u := by
  unfold passOn
  dsimp only
  rw [hk]
  dsimp only
  rw [hl]

theorem passOn_conveyor (hk : (u.point i).cfg.kind = .conveyor) :
    passOn before i code u = inAnyOrder ((u.doorsListing i).map conveyorReported) u := by
  unfold passOn
  dsimp only
  rw [hk]

theorem passOn_door (hk : (u.point i).cfg.kind = .door) :
    passOn before i code u = inAnyOrder ((u.doorsOfPoint i).map fun d => doorReported d code) u := by
  unfold passOn
  dsimp only
  rw [hk]

theorem passOn_nothing (hk : (u.point i).cfg.kind = .siren ∨ (u.point i).cfg.kind = .spark ∨
    (u.point i).cfg.kind = .flame ∨ (u.point i).cfg.kind = .airflow ∨ (u.point i).cfg.kind = .call) :
    passOn before i code u = u := by
  unfold passOn
  dsimp only
  obtain hk | hk | hk | hk | hk := hk <;> rw [hk]

end

end

/-- Settles O40: an arriving report, the classifier alone, the reading of a report, and what each block takes of one. -/
theorem reportsCounted : Obligations.ReportsCounted := by
  refine ⟨fun s bytes f hread ha hl hsrc hr => ?arrival, fun f s => ⟨Frame.isReport_iff f, classifyFrame_idle,
    fun hsrc hr ha => ⟨fun hnone => ?unmapped, fun i hi => ?mapped⟩⟩, fun kind k payload r => ?reading,
    ⟨rfl, rfl, rfl, rfl, rfl, rfl, by decide, by decide⟩, fun s i a => ?blocks⟩
  case arrival =>
    obtain ⟨t, ht, hcounted⟩ := frameArrival_counted hread ha hl hsrc hr
    exact ⟨t, ht, hcounted.unmapped, fun i hi => ⟨hcounted.bad i hi, hcounted.delivered i hi⟩⟩
  case unmapped =>
    rw [classifyFrame_report hsrc hr ha, takeReport_unmapped (State.findPoint_none.2 hnone)]
  case mapped =>
    obtain ⟨hkind, hstation, hchannel⟩ := State.findPoint_some hi
    refine ⟨hkind, hstation, hchannel, fun hbad => ?_, fun r hgood => ?_⟩
    · rw [classifyFrame_report hsrc hr ha, takeReport_bad hi hbad]
      exact rfl
    · rw [classifyFrame_report hsrc hr ha, takeReport_delivered hi hgood, deliver_eq]
      cases r <;> rfl
  case reading =>
    refine (readReport_iff kind k payload r).trans ?_
    cases r <;> exact Iff.rfl
  case blocks =>
    refine ⟨rfl, fun v => eitherOrder_someOrder _ _ s, fun b => eitherOrder_someOrder _ _ s, fun v => rfl, fun b => rfl,
      fun code fault => rfl, fun l hl => ?lined, fun hl => track_unlined hl a, trackFlame_clear i s,
      deliverFlame_clear i s, deliverCall_clear i s, fun z hz => ?zoned, deliver_unzoned, fun l => ?speed,
      fun code fault => ?_⟩
    case lined =>
      obtain ⟨hspark, hair⟩ := track_lined hl a
      exact ⟨hspark, hair, trackFlame_opens hl⟩
    case zoned => exact ⟨deliverSpark_zoned hz, deliverFlame_active hz, deliverCall_active hz⟩
    case speed =>
      intro r fresh v stored
      have hv : s.effectiveSpeed l = v := State.effectiveSpeed_eq (fresh := fresh) rfl
      have hstored : storeSpeed l s = stored := by
        unfold storeSpeed
        rw [hv]
        exact State.modLine_congr rfl
      rw [← hv, ← hstored]
      exact ⟨recomputeSpeed_stays, recomputeSpeed_floods, recomputeSpeed_leaves⟩
    refine ⟨rfl, fun u b h => if_pos h, fun u b h => if_neg h, takeCode_same, fun hne => ?_⟩
    have hcfg := takeReported_cfg i code s i
    have htook : takeCode i code s = passOn (s.valveDisagrees i) i code (takeReported i code s) := takeCode_changed hne
    refine ⟨fun hk => ?_, fun l hk hl => ?_, fun l hk hl => ?_, fun hk => ?_, fun hk => ?_, fun hk => ?_⟩
    · exact htook.trans (passOn_valve (by rw [hcfg]; exact hk))
    · exact htook.trans (passOn_gate (by rw [hcfg]; exact hk) (by rw [hcfg]; exact hl))
    · exact htook.trans (passOn_fan (by rw [hcfg]; exact hk) (by rw [hcfg]; exact hl))
    · rw [htook, passOn_conveyor (by rw [hcfg]; exact hk), takeReported_doorsListing]
      exact inAnyOrder_someOrder _ _
    · rw [htook, passOn_door (by rw [hcfg]; exact hk), takeReported_doorsOfPoint]
      exact inAnyOrder_someOrder _ _
    · exact htook.trans (passOn_nothing (by rw [hcfg]; exact hk))

end Sys2Proof.Machine
end

