-- ==== Sys2Proof/Proofs/RoundTrips.lean ====
section
/-! PROOFS. What is written is read back: frames and their check (R178 to R180), Requests (R184), and the configuration parts
(R187 to R189): O41. -/

namespace Sys2Proof.Machine

/-! ## Fields (R178, R188) -/

theorem toNat_byte {v : Nat} (hv : v < 256) : (BitVec.ofNat 8 v).toNat = v := by
  rw [BitVec.toNat_ofNat]
  exact Nat.mod_eq_of_lt hv

/-- R178: the two bytes of a field, high byte first, make its value. -/
theorem toNat_be16 {v : Nat} (hv : v < 65536) : (BitVec.ofNat 8 (v / 256)).toNat * 256 + (BitVec.ofNat 8 v).toNat = v :=
  (be16_read hv).1 rfl

/-- R178: the four bytes of a field, high byte first, make its value. -/
theorem be32_joined (w : BitVec 32) :
    w.extractLsb' 24 8 ++ w.extractLsb' 16 8 ++ w.extractLsb' 8 8 ++ w.extractLsb' 0 8 = w := by
  apply BitVec.eq_of_getLsbD_eq
  intro i hi
  simp only [BitVec.getLsbD_append, BitVec.getLsbD_extractLsb']
  grind

/-- R188: a value below the two markers is read as it is. -/
theorem marked_value {ones v : Nat} {fallback : Option Nat} (hv : v + 1 < ones) : marked ones fallback v = some v := by
  unfold marked
  rw [if_neg (by omega), if_neg (by omega)]

theorem marked_absent (ones : Nat) (fallback : Option Nat) : marked ones fallback ones = none := if_pos rfl

/-- R188: a value in its range is read as it is. -/
theorem needed_value {ones fallback v lo hi : Nat} (hv : v + 1 < ones) (hlo : lo ≤ v) (hhi : v ≤ hi) :
    needed ones fallback v lo hi = some v := by
  unfold needed
  rw [marked_value hv]
  exact if_pos ⟨hlo, hhi⟩

theorem needed_byte {fallback v lo hi : Nat} (hv : v < 254) (hlo : lo ≤ v) (hhi : v ≤ hi) :
    needed ones1 fallback (BitVec.ofNat 8 v).toNat lo hi = some v := by
  rw [toNat_byte (by omega)]
  exact needed_value (Nat.succ_lt_succ hv) hlo hhi

theorem needed_be16 {fallback v lo hi : Nat} (hv : v < 65534) (hlo : lo ≤ v) (hhi : v ≤ hi) :
    needed ones2 fallback ((BitVec.ofNat 8 (v / 256)).toNat * 256 + (BitVec.ofNat 8 v).toNat) lo hi = some v := by
  rw [toNat_be16 (by omega)]
  exact needed_value (Nat.succ_lt_succ hv) hlo hhi

theorem needed_flag (fallback : Nat) (x : Bool) :
    needed ones1 fallback (if x then 1 else 0 : Byte).toNat 0 1 = some (if x then 1 else 0) := by
  cases x <;> rfl

/-- R188: a field that may stand absent, of one byte and of two. -/
theorem marked_orOnes1 {fallback v : Option Nat} (hv : ∀ x, v = some x → x < 254) :
    marked ones1 fallback (BitVec.ofNat 8 (v.getD ones1)).toNat = v := by
  cases v with
  | none => exact marked_absent ones1 fallback
  | some x =>
    have hx := hv x rfl
    rw [Option.getD_some, toNat_byte (by omega)]
    exact marked_value (Nat.succ_lt_succ hx)

theorem marked_orOnes2 {fallback v : Option Nat} (hv : ∀ x, v = some x → x < 65534) :
    marked ones2 fallback
      ((BitVec.ofNat 8 (v.getD ones2 / 256)).toNat * 256 + (BitVec.ofNat 8 (v.getD ones2)).toNat) = v := by
  cases v with
  | none => exact marked_absent ones2 fallback
  | some x =>
    have hx := hv x rfl
    rw [Option.getD_some, toNat_be16 (by omega)]
    exact marked_value (Nat.succ_lt_succ hx)

/-- A range that ends below the markers. -/
theorem rangeOk_below {lo hi : Nat} {v : Option Nat} (h : rangeOk lo hi v = true) {n : Nat} (hhi : hi < n) :
    ∀ x, v = some x → x < n := by
  rintro x rfl
  obtain ⟨_, hx⟩ := within_iff.1 h
  omega

/-! ## Indices -/

theorem indexBelow_byte {n : Nat} (hn : n ≤ 256) (i : Fin n) : indexBelow n (BitVec.ofNat 8 i.val).toNat = some i := by
  rw [toNat_byte (lt_of_lt_of_le i.isLt hn)]
  exact indexBelow_val i rfl

theorem pinOfNumber_byte (i : Fin 8) : pinOfNumber (BitVec.ofNat 8 (i.val + 1)).toNat = some i := by
  have hi := i.isLt
  rw [toNat_byte (by omega)]
  unfold pinOfNumber
  rw [dif_pos (by omega)]
  rfl

theorem optionalIndex_orOnes1 {n : Nat} (hn : n ≤ 254) (i : Option (Fin n)) :
    optionalIndex n (BitVec.ofNat 8 ((indexNat i).getD ones1)).toNat = some i := by
  cases i with
  | none => rfl
  | some i =>
    have hi := i.isLt
    show optionalIndex n (BitVec.ofNat 8 i.val).toNat = some (some i)
    rw [toNat_byte (by omega)]
    unfold optionalIndex ones1
    rw [if_neg (by omega), dif_pos hi]

theorem presentIndex_orOnes1 {n : Nat} (hn : n ≤ 254) (i : Option (Fin n)) :
    presentIndex n (BitVec.ofNat 8 ((indexNat i).getD ones1)).toNat = some i := by
  cases i with
  | none => rfl
  | some i =>
    have hi := i.isLt
    show presentIndex n (BitVec.ofNat 8 i.val).toNat = some (some i)
    rw [toNat_byte (by omega)]
    unfold presentIndex ones1
    rw [if_neg (by omega), dif_pos hi]

theorem optionalPoint_orOnes2 (i : Option PointIx) :
    optionalPoint ((BitVec.ofNat 8 ((indexNat i).getD ones2 / 256)).toNat * 256
      + (BitVec.ofNat 8 ((indexNat i).getD ones2)).toNat) = some i := by
  cases i with
  | none => exact (congrArg optionalPoint (toNat_be16 (v := ones2) (by decide))).trans (if_pos (Or.inl rfl))
  | some i =>
    have hi : i.val < 256 := i.isLt
    refine (congrArg optionalPoint (toNat_be16 (by omega : i.val < 65536))).trans ?_
    unfold optionalPoint ones2
    rw [if_neg (by omega), dif_pos hi]

/-- R187: a list that keeps its maximum is read as it is, with what follows it. -/
theorem readList_listBytes {n : Nat} {l : List PointIx} (hl : l.length ≤ n) (hn : n < 254) (rest : List Byte) :
    readList n (listBytes l ++ rest) = some (l, rest) := by
  have hcount : (BitVec.ofNat 8 l.length).toNat = l.length := toNat_byte (by omega)
  have hne : BitVec.ofNat 8 l.length ≠ 254 := by
    intro h
    have : (BitVec.ofNat 8 l.length).toNat = 254 := by rw [h]; rfl
    omega
  have hlen : (l.map fun i => BitVec.ofNat 8 i.val).length = l.length := List.length_map ..
  have hback : ((l.map fun i => BitVec.ofNat 8 i.val).map fun b => b.toFin) = l := by
    rw [List.map_map]
    refine (List.map_congr_left fun i _ => ?_).trans (List.map_id l)
    exact Fin.ext (toNat_byte i.isLt)
  show readList n (BitVec.ofNat 8 l.length :: ((l.map fun i => BitVec.ofNat 8 i.val) ++ rest)) = some (l, rest)
  unfold readList
  dsimp only
  rw [if_neg hne, hcount, if_pos ⟨hl, by rw [List.length_append, hlen]; omega⟩, List.take_left' hlen,
    List.drop_left' hlen, hback]

/-! ## Codes (R189) -/

theorem kindOf_code (k : PointKind) : kindOf (BitVec.ofNat 8 k.code).toNat = some k := by
  cases k <;> rfl

theorem levelOf_rank (n : Level) : levelOf n.rank = some (some n) := by
  cases n <;> rfl

theorem tripModeOf_code (m : TripMode) : (needed ones1 0 (BitVec.ofNat 8 m.code).toNat 0 3).bind tripModeOf = some m := by
  cases m <;> rfl

/-- R66: a level in its range is read as it is. -/
theorem levelIn_rank {fallback lo : Nat} {n : Level} (h : n.between lo 4 = true) :
    levelIn fallback (BitVec.ofNat 8 n.rank).toNat lo = some n := by
  obtain ⟨hlo, hhi⟩ := within_iff.1 h
  unfold levelIn
  rw [needed_byte (by omega) hlo hhi]
  exact congrArg Option.join (levelOf_rank n)

theorem thresholdOf_level {fallback : Nat} {o : Option Level} (h : ∀ n, o = some n → n.between 2 4 = true) :
    thresholdOf fallback (BitVec.ofNat 8 (levelCode o)).toNat = some o := by
  cases o with
  | none => rfl
  | some n =>
    obtain ⟨hlo, hhi⟩ := within_iff.1 (h n rfl)
    show thresholdOf fallback (BitVec.ofNat 8 n.rank).toNat = some (some n)
    unfold thresholdOf
    rw [needed_byte (by omega) hlo (by omega)]
    exact levelOf_rank n

/-! ## Triggers, sources and actions (R189) -/

theorem indexByte_map {n : Nat} {α : Type} (f : Fin n → α) (i : Fin n) (hn : n ≤ 256) :
    (indexBelow n (BitVec.ofNat 8 i.val).toNat).map f = some (f i) := by
  rw [indexBelow_byte hn]
  rfl

theorem pinByte_map {α : Type} (f : Fin 8 → α) (i : Fin 8) :
    (pinOfNumber (BitVec.ofNat 8 (i.val + 1)).toNat).map f = some (f i) := by
  rw [pinOfNumber_byte]
  rfl

theorem Trigger.bytes_read (t : Trigger) : ∃ k p, t.bytes = [k, p] ∧ triggerOf k.toNat p.toNat = some t := by
  cases t with
  | sparkOnLine l => exact ⟨_, _, rfl, indexByte_map Trigger.sparkOnLine l (by decide)⟩
  | sparkInZone z => exact ⟨_, _, rfl, indexByte_map Trigger.sparkInZone z (by decide)⟩
  | escapeOnLine l => exact ⟨_, _, rfl, indexByte_map Trigger.escapeOnLine l (by decide)⟩
  | levelChange z => exact ⟨_, _, rfl, indexByte_map Trigger.levelChange z (by decide)⟩
  | slotEnd z => exact ⟨_, _, rfl, indexByte_map Trigger.slotEnd z (by decide)⟩
  | inputEdge i => exact ⟨_, _, rfl, pinByte_map Trigger.inputEdge i⟩
  | tick => exact ⟨_, _, rfl, rfl⟩

theorem Source.bytes_read (s : Source) : ∃ k p, s.bytes = [k, p] ∧ sourceOf k.toNat p.toNat = some s := by
  cases s with
  | zoneWindow z => exact ⟨_, _, rfl, indexByte_map Source.zoneWindow z (by decide)⟩
  | zoneSparks z => exact ⟨_, _, rfl, indexByte_map Source.zoneSparks z (by decide)⟩
  | lineEscapes l => exact ⟨_, _, rfl, indexByte_map Source.lineEscapes l (by decide)⟩
  | lineConfirms l => exact ⟨_, _, rfl, indexByte_map Source.lineConfirms l (by decide)⟩
  | lineStrikes l => exact ⟨_, _, rfl, indexByte_map Source.lineStrikes l (by decide)⟩
  | lineLate l => exact ⟨_, _, rfl, indexByte_map Source.lineLate l (by decide)⟩
  | lineSpeed l => exact ⟨_, _, rfl, indexByte_map Source.lineSpeed l (by decide)⟩
  | openValves l => exact ⟨_, _, rfl, indexByte_map Source.openValves l (by decide)⟩
  | inputCount i => exact ⟨_, _, rfl, pinByte_map Source.inputCount i⟩
  | inputLevel i => exact ⟨_, _, rfl, pinByte_map Source.inputLevel i⟩

theorem SourceUse.bytes_read (u : SourceUse) :
    ∃ k p f, u.bytes = [k, p, f] ∧ sourceUseOf k.toNat p.toNat f.toNat = some u := by
  obtain ⟨source, used, negated⟩ := u
  obtain ⟨k, p, hbytes, hread⟩ := source.bytes_read
  refine ⟨k, p, BitVec.ofNat 8 ((if used then 1 else 0) + (if negated then 2 else 0)), ?_, ?_⟩
  · unfold SourceUse.bytes
    rw [hbytes]
    rfl
  · unfold sourceUseOf
    rw [hread]
    cases used <;> cases negated <;> rfl

/-- R82: a level an action may raise to. -/
theorem raisedLevel_rank {n : Level} (h : n.between 1 4 = true) :
    (if 1 ≤ (BitVec.ofNat 8 n.rank).toNat ∧ (BitVec.ofNat 8 n.rank).toNat ≤ 4
      then (levelOf (BitVec.ofNat 8 n.rank).toNat).join else none) = some n := by
  obtain ⟨hlo, hhi⟩ := within_iff.1 h
  rw [toNat_byte (by omega), if_pos ⟨hlo, hhi⟩, levelOf_rank]
  rfl

theorem Action.bytes_read (c : Action) (h : c.levelOk = true) :
    ∃ k a b, c.bytes = [k, a, b] ∧ actionOf k.toNat a.toNat b.toNat = some c := by
  cases c with
  | nothing => exact ⟨_, _, _, rfl, rfl⟩
  | raiseLevel z n =>
    refine ⟨_, _, _, rfl, ?_⟩
    have hz := indexBelow_byte (by decide : 32 ≤ 256) z
    have hn := raisedLevel_rank h
    unfold actionOf
    dsimp only [BitVec.reduceToNat]
    rw [hz, hn]
    rfl
  | shutLine l => exact ⟨_, _, _, rfl, indexByte_map Action.shutLine l (by decide)⟩
  | outputOn q => exact ⟨_, _, _, rfl, pinByte_map Action.outputOn q⟩
  | outputOff q => exact ⟨_, _, _, rfl, pinByte_map Action.outputOff q⟩
  | notice => exact ⟨_, _, _, rfl, rfl⟩

/-! ## Configuration parts (R187) -/

theorem readDevice_write (c : DeviceCfg) (m : Mode) (h : c.rangesOk = true) : readDevice (c.write m) = some c := by
  obtain ⟨_, hown, _, hsup, _, hslo, hshi, hrlo, hrhi⟩ := c.rangesOk_iff.1 h
  have rown : needed ones1 125 (at1 (c.write m) 2) 0 255 = some c.own.toNat :=
    needed_value (v := c.own.toNat) (Nat.lt_of_le_of_lt (Nat.succ_le_succ hown) (by decide)) (Nat.zero_le _)
      (by omega)
  have rsup : needed ones1 1 (at1 (c.write m) 3) 0 255 = some c.supervisor.toNat :=
    needed_value (v := c.supervisor.toNat) (Nat.lt_of_le_of_lt (Nat.succ_le_succ hsup) (by decide)) (Nat.zero_le _)
      (by omega)
  have rsilence : needed ones2 100 (at2 (c.write m) 5) 10 2000 = some c.silenceLimit :=
    needed_be16 (by omega) hslo hshi
  have rreturn : needed ones2 50 (at2 (c.write m) 7) 5 500 = some c.returnLimit :=
    needed_be16 (by omega) hrlo hrhi
  unfold readDevice
  rw [if_neg (fun hlen => hlen rfl), rown, rsup, rsilence, rreturn]
  dsimp only
  rw [BitVec.ofNat_toNat, BitVec.ofNat_toNat, BitVec.setWidth_eq, BitVec.setWidth_eq]

theorem timingOf_computed :
    timingOf (0 : Byte).toNat ((BitVec.ofNat 8 (ones2 / 256)).toNat * 256 + (BitVec.ofNat 8 ones2).toNat) =
      some .computed := by
  rw [toNat_be16 (v := ones2) (by decide)]
  unfold timingOf
  rw [needed_value (v := (0 : Byte).toNat) (by decide) (by decide) (by decide)]
  exact if_pos rfl

theorem timingOf_fixed {delay : Nat} (h : delay ≤ 5000) :
    timingOf (1 : Byte).toNat ((BitVec.ofNat 8 (delay / 256)).toNat * 256 + (BitVec.ofNat 8 delay).toNat) =
      some (.fixed delay) := by
  rw [toNat_be16 (by omega)]
  exact if_pos h

/-- R187, R189: the halves of a line entry, with its timing bytes. -/
theorem LineCfg.write_timed (c : LineCfg) (h : ∀ delay, c.timing = .fixed delay → delay ≤ 5000) :
    ∃ k hi lo, timingOf k.toNat (hi.toNat * 256 + lo.toNat) = some c.timing ∧ c.write =
      [ be16 c.design ++ be16 c.floor ++ [BitVec.ofNat 8 c.source.code, BitVec.ofNat 8 c.calibration.code] ++
          be16 c.margin ++ be16 c.endPosition,
        [k, hi, lo, BitVec.ofNat 8 c.gateTravel] ++ be16 c.runDown ++ [if c.blindShut then 1 else 0] ++
          be16 Config.airSampleAge ] := by
  unfold LineCfg.write
  cases ht : c.timing with
  | computed => exact ⟨_, _, _, timingOf_computed, rfl⟩
  | fixed delay => exact ⟨_, _, _, timingOf_fixed (h delay ht), rfl⟩

theorem source_read (c : SpeedSource) :
    (if c.code = 0 then SpeedSource.sampled else if c.code = 1 then .calibrated else .design) = c := by
  cases c <;> rfl

theorem calibration_read (c : Calibration) :
    (if c.code = 0 then Calibration.off else if c.code = 1 then .single else .continuous) = c := by
  cases c <;> rfl

theorem SpeedSource.code_le (c : SpeedSource) : c.code ≤ 2 := by cases c <;> decide

theorem Calibration.code_le (c : Calibration) : c.code ≤ 2 := by cases c <;> decide

theorem flag_beq (x : Bool) : ((if x then 1 else 0 : Nat) == 1) = x := by cases x <;> rfl

theorem readLine_write (c : LineCfg) (h : c.rangesOk = true) : ∃ a b, c.write = [a, b] ∧ readLine a b = some c := by
  simp only [LineCfg.rangesOk, Bool.and_eq_true, within_iff] at h
  obtain ⟨⟨⟨⟨⟨⟨⟨⟨hdlo, hdhi⟩, _, hfhi⟩, _⟩, hmlo, hmhi⟩, _, hehi⟩, hglo, hghi⟩, hrlo, hrhi⟩, htiming⟩ := h
  have hdelay : ∀ delay, c.timing = .fixed delay → delay ≤ 5000 := by
    intro delay ht
    rw [ht] at htiming
    exact (within_iff.1 htiming).2
  obtain ⟨k, hi, lo, rtiming, hwrite⟩ := c.write_timed hdelay
  refine ⟨_, _, hwrite, ?_⟩
  unfold readLine
  have hsource := c.source.code_le
  have hcal := c.calibration.code_le
  rw [if_neg (fun hlen => hlen.elim (fun h => h rfl) (fun h => h rfl))]
  simp only [at1, at2, be16, List.cons_append, List.nil_append, List.getD_cons_zero, List.getD_cons_succ]
  rw [needed_be16 (by omega) hdlo hdhi, needed_be16 (by omega) (Nat.zero_le _) hfhi,
    needed_byte (by omega) (Nat.zero_le _) hsource, needed_byte (by omega) (Nat.zero_le _) hcal,
    needed_be16 (by omega) hmlo hmhi, needed_be16 (by omega) (Nat.zero_le _) hehi, rtiming,
    needed_byte (by omega) hglo hghi, needed_be16 (by omega) hrlo hrhi, needed_flag, 
    needed_be16 (v := Config.airSampleAge) (by decide) (by decide) (by decide)]
  dsimp only
  rw [source_read, calibration_read, flag_beq]

theorem readZone_write (c : ZoneCfg) (h : c.rangesOk = true) : ∃ a b, c.write = [a, b] ∧ readZone a b = some c := by
  simp only [ZoneCfg.rangesOk, Bool.and_eq_true, within_iff] at h
  obtain ⟨⟨⟨⟨hlo, hhi⟩, hdivert⟩, hshut⟩, hescape⟩ := h
  have rdivert : thresholdOf 2 (BitVec.ofNat 8 (levelCode c.divert)).toNat = some c.divert :=
    thresholdOf_level fun n hn => by rwa [hn] at hdivert
  have rshut : thresholdOf 3 (BitVec.ofNat 8 (levelCode c.shut)).toNat = some c.shut :=
    thresholdOf_level fun n hn => by rwa [hn] at hshut
  refine ⟨_, _, rfl, ?_⟩
  unfold readZone
  rw [if_neg (fun hlen => hlen.elim (fun h => h rfl) (fun h => h rfl))]
  simp only [at1, orOnes1, List.cons_append, List.nil_append, List.getD_cons_zero, List.getD_cons_succ]
  rw [needed_byte (by omega) hlo hhi, rdivert, rshut, levelIn_rank hescape]
  repeat rw [optionalIndex_orOnes1 (by decide)]

theorem readTrip_write (c : TripCfg) (h : c.rangesOk = true) : ∃ a b, c.write = [a, b] ∧ readTrip a b = some c := by
  obtain ⟨htrue, hfalse⟩ := (Bool.and_eq_true_iff ..).1 h
  obtain ⟨tk, tp, htrigger, rtrigger⟩ := c.trigger.bytes_read
  obtain ⟨fk, fp, ff, hfirst, rfirst⟩ := c.first.bytes_read
  obtain ⟨sk, sp, sf, hsecond, rsecond⟩ := c.second.bytes_read
  obtain ⟨nk, na, nb, honTrue, ronTrue⟩ := c.onTrue.bytes_read htrue
  obtain ⟨mk, ma, mb, honFalse, ronFalse⟩ := c.onFalse.bytes_read hfalse
  refine ⟨_, _, rfl, ?_⟩
  rw [htrigger, hfirst, hsecond, honTrue, honFalse]
  unfold readTrip
  rw [if_neg (fun hlen => hlen.elim (fun h => h rfl) (fun h => h rfl))]
  simp only [at1, at4, be32, List.cons_append, List.nil_append, List.getD_cons_zero, List.getD_cons_succ]
  rw [tripModeOf_code, rtrigger, rfirst, rsecond, needed_flag, ronTrue, ronFalse]
  dsimp only
  rw [be32_joined, be32_joined, flag_beq]

theorem readDoor_write (c : DoorCfg) (h : c.rangesOk = true) : ∃ a b, c.write = [a, b] ∧ readDoor a b = some c := by
  simp only [DoorCfg.rangesOk, Bool.and_eq_true, within_iff, decide_eq_true_eq] at h
  obtain ⟨⟨⟨⟨⟨hrelease, _, hclearing⟩, _, hrunOut⟩, hclo, hchi⟩, hcount⟩, _⟩ := h
  have hside : c.sideA.val ≤ 31 := Nat.le_of_lt_succ c.sideA.isLt
  have rlist : readList 2 (listBytes c.conveyors) = some (c.conveyors, []) := by
    have hread := readList_listBytes hcount (by decide : 2 < 254) []
    rwa [List.append_nil] at hread
  refine ⟨_, _, rfl, ?_⟩
  unfold readDoor
  rw [if_neg (by simp [orOnes1, orOnes2, be16, listBytes])]
  simp only [at1, at2, be16, orOnes1, orOnes2, List.cons_append, List.nil_append, List.getD_cons_zero,
    List.getD_cons_succ, List.drop_succ_cons, List.drop_zero]
  rw [optionalPoint_orOnes2, needed_byte (by omega) (Nat.zero_le _) hside, optionalIndex_orOnes1 (by decide),
    levelIn_rank hrelease, rlist, needed_byte (by omega) (Nat.zero_le _) hclearing,
    needed_byte (by omega) (Nat.zero_le _) hrunOut, needed_byte (by omega) hclo hchi]
  dsimp only
  rw [indexBelow_val c.sideA rfl]

/-- R131 (log 13): an output set is read from its two bytes; bit 0, which stands for no output, is clear. -/
theorem outputsOf_outputBytes (q : BitVec 8) : ∃ a b, outputBytes q = [a, b] ∧ outputsOf a b = some q := by
  refine ⟨_, _, rfl, ?_⟩
  unfold outputsOf
  have hlow : ((q.setWidth 16 <<< 1).extractLsb' 0 8).getLsbD 0 = false := by simp
  have hhigh : ((q.setWidth 16 <<< 1).extractLsb' 8 8).toNat < 2 := by
    have hq := q.isLt
    rw [BitVec.extractLsb'_toNat, BitVec.toNat_shiftLeft, BitVec.toNat_setWidth, Nat.shiftRight_eq_div_pow,
      Nat.shiftLeft_eq]
    omega
  have hback : (((q.setWidth 16 <<< 1).extractLsb' 8 8 ++ (q.setWidth 16 <<< 1).extractLsb' 0 8 : BitVec 16) >>> 1).setWidth 8
      = q := by
    apply BitVec.eq_of_getLsbD_eq
    intro i hi
    simp only [BitVec.getLsbD_setWidth, BitVec.getLsbD_ushiftRight, BitVec.getLsbD_append, BitVec.getLsbD_extractLsb',
      BitVec.getLsbD_shiftLeft]
    grind
  rw [if_neg (fun h => by rw [h.1] at hlow; exact absurd hlow (by decide)), if_pos ⟨hlow, hhigh⟩, hback]

theorem readGroupCfg_write (c : GroupCfg) (h : c.sirens.length ≤ 4) : readGroupCfg c.write = some c := by
  obtain ⟨a, b, hbytes, routputs⟩ := outputsOf_outputBytes c.outputs
  unfold GroupCfg.write readGroupCfg
  rw [hbytes, List.append_assoc, List.append_assoc, readList_listBytes h (by decide)]
  dsimp only [orOnes1, List.cons_append, List.nil_append]
  rw [routputs, optionalIndex_orOnes1 (by decide), optionalIndex_orOnes1 (by decide)]

theorem readCadence_write (c : Cadence) (h : c.rangesOk = true) : readCadence c.write = some c := by
  simp only [Cadence.rangesOk, Bool.and_eq_true, within_iff, decide_eq_true_eq] at h
  obtain ⟨⟨⟨hrlo, hrhi⟩, hon⟩, _, htone⟩ := h
  unfold Cadence.write readCadence
  dsimp only
  rw [needed_value (Nat.lt_of_le_of_lt (Nat.succ_le_succ hrhi) (by decide)) hrlo hrhi,
    needed_value (Nat.lt_of_le_of_lt (Nat.succ_le_succ htone) (by decide)) (Nat.zero_le _) htone]
  dsimp only
  rw [if_neg hon, BitVec.ofNat_toNat, BitVec.ofNat_toNat, BitVec.setWidth_eq, BitVec.setWidth_eq]

/-! ## Point entries (R6, R7, R187) -/

/-- R6: the role stands on spark detectors, which have no debounce time. -/
theorem PointCfg.fits_word {c : PointCfg} {own : Byte} (h : c.fits own = true) :
    c.role.isSome = (c.kind == .spark) ∧ c.debounce.isSome = c.kind.hasDebounce (c.station == own) := by
  simp only [PointCfg.fits, PointCfg.presenceOk, Bool.and_eq_true, beq_iff_eq] at h
  obtain ⟨⟨⟨⟨_, hrole⟩, hdebounce⟩, _⟩, _⟩ := h
  exact ⟨hrole, hdebounce⟩

theorem PointCfg.fits_ranges {c : PointCfg} {own : Byte} (h : c.fits own = true) : c.rangesOk = true := by
  simp only [PointCfg.fits, Bool.and_eq_true] at h
  obtain ⟨⟨_, hranges⟩, _⟩ := h
  exact hranges

/-- R187: the kind-specific word is 0 or 1 for a role, and a debounce time otherwise. -/
theorem PointCfg.word_below {c : PointCfg} (h : rangeOk 0 255 c.debounce = true) : ∀ x, c.word = some x → x < 65534 := by
  intro x hx
  unfold PointCfg.word at hx
  split at hx
  next => cases hx; decide
  next => cases hx; decide
  next => exact rangeOk_below h (by decide) x hx

/-- R187: the role is read from the word of a spark detector, and the debounce time from that of any other entry. -/
theorem PointCfg.word_read {c : PointCfg} {own : Byte} (h : c.fits own = true) :
    (if c.kind = .spark then roleOf c.word else some none) = some c.role ∧
      (if c.kind = .spark then none else c.word) = c.debounce := by
  obtain ⟨hrole, hdebounce⟩ := c.fits_word h
  unfold PointCfg.word
  by_cases hk : c.kind = .spark
  · rw [hk] at hrole hdebounce
    have hnone : c.debounce = none := Option.isNone_iff_eq_none.1 (Option.isSome_eq_false_iff.1 hdebounce)
    rw [if_pos hk, if_pos hk]
    refine ⟨?_, hnone.symm⟩
    cases hr : c.role with
    | none => rw [hr] at hrole; cases hrole
    | some r => cases r <;> rfl
  · have hnone : c.role = none := by
      rw [beq_false_of_ne hk] at hrole
      exact Option.isNone_iff_eq_none.1 (Option.isSome_eq_false_iff.1 hrole)
    rw [if_neg hk, if_neg hk, hnone]
    exact ⟨rfl, rfl⟩

theorem readPoint_write (c : PointCfg) (own : Byte) (hused : c.kind ≠ .unused) (h : c.fits own = true) :
    readPoint c.write = some c := by
  have hranges := c.fits_ranges h
  simp only [PointCfg.rangesOk, Bool.and_eq_true] at hranges
  obtain ⟨⟨⟨⟨⟨⟨⟨⟨_, hposition⟩, hsupervision⟩, hfeedback⟩, hlead⟩, hhold⟩, hrecovery⟩, harming⟩, hdebounce⟩ := hranges
  obtain ⟨rrole, rdebounce⟩ := c.word_read h
  unfold PointCfg.write readPoint
  rw [if_neg hused, if_neg (fun hlen => hlen rfl)]
  simp only [at1, at2, be16, orOnes1, orOnes2, List.cons_append, List.nil_append, List.getD_cons_zero, List.getD_cons_succ]
  rw [kindOf_code]
  split
  next hk => cases hk
  next hk => exact absurd (Option.some.inj hk) hused
  next k _ hk =>
    cases Option.some.inj hk
    rw [presentIndex_orOnes1 (by decide), presentIndex_orOnes1 (by decide), marked_orOnes2 (c.word_below hdebounce), rrole,
      marked_orOnes2 (rangeOk_below hposition (by decide)), marked_orOnes1 (rangeOk_below hsupervision (by decide)),
      marked_orOnes2 (rangeOk_below hfeedback (by decide)), marked_orOnes2 (rangeOk_below hlead (by decide)),
      marked_orOnes2 (rangeOk_below hhold (by decide)), marked_orOnes2 (rangeOk_below hrecovery (by decide)),
      marked_orOnes1 (rangeOk_below harming (by decide))]
    dsimp only
    rw [rdebounce]

/-! ## Frames (R178 to R180) -/

theorem be32_eq (w : BitVec 32) : be32 w =
    [BitVec.ofNat 8 (w.toNat / 16777216), BitVec.ofNat 8 (w.toNat / 65536), BitVec.ofNat 8 (w.toNat / 256),
      BitVec.ofNat 8 w.toNat] := by
  unfold be32
  simp only [BitVec.extractLsb', Nat.shiftRight_eq_div_pow, Nat.pow_zero, Nat.div_one]

theorem crc_snoc (bytes : List Byte) (b : Byte) : crc (bytes ++ [b]) = crcByte (crc bytes) b :=
  List.foldl_append ..

/-- R180: one bit of the check, with the generator written out. -/
theorem crcBit_eq (c : BitVec 16) (b : Bool) : crcBit c b =
    if c.getMsbD 0 ≠ b then (c <<< 1) ^^^ (1#16 <<< 12 ||| 1#16 <<< 5 ||| 1#16) else c <<< 1 :=
  if_congr bne_iff_ne rfl rfl

theorem Frame.bytes_eq (f : Frame) : f.bytes =
    f.body ++ [BitVec.ofNat 8 ((crc f.body).toNat / 256), BitVec.ofNat 8 (crc f.body).toNat] := by
  unfold Frame.bytes
  simp only [BitVec.extractLsb', Nat.shiftRight_eq_div_pow, Nat.pow_zero, Nat.div_one]

theorem Frame.bytes_length (f : Frame) : f.bytes.length = 7 + f.payload.length := by
  rw [f.bytes_eq, List.length_append]
  show f.payload.length + 5 + 2 = _
  omega

/-- R153: a good frame is read from its bytes. -/
theorem readFrame_bytes {f : Frame} (hlen : f.payload.length ≤ 24) (h0 : f.src ≠ 0) (h127 : f.src ≠ 127) :
    readFrame f.bytes = some f := by
  let tail : List Byte := [(crc f.body).extractLsb' 8 8, (crc f.body).extractLsb' 0 8]
  have hpayload : (f.payload ++ tail).take ((f.payload ++ tail).length - 2) = f.payload := by
    rw [List.length_append]
    exact List.take_left' rfl
  have hcount : (BitVec.ofNat 8 f.payload.length).toNat = f.payload.length := toNat_byte (by omega)
  show readFrame (f.dst :: f.src :: f.kind :: f.channel :: BitVec.ofNat 8 f.payload.length :: (f.payload ++ tail)) = some f
  unfold readFrame
  dsimp only
  rw [hpayload, hcount]
  exact if_pos ⟨by rw [List.length_append]; exact Nat.le_add_left .., hlen, rfl, rfl, h0, h127⟩

/-- R153: what a good frame is: the frame's own bytes, with a length and a source it may have. -/
theorem readFrame_good {bytes : List Byte} {f : Frame} (h : readFrame bytes = some f) :
    f.bytes = bytes ∧ f.payload.length ≤ 24 ∧ f.src ≠ 0 ∧ f.src ≠ 127 ∧ bytes.length = 7 + f.payload.length := by
  unfold readFrame at h
  split at h
  next dst src kind channel len rest =>
    dsimp only at h
    split at h
    next hgood =>
      obtain ⟨_, hlen, hpayload, hbytes, h0, h127⟩ := hgood
      cases h
      exact ⟨hbytes, hpayload ▸ hlen, h0, h127, by rw [← hbytes, Frame.bytes_length]⟩
    next => cases h
  next => cases h

theorem Request.twoHalves_iff (rq : Request) : rq.twoHalves = true ↔ rq.table ∈ [2, 3, 4, 5] := List.contains_iff_mem

/-- Settles O41: the bytes of each form are read field by field; a value in its range is none of its field's markers. -/
theorem framesRoundTrip : Obligations.FramesRoundTrip := by
  refine ⟨fun _ hlen h0 h127 => readFrame_bytes hlen h0 h127, fun _ _ => readFrame_good, fun _ _ => rfl, readDevice_write,
    readPoint_write, readLine_write, readZone_write, readTrip_write, readDoor_write, readGroupCfg_write, readCadence_write,
    fun _ => rfl, be32_eq, rfl, ?_, Frame.bytes_eq,
    fun rq => ⟨rfl, rfl, rfl, rfl, rfl, Request.twoHalves_iff rq⟩⟩
  intro bit bytes b
  have hbit : crcBit = bit := funext fun c => funext fun b => crcBit_eq c b
  rw [crc_snoc, ← hbit]
  rfl

end Sys2Proof.Machine
end

