-- ==== Sys2Proof/Proofs/Modes.lean ====
section
/-! PROOFS. Set Mode (R174): the modes refused and held, the freezing of the records (R152, R150), and the entry into Protect
(R152, R22, R62): O12. -/

namespace Sys2Proof.Machine

/-! ## The answer (R165, R174) -/

section
variable {s : State} {rq : Request} {m : Mode}

theorem takeSetMode_unnamed (h : s.permits rq 0) (hm : rq.mode? = none) : takeSetMode rq s = reply rq .value s := by
  unfold takeSetMode
  rw [hm]
  exact answer_entry h rfl _ _

theorem takeSetMode_permitted (h : s.permits rq 0) (hm : rq.mode? = some m) :
    takeSetMode rq s =
      if s.modeHeld m then reply rq .held s
      else if s.mode = m then reply rq .done s
      else notify .modeChanged 0 m.code (reply rq .done (changeMode m s)) := by
  unfold takeSetMode
  rw [hm]
  refine (answer_entry h rfl _ _).trans ?_
  rw [h.reserved]
  cases s.modeHeld m <;> rfl

/-- R174: Loading is not entered by a Request. -/
theorem Request.mode?_ne_loading (hm : rq.mode? = some m) : m ≠ .loading := by
  rintro rfl
  unfold Request.mode? at hm
  split at hm
  next => cases hm
  next =>
    split at hm
    next => cases hm
    next hne => exact hne hm

theorem State.modeHeld_same : s.modeHeld s.mode = false := by
  unfold State.modeHeld
  cases s.mode <;> rfl

theorem State.modeHeld_bypass (hs : s.mode = .bypass) : s.modeHeld m = false := by
  unfold State.modeHeld
  rw [hs]

theorem State.modeHeld_protect (hs : s.mode = .protect) (hl : m ≠ .loading) (hm : m ≠ .protect) :
    s.modeHeld m = true ↔ s.alarmed := by
  rw [← s.alarmed_iff]
  unfold State.modeHeld
  cases m with
  | loading => exact absurd rfl hl
  | protect => exact absurd rfl hm
  | bypass | observe => rw [hs]

theorem State.modeHeld_toBypass (hs : s.mode = .observe) : s.modeHeld .bypass = false := by
  unfold State.modeHeld
  rw [hs]

/-- R174: the entry into Protect waits for every zone, line and valve. -/
theorem State.modeHeld_toProtect (hs : s.mode = .observe) :
    s.modeHeld .protect = true ↔ s.alarmed ∨ ∃ i, (s.point i).valve.state ≠ .closed := by
  have hvalves : (s.points.toList.any fun p => p.valve.state != .closed) = true ↔
      ∃ i, (s.point i).valve.state ≠ .closed := by
    rw [List.any_eq_true]
    constructor
    · rintro ⟨p, hp, hopen⟩
      obtain ⟨i, hi, rfl⟩ := List.mem_iff_getElem.1 hp
      exact ⟨⟨i, by simpa using hi⟩, by simpa [State.point] using hopen⟩
    · rintro ⟨i, hopen⟩
      exact ⟨s.point i, by simp [State.point], bne_iff_ne.2 hopen⟩
  rw [← s.alarmed_iff, ← hvalves]
  unfold State.modeHeld
  rw [hs]
  exact Bool.or_eq_true_iff

end

/-! ## Leaving Protect and entering Bypass (R152, R150) -/

section
variable {s : State} {m : Mode}

/-- R22: outside Protect no output is driven. -/
theorem State.pinShould_unprotected {q : OutputIx} (hm : s.mode ≠ .protect) : s.pinShould q = false := by
  unfold State.pinShould
  rw [beq_false_of_ne hm]
  rfl

theorem syncPins_unprotected (hm : s.mode ≠ .protect) : (syncPins s).outputs = Vector.replicate 8 false := by
  have houtput : ∀ q, s.pinShould q = false := fun q => State.pinShould_unprotected hm
  unfold syncPins
  simp only [houtput]
  exact Vector.ext fun q hq => by simp

/-- R152, R150: the poll times as the entry to a mode leaves them. -/
def State.frozenPoll (s : State) (m : Mode) (i : PointIx) : Option Time :=
  match (s.point i).drive.pollPlaced with
  | some t =>
    if m = .bypass ∧ (s.point i).cfg.supervision.getD 0 * 1000 / 2 ≤ elapsed s.clock t then none else some t
  | none => none

theorem Point.freezePoll_spec (s : State) (i : PointIx) :
    (s.point i).freezePoll s.clock =
      { s.point i with drive := { (s.point i).drive with pollPlaced := s.frozenPoll .bypass i } } := by
  unfold Point.freezePoll Point.pollLapsed State.frozenPoll
  cases hp : (s.point i).drive.pollPlaced with
  | none => rfl
  | some t => simp only [decide_eq_true_eq, true_and]; rfl

theorem State.frozenPoll_other (hm : m ≠ .bypass) (i : PointIx) : s.frozenPoll m i = (s.point i).drive.pollPlaced := by
  unfold State.frozenPoll
  cases (s.point i).drive.pollPlaced with
  | none => rfl
  | some t => exact if_neg fun h => hm h.1

theorem freezeRecords_spec (m : Mode) (s : State) (i : PointIx) :
    (freezeRecords m s).point i =
      { s.point i with drive := { (s.point i).drive with pollPlaced := s.frozenPoll m i } } := by
  rw [freezeRecords_point]
  by_cases hm : m = .bypass
  · rw [if_pos hm, hm, Point.freezePoll_spec]
  · rw [if_neg hm, State.frozenPoll_other hm]

theorem leaveProtect_point (s : State) (i : PointIx) :
    (leaveProtect s).point i =
      { s.point i with
        drive := { (s.point i).drive with repeatAt := none, disagreeAt := none }
        valve := { (s.point i).valve with feedbackAt := none } } := by
  unfold leaveProtect State.point
  exact Vector.getElem_map ..

/-- R152, R62, R164: what the change out of Protect leaves. -/
theorem changeMode_protect (hs : s.mode = .protect) (hm : m ≠ .protect) :
    let u := changeMode m s
    u.mode = m ∧ u.port = { s.port with urgent := [] } ∧ (∀ o, u.output o = false) ∧ u.lines = s.lines ∧
      u.zones = s.zones ∧ u.doors = s.doors ∧ u.groups = s.groups ∧ u.strikes = s.strikes ∧
      ∀ i, u.point i =
        { s.point i with
          drive := { (s.point i).drive with repeatAt := none, disagreeAt := none, pollPlaced := s.frozenPoll m i }
          valve := { (s.point i).valve with feedbackAt := none } } := by
  have hchange : changeMode m s = syncPins { freezeRecords m (leaveProtect s) with mode := m } := by
    unfold changeMode
    rw [hs]
  rw [hchange]
  refine ⟨rfl, rfl, fun o => ?_, rfl, rfl, rfl, rfl, rfl, fun i => ?_⟩
  · unfold State.output
    rw [syncPins_unprotected hm]
    exact Vector.getElem_replicate _
  · refine (freezeRecords_spec m (leaveProtect s) i).trans ?_
    unfold State.frozenPoll
    rw [leaveProtect_point]
    exact rfl

/-- R152: what the change from Observe to Bypass leaves. -/
theorem changeMode_observe_bypass (hs : s.mode = .observe) :
    changeMode .bypass s =
      { s with
        mode := .bypass, outputs := Vector.replicate 8 false
        points := Vector.ofFn fun i =>
          { s.point i with drive := { (s.point i).drive with pollPlaced := s.frozenPoll .bypass i } } } := by
  have hpoints : s.points.map (Point.freezePoll s.clock) =
      Vector.ofFn fun i =>
        { s.point i with drive := { (s.point i).drive with pollPlaced := s.frozenPoll .bypass i } } := by
    rw [map_eq_ofFn]
    exact congrArg Vector.ofFn (funext fun i => Point.freezePoll_spec s i)
  have hpins := syncPins_unprotected (s := { freezeRecords .bypass s with mode := .bypass }) Mode.noConfusion
  have hchange : changeMode .bypass s = syncPins { freezeRecords .bypass s with mode := .bypass } := by
    unfold changeMode
    rw [hs]
    exact if_neg (by decide)
  rw [hchange, ← hpoints, ← hpins]
  exact rfl

theorem changeMode_bypass (hs : s.mode = .bypass) :
    (changeMode m s).mode = m ∧ s.ClearedFrom (changeMode m s) s.clock := by
  have hchange : changeMode m s = startIfActive { clearDynamic s with mode := m } := by
    unfold changeMode
    rw [hs]
  rw [hchange]
  refine ⟨?_, clearDynamic_clearedFrom s m⟩
  obtain ⟨_, _, hrest⟩ := startIfActive_rest { clearDynamic s with mode := m }
  rw [hrest]

end

/-! ## The test of a record on entry to Protect (R152) -/

section
variable {u : State} {i : PointIx} {r : Requested}

theorem testOnEntry_driveOnly (i : PointIx) (u : State) : DriveOnly (fun j => j = i) u (testOnEntry i u) := by
  unfold testOnEntry
  split
  · split
    · exact issue_driveOnly rfl (.refl u)
    · exact testDisagreement_driveOnly rfl (.refl u)
  · exact testDisagreement_driveOnly rfl (.refl u)

/-- The test changes neither what a record was commanded to nor what it reported. -/
theorem testOnEntry_point (i : PointIx) (u : State) :
    ∃ d, (testOnEntry i u).point i = { u.point i with drive := d } ∧ d.commanded = (u.point i).drive.commanded ∧
      d.reported = (u.point i).drive.reported := by
  have htest : ∃ d, (testDisagreement false i u).point i = { u.point i with drive := d } ∧
      d.commanded = (u.point i).drive.commanded ∧ d.reported = (u.point i).drive.reported := by
    obtain ⟨_, _, _, hpoint⟩ := testDisagreement_point false i u
    exact ⟨_, hpoint, rfl, rfl⟩
  unfold testOnEntry
  split
  next r hc =>
    split
    · obtain ⟨_, _, _, _, hpoint⟩ := issue_point i r u
      exact ⟨_, hpoint, hc.symm, rfl⟩
    · exact htest
  next => exact htest

/-- R152, R144: a record in disagreement has its command issued again. -/
theorem testOnEntry_differs (hm : u.mode = .protect) (hl : u.isLoop i = true) (h : u.driveDiffers i r)
    (htimed : (u.point i).drive.lastCommand ≠ none) :
    ((testOnEntry i u).point i).drive =
        { (u.point i).drive with
          lastCommand := some u.clock, repeatAt := some (u.clock + 1000#32)
          disagreeAt :=
            if (u.point i).drive.repeatAt = none then
              (if r.flagged then some (after u.clock (u.point i).cfg.feedbackMs) else none)
            else (u.point i).drive.disagreeAt } ∧
      (testOnEntry i u).port = (joinUrgent (commandFrame u i r) u).port := by
  have hdis := State.inDisagreement_of_differs hl h
  obtain ⟨hcmd, hrec, hdiff⟩ := h
  obtain ⟨sent, hsent⟩ := Option.ne_none_iff_exists'.1 htimed
  have hissue : testOnEntry i u = issue i r u := by
    unfold testOnEntry
    rw [hcmd]
    exact if_pos hdis
  have hstill : Drive.disagrees { (u.point i).drive with commanded := some r, lastCommand := some u.clock } u.clock = true := by
    refine (Drive.disagrees_iff _ _).2 ⟨r, rfl, hrec, fun code hcode => Requested.matchedBy_resent (t := sent) ?_⟩
    rw [← hsent]
    exact hdiff code hcode
  obtain ⟨hpoint, hport⟩ := issue_disagreeing hm hl hstill
  rw [hissue]
  refine ⟨?_, hport⟩
  rw [hpoint, ← hcmd]
  simp only [Option.isNone_iff_eq_none]
  exact rfl

/-- R152: a record that is not in disagreement loses its deadlines and its Disagree flag. -/
theorem testOnEntry_agrees (hm : u.mode = .protect) (hl : u.isLoop i = true) (h : ∀ r, ¬u.driveDiffers i r) :
    ((testOnEntry i u).point i).drive =
      { (u.point i).drive with repeatAt := none, disagreeAt := none, disagree := false } := by
  have hdis := State.inDisagreement_false h
  have htest : testOnEntry i u = testDisagreement false i u := by
    unfold testOnEntry
    cases (u.point i).drive.commanded with
    | none => rfl
    | some r => exact if_neg (by rw [hdis]; decide)
  rw [htest, testDisagreement_settled hm hl]
  unfold State.inDisagreement at hdis
  rwa [hl, Bool.true_and] at hdis

end

/-! ## The records on entry to Protect, in any order (R152) -/

/-- The part in Protect before its records are tested, and after. -/
def protectEntered (s : State) : State := syncPins { s with mode := .protect }
def recordsTested (s : State) : State :=
  inAnyOrder ((protectEntered s).entryRecords.map testOnEntry) (protectEntered s)

section
variable {s : State} {i : PointIx}

theorem recordsTested_driveOnly (s : State) : DriveOnly (fun _ => True) (protectEntered s) (recordsTested s) := by
  refine inAnyOrder_driveOnly (fun f hf u hu => ?_) (.refl _)
  obtain ⟨j, _, rfl⟩ := List.mem_map.1 hf
  exact hu.trans ((testOnEntry_driveOnly j u).mono fun _ _ => trivial)

theorem State.mem_entryRecords (t : State) (i : PointIx) :
    i ∈ t.entryRecords ↔ t.isLoop i = true ∧ (t.inDisagreement i = true ∨ (t.point i).drive.disagree = true) := by
  unfold State.entryRecords allPoints
  rw [List.mem_filter, Bool.and_eq_true, Bool.or_eq_true]
  exact and_iff_right (List.mem_finRange i)

/-- A record that the entry does not change. -/
theorem recordsTested_other (hi : i ∉ (protectEntered s).entryRecords) : (recordsTested s).point i = s.point i := by
  refine (inAnyOrder_driveOnly (on := fun j => j ≠ i) (fun f hf u hu => ?_) (.refl (protectEntered s))).point i
    fun h => h rfl
  obtain ⟨j, hj, rfl⟩ := List.mem_map.1 hf
  exact hu.trans ((testOnEntry_driveOnly j u).mono fun k hk => by rintro rfl; exact hi (hk ▸ hj))

/-- What the test of a record gives of it, whenever its turn comes, stands in the end: the others do not touch it. -/
theorem recordsTested_at {P : Point → Prop} (hi : i ∈ (protectEntered s).entryRecords)
    (hP : ∀ u, DriveOnly (fun _ => True) (protectEntered s) u → u.point i = s.point i → P ((testOnEntry i u).point i)) :
    P ((recordsTested s).point i) := by
  have hnodup : (protectEntered s).entryRecords.Nodup := (List.nodup_finRange 256).filter _
  refine (inAnyOrder_someOrder _ (protectEntered s)).once
    (B := fun u => DriveOnly (fun _ => True) (protectEntered s) u ∧ u.point i = s.point i) (A := fun u => P (u.point i))
    (fun _ _ ⟨hu, hp⟩ => ⟨hu.trans ⟨rfl, fun _ _ => rfl, fun _ => rfl⟩, hp⟩) (fun _ _ hu => hu)
    ((List.perm_cons_erase hi).map testOnEntry) (fun u ⟨hu, hp⟩ => hP u hu hp) (fun f hf u => ?_) ⟨.refl _, rfl⟩
  obtain ⟨j, hj, rfl⟩ := List.mem_map.1 hf
  have hne : i ≠ j := fun h => (hnodup.mem_erase_iff.1 hj).1 h.symm
  have hpoint : (testOnEntry j u).point i = u.point i := (testOnEntry_driveOnly j u).point i hne
  exact ⟨fun ⟨hu, hp⟩ => ⟨hu.trans ((testOnEntry_driveOnly j u).mono fun _ _ => trivial), hpoint.trans hp⟩,
    fun hA => hpoint.symm ▸ hA⟩

/-- The tests change neither what a record was commanded to nor what it reported. -/
theorem recordsTested_point (s : State) (i : PointIx) :
    ∃ d, (recordsTested s).point i = { s.point i with drive := d } ∧ d.commanded = (s.point i).drive.commanded ∧
      d.reported = (s.point i).drive.reported := by
  by_cases hi : i ∈ (protectEntered s).entryRecords
  · refine recordsTested_at
      (P := fun p => ∃ d, p = { s.point i with drive := d } ∧ d.commanded = (s.point i).drive.commanded ∧
        d.reported = (s.point i).drive.reported) hi fun u _ hp => ?_
    rw [← hp]
    exact testOnEntry_point i u
  · exact ⟨_, recordsTested_other hi, rfl, rfl⟩

/-- What the records before the entry say of a record when its turn comes. -/
theorem State.driveDiffers_entered {u : State} {r : Requested} (hu : DriveOnly (fun _ => True) (protectEntered s) u)
    (hp : u.point i = s.point i) : u.driveDiffers i r ↔ s.driveDiffers i r := by
  unfold State.driveDiffers
  rw [hp, hu.clock]
  exact Iff.rfl

theorem State.isLoop_entered {u : State} (hu : DriveOnly (fun _ => True) (protectEntered s) u)
    (hp : u.point i = s.point i) : u.isLoop i = s.isLoop i := by
  unfold State.isLoop
  rw [hp, hu.device]
  exact rfl

theorem recordsTested_differs {r : Requested} (hl : s.isLoop i = true) (h : s.driveDiffers i r)
    (htimed : (s.point i).drive.lastCommand ≠ none) :
    ((recordsTested s).point i).drive =
      { (s.point i).drive with
        lastCommand := some s.clock, repeatAt := some (s.clock + 1000#32)
        disagreeAt :=
          if (s.point i).drive.repeatAt = none then
            (if r.flagged then some (after s.clock (s.point i).cfg.feedbackMs) else none)
          else (s.point i).drive.disagreeAt } := by
  have hmem : i ∈ (protectEntered s).entryRecords :=
    ((protectEntered s).mem_entryRecords i).2 ⟨hl, Or.inl (State.inDisagreement_of_differs (s := protectEntered s) hl h)⟩
  refine recordsTested_at (P := fun p => p.drive = _) hmem fun u hu hp => ?_
  obtain ⟨hdrive, _⟩ := testOnEntry_differs hu.mode ((State.isLoop_entered hu hp).trans hl)
    ((State.driveDiffers_entered hu hp).2 h) (hp ▸ htimed)
  rw [hdrive, hp, hu.clock]
  exact rfl

theorem recordsTested_agrees (hl : s.isLoop i = true) (h : ∀ r, ¬s.driveDiffers i r) :
    ((recordsTested s).point i).drive =
      if (s.point i).drive.disagree then
        { (s.point i).drive with repeatAt := none, disagreeAt := none, disagree := false }
      else (s.point i).drive := by
  by_cases hd : (s.point i).drive.disagree = true
  · rw [if_pos hd]
    refine recordsTested_at (P := fun p => p.drive = _) (((protectEntered s).mem_entryRecords i).2 ⟨hl, Or.inr hd⟩)
      fun u hu hp => ?_
    rw [testOnEntry_agrees hu.mode ((State.isLoop_entered hu hp).trans hl)
      (fun r hr => h r ((State.driveDiffers_entered hu hp).1 hr)), hp]
  · rw [if_neg hd, recordsTested_other fun hi => ?_]
    obtain ⟨_, hdis | hflag⟩ := ((protectEntered s).mem_entryRecords i).1 hi
    · rw [State.inDisagreement_false (s := protectEntered s) h] at hdis
      exact absurd hdis (by decide)
    · exact hd hflag

/-- One record alone is tested: its command is the one frame that joins the urgent queue. -/
theorem recordsTested_port {r : Requested} (hl : s.isLoop i = true) (h : s.driveDiffers i r)
    (htimed : (s.point i).drive.lastCommand ≠ none)
    (hothers : ∀ j, j ≠ i → s.isLoop j = true → (∀ q, ¬s.driveDiffers j q) ∧ (s.point j).drive.disagree = false) :
    (recordsTested s).port = (joinUrgent (commandFrame s i r) s).port := by
  have honly : (protectEntered s).entryRecords = [i] := by
    have hiff : ∀ j, j ∈ (protectEntered s).entryRecords ↔ j = i := fun j => by
      rw [State.mem_entryRecords]
      constructor
      · rintro ⟨hlj, hdj⟩
        by_contra hne
        obtain ⟨hagrees, hflag⟩ := hothers j hne hlj
        obtain hdis | hset := hdj
        · rw [State.inDisagreement_false (s := protectEntered s) hagrees] at hdis
          exact absurd hdis (by decide)
        · exact absurd (hset.symm.trans hflag) (by decide)
      · rintro rfl
        exact ⟨hl, Or.inl (State.inDisagreement_of_differs (s := protectEntered s) hl h)⟩
    have hnodup : (protectEntered s).entryRecords.Nodup := (List.nodup_finRange 256).filter _
    exact List.perm_singleton.1
      ((List.perm_ext_iff_of_nodup hnodup (List.nodup_singleton i)).2 fun j => (hiff j).trans List.mem_singleton.symm)
  unfold recordsTested
  rw [honly]
  obtain ⟨_, hport⟩ := testOnEntry_differs (u := protectEntered s) rfl hl h htimed
  exact hport

end

/-! ## The valves on entry to Protect (R62) -/

section
variable {u v : State} {i : PointIx}

theorem timeValve_rest (i : PointIx) (u : State) : ∃ ps, timeValve i u = { u with points := ps } := by
  unfold timeValve
  split
  · exact ⟨_, rfl⟩
  · exact ⟨u.points, rfl⟩

theorem timeValve_other {j : PointIx} (hne : i ≠ j) (u : State) : (timeValve j u).point i = u.point i := by
  unfold timeValve
  split
  · exact State.point_modPoint_ne _ _ _ _ hne
  · rfl

/-- The timing of a valve, from its entry and the clock alone. -/
theorem timeValve_congr (hp : u.point i = v.point i) (hc : u.clock = v.clock) :
    (timeValve i u).point i = (timeValve i v).point i := by
  unfold timeValve State.isKind State.valveDisagrees
  rw [hp, hc]
  dsimp only
  split
  · rw [State.point_modValve, State.point_modValve, hp]
  · exact hp

theorem timeValve_clock (i : PointIx) (u : State) : (timeValve i u).clock = u.clock := by
  obtain ⟨ps, hrest⟩ := timeValve_rest i u
  rw [hrest]

theorem timeValves_rest (l : List PointIx) (u : State) :
    ∃ ps, l.foldl (fun v i => timeValve i v) u = { u with points := ps } := by
  refine List.foldlRecOn (motive := fun v : State => ∃ ps, v = { u with points := ps }) l _ ⟨u.points, rfl⟩ ?_
  rintro v ⟨ps, rfl⟩ i _
  obtain ⟨qs, hrest⟩ := timeValve_rest i { u with points := ps }
  exact ⟨qs, hrest⟩

/-- Each valve is timed once, from its own entry. -/
theorem timeValves_point {l : List PointIx} (hl : l.Nodup) (u : State) (i : PointIx) :
    (l.foldl (fun v i => timeValve i v) u).point i = if i ∈ l then (timeValve i u).point i else u.point i := by
  induction l generalizing u with
  | nil => rfl
  | cons j l ih =>
    obtain ⟨hj, hl⟩ := List.nodup_cons.1 hl
    rw [List.foldl_cons, ih hl]
    by_cases hij : i = j
    · subst hij
      rw [if_neg hj, if_pos List.mem_cons_self]
    · have hpoint := timeValve_other hij u
      refine if_congr (by rw [List.mem_cons, or_iff_right hij]) ?_ hpoint
      exact timeValve_congr hpoint (timeValve_clock j u)

/-- R62: what the timing leaves of an entry. -/
theorem timeValve_point (i : PointIx) (u : State) :
    (timeValve i u).point i =
      { u.point i with
        valve :=
          if u.isKind i .valve && u.valveDisagrees i then
            { (u.point i).valve with feedbackAt := some (after u.clock (u.point i).cfg.feedbackMs) }
          else (u.point i).valve } := by
  unfold timeValve
  split
  · rw [State.point_modValve]
  · rfl

/-- R62: a valve told to open or to close disagrees until it reports just that. -/
theorem State.valveDisagrees_told {r : Requested} (hc : (u.point i).drive.commanded = some r)
    (hr : r = .opened ∨ r = .closed) :
    u.valveDisagrees i = true ↔
      ¬(u.point i).drive.reported = some (if r = .opened then Code.opened else .closed) := by
  unfold State.valveDisagrees
  dsimp only
  rw [hc]
  cases (u.point i).drive.reported with
  | none => simp
  | some code =>
    obtain rfl | rfl := hr
    · simp [Requested.matchedBy]
    · simp [Requested.matchedBy]

end

/-! ## The entry into Protect (R174) -/

section
variable {s : State}

theorem enterProtect_eq (s : State) :
    enterProtect s = allPoints.foldl (fun v i => timeValve i v) (recordsTested s) := rfl

theorem enterProtect_point (s : State) (i : PointIx) :
    (enterProtect s).point i = (timeValve i (recordsTested s)).point i := by
  exact (timeValves_point (List.nodup_finRange 256) (recordsTested s) i).trans (if_pos (List.mem_finRange i))

theorem enterProtect_drive (s : State) (i : PointIx) :
    ((enterProtect s).point i).drive = ((recordsTested s).point i).drive ∧
      ((enterProtect s).point i).cfg = (s.point i).cfg := by
  obtain ⟨d, hpoint, _, _⟩ := recordsTested_point s i
  rw [enterProtect_point, timeValve_point]
  refine ⟨rfl, ?_⟩
  rw [hpoint]

theorem enterProtect_commanded (s : State) (i : PointIx) :
    ((enterProtect s).point i).drive.commanded = (s.point i).drive.commanded := by
  obtain ⟨hdrive, _⟩ := enterProtect_drive s i
  obtain ⟨d, hpoint, hcmd, _⟩ := recordsTested_point s i
  rw [hdrive, hpoint]
  exact hcmd

theorem enterProtect_rest (s : State) :
    (enterProtect s).mode = .protect ∧ (enterProtect s).lines = s.lines ∧ (enterProtect s).doors = s.doors ∧
      (enterProtect s).groups = s.groups ∧ (enterProtect s).strikes = s.strikes ∧
      (∀ z, ((enterProtect s).zone z).level = (s.zone z).level) ∧ (enterProtect s).port = (recordsTested s).port := by
  obtain ⟨ps, hrest⟩ := timeValves_rest allPoints (recordsTested s)
  have hentered := recordsTested_driveOnly s
  have hlevel : ∀ z, ((recordsTested s).zone z).level = (s.zone z).level := fun z => by
    rw [hentered.zone z]
    exact rfl
  rw [enterProtect_eq, hrest]
  exact ⟨hentered.mode, hentered.lines, hentered.doors, hentered.groups, hentered.strikes, hlevel, rfl⟩

theorem enterProtect_valve_other {i : PointIx} (hk : (s.point i).cfg.kind ≠ .valve) :
    ((enterProtect s).point i).valve = (s.point i).valve := by
  obtain ⟨d, hpoint, _, _⟩ := recordsTested_point s i
  have hkind : (recordsTested s).isKind i .valve = false := by
    unfold State.isKind
    rw [hpoint]
    exact beq_false_of_ne hk
  rw [enterProtect_point, timeValve_point, hkind, hpoint]
  exact rfl

theorem enterProtect_valve {i : PointIx} {r : Requested} (hk : (s.point i).cfg.kind = .valve)
    (hc : (s.point i).drive.commanded = some r) (hr : r = .opened ∨ r = .closed) :
    ((enterProtect s).point i).valve =
      { (s.point i).valve with
        feedbackAt :=
          if (s.point i).drive.reported = some (if r = .opened then Code.opened else .closed) then
            (s.point i).valve.feedbackAt
          else some (after s.clock (s.point i).cfg.feedbackMs) } := by
  obtain ⟨d, hpoint, hcmd, hrep⟩ := recordsTested_point s i
  have hkind : (recordsTested s).isKind i .valve = true := by
    unfold State.isKind
    rw [hpoint]
    exact beq_iff_eq.2 hk
  have hdis := State.valveDisagrees_told (u := recordsTested s) (i := i) (r := r) (by rw [hpoint]; exact hcmd.trans hc) hr
  rw [hpoint] at hdis
  have hclock : (recordsTested s).clock = s.clock := (recordsTested_driveOnly s).clock
  rw [enterProtect_point, timeValve_point, hkind, Bool.true_and, hpoint, hclock]
  simp only [hdis, hrep, ite_not]
  exact (apply_ite (fun f => ({ (s.point i).valve with feedbackAt := f } : Valve)) _ _ _).symm

end

/-- Settles O12: each mode left, with what the checks of R174 say of it. -/
theorem setModeChanges : Obligations.SetModeChanges := by
  intro s rq h frozen differs
  have hexec : ∀ {t}, takeSetMode rq s = t → exec (.setMode rq) s = .next t := fun ht => congrArg Host.Outcome.next ht
  refine ⟨fun hnone => hexec (takeSetMode_unnamed h hnone), fun m hm => ?_⟩
  have hanswer := takeSetMode_permitted h hm
  have hloading := Request.mode?_ne_loading hm
  have hheld : s.modeHeld m = true → exec (.setMode rq) s = .next (reply rq .held s) := fun hh =>
    hexec (hanswer.trans (if_pos hh))
  have hchanged : s.modeHeld m = false → s.mode ≠ m →
      exec (.setMode rq) s = .next (notify .modeChanged 0 m.code (reply rq .done (changeMode m s))) := fun hh hne =>
    hexec (hanswer.trans ((if_neg (by rw [hh]; decide)).trans (if_neg hne)))
  refine ⟨?same, ?protectHeld, ?observeHeld, ?bypass, ?protect, ?observeBypass, ?observeProtect⟩
  case same =>
    rintro rfl
    exact hexec (hanswer.trans ((if_neg (by rw [State.modeHeld_same]; decide)).trans (if_pos rfl)))
  case protectHeld => exact fun hs hne ha => hheld ((State.modeHeld_protect hs hloading hne).2 ha)
  case observeHeld =>
    rintro hs rfl hbusy
    exact hheld ((State.modeHeld_toProtect hs).2 hbusy)
  case bypass =>
    intro hs hne
    obtain ⟨hmode, hcleared⟩ := changeMode_bypass (m := m) hs
    exact ⟨_, hchanged (State.modeHeld_bypass hs) (fun he => hne (he.symm.trans hs)), hmode, hcleared⟩
  case protect =>
    intro hs hne ha
    have hfree : s.modeHeld m = false :=
      Bool.eq_false_iff.2 fun hh => ha ((State.modeHeld_protect hs hloading hne).1 hh)
    exact ⟨_, hchanged hfree (fun he => hne (he.symm.trans hs)), changeMode_protect hs hne⟩
  case observeBypass =>
    rintro hs rfl
    rw [hchanged (State.modeHeld_toBypass hs) (by rw [hs]; decide), changeMode_observe_bypass hs]
    exact rfl
  case observeProtect =>
    rintro hs rfl ha hclosed
    have hfree : s.modeHeld .protect = false := Bool.eq_false_iff.2 fun hh => by
      obtain halarm | ⟨i, hopen⟩ := (State.modeHeld_toProtect hs).1 hh
      · exact ha halarm
      · exact hopen (hclosed i)
    have hentry : changeMode .protect s = enterProtect s := by
      unfold changeMode
      rw [hs]
      exact if_pos rfl
    obtain ⟨hmode, hlines, hdoors, hgroups, hstrikes, hlevel, hport⟩ := enterProtect_rest s
    refine ⟨enterProtect s, hentry ▸ hchanged hfree (by rw [hs]; decide), hmode, hlines, hdoors, hgroups, hstrikes, hlevel,
      ?pins, fun i => ⟨(enterProtect_drive s i).2, enterProtect_commanded s i⟩, fun htimed i hl => ⟨?differing, ?agreeing⟩,
      fun i => enterProtect_valve_other, fun i r => enterProtect_valve⟩
    case pins => exact (enterProtect_moves (q := plain) s).pinsFollow (syncPins_pinsFollow _)
    case differing =>
      intro r hr
      have hsent := htimed i (by rw [hr.1]; exact Option.some_ne_none r)
      exact ⟨(enterProtect_drive s i).1.trans (recordsTested_differs hl hr hsent),
        fun hothers => hport.trans (recordsTested_port hl hr hsent hothers)⟩
    case agreeing => exact fun hno => (enterProtect_drive s i).1.trans (recordsTested_agrees hl hno)

end Sys2Proof.Machine
end

