-- ==== Sys2Proof/Proofs/PointWrites.lean ====
section
/-! PROOFS. The write of a point (R8, R10, R13, R50, R57, R77, R128): O24. -/

namespace Sys2Proof.Machine

/-! ## The entry replaced (R10, R57, R59) -/

section
variable {s : State} {i : PointIx} {c : PointCfg}

/-- R57: the strikes that a write of a point leaves. -/
def State.strikesLeft (s : State) (i : PointIx) : List Strike :=
  if (s.point i).cfg.kind = .valve then s.strikes.filter (·.valve ≠ i) else s.strikes

theorem replacePoint_eq (i : PointIx) (c : PointCfg) (s : State) :
    replacePoint i c s =
      syncPins (rebuildMaps { s.modPoint i (Point.written s.clock c) with strikes := s.strikesLeft i }) := by
  have hfilter : (s.strikes.filter fun e => e.valve != i) = s.strikes.filter (·.valve ≠ i) := by
    refine List.filter_congr fun e _ => ?_
    by_cases he : e.valve = i <;> simp [he]
  unfold replacePoint State.strikesLeft
  by_cases hk : (s.point i).cfg.kind = .valve
  · rw [if_pos hk, ← hfilter]
    exact congrArg syncPins (if_pos (beq_iff_eq.2 hk))
  · rw [if_neg hk]
    exact congrArg syncPins (if_neg fun h => hk (beq_iff_eq.1 h))

/-- R21: the contact state of a local call point or flame detector is the debounced level; any other entry keeps its own. -/
theorem contactFromLevel_eq (u : State) (i : PointIx) :
    ∃ contact, contactFromLevel i u = u.modPoint i (fun p => { p with contact := contact }) ∧
      (u.active = true → u.isLocal i = true → ((u.point i).cfg.kind = .call ∨ (u.point i).cfg.kind = .flame) →
        ∀ k : InputIx, (u.point i).cfg.channel = BitVec.ofNat 8 k.val → contact = some (u.input k).level) ∧
      (u.active = false ∨ u.isLocal i = false ∨ ((u.point i).cfg.kind ≠ .call ∧ (u.point i).cfg.kind ≠ .flame) →
        contact = (u.point i).contact) := by
  have hkept : u.modPoint i (fun p => { p with contact := (u.point i).contact }) = u := State.modPoint_same rfl
  unfold contactFromLevel
  dsimp only
  split
  next htakes =>
    simp only [Bool.and_eq_true, Bool.or_eq_true, beq_iff_eq] at htakes
    obtain ⟨⟨hactive, hlocal⟩, hkind⟩ := htakes
    have hout : ¬(u.active = false ∨ u.isLocal i = false ∨
        ((u.point i).cfg.kind ≠ .call ∧ (u.point i).cfg.kind ≠ .flame)) := by
      rw [hactive, hlocal]
      rintro (h | h | ⟨hc, hf⟩)
      · cases h
      · cases h
      · exact hkind.elim hc hf
    split
    next j hj =>
      refine ⟨_, rfl, fun _ _ _ k hk => ?_, fun h => absurd h hout⟩
      have hchannel := List.find?_some hj
      rw [hk, beq_iff_eq] at hchannel
      have hval : k.val = j.val := by
        have hnat := congrArg BitVec.toNat hchannel
        rwa [toNat_byte (by omega), toNat_byte (by omega)] at hnat
      rw [Fin.ext hval]
    next hnone =>
      refine ⟨_, hkept.symm, fun _ _ _ k hk => ?_, fun _ => rfl⟩
      exact absurd (beq_iff_eq.2 hk) (by simpa using List.find?_eq_none.1 hnone k (List.mem_finRange k))
  next hno =>
    refine ⟨_, hkept.symm, fun ha hl hk => absurd ?_ hno, fun _ => rfl⟩
    simpa [ha, hl] using hk

/-- The part as an accepted write of a point leaves it, before the other blocks follow. -/
def pointReplaced (i : PointIx) (c : PointCfg) (s : State) : State := contactFromLevel i (replacePoint i c s)

/-- R10, R21: what stands in the written entry. -/
theorem pointReplaced_eq (i : PointIx) (c : PointCfg) (s : State) :
    ∃ contact, pointReplaced i c s =
        (replacePoint i c s).modPoint i (fun p => { p with contact := contact }) ∧
      (pointReplaced i c s).point i = { Point.written s.clock c (s.point i) with contact := contact } ∧
      (s.active = true → ∀ k : InputIx, c.kind = .call ∨ c.kind = .flame → c.station = s.device.own →
        c.channel = BitVec.ofNat 8 k.val → contact = some (s.input k).level) ∧
      (s.active = false ∨ c.station ≠ s.device.own ∨ (c.kind ≠ .call ∧ c.kind ≠ .flame) → contact = none) := by
  have hpoint : (replacePoint i c s).point i = Point.written s.clock c (s.point i) := by
    rw [replacePoint_eq]
    exact State.point_modPoint ..
  have hcfg : ((replacePoint i c s).point i).cfg = c := congrArg Point.cfg hpoint
  have hsame : (replacePoint i c s).device = s.device ∧ (replacePoint i c s).active = s.active ∧
      (replacePoint i c s).inputs = s.inputs := by
    rw [replacePoint_eq]
    exact ⟨rfl, rfl, rfl⟩
  obtain ⟨hdevice, hactive, hinputs⟩ := hsame
  obtain ⟨contact, heq, htaken, hkept⟩ := contactFromLevel_eq (replacePoint i c s) i
  have hlocal : (replacePoint i c s).isLocal i = (c.used && c.station == s.device.own) := by
    unfold State.isLocal
    rw [hcfg, hdevice]
  rw [hcfg, hlocal, hactive] at htaken hkept
  refine ⟨contact, heq, ?_, fun ha k hk hstation hchannel => ?_, fun hno => ?_⟩
  · unfold pointReplaced
    rw [heq, State.point_modPoint, hpoint]
  · have hused : c.used = true := by
      obtain hk | hk := hk <;> unfold PointCfg.used <;> rw [hk] <;> rfl
    rw [htaken ha (by rw [hused, hstation]; simp) hk k hchannel]
    unfold State.input
    rw [hinputs]
  · have hnone := hkept (hno.imp_right (Or.imp_left fun hne => by rw [beq_false_of_ne hne, Bool.and_false]))
    rw [hnone, hpoint]
    exact rfl

theorem pointReplaced_other {j : PointIx} (hj : j ≠ i) : (pointReplaced i c s).point j = s.point j := by
  obtain ⟨contact, heq, _⟩ := pointReplaced_eq i c s
  rw [heq, State.point_modPoint_ne _ _ _ _ hj, replacePoint_eq]
  exact State.point_modPoint_ne _ _ _ _ hj

/-- R10: the write of a point leaves the other blocks. -/
theorem pointReplaced_rest (i : PointIx) (c : PointCfg) (s : State) :
    ∃ ps ms os, pointReplaced i c s =
      { s with points := ps, members := ms, strikes := s.strikesLeft i, outputs := os } := by
  obtain ⟨contact, heq, _⟩ := pointReplaced_eq i c s
  rw [heq, replacePoint_eq]
  exact ⟨_, _, _, rfl⟩

theorem pointReplaced_mapsFollow (i : PointIx) (c : PointCfg) (s : State) : (pointReplaced i c s).mapsFollow := by
  refine (contactFromLevel_moves (q := plain) .refl).mapsFollow ?_
  rw [replacePoint_eq]
  exact (rebuildMaps_mapsFollow _).congr rfl fun _ => rfl

theorem pointReplaced_cfg (i : PointIx) (c : PointCfg) (s : State) (j : PointIx) :
    ((pointReplaced i c s).point j).cfg = if j = i then c else (s.point j).cfg :=
  ((contactFromLevel_moves (q := plain) .refl).cfg j).trans (replacePoint_cfg i c s j)

theorem writePoint_active (ha : s.active = true) :
    writePoint i c s =
      inAnyOrder [recomputeChanged s, rewriteDoors s i, recountFaults] (pointReplaced i c s) :=
  if_pos ha

theorem writePoint_inactive (ha : s.active = false) : writePoint i c s = pointReplaced i c s :=
  if_neg (by rw [ha]; decide)

theorem writePoint_bypass (hm : s.mode = .bypass) :
    writePoint i c s =
      { s with
        points := s.points.set i.val
          { cfg := c
            drive :=
              { lastHeard := some s.clock, withheld := (s.point i).drive.withheld,
                repeats := (s.point i).drive.repeats } }
        members := Vector.ofFn fun l => membersOf (fun j => if j = i then c else (s.point j).cfg) l
        strikes := s.strikesLeft i
        outputs := Vector.replicate 8 false } := by
  have ha := State.active_of_bypass hm
  have hcfg : (replacePoint i c s).pointCfg = fun j => if j = i then c else (s.point j).cfg :=
    funext (replacePoint_cfg i c s)
  have hcontact : contactFromLevel i (replacePoint i c s) = replacePoint i c s := by
    have hactive : (replacePoint i c s).active = s.active := by
      rw [replacePoint_eq]
      exact rfl
    unfold contactFromLevel
    exact if_neg (by rw [hactive, ha]; simp)
  rw [writePoint_inactive ha, ← hcfg]
  unfold pointReplaced
  rw [hcontact, replacePoint_eq]
  generalize hw : rebuildMaps { s.modPoint i (Point.written s.clock c) with strikes := s.strikesLeft i } = w
  have hpins := syncPins_unprotected (s := w) (by rw [← hw]; exact fun h => Mode.noConfusion (hm.symm.trans h))
  rw [← hpins, ← hw]
  exact rfl

end

/-! ## What follows in other blocks (R50, R77) -/

/-- `t` differs from `s` by speeds and flood states of lines, by fault counts, and by the frames of notices. -/
structure SideWork (s t : State) : Prop where
  rest : t = { s with lines := t.lines, zones := t.zones, port := t.port, draws := t.draws }
  line : ∀ l, (t.line l).tracks = (s.line l).tracks ∧ (t.line l).state = (s.line l).state
  zone : ∀ z, t.zone z = { s.zone z with faults := (t.zone z).faults }

namespace SideWork

variable {s t u : State}

theorem refl (s : State) : SideWork s s := ⟨rfl, fun _ => ⟨rfl, rfl⟩, fun _ => rfl⟩

theorem trans (h : SideWork s t) (g : SideWork t u) : SideWork s u where
  rest := by rw [g.rest, h.rest]
  line l := by
    obtain ⟨ht, hs⟩ := h.line l
    obtain ⟨gt, gs⟩ := g.line l
    exact ⟨gt.trans ht, gs.trans hs⟩
  zone z := by have hz := h.zone z; have gz := g.zone z; rw [gz, hz]

theorem draws (n : Nat) : SideWork s { s with draws := n } := ⟨rfl, fun _ => ⟨rfl, rfl⟩, fun _ => rfl⟩

theorem points (h : SideWork s t) : t.points = s.points := by rw [h.rest]
theorem doors (h : SideWork s t) : t.doors = s.doors := by rw [h.rest]
theorem members (h : SideWork s t) : t.members = s.members := by rw [h.rest]
theorem strikes (h : SideWork s t) : t.strikes = s.strikes := by rw [h.rest]
theorem groups (h : SideWork s t) : t.groups = s.groups := by rw [h.rest]
theorem clock (h : SideWork s t) : t.clock = s.clock := by rw [h.rest]
theorem mode (h : SideWork s t) : t.mode = s.mode := by rw [h.rest]

end SideWork

section
variable {s u : State}

theorem recountFaults_sideWork (u : State) : SideWork u (recountFaults u) where
  rest := by
    have hpoints := recountFaults_points u
    have hrest := recountFaults_keeps (s := u)
      (P := fun v => v = { u with points := v.points, zones := v.zones, port := v.port }) rfl
      fun z n v hv => by
        unfold updateFaults
        split
        · exact hv
        · rw [hv]; rfl
    rw [hpoints] at hrest
    exact hrest.trans (by rw [hrest])
  line l := by
    have hlines := recountFaults_keeps (s := u) (P := fun v => v.lines = u.lines) rfl
      fun z n v hv => by obtain ⟨hl, _⟩ := updateFaults_rest z n v; exact hl.trans hv
    unfold State.line
    rw [hlines]
    exact ⟨rfl, rfl⟩
  zone := (recountFaults_driveOnly (on := fun _ => True) (.refl u)).zone

/-- R77: the count stands at what the points, doors and loop contribute. -/
theorem recountFaults_counted (ha : u.active = true) (z : ZoneIx) :
    ((recountFaults u).zone z).faults = (recountFaults u).faultCount z := by
  have hloss : (recountFaults u).port.upstreamLost = u.port.upstreamLost := by
    obtain ⟨hloss, _⟩ := (recountFaults_moves (q := plain) (Moves.refl (s := u))).loop id
    exact hloss
  have hsame : (recountFaults u).faultCount z = u.faultCount z := by
    rw [State.faultCount_eq, State.faultCount_eq, hloss, (recountFaults_sideWork u).rest]
    exact rfl
  rw [hsame, recountFaults_active ha, updateFaults_fold u.faultCount _ (List.nodup_finRange 32) u z,
    if_pos (List.mem_finRange z)]

/-- R27, R28: the speed of a line without tracks in Normal. -/
theorem recomputeSpeed_quiet {l : LineIx} (ht : (u.line l).tracks = []) (hs : (u.line l).state = .normal) :
    SideWork u (recomputeSpeed l u) ∧ (recomputeSpeed l u).zones = u.zones ∧
      (recomputeSpeed l u).port.upstreamLost = u.port.upstreamLost := by
  obtain ⟨hloss, _⟩ := (recomputeSpeed_moves (q := plain) (l := l) (Moves.refl (s := u))).loop id
  obtain ⟨r, p, heq, _, hrs, hrt, _⟩ := recomputeSpeed_empty ht hs
  refine ⟨?_, by rw [heq]; rfl, hloss⟩
  rw [heq]
  refine ⟨rfl, fun k => ?_, fun _ => rfl⟩
  have hline : ({ u.modLine l (fun _ => r) with port := p } : State).line k = if k = l then r else u.line k :=
    State.line_modLine_if u l (fun _ => r) k
  rw [hline]
  by_cases hk : k = l
  · rw [if_pos hk, hk, ht, hs]
    exact ⟨hrt, hrs⟩
  · rw [if_neg hk]
    exact ⟨rfl, rfl⟩

/-- R50: the lines whose sensors changed being at rest, no point, door or zone changes with their speeds. -/
theorem recomputeChanged_quiet
    (h : ∀ l, (s.membersOf l).sensors ≠ (u.membersOf l).sensors → (u.line l).tracks = [] ∧ (u.line l).state = .normal) :
    SideWork u (recomputeChanged s u) ∧ (recomputeChanged s u).zones = u.zones ∧
      (recomputeChanged s u).port.upstreamLost = u.port.upstreamLost := by
  unfold recomputeChanged
  refine inAnyOrder_keeps
    (P := fun v => SideWork u v ∧ v.zones = u.zones ∧ v.port.upstreamLost = u.port.upstreamLost)
    (fun _ n ⟨hv, hz, hp⟩ => ⟨hv.trans (.draws n), hz, hp⟩) (fun f hf v ⟨hv, hz, hp⟩ => ?_) ⟨.refl u, rfl, rfl⟩
  obtain ⟨l, hl, rfl⟩ := List.mem_map.1 hf
  obtain ⟨_, hchanged⟩ := List.mem_filter.1 hl
  obtain ⟨ht, hs⟩ := h l (bne_iff_ne.1 hchanged)
  obtain ⟨vt, vs⟩ := hv.line l
  obtain ⟨gv, gz, gp⟩ := recomputeSpeed_quiet (vt.trans ht) (vs.trans hs)
  exact ⟨hv.trans gv, gz.trans hz, gp.trans hp⟩

theorem SideWork.faultCount {t : State} (h : SideWork u t) (hp : t.port.upstreamLost = u.port.upstreamLost) (z : ZoneIx) :
    t.faultCount z = u.faultCount z := by
  rw [State.faultCount_eq, State.faultCount_eq, hp, h.rest]
  exact rfl

end

/-! ## The lines whose sensors change (R13, R50, R172) -/

section
variable {s : State} {i : PointIx} {c : PointCfg} {d : List Byte}

/-- The entry read names the line that the data name. -/
theorem readPoint_newLine {l : LineIx} (h : readPoint d = some c) (hk : c.kind.hasLine = true) (hl : c.line = some l) :
    newLine d = some l := by
  unfold readPoint at h
  split at h
  next => cases h
  next hlen =>
    have hlen := not_not.1 hlen
    split at h
    next => cases h
    next => cases h; cases hk
    next k _ hkind =>
      dsimp only at h
      split at h
      next zone line role _ hline _ =>
        cases h
        obtain rfl : line = some l := hl
        have hfour : d[4]? = some (d.getD 4 0) := by
          rw [List.getD_eq_getElem?_getD, List.getElem?_eq_getElem (by rw [hlen]; decide)]
          rfl
        have hbyte : indexBelow 12 (at1 d 4) = some l := by
          unfold presentIndex at hline
          split at hline
          · cases Option.some.inj hline
          · split at hline
            next hlt =>
              cases hline
              exact dif_pos hlt
            next => cases hline
        unfold newLine
        rw [hkind, hfour]
        exact (if_pos hk).trans hbyte
      next => cases h

/-- The sensors of a line change with the entry of an airflow sensor of the line alone. -/
theorem membersOf_sensors_congr {f g : PointIx → PointCfg} {l : LineIx} (hother : ∀ j, j ≠ i → g j = f j)
    (hf : (f i).kind = .airflow → (f i).line ≠ some l) (hg : (g i).kind = .airflow → (g i).line ≠ some l) :
    (membersOf g l).sensors = (membersOf f l).sensors := by
  have hone : ∀ h : PointIx → PointCfg, ((h i).kind = .airflow → (h i).line ≠ some l) →
      (((h i).kind == .airflow) && ((h i).used && (h i).line == some l)) = false := fun h hh => by
    by_cases hk : (h i).kind = .airflow
    · rw [beq_false_of_ne (hh hk), Bool.and_false, Bool.and_false]
    · rw [beq_false_of_ne hk, Bool.false_and]
  unfold membersOf pointsOfLine
  dsimp only
  rw [List.filter_filter, List.filter_filter]
  refine List.filter_congr fun j _ => ?_
  by_cases hj : j = i
  · rw [hj, hone f hf, hone g hg]
  · rw [hother j hj]

/-- R172: the lines whose sensors a write of a point changes are at rest. -/
theorem State.sensorsChanged_quiet (hmaps : s.mapsFollow) (hread : readPoint d = some c) (hbusy : s.pointBusy i d = false)
    {l : LineIx} (hchanged : (s.membersOf l).sensors ≠ ((pointReplaced i c s).membersOf l).sensors) :
    (s.line l).tracks = [] ∧ (s.line l).state = .normal := by
  have hquiet : ((s.point i).cfg.line = some l ∨ newLine d = some l) →
      (s.line l).tracks = [] ∧ (s.line l).state = .normal := fun hl => by
    by_contra hno
    have hwork : (s.line l).state ≠ .normal ∨ (s.line l).tracks ≠ [] := by
      rcases not_and_or.1 hno with h | h
      · exact Or.inr h
      · exact Or.inl h
    exact Bool.eq_false_iff.1 hbusy ((s.pointBusy_iff i d).2 (Or.inl ⟨l, hl, hwork⟩))
  by_contra hno
  refine hchanged ?_
  rw [hmaps l, pointReplaced_mapsFollow i c s l]
  have hcfg : ∀ j, (pointReplaced i c s).pointCfg j = if j = i then c else (s.point j).cfg := pointReplaced_cfg i c s
  refine (membersOf_sensors_congr (i := i) (fun j hj => ?_) (fun _ hl => hno (hquiet (Or.inl hl))) fun hk hl => ?_).symm
  · rw [hcfg, if_neg hj]
    exact rfl
  · rw [hcfg, if_pos rfl] at hk hl
    exact hno (hquiet (Or.inr (readPoint_newLine hread (by rw [hk]; rfl) hl)))

/-- The lines keep what makes the change of their speed quiet. -/
theorem State.sensorsChanged_side {u : State} (hmaps : s.mapsFollow) (hread : readPoint d = some c)
    (hbusy : s.pointBusy i d = false) (hm : u.members = (pointReplaced i c s).members)
    (hline : ∀ l, (u.line l).tracks = (s.line l).tracks ∧ (u.line l).state = (s.line l).state) :
    ∀ l, (s.membersOf l).sensors ≠ (u.membersOf l).sensors → (u.line l).tracks = [] ∧ (u.line l).state = .normal := by
  intro l hchanged
  have hsame : u.membersOf l = (pointReplaced i c s).membersOf l := by
    unfold State.membersOf
    rw [hm]
  rw [hsame] at hchanged
  obtain ⟨ht, hs⟩ := State.sensorsChanged_quiet hmaps hread hbusy hchanged
  obtain ⟨lt, ls⟩ := hline l
  exact ⟨lt.trans ht, ls.trans hs⟩

end

/-! ## The doors of a rewritten door point (R128) -/

section
variable {s u : State} {i : PointIx} {c : PointCfg}

/-- R128: the door names the written point, which is a door point before the write or after it. -/
def State.doorNamed (s : State) (i : PointIx) (c : PointCfg) (d : DoorIx) : Prop :=
  (s.door d).cfg.point = some i ∧ ((s.point i).cfg.kind = .door ∨ c.kind = .door)

/-- What the reset of a door needs of the part: points, doors and levels as the write left them. -/
def Rewritten (i : PointIx) (c : PointCfg) (s u : State) : Prop := SideWork (pointReplaced i c s) u

theorem Rewritten.doors (h : Rewritten i c s u) : u.doors = s.doors := by
  obtain ⟨_, _, _, hrest⟩ := pointReplaced_rest i c s
  rw [SideWork.doors h, hrest]

theorem Rewritten.door (h : Rewritten i c s u) (d : DoorIx) : u.door d = s.door d := by
  unfold State.door
  rw [h.doors]

theorem Rewritten.point (h : Rewritten i c s u) (j : PointIx) : u.point j = (pointReplaced i c s).point j := by
  unfold State.point
  rw [SideWork.points h]

theorem Rewritten.level (h : Rewritten i c s u) (z : ZoneIx) : (u.zone z).level = (s.zone z).level := by
  obtain ⟨_, _, _, hrest⟩ := pointReplaced_rest i c s
  rw [SideWork.zone h z, hrest]
  exact rfl

theorem Rewritten.clock (h : Rewritten i c s u) : u.clock = s.clock := by
  obtain ⟨_, _, _, hrest⟩ := pointReplaced_rest i c s
  rw [SideWork.clock h, hrest]

theorem Rewritten.line (h : Rewritten i c s u) (l : LineIx) :
    (u.line l).tracks = (s.line l).tracks ∧ (u.line l).state = (s.line l).state := by
  obtain ⟨_, _, _, hrest⟩ := pointReplaced_rest i c s
  have hline := SideWork.line h l
  rwa [hrest] at hline

/-- The doors that a write of a point rewrites. -/
theorem State.mem_rewritten (h : Rewritten i c s u) (d : DoorIx) :
    (d ∈ (List.finRange 24).filter fun d =>
        (u.door d).cfg.point == some i && (s.doorActive d || u.doorActive d)) ↔ s.doorNamed i c d := by
  have hkind : (u.point i).cfg.kind = c.kind := by rw [h.point, pointReplaced_cfg, if_pos rfl]
  rw [List.mem_filter, Bool.and_eq_true, Bool.or_eq_true, beq_iff_eq, State.doorActive_iff, State.doorActive_iff,
    h.door]
  unfold State.doorNamed
  refine (and_iff_right (List.mem_finRange d)).trans (and_congr_right fun hp => ?_)
  rw [hp]
  simp only [Option.some.injEq, exists_eq_left', hkind]

theorem rewriteDoors_none (h : Rewritten i c s u) (hno : ∀ d, ¬s.doorNamed i c d) : rewriteDoors s i u = u := by
  have hempty : ((List.finRange 24).filter fun d =>
      (u.door d).cfg.point == some i && (s.doorActive d || u.doorActive d)) = [] :=
    List.eq_nil_iff_forall_not_mem.2 fun d hd => hno d ((State.mem_rewritten h d).1 hd)
  unfold rewriteDoors
  rw [hempty]
  exact rfl

/-- R113: no two doors name one door point, so the write resets one door. -/
theorem rewriteDoors_one {d : DoorIx} (h : Rewritten i c s u) (hdistinct : s.tablesDistinct) (hd : s.doorNamed i c d) :
    rewriteDoors s i u = firstReport d (resetDoor d u) := by
  obtain ⟨hpoints, _⟩ := hdistinct
  have honly : ∀ e, s.doorNamed i c e ↔ e = d := fun e => by
    refine ⟨fun he => ?_, fun he => he ▸ hd⟩
    by_contra hne
    exact hpoints e d hne i he.1 hd.1
  have hone : ((List.finRange 24).filter fun d =>
      (u.door d).cfg.point == some i && (s.doorActive d || u.doorActive d)) = [d] :=
    List.perm_singleton.1 ((List.perm_ext_iff_of_nodup ((List.nodup_finRange 24).filter _) (List.nodup_singleton d)).2
      fun e => (State.mem_rewritten h e).trans ((honly e).trans List.mem_singleton.symm))
  unfold rewriteDoors
  rw [hone]
  exact rfl

theorem resetDoor_doorWork (d : DoorIx) (u : State) : DoorWork u (resetDoor d u) :=
  (unclaimDoor_doorWork d u).trans .modDoor

/-- R118: a door whose door point has reported nothing. -/
theorem firstReport_silent_doorWork {d : DoorIx} (hr : u.doorReported d = none) : DoorWork u (firstReport d u) := by
  cases ha : u.doorActive d with
  | false =>
    rw [firstReport_inactive ha]
    exact .refl u
  | true =>
    rw [firstReport_active ha, hr, if_neg (by decide), if_neg (by decide)]
    split
    · exact DoorWork.modDoor.trans (closeBegins_doorWork d _)
    · exact .modDoor

/-- The written point has reported nothing. -/
theorem Rewritten.doorReported (h : Rewritten i c s u) {d : DoorIx} (hd : s.doorNamed i c d) : u.doorReported d = none := by
  obtain ⟨contact, _, hpoint, _⟩ := pointReplaced_eq i c s
  unfold State.doorReported
  rw [h.door, hd.1]
  dsimp only
  rw [h.point, hpoint]
  exact rfl

theorem rewriteDoors_doorWork (h : Rewritten i c s u) (hdistinct : s.tablesDistinct) : DoorWork u (rewriteDoors s i u) := by
  by_cases hno : ∃ d, s.doorNamed i c d
  · obtain ⟨d, hd⟩ := hno
    have hreset := resetDoor_doorWork d u
    have hunreported : (resetDoor d u).doorReported d = none := by
      have hcfg : ((resetDoor d u).door d).cfg = (u.door d).cfg :=
        (resetDoor_moves (q := plain) (Moves.refl (s := u))).doorCfg id d
      have hreported : ∀ j, ((resetDoor d u).point j).drive.reported = (u.point j).drive.reported :=
        fun j => unclaimDoor_reported d j u
      rw [← h.doorReported hd]
      simp only [State.doorReported, hcfg, hreported]
    rw [rewriteDoors_one h hdistinct hd]
    exact hreset.trans (firstReport_silent_doorWork hunreported)
  · rw [rewriteDoors_none h fun d hd => hno ⟨d, hd⟩]
    exact .refl u

/-- R128: the door of a rewritten door point starts afresh, with its event counters. -/
def Door.afresh (r : Door) : Door :=
  { cfg := r.cfg, releases := r.releases, forcedCount := r.forcedCount, jams := r.jams, breaches := r.breaches }

/-- R122, R123: the door is called to close by a zone beside it. -/
def State.doorCalled (s : State) (d : DoorIx) : Prop :=
  (s.door d).cfg.release.rank ≤ (s.zone (s.door d).cfg.sideA).level.rank ∨
    ∃ z, (s.door d).cfg.sideB = some z ∧ (s.door d).cfg.release.rank ≤ (s.zone z).level.rank

/-- R120: a conveyor of the door other than the written point. -/
def State.conveyorListed (s : State) (i : PointIx) (d : DoorIx) (j : PointIx) : Prop :=
  j ∈ (s.door d).cfg.conveyors ∧ j ≠ i ∧ (s.point j).cfg.kind = .conveyor

/-- R128, R118, R119: the door as the write leaves it. -/
theorem rewriteDoors_spec {d : DoorIx} (h : Rewritten i c s u) (hdistinct : s.tablesDistinct) (hd : s.doorNamed i c d) :
    let t := rewriteDoors s i u
    (∀ e, e ≠ d → t.door e = s.door e) ∧
      (c.kind ≠ .door ∨ ¬s.doorCalled d →
        t.door d = (s.door d).afresh ∧ ∀ j, Claim.door d ∉ (t.point j).drive.claims) ∧
      (c.kind = .door → s.doorCalled d →
        ((t.door d).closeRequest = true ∧ (t.door d).cfg = (s.door d).cfg ∧
          ((t.door d).state = .clearing ∨ (t.door d).state = .releasing)) ∧
        ((s.door d).cfg.conveyors = [] →
          t.door d =
            { (s.door d).afresh with
              state := .releasing, closeRequest := true
              closingAt := some (after s.clock ((s.door d).cfg.closing * 1000)), releases := bump (s.door d).releases } ∧
          (t.point i).drive.commanded = some .release ∧ ∀ j, Claim.door d ∉ (t.point j).drive.claims) ∧
        (∀ j, s.conveyorListed i d j → Claim.door d ∈ (t.point j).drive.claims) ∧
        ((∃ j, s.conveyorListed i d j ∧ (s.point j).drive.reported ≠ some .stopped) →
          t.door d =
            { (s.door d).afresh with
              state := .clearing, closeRequest := true
              clearingAt := some (after s.clock ((s.door d).cfg.clearing * 1000)) })) := by
  have hreset := resetDoor_unreported d u (h.doorReported hd)
  rw [h.door, h.clock, ← rewriteDoors_one h hdistinct hd] at hreset
  obtain ⟨hothers, hresting, hclosing⟩ := hreset
  have hkind : (u.point i).cfg.kind = c.kind := by rw [h.point, pointReplaced_cfg, if_pos rfl]
  have hactive : u.doorActive d = true ↔ c.kind = .door := by
    rw [State.doorActive_iff, h.door, hd.1]
    simp only [Option.some.injEq, exists_eq_left', hkind]
  have hcalled : u.closeStands d = true ↔ s.doorCalled d := by
    rw [State.closeStands_iff, h.door]
    simp only [h.level]
    exact Iff.rfl
  have hlisted : ∀ j, s.conveyorListed i d j → j ∈ u.doorConveyors d ∧ u.point j = s.point j := fun j hj => by
    obtain ⟨hmem, hne, hk⟩ := hj
    have hpoint : u.point j = s.point j := (h.point j).trans (pointReplaced_other hne)
    unfold State.doorConveyors State.isKind
    rw [h.door, List.mem_filter, hpoint, hk]
    exact ⟨⟨hmem, rfl⟩, rfl⟩
  refine ⟨fun e he => (hothers e he).trans (h.door e), fun hno => hresting ?_, fun hk hcall => ?_⟩
  · rw [Bool.eq_false_iff, Bool.eq_false_iff]
    exact hno.imp (mt hactive.1) (mt hcalled.1)
  · obtain ⟨hrequest, hreleasing, hclaims, hclearing⟩ := hclosing (hactive.2 hk) (hcalled.2 hcall)
    refine ⟨hrequest, fun hnil => ?_, fun j hj => ?_, fun ⟨j, hj, hmoving⟩ => ?_⟩
    · obtain ⟨hdoor, hreleased, hunclaimed⟩ := hreleasing hnil
      exact ⟨hdoor, hreleased i hd.1, hunclaimed⟩
    · exact hclaims (List.ne_nil_of_mem hj.1) j (hlisted j hj).1
    · obtain ⟨hmem, hpoint⟩ := hlisted j hj
      refine hclearing (State.clearingCondition_false fun hall => hmoving ?_)
      rw [← hpoint]
      exact hall j hmem

end

/-! ## The write (R10, R128) -/

section
variable {s u : State} {i : PointIx} {c : PointCfg} {d : List Byte} {rq : Request}

theorem recomputeChanged_rewritten (hmaps : s.mapsFollow) (hread : readPoint d = some c) (hbusy : s.pointBusy i d = false)
    (h : Rewritten i c s u) :
    Rewritten i c s (recomputeChanged s u) ∧
      (recomputeChanged s u).port.upstreamLost = u.port.upstreamLost ∧ (recomputeChanged s u).zones = u.zones := by
  obtain ⟨hside, hzones, hloss⟩ :=
    recomputeChanged_quiet (State.sensorsChanged_side hmaps hread hbusy (SideWork.members h) h.line)
  exact ⟨SideWork.trans h hside, hloss, hzones⟩

/-- R10, R77: a write of a point that is no door's. -/
theorem writePoint_undoored (ha : s.active = true) (hmaps : s.mapsFollow) (hread : readPoint d = some c)
    (hbusy : s.pointBusy i d = false) (hno : ∀ e, (s.door e).cfg.point ≠ some i) :
    Rewritten i c s (writePoint i c s) ∧ ∀ z, ((writePoint i c s).zone z).faults = (writePoint i c s).faultCount z := by
  have hunnamed : ∀ e, ¬s.doorNamed i c e := fun e he => hno e he.1
  have hactive : ∀ {v}, Rewritten i c s v → v.active = true := fun {v} hv => by
    obtain ⟨_, _, _, hrest⟩ := pointReplaced_rest i c s
    rw [← ha]
    unfold State.active
    rw [SideWork.mode hv, hrest]
  rw [writePoint_active ha]
  refine (inAnyOrder_someOrder _ _).once (g := recountFaults) (rest := [recomputeChanged s, rewriteDoors s i])
    (B := Rewritten i c s) (A := fun v => Rewritten i c s v ∧ ∀ z, (v.zone z).faults = v.faultCount z)
    (fun _ n hv => SideWork.trans hv (.draws n)) (fun _ n ⟨hv, hc⟩ => ⟨SideWork.trans hv (.draws n), hc⟩)
    ((List.perm_append_comm (l₁ := [recomputeChanged s, rewriteDoors s i]) (l₂ := [recountFaults])))
    (fun v hv => ⟨SideWork.trans hv (recountFaults_sideWork v), recountFaults_counted (hactive hv)⟩) (fun f hf v => ?_)
    (SideWork.refl _)
  simp only [List.mem_cons, List.not_mem_nil, or_false] at hf
  obtain rfl | rfl := hf
  · refine ⟨fun hv => (recomputeChanged_rewritten hmaps hread hbusy hv).1, fun ⟨hv, hc⟩ => ?_⟩
    obtain ⟨hside, hzones, hloss⟩ :=
      recomputeChanged_quiet (State.sensorsChanged_side hmaps hread hbusy (SideWork.members hv) hv.line)
    refine ⟨SideWork.trans hv hside, fun z => ?_⟩
    rw [hside.faultCount hloss, ← hc z]
    unfold State.zone
    rw [hzones]
  · refine ⟨fun hv => ?_, fun ⟨hv, hc⟩ => ?_⟩
    · rw [rewriteDoors_none hv hunnamed]
      exact hv
    · rw [rewriteDoors_none hv hunnamed]
      exact ⟨hv, hc⟩

/-- The doors of the written point have been rewritten, from a part that the other blocks may have worked on. -/
structure Redoored (i : PointIx) (c : PointCfg) (s v : State) : Prop where
  members : v.members = (pointReplaced i c s).members
  line : ∀ l, (v.line l).tracks = (s.line l).tracks ∧ (v.line l).state = (s.line l).state
  doors : ∃ w, Rewritten i c s w ∧ v.points = (rewriteDoors s i w).points ∧ v.doors = (rewriteDoors s i w).doors

theorem Redoored.side {v w : State} (h : Redoored i c s v) (g : SideWork v w) : Redoored i c s w := by
  obtain ⟨x, hx, hpoints, hdoors⟩ := h.doors
  refine ⟨g.members.trans h.members, fun l => ?_, x, hx, g.points.trans hpoints, g.doors.trans hdoors⟩
  obtain ⟨ht, hs⟩ := h.line l
  obtain ⟨gt, gs⟩ := g.line l
  exact ⟨gt.trans ht, gs.trans hs⟩

theorem Rewritten.redoored {v : State} (hdistinct : s.tablesDistinct) (hv : Rewritten i c s v) :
    Redoored i c s (rewriteDoors s i v) := by
  have hwork := rewriteDoors_doorWork hv hdistinct
  have hmembers : (rewriteDoors s i v).members = v.members := by rw [hwork.rest]
  refine ⟨hmembers.trans (SideWork.members hv), fun l => ?_, v, hv, rfl, rfl⟩
  unfold State.line
  rw [hwork.lines]
  exact hv.line l

/-- R128: the points and doors are those that the reset of the named door leaves, whatever the order. -/
theorem writePoint_redoored (ha : s.active = true) (hmaps : s.mapsFollow) (hdistinct : s.tablesDistinct)
    (hread : readPoint d = some c) (hbusy : s.pointBusy i d = false) : Redoored i c s (writePoint i c s) := by
  rw [writePoint_active ha]
  refine (inAnyOrder_someOrder _ _).once (g := rewriteDoors s i) (rest := [recomputeChanged s, recountFaults])
    (B := Rewritten i c s) (A := Redoored i c s) (fun _ n hv => SideWork.trans hv (.draws n))
    (fun _ n hv => hv.side (.draws n)) (.swap ..) (fun v hv => hv.redoored hdistinct) (fun f hf v => ?_)
    (SideWork.refl _)
  simp only [List.mem_cons, List.not_mem_nil, or_false] at hf
  obtain rfl | rfl := hf
  · exact ⟨fun hv => (recomputeChanged_rewritten hmaps hread hbusy hv).1, fun hv =>
      hv.side (recomputeChanged_quiet (State.sensorsChanged_side hmaps hread hbusy hv.members hv.line)).1⟩
  · exact ⟨fun hv => SideWork.trans hv (recountFaults_sideWork v), fun hv => hv.side (recountFaults_sideWork v)⟩

theorem State.writeEffect_point (ht : rq.table = 1) (hi : i.val = rq.ix) (hc : readPoint rq.data = some c) :
    s.writeEffect rq = if s.pointOk i c then some (writePoint i c) else none := by
  simp only [State.writeEffect, ht, indexBelow_val i hi, hc]

/-- R10: what an accepted write leaves in every mode. -/
theorem writePoint_kept (i : PointIx) (c : PointCfg) (s : State) :
    let t := writePoint i c s
    (t.point i).cfg = c ∧ (∀ j, j ≠ i → (t.point j).cfg = (s.point j).cfg) ∧ t.mapsFollow ∧ t.device = s.device ∧
      t.mode = s.mode ∧ t.mgmt = s.mgmt ∧ t.memory = s.memory ∧ t.classifier = s.classifier ∧
      ∀ z, (t.zone z).level = (s.zone z).level := by
  intro t
  have hmoves : Moves plain (replacePoint i c s) t := writePoint_moves .refl
  have hcfg : ∀ j, (t.point j).cfg = if j = i then c else (s.point j).cfg := fun j =>
    (hmoves.cfg j).trans (replacePoint_cfg i c s j)
  obtain ⟨hmgmt, hmemory⟩ := hmoves.mgmt id
  have hmaps : (replacePoint i c s).mapsFollow := by
    rw [replacePoint_eq]
    exact (rebuildMaps_mapsFollow _).congr rfl fun _ => rfl
  have hclassifier := hmoves.classifier id
  have hlevel := hmoves.sameLevels id id
  have hdevice := hmoves.device
  have hmode := hmoves.mode
  rw [replacePoint_eq] at hmgmt hmemory hclassifier hlevel hdevice hmode
  exact ⟨by rw [hcfg, if_pos rfl], fun j hj => by rw [hcfg, if_neg hj], hmoves.mapsFollow hmaps, hdevice, hmode, hmgmt,
    hmemory, hclassifier, hlevel⟩

end

/-- Settles O24. -/
theorem pointWritten : Obligations.PointWritten := by
  intro s rq i c h hn hc hi hdata hpoint
  have hbusy : s.writeBusy rq = false := (State.writeBusy_point h.table hi).trans hpoint
  have heffect := State.writeEffect_point (s := s) h.table hi hdata
  have hanswer := fun hok : s.pointOk i c = true =>
    takeWrite_answered h hn hc hbusy (heffect.trans (if_pos hok)) rfl (by decide)
  refine ⟨fun hbad => ?refused, fun hok hm => ?bypass, fun hok => ?kept, fun hok ha hmaps hno => ?undoored,
    fun hok ha hmaps hdistinct => ?doored⟩
  case refused => exact takeWrite_value h rfl hc hbusy (heffect.trans (if_neg (Bool.eq_false_iff.1 hbad)))
  case bypass =>
    rw [takeWrite_done h hn hc hbusy (heffect.trans (if_pos hok)) rfl (by decide), doneWith_eq, writePoint_bypass hm]
    · exact rfl
    · rw [writePoint_bypass hm, writePoint_bypass (s := reply rq .done s) hm]
      exact rfl
  case kept =>
    obtain ⟨t, ht, hans⟩ := hanswer hok
    refine ⟨t, ht, ?_⟩
    apply hans.fact
    · exact fun _ _ _ hu => hu
    intro p
    exact writePoint_kept i c { s with port := p }
  case undoored =>
    obtain ⟨t, ht, hans⟩ := hanswer hok
    refine ⟨t, ht, ?_⟩
    apply hans.keeps
    · rintro u p n ⟨hloss, _⟩ ⟨hothers, hstrikes, hdoors, hgroups, hfaults, hrest⟩
      refine ⟨hothers, hstrikes, hdoors, hgroups, fun z => ?_, hrest⟩
      refine (hfaults z).trans ?_
      rw [State.faultCount_eq, State.faultCount_eq, ← hloss]
      exact rfl
    intro p
    generalize hw : ({ s with port := p } : State) = w
    obtain ⟨hside, hfaults⟩ := writePoint_undoored (s := w) (i := i) (c := c) (d := rq.data) (by rw [← hw]; exact ha)
      (by rw [← hw]; exact hmaps) hdata (by rw [← hw]; exact hpoint) (by rw [← hw]; exact hno)
    obtain ⟨contact, _, hentry, htaken, hnone⟩ := pointReplaced_eq i c w
    obtain ⟨_, _, _, hrest⟩ := pointReplaced_rest i c w
    have hstrikes := SideWork.strikes hside
    have hgroups := SideWork.groups hside
    rw [hrest] at hstrikes hgroups
    have hdoors := hside.doors
    have hothers : ∀ j, j ≠ i → (writePoint i c w).point j = w.point j := fun j hj =>
      (hside.point j).trans (pointReplaced_other hj)
    have hline := hside.line
    subst hw
    exact ⟨hothers, hstrikes, hdoors, hgroups, hfaults, hline, contact, (hside.point i).trans hentry, htaken ha,
      fun hcall hflame => hnone (.inr (.inr ⟨hcall, hflame⟩)), fun hloop => hnone (.inr (.inl hloop))⟩
  case doored =>
    intro named
    obtain ⟨t, ht, hans⟩ := hanswer hok
    refine ⟨t, ht, ?_⟩
    apply hans.fact
    · exact fun _ _ _ hu => hu
    intro p
    generalize hw : ({ s with port := p } : State) = w
    obtain ⟨x, hx, hpoints, hdoors⟩ := (writePoint_redoored (s := w) (i := i) (c := c) (d := rq.data)
      (by rw [← hw]; exact ha) (by rw [← hw]; exact hmaps) (by rw [← hw]; exact hdistinct) hdata
      (by rw [← hw]; exact hpoint)).doors
    have hdoor : (writePoint i c w).door = (rewriteDoors w i x).door := by
      unfold State.door
      rw [hdoors]
    have hpoint' : (writePoint i c w).point = (rewriteDoors w i x).point := by
      unfold State.point
      rw [hpoints]
    rw [hdoor, hpoint']
    have hspec := fun d hd => rewriteDoors_spec (d := d) hx (by rw [← hw]; exact hdistinct) hd
    refine ⟨fun d hd => ?_, fun d hd => ?_⟩
    · by_cases hno : ∃ e, w.doorNamed i c e
      · obtain ⟨e, he⟩ := hno
        have hne : d ≠ e := by
          rintro rfl
          exact hd (by rw [← hw] at he; exact he)
        exact ((hspec e he).1 d hne).trans (by rw [← hw]; rfl)
      · rw [rewriteDoors_none hx fun e he => hno ⟨e, he⟩, hx.door, ← hw]
        exact rfl
    · subst hw
      obtain ⟨_, hresting, hclosing⟩ := hspec d hd
      exact ⟨hresting, hclosing⟩

end Sys2Proof.Machine
end

