-- ==== Sys2Proof/Proofs/ReadSections.lean ====
section
/-! PROOFS. What the Replies to a Read hold: flags and sets as bits (R187), and the lengths of the configuration parts and state
sections, which a Reply has room for (R166, R179). -/

namespace Sys2Proof.Machine

/-! ## Flags and sets as bits (R187) -/

theorem packFlags_getLsbD (bs : List Bool) {k : Nat} (hk : k < 8) : (packFlags bs).getLsbD k = bs.getD k false := by
  induction bs generalizing k with
  | nil => exact BitVec.getLsbD_zero
  | cons b bs ih =>
    unfold packFlags
    rw [BitVec.getLsbD_or, BitVec.getLsbD_shiftLeft]
    cases k with
    | zero => cases b <;> rfl
    | succ k =>
      have hlow : (if b then 1#8 else 0#8).getLsbD (k + 1) = false := by
        cases b
        · exact BitVec.getLsbD_zero
        · simp
      have hnext := ih (Nat.lt_of_succ_lt hk)
      rw [List.getD_cons_succ, ← hnext]
      simp only [hk, decide_true, Nat.add_one_sub_one, Bool.true_and]
      rw [show (if b = true then (1 : Byte) else 0) = if b then 1#8 else 0#8 from rfl, hlow, Bool.or_false]
      simp

theorem bitmap_length (n : Nat) (bs : List Bool) : (bitmap n bs).length = n := by
  induction n generalizing bs with
  | zero => rfl
  | succ n ih =>
    unfold bitmap
    rw [List.length_cons, ih]

/-- R187: member `k` of a set is bit `k` of its bitmap. -/
theorem bitmap_getLsbD {n k : Nat} (bs : List Bool) (hk : k < 8 * n) :
    ((bitmap n bs).getD (k / 8) 0).getLsbD (k % 8) = bs.getD k false := by
  induction n generalizing k bs with
  | zero => exact absurd hk (Nat.not_lt_zero k)
  | succ n ih =>
    unfold bitmap
    by_cases hfirst : k < 8
    · rw [Nat.div_eq_of_lt hfirst, Nat.mod_eq_of_lt hfirst, List.getD_cons_zero, packFlags_getLsbD _ hfirst,
        List.getD_eq_getElem?_getD, List.getD_eq_getElem?_getD, List.getElem?_take_of_lt hfirst]
    · obtain ⟨j, rfl⟩ := Nat.exists_eq_add_of_le (Nat.le_of_not_lt hfirst)
      have hdiv : (8 + j) / 8 = j / 8 + 1 := by omega
      have hmod : (8 + j) % 8 = j % 8 := by omega
      rw [hdiv, hmod, List.getD_cons_succ, ih _ (by omega), List.getD_eq_getElem?_getD, List.getD_eq_getElem?_getD,
        List.getElem?_drop]

/-! ## Fields (R188) -/

theorem orOnes1_eq (v : Option Nat) : orOnes1 v = match v with | some n => [BitVec.ofNat 8 n] | none => [255#8] := by
  cases v <;> rfl

theorem orOnes2_eq (v : Option Nat) : orOnes2 v = match v with | some n => be16 n | none => [255#8, 255] := by
  cases v <;> rfl

/-! ## Lengths -/

@[simp] theorem be16_length (n : Nat) : (be16 n).length = 2 := rfl
@[simp] theorem be24_length (n : Nat) : (be24 n).length = 3 := rfl
@[simp] theorem be32_length (w : BitVec 32) : (be32 w).length = 4 := rfl
@[simp] theorem orOnes1_length (v : Option Nat) : (orOnes1 v).length = 1 := rfl
@[simp] theorem orOnes2_length (v : Option Nat) : (orOnes2 v).length = 2 := rfl
@[simp] theorem optional4_length (v : Option (BitVec 32)) : (optional4 v).length = 4 := rfl
@[simp] theorem count2_length (c : Ctr) : (count2 c).length = 2 := rfl

@[simp] theorem remaining_length (now : Time) (d : Option Time) : (remaining now d).length = 3 := by
  unfold remaining
  cases d with
  | none => rfl
  | some d => dsimp only; split <;> rfl

@[simp] theorem listBytes_length (l : List PointIx) : (listBytes l).length = l.length + 1 := by
  unfold listBytes
  rw [List.length_cons, List.length_map]

/-- A run of fields of one length. -/
theorem length_flatMap_fields {α : Type} {k : Nat} (f : α → List Byte) (l : List α) (h : ∀ x, (f x).length = k) :
    (l.flatMap f).length = k * l.length := by
  induction l with
  | nil => rfl
  | cons x l ih => rw [List.flatMap_cons, List.length_append, h, ih, List.length_cons, Nat.mul_succ, Nat.add_comm]

theorem counts_length (l : List Ctr) : (l.flatMap count2).length = 2 * l.length :=
  length_flatMap_fields count2 l count2_length

theorem commandedBytes_length (b : Bool) (r : Option Requested) : (commandedBytes b r).length ≤ 5 := by
  cases r with
  | none => cases b <;> decide
  | some r => cases r <;> simp [commandedBytes]

theorem State.reportedBytes_length (s : State) (i : PointIx) : (s.reportedBytes i).length = 1 := by
  unfold State.reportedBytes
  dsimp only
  split <;> rfl

@[simp] theorem claimBytes_length (c : List Claim) : (claimBytes c).length = 5 := bitmap_length 5 _

theorem Strike.bytes_length (e : Strike) : e.bytes.length = 8 := rfl

theorem Track.bytes_length (k : Track) : k.bytes.length = 23 := rfl

theorem Valve.bytes_length (now : Time) (v : Valve) : (v.bytes now).length = 17 := by
  simp [Valve.bytes]

theorem Trigger.bytes_length (t : Trigger) : t.bytes.length = 2 := by
  cases t <;> rfl

theorem SourceUse.bytes_length (u : SourceUse) : u.bytes.length = 3 := by
  obtain ⟨k, p, f, hbytes, _⟩ := u.bytes_read
  rw [hbytes]
  rfl

theorem Action.bytes_length (c : Action) : c.bytes.length = 3 := by
  cases c <;> rfl

section
variable {s : State} {n : Nat} {d : List Byte}

/-! ## The sections of each table -/

theorem State.deviceSection_length (h : s.deviceSection n = some d) : d.length ≤ 22 := by
  unfold State.deviceSection at h
  dsimp only at h
  have hcounters : s.port.counters.list.length = 11 := rfl
  split at h
  · cases h
    simp
  split at h
  · cases h
    simp
  split at h
  · cases h
    rw [counts_length]
    have := List.length_take_le' Config.portCountersInFirstSection.val s.port.counters.list
    omega
  split at h
  · cases h
    rw [counts_length, List.length_drop]
    omega
  split at h
  · split at h
    · cases h
      rw [Strike.bytes_length]
      decide
    · cases h
      decide
  · cases h

theorem State.pointSection_length {i : PointIx} (h : s.pointSection i n = some d) : d.length ≤ 22 := by
  unfold State.pointSection at h
  dsimp only at h
  have hcommanded := commandedBytes_length (s.isLoop i && (s.point i).cfg.kind == .siren) (s.point i).drive.commanded
  have hreported := s.reportedBytes_length i
  split at h
  · cases h
  split at h
  · cases h
    decide
  split at h
  · cases h
    simp
  split at h
  · cases h
    simp only [List.length_append, hreported, optional4_length, remaining_length, List.length_cons, List.length_nil]
    omega
  · cases h
    simp

theorem State.membersOf_fit (hmaps : s.mapsFollow) (hfit : s.linesFit) (l : LineIx) :
    (s.membersOf l).detectors.length ≤ 16 ∧ (s.membersOf l).valves.length ≤ 8 ∧ (s.membersOf l).sensors.length ≤ 2 ∧
      (s.membersOf l).fans.length ≤ 2 ∧ (s.membersOf l).conveyors.length ≤ 4 ∧ (s.membersOf l).gates.length ≤ 1 := by
  obtain ⟨hd, hv, hs, hf, hc, hg, _⟩ := hfit l
  rw [hmaps l]
  exact ⟨hd, hv, hs, hf, hc, hg⟩

theorem State.lineSection_length {l : LineIx} (hmaps : s.mapsFollow) (hfit : s.linesFit) (h : s.lineSection l n = some d) :
    d.length ≤ 22 := by
  obtain ⟨hd, hv, hs, hf, hc, hg⟩ := State.membersOf_fit hmaps hfit l
  unfold State.lineSection at h
  dsimp only at h
  split at h
  · cases h
    simp [bitmap_length]
  split at h
  · cases h
    have hsamples : ((s.membersOf l).sensors.flatMap fun i => sampleBytes (s.point i).sample).length =
        6 * (s.membersOf l).sensors.length := length_flatMap_fields _ _ fun _ => rfl
    simp only [List.length_append, hsamples, be16_length, orOnes2_length, List.length_cons, List.length_nil]
    omega
  split at h
  · cases h
    simp
  split at h
  · split at h
    · cases h
      rw [List.length_eraseIdx_of_lt (by rw [Track.bytes_length]; omega), Track.bytes_length]
    · cases h
      decide
  split at h
  · split at h
    · cases h
      rw [Valve.bytes_length]
      decide
    · cases h
      decide
  split at h
  · cases h
    rw [listBytes_length]
    omega
  split at h
  · cases h
    simp only [List.flatMap_cons, List.flatMap_nil, List.length_append, listBytes_length, List.length_nil]
    omega
  split at h
  · cases h
    rw [bitmap_length]
    decide
  · cases h

theorem State.zoneSection_length {z : ZoneIx} (h : s.zoneSection z n = some d) : d.length ≤ 22 := by
  unfold State.zoneSection at h
  dsimp only at h
  split at h
  · cases h
    simp
  split at h
  · cases h
    simp only [List.length_append, counts_length, Vector.length_toList, count2_length, remaining_length,
      List.length_cons, List.length_nil]
    decide
  · cases h

theorem State.tripSection_length {k : TripIx} (h : s.tripSection k n = some d) : d.length ≤ 22 := by
  unfold State.tripSection at h
  dsimp only at h
  split at h
  · cases h
    simp
  · cases h

theorem State.doorSection_length {e : DoorIx} (h : s.doorSection e n = some d) : d.length ≤ 22 := by
  unfold State.doorSection at h
  dsimp only at h
  split at h
  · cases h
    simp
  · cases h

theorem State.groupSection_length {g : GroupIx} (h : s.groupSection g n = some d) : d.length ≤ 22 := by
  have hrequests : ((s.group g).requests.toList.flatMap fun c => orOnes1 (indexNat c)).length = 32 := by
    rw [length_flatMap_fields (k := 1) (fun c => orOnes1 (indexNat c)) _ fun _ => rfl, Vector.length_toList]
  unfold State.groupSection at h
  dsimp only at h
  split at h
  · cases h
    simp
  split at h
  · cases h
    rw [List.length_take, hrequests]
    decide
  split at h
  · cases h
    rw [List.length_drop, hrequests]
    decide
  · cases h

/-- R179: a state section fits the payload of a Reply. -/
theorem State.section?_length {table index : Nat} (hmaps : s.mapsFollow) (hfit : s.linesFit)
    (h : s.section? table index n = some d) : d.length ≤ 22 := by
  unfold State.section? at h
  split at h
  next => exact State.deviceSection_length h
  next => split at h; exacts [State.pointSection_length h, nomatch h]
  next => split at h; exacts [State.lineSection_length hmaps hfit h, nomatch h]
  next => split at h; exacts [State.zoneSection_length h, nomatch h]
  next => split at h; exacts [State.tripSection_length h, nomatch h]
  next => split at h; exacts [State.doorSection_length h, nomatch h]
  next => split at h; exacts [State.groupSection_length h, nomatch h]
  next => cases h

/-! ## The configuration parts -/

theorem PointCfg.write_length {c : PointCfg} (h : c.kind ≠ .unused) : c.write.length = 19 := by
  unfold PointCfg.write
  rw [if_neg h]
  rfl

theorem PointCfg.write_length_le (c : PointCfg) : c.write.length ≤ 19 := by
  by_cases h : c.kind = .unused
  · unfold PointCfg.write
    rw [if_pos h]
    decide
  · exact le_of_eq (c.write_length h)

/-- R179: a configuration part fits the payload of a Reply. -/
theorem State.configParts_fit (hrange : s.tablesInRange) (hdistinct : s.tablesDistinct) {table index : Nat}
    (h : d ∈ s.configParts table index) : d.length ≤ 22 := by
  obtain ⟨_, _, _, _, hdoors, _⟩ := hrange
  obtain ⟨_, hgroups, _⟩ := hdistinct
  unfold State.configParts at h
  split at h
  next =>
    cases List.mem_singleton.1 h
    simp [DeviceCfg.write]
  next =>
    split at h
    · cases List.mem_singleton.1 h
      exact (PointCfg.write_length_le _).trans (by decide)
    · cases h
  next =>
    split at h
    next l _ =>
      unfold LineCfg.write at h
      obtain rfl | h := List.mem_cons.1 h
      · simp
      · cases List.mem_singleton.1 h
        cases (s.line l).cfg.timing <;> simp
    · cases h
  next =>
    split at h
    next z _ =>
      unfold ZoneCfg.write at h
      obtain rfl | h := List.mem_cons.1 h
      · simp
      · cases List.mem_singleton.1 h
        simp
    · cases h
  next =>
    split at h
    next k _ =>
      unfold TripCfg.write at h
      obtain rfl | h := List.mem_cons.1 h
      · simp [Trigger.bytes_length, SourceUse.bytes_length]
      · cases List.mem_singleton.1 h
        simp [Action.bytes_length]
    · cases h
  next =>
    split at h
    next e _ =>
      have hdoor := hdoors e
      simp only [DoorCfg.rangesOk, Bool.and_eq_true, decide_eq_true_eq] at hdoor
      obtain ⟨⟨_, hcount⟩, _⟩ := hdoor
      unfold DoorCfg.write at h
      obtain rfl | h := List.mem_cons.1 h
      · simp
        omega
      · cases List.mem_singleton.1 h
        simp
    · cases h
  next =>
    split at h
    next g _ =>
      obtain ⟨hcount, _⟩ := hgroups g
      cases List.mem_singleton.1 h
      unfold GroupCfg.write outputBytes
      simp
      omega
    · cases h
  next =>
    split at h
    · cases List.mem_singleton.1 h
      simp [Cadence.write]
    · cases h
  next => cases h

end

end Sys2Proof.Machine
end

