-- ==== Sys2Proof/Proofs/Reads.lean ====
section
/-! PROOFS. The reading of one entry (R166, R167, R185), and what each section and configuration part holds (R187 to R189):
O18. -/

namespace Sys2Proof.Machine

/-! ## The checks and the Replies of a Read (R167) -/

section
variable {s : State} {rq : Request}

/-- R167: the checks of a Read of an entry of a table. -/
theorem takeRead_checked (hm : s.mode ≠ .loading) (ht : rq.table ≤ 7) (hi : rq.ix < tableSize rq.table)
    (hr : rq.reservedSet = false) :
    takeRead rq s =
      if s.routineFree < s.repliesNeeded rq rq.ix then reply rq .busy s
      else if s.readEntry rq rq.ix = none then reply rq .value s
      else replyData rq s ((s.readEntry rq rq.ix).getD []) := by
  have hchecks : ∀ {c : Option ReplyCode},
      firstFailed [(decide (s.routineFree < s.repliesNeeded rq rq.ix), .busy),
          (rq.reservedSet || (s.readEntry rq rq.ix).isNone, .value)] = c →
        takeRead rq s = c.elim (replyData rq s ((s.readEntry rq rq.ix).getD [])) fun c => reply rq c s :=
    fun {c} hc => by
      have hfirst : ∀ more, firstFailed ((!everyTable.contains rq.table, ReplyCode.table) :: (rq.outside, .index) :: more) =
          firstFailed more := fun more =>
        (if_neg (by rw [everyTable_contains ht]; decide)).trans (if_neg (by simpa [Request.outside] using hi))
      unfold takeRead
      cases c with
      | none => exact answer_accepted hm ((hfirst _).trans hc)
      | some c => exact answer_refused hm ((hfirst _).trans hc)
  by_cases hbusy : s.routineFree < s.repliesNeeded rq rq.ix
  · rw [if_pos hbusy, hchecks (if_pos (decide_eq_true hbusy))]
    exact rfl
  have hfree : ¬decide (s.routineFree < s.repliesNeeded rq rq.ix) = true := mt of_decide_eq_true hbusy
  by_cases hbad : s.readEntry rq rq.ix = none
  · rw [if_neg hbusy, if_pos hbad, hchecks ((if_neg hfree).trans (if_pos (by rw [hbad, hr]; rfl)))]
    exact rfl
  · rw [if_neg hbusy, if_neg hbad, hchecks ((if_neg hfree).trans (if_neg (by simpa [hr] using hbad)))]
    exact rfl

theorem State.readEntry_config (hn : rq.namesState = false) (i : Nat) : s.readEntry rq i = some (s.configParts rq.table i) := by
  unfold State.readEntry
  exact if_neg (by rw [hn]; decide)

/-- R167: a Read of a configuration part. -/
theorem takeRead_config (hm : s.mode ≠ .loading) (ht : rq.table ≤ 7) (hi : rq.ix < tableSize rq.table)
    (hr : rq.reservedSet = false) (hn : rq.namesState = false) :
    takeRead rq s =
      if s.routineFree < (s.configParts rq.table rq.ix).length then reply rq .busy s
      else replyData rq s (s.configParts rq.table rq.ix) := by
  have hneeded : s.repliesNeeded rq rq.ix = (s.configParts rq.table rq.ix).length := by
    unfold State.repliesNeeded
    exact if_neg (by rw [hn]; decide)
  rw [takeRead_checked hm ht hi hr, hneeded, State.readEntry_config hn]
  exact if_congr Iff.rfl rfl (if_neg (Option.some_ne_none _))

/-- R167, R185: a Read of a state section. -/
theorem takeRead_state (hm : s.mode ≠ .loading) (ht : rq.table ≤ 7) (hi : rq.ix < tableSize rq.table)
    (hr : rq.reservedSet = false) (hn : rq.namesState = true) :
    takeRead rq s =
      if s.routineFree < 1 then reply rq .busy s
      else if s.readEntry rq rq.ix = none then reply rq .value s
      else replyData rq s ((s.readEntry rq rq.ix).getD []) := by
  have hneeded : s.repliesNeeded rq rq.ix = 1 := by
    unfold State.repliesNeeded
    exact if_pos hn
  rw [takeRead_checked hm ht hi hr, hneeded]

end

/-! ## The sections by table (R166) -/

section
variable {s : State}

theorem State.section?_point (i : PointIx) (n : Nat) : s.section? 1 i.val n = s.pointSection i n := by
  simp only [State.section?, indexBelow_val i rfl]

theorem State.section?_line (l : LineIx) (n : Nat) : s.section? 2 l.val n = s.lineSection l n := by
  simp only [State.section?, indexBelow_val l rfl]

theorem State.section?_zone (z : ZoneIx) (n : Nat) : s.section? 3 z.val n = s.zoneSection z n := by
  simp only [State.section?, indexBelow_val z rfl]

theorem State.section?_trip (k : TripIx) (n : Nat) : s.section? 4 k.val n = s.tripSection k n := by
  simp only [State.section?, indexBelow_val k rfl]

theorem State.section?_door (d : DoorIx) (n : Nat) : s.section? 5 d.val n = s.doorSection d n := by
  simp only [State.section?, indexBelow_val d rfl]

theorem State.section?_group (g : GroupIx) (n : Nat) : s.section? 6 g.val n = s.groupSection g n := by
  simp only [State.section?, indexBelow_val g rfl]

/-! ## The Device record -/

theorem State.deviceSection_strike {k : Nat} (hk : k < 32) :
    s.deviceSection (4 + k) = some (match s.strikes[k]? with | some e => e.bytes | none => []) := by
  unfold State.deviceSection
  dsimp only
  rw [if_neg (by omega), if_neg (by omega), if_neg (by omega), if_neg (by omega), if_pos (by omega),
    Nat.add_sub_cancel_left]
  cases s.strikes[k]? <;> rfl

theorem State.deviceSection_none {n : Nat} (hn : 36 ≤ n) : s.deviceSection n = none := by
  unfold State.deviceSection
  dsimp only
  rw [if_neg (by omega), if_neg (by omega), if_neg (by omega), if_neg (by omega), if_neg (by omega)]

/-- The two sections of port counters hold them in their order. -/
theorem State.deviceSection_counters :
    ∃ a b, s.deviceSection 2 = some a ∧ s.deviceSection 3 = some b ∧
      a ++ b = s.port.counters.list.flatMap count2 :=
  ⟨_, _, rfl, rfl, by rw [← List.flatMap_append, List.take_append_drop]⟩

/-! ## Points -/

theorem State.pointSection_none {i : PointIx} {n : Nat} (hn : 3 ≤ n) : s.pointSection i n = none := if_pos hn

theorem State.pointSection_unused {i : PointIx} {n : Nat} (hk : (s.point i).cfg.kind = .unused) (hn : n < 3) :
    s.pointSection i n = some [] := by
  unfold State.pointSection PointCfg.used
  exact (if_neg (Nat.not_le_of_lt hn)).trans (if_pos (by rw [hk]; rfl))

theorem State.pointSection_used {i : PointIx} {n : Nat} (hk : (s.point i).cfg.kind ≠ .unused) (hn : n < 3) :
    s.pointSection i n =
      if n = 0 then
        some (count2 (s.point i).reports ++ orOnes1 ((s.point i).contact.map fun b => if b then 1 else 0))
      else if n = 1 then
        some (commandedBytes (s.isLoop i && (s.point i).cfg.kind == .siren) (s.point i).drive.commanded ++ s.reportedBytes i
          ++ optional4 (s.point i).drive.lastHeard ++ optional4 (s.point i).drive.lastCommand
          ++ [packFlags [(s.point i).drive.unsupervised, (s.point i).drive.disagree, (s.point i).drive.obscured,
              s.pollOutstanding i]]
          ++ remaining s.clock (s.point i).drive.repeatAt ++ remaining s.clock (s.point i).drive.disagreeAt)
      else
        some (claimBytes (s.point i).drive.claims ++ count2 (s.point i).drive.withheld ++
          count2 (s.point i).drive.repeats) := by
  have hused : ¬(!(s.point i).cfg.used) = true := by
    unfold PointCfg.used
    simpa using hk
  exact (if_neg (Nat.not_le_of_lt hn)).trans (if_neg hused)

/-- R183: the commanded state of a point is the payload of its command. -/
theorem commandedBytes_payload {i : PointIx} {r : Requested} (b : Bool) (hon : r ≠ .outOn) (hoff : r ≠ .outOff) :
    commandedBytes b (some r) = (commandFrame s i r).payload := by
  cases r with
  | outOn => exact absurd rfl hon
  | outOff => exact absurd rfl hoff
  | _ => rfl

theorem State.pollOutstanding_iff {i : PointIx} :
    s.pollOutstanding i = true ↔ (s.point i).drive.pollPlaced ≠ none ∧
      (s.mode = .bypass ∨ ¬∀ t, (s.point i).drive.pollPlaced = some t →
        (s.point i).cfg.supervision.getD 0 * 1000 / 2 ≤ elapsed s.clock t) := by
  unfold State.pollOutstanding State.pollLapsed Point.pollLapsed
  rw [Bool.and_eq_true, Bool.or_eq_true, beq_iff_eq, Option.isSome_iff_ne_none]
  refine and_congr_right fun hp => or_congr_right ?_
  obtain ⟨t, ht⟩ := Option.ne_none_iff_exists'.1 hp
  rw [ht]
  simp only [Bool.not_eq_true', decide_eq_false_iff_not, Option.some.injEq, forall_eq']
  exact Iff.rfl

theorem State.reportedBytes_loop {i : PointIx} (hl : s.isLoop i = true) :
    s.reportedBytes i = orOnes1 ((s.point i).drive.reported.map (·.number)) := by
  unfold State.reportedBytes
  exact if_neg (by rw [State.isLoop_not_local hl]; simp)

/-- R22: the output of a channel is found by its number. -/
theorem outputChannel_find : ∀ o : OutputIx,
    (List.finRange 8).find? (fun q : OutputIx => BitVec.ofNat 8 (8 + o.val) == BitVec.ofNat 8 (8 + q.val)) = some o := by
  decide

/-- R189: a local output or siren reports the level of its pin. -/
theorem State.reportedBytes_local {i : PointIx} {o : OutputIx} (hused : (s.point i).cfg.kind ≠ .unused)
    (hl : s.isLoop i = false) (hk : (s.point i).cfg.kind = .output ∨ (s.point i).cfg.kind = .siren)
    (hc : (s.point i).cfg.channel = BitVec.ofNat 8 (8 + o.val)) :
    s.reportedBytes i = [if s.output o then 1 else 0] := by
  have hlocal : s.isLocal i = true := by
    unfold State.isLoop PointCfg.used at hl
    unfold State.isLocal PointCfg.used
    simpa [hused] using hl
  have hpin : s.pinOf i = s.output o := by
    unfold State.pinOf
    rw [hc, outputChannel_find]
  unfold State.reportedBytes
  rw [← hpin]
  refine if_pos ?_
  rw [hlocal]
  simpa using hk

/-! ## Lines -/

/-- Log 10: the byte that a track's section leaves out stands behind its state. -/
theorem Track.bytes_eraseIdx (t : Track) (k : Nat) :
    t.bytes.eraseIdx (11 + k) =
      [t.number, BitVec.ofNat 8 t.origin.val] ++ be16 t.originPosition ++ be32 t.detected ++ be16 t.speed
        ++ [BitVec.ofNat 8 t.state.code] ++
        (orOnes2 (t.target.map (·.1.val)) ++ optional4 (t.target.map (·.2)) ++ orOnes2 t.lastMatched ++
          be32 t.endTime).eraseIdx k := by
  have hsplit : t.bytes = ([t.number, BitVec.ofNat 8 t.origin.val] ++ be16 t.originPosition ++ be32 t.detected ++
      be16 t.speed ++ [BitVec.ofNat 8 t.state.code]) ++ (orOnes2 (t.target.map (·.1.val)) ++ optional4 (t.target.map (·.2)) ++
        orOnes2 t.lastMatched ++ be32 t.endTime) := rfl
  rw [hsplit, List.eraseIdx_append_of_length_le (Nat.le_add_right 11 k)]
  exact congrArg (_ ++ List.eraseIdx _ ·) (Nat.add_sub_cancel_left 11 k)

theorem State.lineSection_track {l : LineIx} {k : Nat} (hk : k < 16) :
    s.lineSection l (3 + k) =
      some (match (s.line l).tracks[k]? with
        | some t => t.bytes.eraseIdx (11 + Config.trackByteLeftOut.val)
        | none => []) := by
  unfold State.lineSection
  dsimp only
  rw [if_neg (by omega), if_neg (by omega), if_neg (by omega), if_pos (by omega), Nat.add_sub_cancel_left]
  cases (s.line l).tracks[k]? <;> rfl

theorem State.lineSection_valve {l : LineIx} {k : Nat} (hk : k < 8) :
    s.lineSection l (19 + k) =
      some (match (s.membersOf l).valves[k]? with
        | some i => (s.point i).valve.bytes s.clock
        | none => []) := by
  unfold State.lineSection
  dsimp only
  rw [if_neg (by omega), if_neg (by omega), if_neg (by omega), if_neg (by omega), if_pos (by omega),
    Nat.add_sub_cancel_left]
  cases (s.membersOf l).valves[k]? <;> rfl

/-- R25: a sample slot, all ones where it is empty. -/
theorem sampleBytes_eq (a : Option Sample) :
    sampleBytes a =
      match a with
      | some a => be16 a.speed ++ be32 a.arrival
      | none => [255#8, 255, 255, 255, 255, 255] := by
  cases a <;> rfl

theorem State.lineSection_speed (l : LineIx) :
    s.lineSection l 1 =
      some (be16 (s.line l).speed ++ [packFlags [(s.line l).speedStale, (s.line l).flood, (s.line l).storm]]
        ++ ((s.membersOf l).sensors.flatMap fun i =>
          match (s.point i).sample with
          | some a => be16 a.speed ++ be32 a.arrival
          | none => [255#8, 255, 255, 255, 255, 255])
        ++ be16 ((s.line l).calibrated.getD 65535) ++ [(s.line l).calibrationCount]) := by
  simp only [← sampleBytes_eq]
  exact rfl

theorem Valve.bytes_eq (now : Time) (v : Valve) :
    v.bytes now =
      [BitVec.ofNat 8 v.state.code] ++ remaining now v.holdAt ++ remaining now v.recoveryAt ++ [packFlags [v.faulted]]
        ++ remaining now v.feedbackAt ++ [v.opens, v.reopens, v.unsolicited].flatMap count2 := by
  simp [Valve.bytes]

theorem State.lineSection_members (l : LineIx) :
    s.lineSection l 28 =
      some (listBytes (s.membersOf l).valves ++ listBytes (s.membersOf l).sensors ++ listBytes (s.membersOf l).fans
        ++ listBytes (s.membersOf l).conveyors ++ listBytes (s.membersOf l).gates) := by
  simp [State.lineSection]

theorem State.lineSection_none {l : LineIx} {n : Nat} (hn : 30 ≤ n) : s.lineSection l n = none := by
  unfold State.lineSection
  dsimp only
  rw [if_neg (by omega), if_neg (by omega), if_neg (by omega), if_neg (by omega), if_neg (by omega), if_neg (by omega),
    if_neg (by omega), if_neg (by omega)]

/-! ## Trips and siren groups -/

theorem State.tripSection_eq (k : TripIx) :
    s.tripSection k 0 =
      some ([packFlags [(s.trip k).spent],
          match (s.trip k).baseline with | some true => 1#8 | some false => 0#8 | none => 255#8]
        ++ (match (s.trip k).latch with
          | some v => be32 (BitVec.ofInt 32 v.1) ++ be32 v.2
          | none => [255#8, 255, 255, 255, 255, 255, 255, 255]) ++ [(s.trip k).fired]) := by
  unfold State.tripSection
  dsimp only
  cases (s.trip k).latch with
  | none =>
    cases (s.trip k).baseline with
    | none => rfl
    | some b => cases b <;> rfl
  | some v =>
    cases (s.trip k).baseline with
    | none => rfl
    | some b => cases b <;> rfl

/-- R188: an optional cadence as one byte. -/
def cadenceByte (c : Option CadenceIx) : Byte :=
  match c with
  | some c => BitVec.ofNat 8 c.val
  | none => 255

theorem orOnes1_cadence (c : Option CadenceIx) : orOnes1 (indexNat c) = [cadenceByte c] := by
  cases c <;> rfl

/-- R132: the request set, one byte for each zone. -/
theorem Group.requestBytes (r : Group) :
    (r.requests.toList.flatMap fun c => orOnes1 (indexNat c)) = r.requests.toList.map cadenceByte := by
  simp only [orOnes1_cadence]
  exact List.map_eq_flatMap.symm

theorem State.groupSection_phase (g : GroupIx) :
    s.groupSection g 0 =
      some ([BitVec.ofNat 8 (s.group g).phase.code,
          (match (s.group g).winner with | some w => BitVec.ofNat 8 w.1.val | none => 255),
          cadenceByte ((s.group g).winner.map (·.2)), cadenceByte (s.group g).sounding] ++ remaining s.clock (s.group g).endAt
        ++ [BitVec.ofNat 8 ((s.group g).silencedRank.getD 255)]
        ++ [(s.group g).starts, (s.group g).silences, (s.group g).tests].flatMap count2) := by
  unfold State.groupSection
  dsimp only
  cases (s.group g).winner with
  | none => cases (s.group g).sounding <;> rfl
  | some w => cases (s.group g).sounding <;> rfl

/-! ## The configuration parts by table (R167) -/

/-- R187: the kind-specific word in its two bytes. -/
theorem PointCfg.wordBytes_eq (c : PointCfg) :
    orOnes2 c.word =
      match c.role with
      | some .primary => [0, 0]
      | some .check => [0, 1]
      | none => orOnes2 c.debounce := by
  unfold PointCfg.word
  cases c.role with
  | none => rfl
  | some r =>
    cases r with
    | primary => exact (rfl : be16 0 = [0, 0])
    | check => exact (rfl : be16 1 = [0, 1])

/-- Log 13: output `q` in bit `q` of two bytes, the first of them low. -/
theorem outputBytes_eq (q : BitVec 8) : outputBytes q = [BitVec.ofNat 8 (2 * q.toNat), BitVec.ofNat 8 (q.toNat / 128)] := by
  have hq := q.isLt
  have hlow : (q.setWidth 16 <<< 1).extractLsb' 0 8 = BitVec.ofNat 8 (2 * q.toNat) := by
    apply BitVec.eq_of_toNat_eq
    rw [BitVec.extractLsb'_toNat, BitVec.toNat_shiftLeft, BitVec.toNat_setWidth, BitVec.toNat_ofNat,
      Nat.shiftRight_eq_div_pow, Nat.shiftLeft_eq]
    omega
  have hhigh : (q.setWidth 16 <<< 1).extractLsb' 8 8 = BitVec.ofNat 8 (q.toNat / 128) := by
    apply BitVec.eq_of_toNat_eq
    rw [BitVec.extractLsb'_toNat, BitVec.toNat_shiftLeft, BitVec.toNat_setWidth, BitVec.toNat_ofNat,
      Nat.shiftRight_eq_div_pow, Nat.shiftLeft_eq]
    omega
  unfold outputBytes
  rw [← hlow, ← hhigh]

theorem State.configParts_point (i : PointIx) : s.configParts 1 i.val = [(s.point i).cfg.write] := by
  simp only [State.configParts, indexBelow_val i rfl]

theorem State.configParts_line (l : LineIx) : s.configParts 2 l.val = (s.line l).cfg.write := by
  simp only [State.configParts, indexBelow_val l rfl]

theorem State.configParts_zone (z : ZoneIx) : s.configParts 3 z.val = (s.zone z).cfg.write := by
  simp only [State.configParts, indexBelow_val z rfl]

theorem State.configParts_trip (k : TripIx) : s.configParts 4 k.val = (s.trip k).cfg.write := by
  simp only [State.configParts, indexBelow_val k rfl]

theorem State.configParts_door (d : DoorIx) : s.configParts 5 d.val = (s.door d).cfg.write := by
  simp only [State.configParts, indexBelow_val d rfl]

theorem State.configParts_group (g : GroupIx) : s.configParts 6 g.val = [(s.group g).cfg.write] := by
  simp only [State.configParts, indexBelow_val g rfl]

theorem State.configParts_cadence (k : CadenceIx) : s.configParts 7 k.val = [(s.cadence k).write] := by
  simp only [State.configParts, indexBelow_val k rfl]

end

/-- Settles O18: each part of a Read's Reply is the fields of the entry, in their order. -/
theorem readReplies : Obligations.ReadReplies := by
  refine ⟨fun s => ⟨fun rq hm ht hi hr => ?answers, ?sections⟩, fun s => ?parts, ⟨rfl, rfl, rfl, rfl, rfl⟩,
    fun l z i q n => ⟨rfl, rfl, rfl⟩, fun u => ?flags⟩
  case answers =>
    have hlength := s.configParts_length rq.table rq.ix ht hi
    refine ⟨fun hn h2 => ?one, fun hn h2 => ?two, fun hn => ?state⟩
    case one =>
      have hconfig := takeRead_config hm ht hi hr hn
      obtain ⟨d, hd⟩ := List.length_eq_one_iff.1 (hlength.trans (if_neg (Bool.eq_false_iff.1 h2)))
      rw [hd] at hconfig
      exact ⟨d, hd, fun hfree => congrArg Host.Outcome.next (hconfig.trans (if_neg (Nat.not_lt_of_le hfree))),
        fun hbusy => congrArg Host.Outcome.next (hconfig.trans (if_pos hbusy))⟩
    case two =>
      have hconfig := takeRead_config hm ht hi hr hn
      obtain ⟨a, b, hd⟩ := List.length_eq_two.1 (hlength.trans (if_pos h2))
      rw [hd] at hconfig
      exact ⟨a, b, hd, fun hfree => congrArg Host.Outcome.next (hconfig.trans (if_neg (Nat.not_lt_of_le hfree))),
        fun hbusy => congrArg Host.Outcome.next (hconfig.trans (if_pos hbusy))⟩
    case state =>
      have hstate := takeRead_state hm ht hi hr hn
      refine ⟨fun hbusy => congrArg Host.Outcome.next (hstate.trans (if_pos hbusy)), fun hfree hd => ?_,
        fun hfree n rest hd => ⟨fun d hs => ?_, fun hs => ?_⟩⟩
      · refine congrArg Host.Outcome.next (hstate.trans ((if_neg (Nat.not_lt_of_le hfree)).trans (if_pos ?_)))
        exact State.readEntry_unnamed hn hd rq.ix
      · have hentry := State.readEntry_section (s := s) hn hd rq.ix
        rw [hs] at hentry
        refine congrArg Host.Outcome.next (hstate.trans ((if_neg (Nat.not_lt_of_le hfree)).trans ?_))
        rw [hentry]
        exact if_neg (Option.some_ne_none _)
      · have hentry := State.readEntry_section (s := s) hn hd rq.ix
        rw [hs] at hentry
        exact congrArg Host.Outcome.next (hstate.trans ((if_neg (Nat.not_lt_of_le hfree)).trans (if_pos hentry)))
  case sections =>
    intro left counts
    refine ⟨rfl, fun d => rfl, ?packed, fun n k bs hk => ⟨bitmap_length n bs, bitmap_getLsbD bs hk⟩, ?device,
      fun i => ?point, fun l => ?line, fun z => ?zone, fun k => ?trip, fun d => ?door, fun g => ?group, fun k n => rfl,
      fun hmaps hfit table index n d => State.section?_length hmaps hfit,
      fun hrange hdistinct table index d => State.configParts_fit hrange hdistinct⟩
    case packed => decide
    case device =>
      refine ⟨rfl, rfl, State.deviceSection_counters, fun k hk => (State.deviceSection_strike hk).trans ?_,
        fun n hn => State.deviceSection_none hn⟩
      cases s.strikes[k]? <;> rfl
    case point =>
      refine ⟨fun n hn => ?_, fun hk n hn => ?_, fun hk => ?_⟩
      · rw [State.section?_point, State.pointSection_none hn]
      · rw [State.section?_point, State.pointSection_unused hk hn]
      intro d lapsed
      have hsection : ∀ n, n < 3 → s.section? 1 i.val n = _ := fun n hn =>
        (State.section?_point i n).trans (State.pointSection_used hk hn)
      refine ⟨(hsection 0 (by decide)).trans ?_, ?_, (hsection 2 (by decide)).trans rfl⟩
      · cases (s.point i).contact with
        | none => rfl
        | some b => cases b <;> rfl
      · refine ⟨_, _, _, (hsection 1 (by decide)).trans rfl, State.pollOutstanding_iff, fun r hr hon hoff => ?_,
          fun hr => ?_, fun hr => ?_, fun hr => ?_, fun hl => ?_, fun o hl hkind hchannel => ?_⟩
        · rw [hr]
          exact commandedBytes_payload _ hon hoff
        · rw [hr]
          exact rfl
        · rw [hr]
          exact rfl
        · rw [hr]
          exact if_congr (by rw [Bool.and_eq_true, beq_iff_eq]) rfl rfl
        · rw [State.reportedBytes_loop hl]
          cases (s.point i).drive.reported <;> rfl
        · exact State.reportedBytes_local hk hl hkind hchannel
    case line =>
      refine ⟨State.section?_line l 0, (State.section?_line l 1).trans (State.lineSection_speed l), State.section?_line l 2,
        ⟨Config.trackByteLeftOut, fun k hk => (State.section?_line l _).trans ((State.lineSection_track hk).trans ?track)⟩,
        fun k hk => (State.section?_line l _).trans ((State.lineSection_valve hk).trans ?valve), State.section?_line l 27,
        (State.section?_line l 28).trans (State.lineSection_members l), State.section?_line l 29,
        fun n hn => (State.section?_line l n).trans (State.lineSection_none hn)⟩
      case track =>
        cases (s.line l).tracks[k]? with
        | none => rfl
        | some t => exact congrArg some (t.bytes_eraseIdx _)
      case valve =>
        cases (s.membersOf l).valves[k]? with
        | none => rfl
        | some i => exact congrArg some (Valve.bytes_eq _ _)
    case zone =>
      exact ⟨State.section?_zone z 0, State.section?_zone z 1, fun n hn =>
        (State.section?_zone z n).trans ((if_neg (by omega)).trans (if_neg (by omega)))⟩
    case trip =>
      exact ⟨(State.section?_trip k 0).trans (State.tripSection_eq k), fun n hn =>
        (State.section?_trip k n).trans (if_neg (by omega))⟩
    case door =>
      exact ⟨State.section?_door d 0, fun n hn => (State.section?_door d n).trans (if_neg (by omega))⟩
    case group =>
      refine ⟨(State.section?_group g 0).trans (State.groupSection_phase g), (State.section?_group g 1).trans ?first,
        (State.section?_group g 2).trans ?second, fun n hn => (State.section?_group g n).trans ?beyond⟩
      case first => exact congrArg some ((congrArg (List.take 16) (s.group g).requestBytes).trans List.map_take.symm)
      case second => exact congrArg some ((congrArg (List.drop 16) (s.group g).requestBytes).trans List.map_drop.symm)
      case beyond => exact (if_neg (by omega)).trans ((if_neg (by omega)).trans (if_neg (by omega)))
  case parts =>
    intro byte one two flag points number level
    have hone : ∀ v, one v = orOnes1 v := fun v => (orOnes1_eq v).symm
    have htwo : ∀ v, two v = orOnes2 v := fun v => (orOnes2_eq v).symm
    have hlevel : ∀ v, level v = byte (levelCode v) := fun v => by cases v <;> rfl
    refine ⟨rfl, fun i => ⟨State.configParts_point i, fun hk => if_pos hk,
        fun hk => ⟨?pointFields, PointCfg.write_length hk⟩⟩,
      fun l => ⟨State.configParts_line l, ?lineFields⟩, fun z => ⟨State.configParts_zone z, ?zoneFields⟩,
      fun k => ⟨State.configParts_trip k, rfl⟩, fun d => ⟨State.configParts_door d, ?doorFields⟩,
      fun g => ⟨State.configParts_group g, ?groupFields⟩, fun k => ⟨State.configParts_cadence k, rfl⟩⟩
    case pointFields =>
      refine (if_neg hk).trans ?_
      simp only [hone, htwo]
      exact congrArg (_ ++ ·) (PointCfg.wordBytes_eq (s.point i).cfg)
    case lineFields =>
      unfold LineCfg.write
      cases (s.line l).cfg.timing <;> rfl
    case zoneFields =>
      simp only [hone, hlevel]
      exact rfl
    case doorFields =>
      simp only [hone, htwo]
      exact rfl
    case groupFields =>
      unfold GroupCfg.write
      simp only [hone, outputBytes_eq]
      exact rfl
  case flags =>
    obtain ⟨source, used, negated⟩ := u
    cases used <;> cases negated <;> rfl

end Sys2Proof.Machine
end
